-- ==== Sys2Proof/Word.lean ====
section
/-! DEFINITION. The word types of the MB6 and their plainest arithmetic (R1, R60, R89). -/
namespace Sys2Proof

/-- One byte of any memory. -/
abbrev Byte := BitVec 8

/-- A 32-bit word: an instruction word, a vector register of one thread. -/
abbrev W32 := BitVec 32

/-- A 64-bit word: a uniform register, a latch, a register pair. -/
abbrev W64 := BitVec 64

/-- A set of lanes of a group: bit LANE is set for each thread in it (R38). -/
abbrev Mask := BitVec 128

end Sys2Proof
end

