-- ==== Sys2Proof/Syntax.lean ====
section
/-! DEFINITION. The operations and events of the MB6, one constructor per row of spec/opcode_table.json. Instruction
rows carry their decoded operands (R64 to R71, R83); event rows carry what names the step (spec/95). -/
namespace Sys2Proof

/-- The operand type codes of TY (R89, R90); `bfp` is TY 12 (R83). -/
inductive Ty where
  | i32 | n32 | i64 | n64 | f32 | f64 | f16 | bf16 | i16 | n16 | i8 | n8 | bfp
  deriving DecidableEq, Repr

/-- A source of an instruction (R69). In a C field the payloads are one bit narrower. `b` names a latch, and inside a
slice a z register (R84). -/
inductive Src where
  | v (n : BitVec 8)
  | vx (x : BitVec 2) (base : BitVec 7)
  | s (n : BitVec 6)
  | x (n : BitVec 2)
  | h (n : BitVec 4)
  | b (n : BitVec 2)
  | lit0 | lit1 | lit64
  | imm (i : BitVec 6)
  deriving DecidableEq, Repr

/-- The literal words that follow the head (R60, R68). -/
inductive Lits where
  | none
  | one (w0 : W32)
  | two (w0 w1 : W32)
  deriving DecidableEq, Repr

/-- What every instruction carries: G, the guard GRD (R64) and the literal words. -/
structure Head where
  g : Bool
  neg : Bool
  idx : BitVec 3
  lits : Lits
  deriving DecidableEq, Repr

/-- The destination of a V result: NWB, LAT and D (R71, R85). -/
structure Res where
  nwb : Bool
  lat : BitVec 2
  d : BitVec 8
  deriving DecidableEq, Repr

/-- Orders of R67. -/
inductive Order where
  | rlx | acq | rel | ar | sc
  deriving DecidableEq, Repr

/-- Scopes of R67. -/
inductive Scope where
  | grp | team | pair | die | dev | sys
  deriving DecidableEq, Repr

/-- A predicate field of R213. -/
structure PredF where
  neg : Bool
  q : Bool
  idx : BitVec 3
  deriving DecidableEq, Repr

/-- Reading I of the 20-bit field F (R66): an integer, or a source. -/
inductive IOp where
  | imm (k : BitVec 19)
  | src (x : Src)
  deriving DecidableEq, Repr

/-- System registers of R191. -/
inductive SysReg where
  | lane | gidx | team | nteam | vcore | width | split | core | die | part
  | frm | fstat | dphase | sigacc | rgnpc | pwr | lease | mpcount
  | fva | mapst | pgwatch | tcause | epc | tmask | taux
  deriving DecidableEq, Repr

/-- Conditions of `cmp` (R223). -/
inductive Cond where
  | eq | ne | lt | le | gt | ge
  deriving DecidableEq, Repr

/-- Conditions of `fcmp` (R228). -/
inductive FCond where
  | eq | ne | lt | le | gt | ge | num | nan | equ | neu | ltu | leu | gtu | geu
  deriving DecidableEq, Repr

/-- Modes of `frnd` (R230). -/
inductive RndMode where
  | rne | rz | rd | ru | dyn
  deriving DecidableEq, Repr

/-- Modes of `lxch` (R236). -/
inductive XchMode where
  | idx | xor | up | down
  deriving DecidableEq, Repr

/-- Folds of `gred` and `gscan` (R238). -/
inductive FoldOp where
  | add | min | max | and | or | xor
  deriving DecidableEq, Repr

/-- Operations of `atm` and `red` (R159). -/
inductive AtmOp where
  | add | min | max | and | or | xor | exch
  deriving DecidableEq, Repr

/-- Counters that `cntrd` reads (R355). The index of `pf1` and `pfl` counts issued, useful, late, useless. -/
inductive Counter where
  | cycle | epart | eslot | allow | wheld
  | pf1 (k : BitVec 2) | pfl (k : BitVec 2)
  | fetch | fused | lgrant | lpass | mparm | mpwake
  | evt (c : BitVec 4)
  deriving DecidableEq, Repr

/-- A resident group: its team's name in the model and its GIDX. -/
structure GRef where
  team : Nat
  gidx : Nat
  deriving DecidableEq, Repr

/-- Where a team is placed (R46): one core, or a core pair. -/
inductive Place where
  | core (n : Nat)
  | pair (n : Nat)
  deriving DecidableEq, Repr

/-- A datapath that may start an instruction (R37): a lane group or a uniform datapath. -/
inductive Site where
  | lane (core quad lg : Nat)
  | uniform (core quad : Nat)
  deriving DecidableEq, Repr

/-- What ECC finds in a word or sector that is read (R119, R331). -/
inductive Ecc where
  | good | corrected | uncorrectable
  deriving DecidableEq, Repr

/-- A word without a poison bit that a fault has made uncorrectable or that ECC corrects (R330, R331). -/
inductive Upset where
  | none
  | reg (g : GRef) (reg lane : Nat) (e : Ecc)
  | latch (g : GRef) (latch lane : Nat) (e : Ecc)
  | local (team addr : Nat) (e : Ecc)
  | acc (team : Nat) (high : Bool) (addr : Nat) (e : Ecc)
  /-- R119: the stored data of an HBM sector, as ECC will find it at the next read. -/
  | hbm (sector : Nat) (e : Ecc)
  /-- R120: a sector of host memory that CXL reports poisoned. -/
  | hostPoison (sector : Nat)
  deriving DecidableEq, Repr

/-- What happens to a request of the host bridge queue (R175, R185): it arrives, it is performed, or its Cmp is returned. -/
inductive HostMove where
  | arrive | perform | finish
  deriving DecidableEq, Repr

/-- What the host reads: device memory (R185), a register of the launch port (R23) or of the mailbox (R59, R303, R311), an
event counter (R337), an energy counter (R355), the settings of a cluster's allowance (R357), and the controller's reports: the enabled clusters (R8), the free storage
(R136), the lifecycle state (R30), the black box and the controller's own log (R343, R352), the logged accesses (R22). -/
inductive HostAsk where
  | memory (m : HostMove) (pa n : Nat)
  | port (offset : Nat)
  | mailbox (offset : Nat)
  | events (part cls : Nat)
  | energy (part : Nat)
  | slotEnergy (part slot : Nat)
  | overhead
  | allowance (cluster : Nat)
  | clusters
  | storage
  | lifecycle
  | blackBox
  | controllerLog
  | strays
  deriving DecidableEq, Repr

/-- The settings of a cluster's allowance (R357): REFILL, AMAX and the three thresholds. -/
structure Allowance where
  refill : Nat := 8
  amax : Nat := 4096
  t1 : Nat := 1
  t2 : Nat := 16
  t3 : Nat := 64
  deriving DecidableEq, Repr

/-- A link of the module (R11, R27, R341). -/
inductive Link where
  | boundary (die junction : Nat)
  | peer (port : Nat)
  | cxl
  deriving DecidableEq, Repr

/-- Where a control parity error is found (R342). -/
inductive ParitySite where
  | directory (junction set way : Nat)
  | core (g : GRef)
  deriving DecidableEq, Repr

/-- The operations and events of the MB6, one per row of the opcode table, in the table's order. -/
inductive Instr where
  -- class 0 and fillers
  | filler
  | nop (h : Head)
  | bra (h : Head) (f : BitVec 20)
  | jmp (h : Head) (a b : Src)
  | call (h : Head) (d : BitVec 8) (f : BitVec 20)
  | ret (h : Head) (a : Src)
  | exit (h : Head)
  | rejoin (h : Head) (a b : Src)
  | trap (h : Head) (n : BitVec 20)
  | sysc (h : Head) (n : BitVec 20)
  | bkpt (h : Head) (n : BitVec 20)
  | eret (h : Head)
  | eretExit (h : Head)
  | sigchk (h : Head) (sig : BitVec 16)
  | rgn (h : Head)
  | srd (h : Head) (ty : Ty) (r : Res) (n : SysReg)
  | swr (h : Head) (ty : Ty) (a : Src) (n : SysReg)
  | swrPgwatch (h : Head) (ty : Ty) (a : Src)
  | swrRgnpc (h : Head) (ty : Ty) (a : Src)
  | tevict (h : Head) (a : Src)
  -- class 1
  | add (h : Head) (ty : Ty) (r : Res) (a b : Src)
  | sub (h : Head) (ty : Ty) (r : Res) (a b : Src)
  | mul (h : Head) (ty : Ty) (r : Res) (a b : Src)
  | mulh (h : Head) (ty : Ty) (r : Res) (a b : Src)
  | mad (h : Head) (ty : Ty) (r : Res) (a b c : Src)
  | madw (h : Head) (ty : Ty) (r : Res) (a b c : Src)
  | div (h : Head) (ty : Ty) (r : Res) (a b : Src)
  | rem (h : Head) (ty : Ty) (r : Res) (a b : Src)
  | abs (h : Head) (ty : Ty) (r : Res) (a : Src)
  | neg (h : Head) (ty : Ty) (r : Res) (a : Src)
  | min (h : Head) (ty : Ty) (r : Res) (a b : Src)
  | max (h : Head) (ty : Ty) (r : Res) (a b : Src)
  | clamp (h : Head) (ty : Ty) (r : Res) (a b c : Src)
  | lea (h : Head) (ty : Ty) (r : Res) (a b c : Src)
  | addc (h : Head) (ty : Ty) (r : Res) (a b c : Src)
  | subb (h : Head) (ty : Ty) (r : Res) (a b c : Src)
  -- class 2
  | and (h : Head) (ty : Ty) (r : Res) (a b : Src)
  | or (h : Head) (ty : Ty) (r : Res) (a b : Src)
  | xor (h : Head) (ty : Ty) (r : Res) (a b : Src)
  | andn (h : Head) (ty : Ty) (r : Res) (a b : Src)
  | not (h : Head) (ty : Ty) (r : Res) (a : Src)
  | shl (h : Head) (ty : Ty) (r : Res) (a : Src) (n : IOp)
  | shr (h : Head) (ty : Ty) (r : Res) (a : Src) (n : IOp)
  | sar (h : Head) (ty : Ty) (r : Res) (a : Src) (n : IOp)
  | rot (h : Head) (ty : Ty) (r : Res) (a : Src) (n : IOp)
  | bfx (h : Head) (ty : Ty) (r : Res) (a b : Src)
  | bfi (h : Head) (ty : Ty) (r : Res) (a b c : Src)
  | popc (h : Head) (ty : Ty) (r : Res) (a : Src)
  | clz (h : Head) (ty : Ty) (r : Res) (a : Src)
  | ctz (h : Head) (ty : Ty) (r : Res) (a : Src)
  | brev (h : Head) (ty : Ty) (r : Res) (a : Src)
  | perm (h : Head) (r : Res) (a b c : Src)
  | sel (h : Head) (ty : Ty) (r : Res) (a b : Src) (pf : PredF)
  | mov (h : Head) (ty : Ty) (r : Res) (a : Src)
  | movx (h : Head) (ty : Ty) (r : Res) (a : Src) (x : BitVec 2)
  | cmp (h : Head) (ty : Ty) (d : BitVec 3) (cond : Cond) (a b : Src)
  | plop (h : Head) (d : BitVec 3) (pa pb pc : PredF) (table : BitVec 8)
  | setx (h : Head) (d : BitVec 2) (a : Src) (k : IOp)
  -- class 3
  | fadd (h : Head) (ty : Ty) (r : Res) (a b : Src)
  | fsub (h : Head) (ty : Ty) (r : Res) (a b : Src)
  | fmul (h : Head) (ty : Ty) (r : Res) (a b : Src)
  | fma (h : Head) (ty : Ty) (r : Res) (a b c : Src)
  | fmaImmediate (h : Head) (ty : Ty) (r : Res) (a : Src) (f : BitVec 20)
  | fmaConstant (h : Head) (ty : Ty) (r : Res) (a : Src) (f : BitVec 20)
  | fmin (h : Head) (ty : Ty) (r : Res) (a b : Src)
  | fmax (h : Head) (ty : Ty) (r : Res) (a b : Src)
  | fabs (h : Head) (ty : Ty) (r : Res) (a : Src)
  | fneg (h : Head) (ty : Ty) (r : Res) (a : Src)
  | fcmp (h : Head) (ty : Ty) (d : BitVec 3) (cond : FCond) (a b : Src)
  | fclass (h : Head) (ty : Ty) (d : BitVec 3) (a b : Src)
  | frnd (h : Head) (ty : Ty) (r : Res) (a : Src) (mode : RndMode)
  | fdiv (h : Head) (ty : Ty) (r : Res) (a b : Src)
  | fsqrt (h : Head) (ty : Ty) (r : Res) (a : Src)
  -- class 4
  | cvt (h : Head) (ty : Ty) (r : Res) (a : Src) (from_ : Ty)
  | cvts (h : Head) (ty : Ty) (r : Res) (a : Src) (from_ : Ty)
  | frcp (h : Head) (ty : Ty) (r : Res) (a : Src)
  | frsq (h : Head) (ty : Ty) (r : Res) (a : Src)
  | fex2 (h : Head) (ty : Ty) (r : Res) (a : Src)
  | flg2 (h : Head) (ty : Ty) (r : Res) (a : Src)
  | fsin (h : Head) (ty : Ty) (r : Res) (a : Src)
  | fcos (h : Head) (ty : Ty) (r : Res) (a : Src)
  | ftanh (h : Head) (ty : Ty) (r : Res) (a : Src)
  -- class 5
  | lxch (h : Head) (ty : Ty) (r : Res) (a b : Src) (mode : XchMode)
  | voteAll (h : Head) (d : BitVec 3) (pf : PredF)
  | voteAny (h : Head) (d : BitVec 3) (pf : PredF)
  | voteBallot (h : Head) (r : Res) (pf : PredF) (j : BitVec 2)
  | gred (h : Head) (ty : Ty) (r : Res) (a : Src) (op : FoldOp)
  | gscan (h : Head) (ty : Ty) (r : Res) (a : Src) (op : FoldOp)
  | rngk (h : Head) (r : Res) (a b : Src)
  | elect (h : Head) (d : BitVec 3)
  -- classes 6 and 7
  | ldg (h : Head) (ty : Ty) (r : Res) (o : Order) (sc : Scope) (rc : Bool) (hint : BitVec 3) (a b : Src)
  | stg (h : Head) (ty : Ty) (d : BitVec 8) (o : Order) (sc : Scope) (hint : BitVec 3) (a b : Src)
  | pfg (h : Head) (hint : BitVec 3) (a b : Src)
  | ldl (h : Head) (ty : Ty) (r : Res) (o : Order) (sc : Scope) (a b : Src)
  | stl (h : Head) (ty : Ty) (d : BitVec 8) (o : Order) (sc : Scope) (a b : Src)
  | ldk (h : Head) (ty : Ty) (r : Res) (win : BitVec 3) (b : Src)
  | lda (h : Head) (ty : Ty) (r : Res) (a b : Src)
  | sta (h : Head) (ty : Ty) (d : BitVec 8) (a b : Src)
  -- class 8; `sp` is the hint code 101, a scratchpad address
  | atm (h : Head) (ty : Ty) (r : Res) (o : Order) (sc : Scope) (sp : Bool) (a b : Src) (op : AtmOp) (data : Src)
  | cas (h : Head) (ty : Ty) (r : Res) (o : Order) (sc : Scope) (sp : Bool) (a b : Src) (data cmp : Src) (fail : Order)
  | red (h : Head) (ty : Ty) (o : Order) (sc : Scope) (sp : Bool) (a b : Src) (op : AtmOp) (data : Src)
  | ored (h : Head) (ty : Ty) (o : Order) (sc : Scope) (sp : Bool) (a b : Src) (data index : Src)
  | fence (h : Head) (o : Order) (sc : Scope)
  | arrive (h : Head) (o : Order) (sc : Scope) (a b : Src)
  | waitb (h : Head) (d : BitVec 8) (o : Order) (sc : Scope) (a b : Src)
  | arw (h : Head) (o : Order) (sc : Scope) (a b : Src)
  -- class 9
  | pgmap (h : Head) (a b c : Src)
  | pgunmap (h : Head) (a b : Src)
  | tlbinv (h : Head) (d : BitVec 8) (a b : Src)
  | tlbinvSync (h : Head) (d : BitVec 8) (a b : Src)
  | clean (h : Head) (d : BitVec 8) (a b : Src)
  | invl (h : Head) (d : BitVec 8) (a b : Src)
  | scwin (h : Head) (a b : Src) (win mode : BitVec 2)
  -- class 10
  | cpy (h : Head) (d : BitVec 4) (a b c : Src)
  | rstr (h : Head) (d : BitVec 4) (a b : Src) (c : BitVec 10)
  | fwait (h : Head) (hn : BitVec 4)
  | ftest (h : Head) (d : BitVec 3) (hn : BitVec 4)
  | fcancel (h : Head) (hn : BitVec 4)
  | yld (h : Head) (hn : BitVec 4) (f : BitVec 20)
  | tsub (h : Head) (d : BitVec 4) (a : Src)
  | emit (h : Head) (a b : Src)
  | emitFlush (h : Head) (a : Src)
  | lnch (h : Head) (d : BitVec 4) (a : Src) (prio : BitVec 2)
  -- class 11; `m` is the mantissa width of TY 12, otherwise 0
  | mma (h : Head) (ty : Ty) (d : BitVec 4) (a b : Src) (m : BitVec 4)
  | mxfnc (h : Head) (ty : Ty) (d : BitVec 4) (a b : Src) (m : BitVec 4)
  | scacc (h : Head) (d : BitVec 4) (a b : Src) (m : BitVec 4)
  | bqnt (h : Head) (d : BitVec 4) (a b : Src) (m : BitVec 4)
  | bunp (h : Head) (d : BitVec 4) (a b : Src) (m : BitVec 4)
  | accz (h : Head) (ty : Ty) (a b : Src) (m : BitVec 4)
  -- class 12
  | unite (h : Head) (r : Res) (a b c : Src)
  | find (h : Head) (r : Res) (a b : Src)
  | csize (h : Head) (r : Res) (a b : Src)
  | fcount (h : Head) (r : Res) (a : Src) (sel : BitVec 2)
  | relabel (h : Head) (ty : Ty) (d : BitVec 4) (a b : Src)
  | fsnap (h : Head) (a : Src)
  | fundo (h : Head) (a : Src)
  | freset (h : Head) (a : Src)
  -- class 13
  | rcp (h : Head) (d : BitVec 8) (k : BitVec 8)
  | rcpdrop (h : Head) (d : BitVec 8)
  | rcpmat (h : Head) (d : BitVec 8)
  | rcpdem (h : Head) (d : BitVec 8)
  -- class 14
  | cntrd (h : Head) (r : Res) (n : Counter)
  | cntsn (h : Head) (d : BitVec 4) (a : Src) (sel : Bool)
  | pwrset (h : Head) (c : BitVec 2)
  -- the device's own steps
  | issue (site : Site) (upset : Upset)
  | withholdStarvation (cluster : Nat) (g : GRef)
  | performLoad (g : GRef) (op lane : Nat) (ecc : Ecc)
  | commit (g : GRef) (op lane : Nat)
  | apply (die k : Nat)
  | atomic (g : GRef) (op lane : Nat)
  | complete (g : GRef) (op : Nat)
  | engine (cmd : Nat)
  | atomicReply (g : GRef) (op lane : Nat)
  | requestResend (g : GRef) (op lane : Nat)
  | oredArrive (g : GRef) (op lane : Nat)
  | oredHeldApply (k : Nat)
  | oredRetry (g : GRef) (op : Nat)
  | forestStep (g : GRef) (op lane : Nat)
  | splitMerge (g : GRef) (a b : Nat)
  | splitOverflow (g : GRef)
  | rjdl (g : GRef)
  | rollback (g : GRef)
  | demotion (g : GRef) (reg : Nat)
  | fetchFill (core line : Nat)
  | windowFill (team win blk : Nat)
  | handleComplete (cmd : Nat)
  | copyStart (core : Nat)
  | tileRecordStart (pair engine : Nat)
  | tileRecordComplete (pair cmd : Nat)
  | rstrBlockMove (cmd : Nat)
  | relabelRun (cmd : Nat)
  | launchCommand (part slot prio : Nat) (single : Bool) (words : List W64)
  | ptrootWrite (part slot : Nat) (value : W64)
  | quantumWrite (part : Nat) (value : W32)
  | timeSliceTick (part : Nat)
  | contextRecordWrite (part slot offset : Nat) (value : W64)
  | severityWrite (cls : Nat) (value : W32)
  | registerWrite (bar offset : Nat) (value : W64)
  | launchDequeue (part : Nat)
  | teamSelect (part launch vcore : Nat)
  | teamAdmit (part entry : Nat) (place : Place)
  | teamEvict (team : Nat)
  | teamResume (part entry : Nat) (place : Place)
  | segmentRecoveryEvict (g : GRef) (reg : Nat)
  | teamEnd (team : Nat)
  | launchComplete (launch : Nat)
  | orderLogDrain (die : Nat)
  | powerModeChange (core quad lg : Nat)
  | refillUpdate (refill : Nat) (settings : List (Nat × Allowance))
  | energySeal
  | signReading
  | hostRead (q : HostAsk)
  | hostWrite (m : HostMove) (pa : Nat) (bytes : List Byte)
  | cxlCacheSnoop (m : HostMove) (pa : Nat) (invalidate : Bool)
  | peerInbound (port pa : Nat) (bytes : List Byte)
  | dirRequest (core pa : Nat) (write : Bool)
  | dirOverflow (junction set : Nat)
  | prefetch (core : Option Nat) (at_ : Nat) (part : Nat)
  | skimmerWriteback (sector : Nat) (ue : Bool)
  | patrolScrub (sector : Nat) (ecc : Ecc)
  | blackBoxRelease
  | linkReplay (l : Link)
  | linkDown (l : Link)
  | junctionFail (j : Nat)
  | ctrlParity (site : ParitySite)
  | thermal (die : Nat)
  | power (die : Option Nat)
  | criticalTemperature (die : Nat)
  | moduleReset
  | powerLoss
  | partitionConfigure (part : Nat) (clusters : BitVec 64) (ranges : List (Nat × Nat)) (shares : List Nat)
  | peerWiring (port target : Nat) (boundPart : Option Nat)
  | measurementExtend (i : Nat) (image : List Byte)
  | attestationQuote (nonce : BitVec 256)
  | lifecycleAdvance
  | powerOn
  | coreCycle
  deriving DecidableEq, Repr, Inhabited

end Sys2Proof
end

