-- ==== Sys2Proof/Config.lean ====
section
/-! DEFINITION. What an implementation fixes and the values the spec leaves open. Every constant here has no body:
no proof can learn a value of it, so a claim that mentions one holds whatever it is. -/
namespace Sys2Proof.Config

/-- An undefined value of R3 (64 bits, cut to the width that is read). The argument is a number that the model
draws once for each undefined value. Log entry 3. -/
opaque undef : Nat → BitVec 64

/-- A choice the spec leaves to the device (R49, R55, R179, R202, R271, R272): a number that the chooser takes modulo
its number of candidates. Log entry 4. -/
opaque choice : Nat → Nat

/-- The event that the machine takes when nothing of its own is due: the environment, the porter and the ordering
machine's free choice of its next move (R174, R179). An event that is not enabled changes nothing. Log entry 6. -/
opaque nextEvent : Nat → Instr

/-- SM3, the digest of R28, R29 and R364: an external standard that the spec names and does not define. Log entry 5. -/
opaque sm3 : List Byte → BitVec 256

/-- The SM2 signature (r then s) of R29 and R364 under the device identity key. Log entry 5. -/
opaque sm2Sign : BitVec 256 → BitVec 512

/-- The same under the test key of lifecycle MANUFACTURE (R30). Log entry 5. -/
opaque sm2TestSign : BitVec 256 → BitVec 512

/-- The certificate chain of the identity key, and of the test key (R29, R30). Log entry 5. -/
opaque identityChain : List (BitVec 8)
opaque testChain : List (BitVec 8)

/-- The digest e of a signed reading: SM3 over ZA and the body (R364). Log entry 5. -/
opaque readingDigest : List Byte → BitVec 256

/-- The 16-byte module identity (R29). -/
opaque moduleId : BitVec 128

/-- The energy that one core cycle of the module spends, in µJ, by charge number (R360, R361). Log entry 40. -/
opaque energy : Nat → Nat

/-- The result of a special function whose enclosure at the working precision does not decide the rounding; no
such operand is known for the formats of R234. Log entry 12. -/
opaque undecided : Nat → BitVec 32 → BitVec 64

end Sys2Proof.Config
end

