-- ==== Sys2Proof/WellFormed.lean ====
section
/-! DEFINITION. Which instructions the encoding of R64 to R71 and R83 to R85 can express: the legal types, G values,
destinations, sources and lengths of every form, as one decidable check `Instr.wf`. Event rows carry no encoding and
are well formed as they stand. -/
namespace Sys2Proof

/-- A 64-bit operand type (R89, R90). -/
def Ty.is64 : Ty → Bool
  | .i64 | .n64 | .f64 => true
  | _ => false

/-- The type groups of R83. -/
def Ty.isAll : Ty → Bool
  | .bfp => false
  | _ => true
def Ty.isInt : Ty → Bool
  | .f32 | .f64 | .f16 | .bf16 | .bfp => false
  | _ => true
def Ty.isW : Ty → Bool
  | .i32 | .n32 | .i64 | .n64 => true
  | _ => false
def Ty.isFlt : Ty → Bool
  | .f32 | .f64 | .f16 | .bf16 => true
  | _ => false
/-- TY 0 to 5. -/
def Ty.is0to5 (t : Ty) : Bool := t.isW || t == .f32 || t == .f64

/-- How a form reads a source: a 32-bit or 64-bit operand, an address term (R67), or a uniform operand (R245, R318). -/
inductive Use where
  | w32 | w64 | addr | uni32 | uni64
  deriving DecidableEq, Repr

/-- The operand width that a type gives (R212). -/
def Ty.use (t : Ty) : Use := if t.is64 then .w64 else .w32

def Use.isUni : Use → Bool
  | .uni32 | .uni64 => true
  | _ => false
def Use.is32 : Use → Bool
  | .w32 | .uni32 => true
  | _ => false

/-- R70: which source kinds an operand admits, by G and width. -/
def Src.kindOk (g : Bool) (u : Use) : Src → Bool
  | .v n => !g && !u.isUni && (u != .w64 || n.getLsbD 0 == false)
  | .vx _ _ => !g && !u.isUni
  | .x _ | .b _ => !g && !u.isUni
  | .h _ => !u.isUni
  | .lit64 => !u.is32
  | .s _ | .lit0 | .lit1 | .imm _ => true

/-- R69: which sources the narrower C field can name. -/
def Src.fitsC : Src → Bool
  | .vx _ base => base.toNat < 64
  | .s n => n.toNat < 32
  | .imm i => i.toInt ≥ -16 && i.toInt < 16
  | _ => true

def Src.isLit : Src → Bool
  | .lit0 | .lit1 | .lit64 => true
  | _ => false

/-- R68: the literal words present are the ones that the sources select; `spare` says that literal word 0 may stand
unselected, as the displacement of the memory layout (R67). -/
def Lits.ok (l : Lits) (srcs : List Src) (spare : Bool) : Bool :=
  match l with
  | .none => srcs.all (fun x => !x.isLit)
  | .one _ => srcs.all (fun x => x != .lit1 && x != .lit64) && (srcs.contains .lit0 || spare)
  | .two _ _ => (srcs.contains .lit0 && srcs.contains .lit1) || srcs.contains .lit64

/-- R85: a V result. -/
def Res.ok (g wide : Bool) (r : Res) : Bool :=
  if g then !r.nwb && r.lat == 0 && r.d.toNat < 64
  else if r.nwb then r.d == 0
  else !wide || r.d.getLsbD 0 == false

/-- The data register of a store (R71, R73). -/
@[simp] def dataOk (g wide : Bool) (d : BitVec 8) : Bool :=
  if g then d.toNat < 64 else !wide || d.getLsbD 0 == false

def Head.bare (h : Head) : Bool := h.lits == .none

/-- Operands in A, B, then C. -/
def abOk (h : Head) (ops : List (Src × Use)) (spare : Bool := false) : Bool :=
  ops.all (fun p => p.1.kindOk h.g p.2) && h.lits.ok (ops.map (·.1)) spare

/-- The three-source check: the last operand lies in C. -/
def abcOk (h : Head) (ops : List (Src × Use)) (c : Src) (u : Use) : Bool :=
  abOk h (ops ++ [(c, u)]) && c.fitsC

/-- Reading I of R66: the shift amount or addend is a 32-bit operand. -/
def IOp.srcs : IOp → List (Src × Use)
  | .imm _ => []
  | .src x => [(x, .w32)]

def PredF.ok (g : Bool) (p : PredF) : Bool := p.q || !g

/-- The order lists of R151. -/
def Order.okLoad (o : Order) : Bool := o == .rlx || o == .acq || o == .sc
def Order.okStore (o : Order) : Bool := o == .rlx || o == .rel || o == .sc
def Order.okRed (o : Order) : Bool := o == .rlx || o == .rel

/-- R191, R192: registers whose value is each thread's own. -/
def SysReg.perThread : SysReg → Bool
  | .lane | .fva | .mapst | .pgwatch | .tmask => true
  | _ => false
/-- R191: registers `swr` may write that have no behaviour of their own. -/
def SysReg.plainWrite : SysReg → Bool
  | .frm | .fstat | .dphase | .sigacc | .tcause | .epc | .taux => true
  | _ => false

/-- R83: TY 12 carries a mantissa width of 2 to 8; no other type carries one. -/
def mOk (ty : Ty) (m : BitVec 4) : Bool :=
  if ty == .bfp then m.toNat ≥ 2 && m.toNat ≤ 8 else m == 0

def Counter.ok : Counter → Bool
  | .evt c => c.toNat < 13
  | _ => true

/-- R159, R238: float types admit no bitwise operation. -/
def FoldOp.ok (ty : Ty) : FoldOp → Bool
  | .and | .or | .xor => ty.isW
  | _ => true
def AtmOp.ok (ty : Ty) : AtmOp → Bool
  | .and | .or | .xor => ty.isW
  | _ => true

/-- The atomic layout's four sources select no literal (R67). -/
def atomOk (h : Head) (ops : List (Src × Use)) : Bool :=
  ops.all (fun p => p.1.kindOk h.g p.2 && !p.1.isLit) && h.lits == .none

/-- The forms of class 1 and 2 with sources of the type's width. -/
def intOk (legal : Bool) (h : Head) (ty : Ty) (r : Res) (ops : List Src) : Bool :=
  legal && r.ok h.g ty.is64 && abOk h (ops.map (·, ty.use))

/-- As `intOk` with a third source in C. -/
def int3Ok (legal : Bool) (h : Head) (ty : Ty) (r : Res) (a b c : Src) : Bool :=
  legal && r.ok h.g ty.is64 && abcOk h [(a, ty.use), (b, ty.use)] c ty.use

/-- The check: what the tables of R83 to R85 and the forms' own descriptions admit. -/
def Instr.wf : Instr → Bool
  | .nop h | .exit h | .rgn h => h.bare
  | .bra h _ => h.bare
  | .jmp h a b => abOk h [(a, .w64), (b, .w32)]
  | .call h d _ => h.bare && dataOk h.g true d
  | .ret h a => h.bare && abOk h [(a, .w64)]
  | .rejoin h a b => !h.g && abOk h [(a, .uni64), (b, .uni64)]
  | .trap h _ | .sysc h _ | .bkpt h _ => h.bare
  | .eret h | .eretExit h => h.bare
  | .sigchk h _ => h.bare
  | .srd h ty r n => h.bare && (ty == .i32 || ty == .i64) && r.ok h.g ty.is64 && n != .pgwatch && !(h.g && n.perThread)
  | .swr h ty a n => (ty == .i32 || ty == .i64) && n.plainWrite && abOk h [(a, ty.use)]
  | .swrPgwatch h ty a => (ty == .i32 || ty == .i64) && !h.g && abOk h [(a, ty.use)]
  | .swrRgnpc h ty a => (ty == .i32 || ty == .i64) && abOk h [(a, ty.use)]
  | .tevict h a => h.g && abOk h [(a, .w64)]
  | .add h ty r a b | .sub h ty r a b | .mul h ty r a b | .min h ty r a b | .max h ty r a b =>
      intOk ty.isInt h ty r [a, b]
  | .mulh h ty r a b | .div h ty r a b | .rem h ty r a b => intOk ty.isW h ty r [a, b]
  | .mad h ty r a b c | .clamp h ty r a b c => int3Ok ty.isInt h ty r a b c
  | .addc h ty r a b c | .subb h ty r a b c => int3Ok ty.isW h ty r a b c
  | .madw h ty r a b c => (ty == .i32 || ty == .n32) && r.ok h.g true && abcOk h [(a, .w32), (b, .w32)] c .w64
  | .lea h ty r a b c => (ty == .i64 || ty == .n64) && r.ok h.g true && abcOk h [(a, .w64), (b, .w32)] c .w32
  | .abs h ty r a | .neg h ty r a => intOk ty.isInt h ty r [a]
  | .and h ty r a b | .or h ty r a b | .xor h ty r a b | .andn h ty r a b | .bfx h ty r a b => intOk ty.isW h ty r [a, b]
  | .not h ty r a | .popc h ty r a | .clz h ty r a | .ctz h ty r a | .brev h ty r a => intOk ty.isW h ty r [a]
  | .shl h ty r a n | .shr h ty r a n | .sar h ty r a n | .rot h ty r a n =>
      ty.isW && r.ok h.g ty.is64 && abOk h ((a, ty.use) :: n.srcs)
  | .bfi h ty r a b c => int3Ok ty.isW h ty r a b c
  | .perm h r a b c => r.ok h.g false && abcOk h [(a, .w32), (b, .w32)] c .w32
  | .sel h ty r a b pf => intOk ty.isAll h ty r [a, b] && pf.ok h.g
  | .mov h ty r a => intOk ty.isAll h ty r [a]
  | .movx h ty r a _ => (ty == .i32 || ty == .i64) && !h.g && abOk h [(a, ty.use)] && (!r.nwb || r.d == 0)
  | .cmp h ty _ _ a b => ty.isAll && abOk h [(a, ty.use), (b, ty.use)]
  | .plop h _ pa pb pc _ => h.bare && pa.ok h.g && pb.ok h.g && pc.ok h.g
  | .setx h _ a k => !h.g && abOk h ((a, .w32) :: k.srcs)
  | .fadd h ty r a b | .fsub h ty r a b | .fmul h ty r a b | .fmin h ty r a b | .fmax h ty r a b =>
      intOk ty.isFlt h ty r [a, b]
  | .fma h ty r a b c => int3Ok ty.isFlt h ty r a b c
  | .fmaImmediate h ty r a _ | .fmaConstant h ty r a _ => intOk ty.isFlt h ty r [a]
  | .fabs h ty r a | .fneg h ty r a | .frnd h ty r a _ => intOk ty.isFlt h ty r [a]
  | .fcmp h ty _ _ a b => ty.isFlt && abOk h [(a, ty.use), (b, ty.use)]
  | .fclass h ty _ a b => ty.isFlt && abOk h [(a, ty.use), (b, .w32)]
  | .fdiv h ty r a b => intOk (ty == .f32 || ty == .f64) h ty r [a, b]
  | .fsqrt h ty r a | .frcp h ty r a | .frsq h ty r a => intOk (ty == .f32 || ty == .f64) h ty r [a]
  | .cvt h ty r a fr => ty.isAll && fr.isAll && r.ok h.g ty.is64 && abOk h [(a, fr.use)]
  | .cvts h ty r a fr =>
      (ty == .f16 || ty == .bf16 || (ty.isInt && !ty.isW)) && (fr == .f32 || fr == .f64) && r.ok h.g false
        && abOk h [(a, fr.use)]
  | .fex2 h ty r a | .flg2 h ty r a | .fsin h ty r a | .fcos h ty r a | .ftanh h ty r a =>
      intOk (ty == .f32 || ty == .f16 || ty == .bf16) h ty r [a]
  | .lxch h ty r a b _ => (ty == .i32 || ty == .i64) && !h.g && r.ok false ty.is64 && abOk h [(a, ty.use), (b, .w32)]
  | .voteAll h _ _ | .voteAny h _ _ | .elect h _ => h.bare && !h.g
  | .voteBallot h r _ _ => h.bare && !h.g && r.ok false false
  | .gred h ty r a op | .gscan h ty r a op => ty.is0to5 && op.ok ty && !h.g && r.ok false ty.is64 && abOk h [(a, ty.use)]
  | .rngk h r a b => !h.g && r.ok false false && abOk h [(a, .w32), (b, .w32)]
  | .ldg h ty r o _ rc hint a b =>
      ty.isAll && r.ok h.g ty.is64 && o.okLoad && (!rc || (o == .rlx && !h.g)) && hint.toNat < 5
        && abOk h [(a, .addr), (b, .addr)] true
  | .stg h ty d o _ hint a b =>
      ty.isAll && dataOk h.g ty.is64 d && o.okStore && hint.toNat < 5 && abOk h [(a, .addr), (b, .addr)] true
  | .pfg h hint a b => hint.toNat < 5 && abOk h [(a, .addr), (b, .addr)] true
  | .ldl h ty r o _ a b => ty.isAll && r.ok h.g ty.is64 && o.okLoad && abOk h [(a, .addr), (b, .addr)] true
  | .stl h ty d o _ a b => ty.isAll && dataOk h.g ty.is64 d && o.okStore && abOk h [(a, .addr), (b, .addr)] true
  | .ldk h ty r _ b => ty.is0to5 && r.ok h.g ty.is64 && abOk h [(b, .addr)] true
  | .lda h ty r a b =>
      (ty == .i32 || ty == .f32 || ty == .f64) && !h.g && r.ok false ty.is64 && abOk h [(a, .addr), (b, .addr)] true
  | .sta h ty d a b =>
      (ty == .i32 || ty == .f32 || ty == .f64) && !h.g && dataOk false ty.is64 d && abOk h [(a, .addr), (b, .addr)] true
  | .atm h ty r _ _ _ a b op data =>
      ty.is0to5 && op.ok ty && r.ok h.g ty.is64 && atomOk h [(a, .addr), (b, .addr), (data, ty.use)]
  | .cas h ty r _ _ _ a b data cm fl =>
      ty.isW && fl.okLoad && r.ok h.g ty.is64 && atomOk h [(a, .addr), (b, .addr), (data, ty.use), (cm, ty.use)]
  | .red h ty o _ _ a b op data =>
      ty.is0to5 && op.ok ty && o.okRed && atomOk h [(a, .addr), (b, .addr), (data, ty.use)]
  | .ored h ty o _ _ a b data index =>
      ty.is0to5 && o.okRed && atomOk h [(a, .addr), (b, .addr), (data, ty.use), (index, .w32)]
  | .fence h o _ => h.bare && o != .rlx
  | .arrive h o _ a b => o.okRed && abOk h [(a, .addr), (b, .addr)] true
  | .waitb h d o _ a b => (o == .rlx || o == .acq) && dataOk h.g false d && abOk h [(a, .addr), (b, .addr)] true
  | .arw h o _ a b => o != .sc && abOk h [(a, .addr), (b, .addr)] true
  | .pgmap h a b c => abcOk h [(a, .w64), (b, .w64)] c .w32
  | .pgunmap h a b => abOk h [(a, .w64), (b, .w64)]
  | .tlbinv h d a b | .tlbinvSync h d a b | .clean h d a b | .invl h d a b =>
      dataOk h.g false d && abOk h [(a, .addr), (b, .addr)] true
  | .scwin h a b _ mode => mode != 3 && abOk h [(a, .w64), (b, .w64)]
  | .cpy h _ a b c => abcOk h [(a, .w64), (b, .w64)] c .w32
  | .rstr h _ a b _ => abOk h [(a, .w64), (b, .w64)]
  | .fwait h _ | .ftest h _ _ | .fcancel h _ | .yld h _ _ => h.bare
  | .tsub h _ a => abOk h [(a, .w64)]
  | .emit h a b => abOk h [(a, .w64), (b, .w64)]
  | .emitFlush h a => abOk h [(a, .w64)]
  | .lnch h _ a _ => abOk h [(a, .w64)]
  | .mma h ty _ a b m | .mxfnc h ty _ a b m => (ty.isFlt || ty == .bfp) && mOk ty m && abOk h [(a, .w64), (b, .w64)]
  | .scacc h _ a b m | .bqnt h _ a b m | .bunp h _ a b m => mOk .bfp m && abOk h [(a, .w64), (b, .w64)]
  | .accz h ty a b m =>
      (ty == .i32 || ty == .f32 || ty == .f64 || ty == .bfp) && mOk ty m && abOk h [(a, .w64), (b, .w64)]
  | .unite h r a b c => r.ok h.g false && abcOk h [(a, .uni32), (b, .w32)] c .w32
  | .find h r a b | .csize h r a b => r.ok h.g false && abOk h [(a, .uni32), (b, .w32)]
  | .fcount h r a _ => r.ok h.g false && abOk h [(a, .uni32)]
  | .relabel h ty _ a b => (ty == .f32 || ty == .bf16 || ty == .bfp) && abOk h [(a, .uni32), (b, .w64)]
  | .fsnap h a | .fundo h a | .freset h a => abOk h [(a, .uni32)]
  | .rcp h _ _ | .rcpdrop h _ | .rcpmat h _ | .rcpdem h _ => h.bare && !h.g
  | .cntrd h r n => h.bare && r.ok h.g true && n.ok
  | .cntsn h _ a _ => abOk h [(a, .w64)]
  | .pwrset h c => h.bare && h.g && c.toNat < 3
  | _ => true

end Sys2Proof
end

