-- ==== Sys2Proof/Machine/Flags.lean ====
section
/-! DEFINITION. The floating formats (R90 to R92), the FSTAT flags (R95) and rounding to a format or to an integer (R96).
Values are exact: a sign, a natural significand and a power of two. -/
namespace Sys2Proof

/-! ### Types (R89) -/

/-- The bits of a type's values. -/
def Ty.width : Ty → Nat
  | .i64 | .n64 | .f64 => 64
  | .i32 | .n32 | .f32 => 32
  | .f16 | .bf16 | .i16 | .n16 => 16
  | .i8 | .n8 | .bfp => 8

/-- The signed integer types. -/
def Ty.signed : Ty → Bool
  | .i32 | .i64 | .i16 | .i8 => true
  | _ => false

namespace Machine

/-! ### Flags (R95) -/

abbrev Flags := BitVec 5
def flagNV : Flags := 1
def flagDZ : Flags := 2
def flagOF : Flags := 4
def flagUF : Flags := 8
def flagNX : Flags := 16

/-- A value and the flags that its computation raises. -/
structure Flagged (α : Type) where
  val : α
  flags : Flags := 0
  deriving DecidableEq, Repr

/-! ### Formats (R89, R90) -/

/-- Exponent and fraction bits. -/
structure Fmt where
  eb : Nat
  fb : Nat
  deriving DecidableEq, Repr

def Fmt.bias (f : Fmt) : Nat := 2 ^ (f.eb - 1) - 1
def Fmt.infBits (f : Fmt) : Nat := (2 ^ f.eb - 1) * 2 ^ f.fb
def Fmt.signBit (f : Fmt) (neg : Bool) : Nat := if neg then 2 ^ (f.eb + f.fb) else 0
/-- The canonical NaN (R90). -/
def Fmt.nan (f : Fmt) : Nat := f.infBits + 2 ^ (f.fb - 1)
def Fmt.inf (f : Fmt) (neg : Bool) : Nat := f.signBit neg + f.infBits
def Fmt.largest (f : Fmt) (neg : Bool) : Nat := f.signBit neg + f.infBits - 1
def Fmt.zero (f : Fmt) (neg : Bool) : Nat := f.signBit neg
/-- The smallest exponent of a normal value. -/
def Fmt.emin (f : Fmt) : Int := 1 - (f.bias : Int)

def fmtF64 : Fmt := ⟨11, 52⟩
def fmtF32 : Fmt := ⟨8, 23⟩

end Machine

/-- The format of a floating type. -/
def Ty.fmt : Ty → Machine.Fmt
  | .f64 => Machine.fmtF64
  | .f16 => ⟨5, 10⟩
  | .bf16 => ⟨8, 7⟩
  | _ => Machine.fmtF32

namespace Machine

/-- A floating value: (−1)^neg × m × 2^e. -/
inductive Fl where
  | nan (signalling : Bool)
  | inf (neg : Bool)
  | fin (neg : Bool) (m : Nat) (e : Int)
  deriving DecidableEq, Repr

/-- R90, R92: the value of a pattern. -/
def Fmt.unpack (f : Fmt) (x : Nat) : Fl :=
  let neg := x / 2 ^ (f.eb + f.fb) % 2 == 1
  let e := x / 2 ^ f.fb % 2 ^ f.eb
  let frac := x % 2 ^ f.fb
  if e = 2 ^ f.eb - 1 then
    if frac = 0 then .inf neg else .nan (frac < 2 ^ (f.fb - 1))
  else if e = 0 then .fin neg frac (f.emin - f.fb)
  else .fin neg (frac + 2 ^ f.fb) ((e : Int) - f.bias - f.fb)

def Fl.isNan : Fl → Bool
  | .nan _ => true
  | _ => false
def Fl.isSnan : Fl → Bool
  | .nan s => s
  | _ => false

/-- NV for a signalling NaN operand (R91). -/
def snanFlags (l : List Fl) : Flags := if l.any Fl.isSnan then flagNV else 0

/-! ### Rounding -/

/-- The modes of FRM (R95). -/
inductive Round where
  | rne | rz | rd | ru
  deriving DecidableEq, Repr

def Round.ofFrm (frm : BitVec 2) : Round := if frm = 0 then .rne else if frm = 1 then .rz else if frm = 2 then .rd else .ru

/-- Whether the magnitude is rounded up, with `rem` of `2 * half` left over and not zero. -/
def Round.up (md : Round) (neg odd : Bool) (rem half : Nat) : Bool :=
  match md with
  | .rne => rem > half || (rem == half && odd)
  | .rz => false
  | .rd => neg
  | .ru => !neg

/-- The magnitude m × 2^e in units of 2^q, rounded, and whether that changed it. -/
def roundUnits (md : Round) (neg : Bool) (m : Nat) (e q : Int) : Nat × Bool :=
  if q ≤ e then (m * 2 ^ (e - q).toNat, false)
  else
    let sh := (q - e).toNat
    -- far below one unit only the sign of the remainder counts
    if Nat.log2 m + 2 < sh then (if m = 0 then (0, false) else (if md.up neg false 1 2 then 1 else 0, true))
    else
      let k := m / 2 ^ sh
      let rem := m % 2 ^ sh
      if rem = 0 then (k, false) else (if md.up neg (k % 2 == 1) rem (2 ^ (sh - 1)) then k + 1 else k, true)

/-- R96: what overflow delivers. -/
def Fmt.overflow (f : Fmt) (md : Round) (neg : Bool) : Nat :=
  match md with
  | .rne => f.inf neg
  | .rz => f.largest neg
  | .rd => if neg then f.inf true else f.largest false
  | .ru => if neg then f.largest true else f.inf false

/-- R95: tiny after rounding, as if the exponent were unbounded. -/
def Fmt.tiny (f : Fmt) (md : Round) (neg : Bool) (m : Nat) (e : Int) : Bool :=
  let top := e + Nat.log2 m
  top < f.emin && !(top + 1 == f.emin && (roundUnits md neg m e (top - f.fb)).1 == 2 ^ (f.fb + 1))

/-- R96: the exact value rounded once to the format, with its flags. -/
def Fmt.round (f : Fmt) (md : Round) (neg : Bool) (m : Nat) (e : Int) : Flagged Nat :=
  if m = 0 then ⟨f.zero neg, 0⟩
  else
    let top := e + Nat.log2 m
    if top > f.bias + 1 then ⟨f.overflow md neg, flagOF ||| flagNX⟩
    else
      let q := (if top < f.emin then f.emin else top) - f.fb
      let r := roundUnits md neg m e q
      let bits := (q + f.fb + f.bias - 1).toNat * 2 ^ f.fb + r.1
      if bits ≥ f.infBits then ⟨f.overflow md neg, flagOF ||| flagNX⟩
      else ⟨f.signBit neg + bits, if r.2 then (if f.tiny md neg m e then flagUF ||| flagNX else flagNX) else 0⟩

/-- R95: a value rounded to an integer under a mode, and whether that changed it. -/
def roundInt (md : Round) (neg : Bool) (m : Nat) (e : Int) : Int × Bool :=
  let r := roundUnits md neg m e 0
  (if neg then -(r.1 : Int) else r.1, r.2)

end Machine

end Sys2Proof
end

