-- ==== Sys2Proof/Machine/Num.lean ====
section
/-! DEFINITION. Exact arithmetic on the floating formats: the sums, products and quotients of R225 to R230, conversions
(R98, R99, R102, R231, R232), the special functions (R233, R234) and block float (R93, R94, R103). -/
namespace Sys2Proof.Machine

def canonNan (f : Fmt) (fl : Flags) : Flagged Nat := ⟨f.nan, fl⟩

/-! ### Sums and products (R225, R226) -/

/-- An exact signed value m × 2^e. -/
structure Dy where
  m : Int
  e : Int
  deriving DecidableEq, Repr

def Dy.add (a b : Dy) : Dy :=
  let e := min a.e b.e
  ⟨a.m * 2 ^ (a.e - e).toNat + b.m * 2 ^ (b.e - e).toNat, e⟩

def signed (neg : Bool) (m : Nat) : Int := if neg then -(m : Int) else m

/-- R225: the exact sum of two finite terms, rounded once; the sign of a zero sum. -/
def addFin (f : Fmt) (md : Round) (na : Bool) (ma : Nat) (ea : Int) (nb : Bool) (mb : Nat) (eb : Int) : Flagged Nat :=
  let s := Dy.add ⟨signed na ma, ea⟩ ⟨signed nb mb, eb⟩
  if s.m = 0 then ⟨f.zero (if na = nb then na else decide (md = .rd)), 0⟩
  else f.round md (s.m < 0) s.m.natAbs s.e

/-- The sum of two values that are not NaN. -/
def addVal (f : Fmt) (md : Round) (x y : Fl) : Flagged Nat :=
  match x, y with
  | .inf na, .inf nb => if na = nb then ⟨f.inf na, 0⟩ else canonNan f flagNV
  | .inf na, _ => ⟨f.inf na, 0⟩
  | _, .inf nb => ⟨f.inf nb, 0⟩
  | .fin na ma ea, .fin nb mb eb => addFin f md na ma ea nb mb eb
  | _, _ => canonNan f 0

/-- R91: NaN operands give the canonical NaN, with NV for a signalling one. -/
def viaNan (f : Fmt) (l : List Fl) (k : Flagged Nat) : Flagged Nat :=
  if l.any Fl.isNan then canonNan f (snanFlags l) else k

def Fl.flip : Fl → Fl
  | .nan s => .nan s
  | .inf n => .inf !n
  | .fin n m e => .fin (!n) m e

def fAdd (f : Fmt) (md : Round) (a b : Nat) : Flagged Nat :=
  viaNan f [f.unpack a, f.unpack b] (addVal f md (f.unpack a) (f.unpack b))
def fSub (f : Fmt) (md : Round) (a b : Nat) : Flagged Nat :=
  viaNan f [f.unpack a, f.unpack b] (addVal f md (f.unpack a) (f.unpack b).flip)

/-- The exact product of two values that are not NaN; `none` is 0 × ∞. -/
def mulVal (x y : Fl) : Option Fl :=
  match x, y with
  | .inf na, .inf nb => some (.inf (na != nb))
  | .inf na, .fin nb m _ => if m = 0 then none else some (.inf (na != nb))
  | .fin na m _, .inf nb => if m = 0 then none else some (.inf (na != nb))
  | .fin na ma ea, .fin nb mb eb => some (.fin (na != nb) (ma * mb) (ea + eb))
  | _, _ => none

def roundFl (f : Fmt) (md : Round) : Fl → Flagged Nat
  | .nan _ => canonNan f 0
  | .inf n => ⟨f.inf n, 0⟩
  | .fin n m e => f.round md n m e

def fMul (f : Fmt) (md : Round) (a b : Nat) : Flagged Nat :=
  viaNan f [f.unpack a, f.unpack b] (match mulVal (f.unpack a) (f.unpack b) with
    | none => canonNan f flagNV
    | some p => roundFl f md p)

/-- R226: a × b + c with one rounding; `fa` is the format of the factors. 0 × ∞ raises NV whatever the addend. -/
def fmaVal (f : Fmt) (md : Round) (x y z : Fl) : Flagged Nat :=
  if x.isNan || y.isNan then canonNan f (snanFlags [x, y, z])
  else match mulVal x y with
    | none => canonNan f flagNV
    | some p => viaNan f [z] (addVal f md p z)

def fFma (f : Fmt) (md : Round) (a b c : Nat) : Flagged Nat := fmaVal f md (f.unpack a) (f.unpack b) (f.unpack c)

/-! ### Quotients and roots (R225, R233) -/

/-- A quotient of finite nonzero values: the quotient to enough bits, its last bit telling whether anything is left. -/
def divFin (f : Fmt) (md : Round) (neg : Bool) (ma : Nat) (ea : Int) (mb : Nat) (eb : Int) : Flagged Nat :=
  let k := f.fb + 5 + (Nat.log2 mb + 1 - Nat.log2 ma)
  let n := ma * 2 ^ k
  f.round md neg (2 * (n / mb) + (if n % mb = 0 then 0 else 1)) (ea - eb - k - 1)

def divVal (f : Fmt) (md : Round) (x y : Fl) : Flagged Nat :=
  match x, y with
  | .inf _, .inf _ => canonNan f flagNV
  | .inf na, .fin nb _ _ => ⟨f.inf (na != nb), 0⟩
  | .fin na _ _, .inf nb => ⟨f.zero (na != nb), 0⟩
  | .fin na ma ea, .fin nb mb eb =>
    if mb = 0 then (if ma = 0 then canonNan f flagNV else ⟨f.inf (na != nb), flagDZ⟩)
    else if ma = 0 then ⟨f.zero (na != nb), 0⟩
    else divFin f md (na != nb) ma ea mb eb
  | _, _ => canonNan f 0

def fDiv (f : Fmt) (md : Round) (a b : Nat) : Flagged Nat :=
  viaNan f [f.unpack a, f.unpack b] (divVal f md (f.unpack a) (f.unpack b))

/-- The integer square root of a number below 4^n. -/
def isqrt : Nat → Nat → Nat → Nat
  | 0, _, r => r
  | n + 1, x, r => isqrt n x (if (r + 2 ^ n) * (r + 2 ^ n) ≤ x then r + 2 ^ n else r)

/-- The root of m × 2^e: a significand whose last bit tells whether anything is left, and its exponent. -/
def sqrtParts (bits m : Nat) (e : Int) : Nat × Int :=
  let k := 2 * bits + (if (e - 2 * bits) % 2 = 0 then 0 else 1)
  let n := m * 2 ^ k
  let r := isqrt (Nat.log2 n / 2 + 1) n 0
  (2 * r + (if r * r = n then 0 else 1), (e - k) / 2 - 1)

def fSqrt (f : Fmt) (md : Round) (a : Nat) : Flagged Nat :=
  match f.unpack a with
  | .nan s => canonNan f (if s then flagNV else 0)
  | .inf n => if n then canonNan f flagNV else ⟨f.inf false, 0⟩
  | .fin n m e =>
    if m = 0 then ⟨f.zero n, 0⟩
    else if n then canonNan f flagNV
    else let r := sqrtParts (f.fb + 4) m e; f.round md false r.1 r.2

def fRcp (f : Fmt) (md : Round) (a : Nat) : Flagged Nat :=
  match f.unpack a with
  | .nan s => canonNan f (if s then flagNV else 0)
  | .inf n => ⟨f.zero n, 0⟩
  | .fin n m e => if m = 0 then ⟨f.inf n, flagDZ⟩ else divFin f md n 1 0 m e

def fRsq (f : Fmt) (md : Round) (a : Nat) : Flagged Nat :=
  match f.unpack a with
  | .nan s => canonNan f (if s then flagNV else 0)
  | .inf n => if n then canonNan f flagNV else ⟨f.zero false, 0⟩
  | .fin n m e =>
    if m = 0 then ⟨f.inf n, flagDZ⟩
    else if n then canonNan f flagNV
    else
      -- the floor of 1 / √a in units of 2^(−k): the largest r with r² × m × 2^e ≤ 2^(2k), found as √(2^(2k − e) / m)
      let k : Nat := f.fb + 8 + (e + Nat.log2 m).toNat + (-(e + Nat.log2 m)).toNat
      let num : Nat := 2 ^ (2 * (k : Int) - e).toNat
      let x := num / m
      let r := isqrt (Nat.log2 x / 2 + 1) x 0
      f.round md false (2 * r + (if r * r * m = num then 0 else 1)) (-(k : Int) - 1)

/-! ### Comparisons, minimum, class (R227 to R230) -/

/-- The order of two values that are not NaN; −0 equals +0. -/
def flKey : Fl → Dy
  | .fin n m e => ⟨signed n m, e⟩
  | _ => ⟨0, 0⟩
def flLt (x y : Fl) : Bool :=
  match x, y with
  | .nan _, _ | _, .nan _ => false
  | .inf a, .inf b => a && !b
  | .inf a, _ => a
  | _, .inf b => !b
  | _, _ => let a := flKey x; let b := flKey y; (Dy.add a ⟨-b.m, b.e⟩).m < 0
def flEq (x y : Fl) : Bool :=
  match x, y with
  | .nan _, _ | _, .nan _ => false
  | .inf a, .inf b => a == b
  | .inf _, _ | _, .inf _ => false
  | _, _ => let a := flKey x; let b := flKey y; (Dy.add a ⟨-b.m, b.e⟩).m == 0
def Fl.neg : Fl → Bool
  | .nan _ => false
  | .inf n => n
  | .fin n _ _ => n

/-- R227: the smaller (or, with `big`, the larger) operand; −0 is below +0. -/
def fMinMax (f : Fmt) (big : Bool) (a b : Nat) : Flagged Nat :=
  let x := f.unpack a
  let y := f.unpack b
  let fl := snanFlags [x, y]
  if x.isNan then (if y.isNan then canonNan f fl else ⟨b, fl⟩)
  else if y.isNan then ⟨a, fl⟩
  else
    let below := flLt x y || (flEq x y && x.neg && !y.neg)
    ⟨if below != big then a else b, 0⟩

def fAbs (f : Fmt) (a : Nat) : Flagged Nat :=
  let x := f.unpack a
  if x.isNan then canonNan f (snanFlags [x]) else ⟨a % 2 ^ (f.eb + f.fb), 0⟩
def fNeg (f : Fmt) (a : Nat) : Flagged Nat :=
  let x := f.unpack a
  if x.isNan then canonNan f (snanFlags [x]) else ⟨a % 2 ^ (f.eb + f.fb) + f.signBit (!x.neg), 0⟩

/-- R228. -/
def fCmp (f : Fmt) (c : FCond) (a b : Nat) : Flagged Bool :=
  let x := f.unpack a
  let y := f.unpack b
  let un := x.isNan || y.isNan
  let lt := flLt x y
  let gt := flLt y x
  let eq := flEq x y
  let strict := match c with
    | .lt | .le | .gt | .ge => true
    | _ => false
  let val := match c with
    | .eq => eq
    | .ne => !un && !eq
    | .lt => lt
    | .le => lt || eq
    | .gt => gt
    | .ge => gt || eq
    | .num => !un
    | .nan => un
    | .equ => un || eq
    | .neu => un || !eq
    | .ltu => un || lt
    | .leu => un || lt || eq
    | .gtu => un || gt
    | .geu => un || gt || eq
  ⟨val, if un && strict then flagNV else snanFlags [x, y]⟩

/-- R229: the class number of a value. -/
def fClass (f : Fmt) (a : Nat) : Nat :=
  match f.unpack a with
  | .nan s => if s then 8 else 9
  | .inf n => if n then 0 else 7
  | .fin n m _ =>
    if m = 0 then (if n then 3 else 4)
    else if m < 2 ^ f.fb then (if n then 2 else 5)
    else if n then 1 else 6

/-- R230: rounded to an integral value of the format. -/
def fRnd (f : Fmt) (md : Round) (a : Nat) : Flagged Nat :=
  match f.unpack a with
  | .nan s => canonNan f (if s then flagNV else 0)
  | .inf n => ⟨f.inf n, 0⟩
  | .fin n m e => if m = 0 || 0 ≤ e then ⟨a, 0⟩ else ⟨(f.round .rz n (roundUnits md n m e 0).1 0).val, 0⟩

/-! ### Conversions (R102, R231) -/

/-- The smallest and the largest value of an integer type. -/
def tyLo (t : Ty) : Int := if t.signed then -(2 ^ (t.width - 1) : Int) else 0
def tyHi (t : Ty) : Int := if t.signed then 2 ^ (t.width - 1) - 1 else 2 ^ t.width - 1

/-- The pattern of an integer in a type's width. -/
def intBits (t : Ty) (x : Int) : Nat := (x % (2 ^ t.width : Int)).toNat
/-- An integer pattern read as its type. -/
def intVal (t : Ty) (a : Nat) : Int :=
  let x := a % 2 ^ t.width
  if t.signed && x / 2 ^ (t.width - 1) == 1 then (x : Int) - 2 ^ t.width else x

/-- R102: an integer result in range, or saturated with NV alone. -/
def intResult (t : Ty) (x : Int) (inexact : Bool) : Flagged Nat :=
  if x < tyLo t then ⟨intBits t (tyLo t), flagNV⟩
  else if tyHi t < x then ⟨intBits t (tyHi t), flagNV⟩
  else ⟨intBits t x, if inexact then flagNX else 0⟩

/-- R231. -/
def convert (dst src : Ty) (md : Round) (a : Nat) : Flagged Nat :=
  if src.isFlt then
    let x := src.fmt.unpack (a % 2 ^ src.width)
    if dst.isFlt then
      match x with
      | .nan s => canonNan dst.fmt (if s then flagNV else 0)
      | x => roundFl dst.fmt md x
    else
      match x with
      | .nan _ => ⟨0, flagNV⟩
      | .inf n => ⟨intBits dst (if n then tyLo dst else tyHi dst), flagNV⟩
      | .fin n m e => let r := roundInt md n m e; intResult dst r.1 r.2
  else
    let x := intVal src a
    if dst.isFlt then dst.fmt.round md (x < 0) x.natAbs 0
    else ⟨(intResult dst x false).val, 0⟩

/-! ### Stochastic rounding (R98, R99) -/

/-- R98: 32 × Dither(i, φ). -/
def dither (i phi : Nat) : Nat :=
  let j := (i + 7 * phi) % 32
  16 * (j % 2) + 8 * (j / 2 % 2) + 4 * (j / 4 % 2) + 2 * (j / 8 % 2) + j / 16

/-- floor(x / 2^q + d / 32) for x = (−1)^neg × m × 2^e, and whether x was a multiple of 2^q. -/
def ditherUnits (neg : Bool) (m : Nat) (e q : Int) (d : Nat) : Int × Bool :=
  if q ≤ e then (signed neg (m * 2 ^ (e - q).toNat), true)
  else
    let sh := (q - e).toNat
    ((32 * signed neg m + d * 2 ^ sh) / (32 * 2 ^ sh : Nat), m % 2 ^ sh == 0)

/-- R98, R99. Which value R97 calls tiny under stochastic rounding the spec does not say: DESIGN CHOICE, the delivered one (log
entry 109). -/
def convertStoch (dst src : Ty) (a i phi : Nat) : Flagged Nat :=
  let d := dither i phi
  match src.fmt.unpack (a % 2 ^ src.width) with
  | .nan _ => if dst.isFlt then canonNan dst.fmt flagNV else ⟨0, flagNV⟩
  | .inf n =>
    if dst.isFlt then ⟨dst.fmt.largest n, flagOF ||| flagNX⟩
    else ⟨intBits dst (if n then tyLo dst else tyHi dst), flagNV⟩
  | .fin n m e =>
    if dst.isFlt then
      if m = 0 then ⟨dst.fmt.zero n, 0⟩
      else
        let f := dst.fmt
        let top := e + Nat.log2 m
        let q := (if top < f.emin then f.emin else top) - f.fb
        let r := ditherUnits n m e q d
        let v := f.round .rz n r.1.natAbs q
        if v.flags &&& flagOF != 0 then ⟨v.val, flagOF ||| flagNX⟩
        else
          let tiny := v.val % 2 ^ (f.eb + f.fb) < 2 ^ f.fb
          ⟨v.val, if r.2 then 0 else if tiny then flagUF ||| flagNX else flagNX⟩
    else let r := ditherUnits n m e 0 d; intResult dst r.1 (!r.2)

/-! ### Special functions (R234): fixed-point enclosures -/

/-- The fraction bits of the working precision. -/
def prec : Nat := 256
/-- ⌊ln 2 × 2^256⌋ and ⌊π × 2^448⌋. -/
def ln2Fix : Nat := 0xb17217f7d1cf79abc9e3b39803f2f6af40f343267298b62d8a0d175b8baafa2b
def piFix : Nat :=
  0x3243f6a8885a308d313198a2e03707344a4093822299f31d0082efa98ec4e6c89452821e638d01377be5466cf34e90c6cc0ac29b7c97c50dd

/-- A positive value known to lie strictly between two multiples of 2^e. -/
structure Encl where
  lo : Nat
  hi : Nat
  e : Int
  deriving DecidableEq, Repr

/-- The enclosure of an approximation whose error is below 2^32 units. -/
def Encl.near (x : Nat) (e : Int) : Encl := ⟨x - 2 ^ 32, x + 2 ^ 32, e⟩
/-- A value just below, or just above, m × 2^e, by less than one part in 2^60. -/
def Encl.just (above : Bool) (m : Nat) (e : Int) : Encl :=
  if above then ⟨m * 2 ^ 64, m * 2 ^ 64 + m, e - 64⟩ else ⟨m * 2 ^ 64 - m, m * 2 ^ 64, e - 64⟩

/-- Rounded once, when both ends agree; the value is never a representable one (Encl is open). -/
def Encl.round (x : Encl) (f : Fmt) (md : Round) (neg : Bool) (tag a : Nat) : Flagged Nat :=
  let l := f.round md neg (2 * x.lo + 1) (x.e - 1)
  let h := f.round md neg (2 * x.hi - 1) (x.e - 1)
  if l = h then l else ⟨(Config.undecided tag (BitVec.ofNat 32 a)).toNat % 2 ^ (f.eb + f.fb + 1), flagNX⟩

/-- Σ x^k / k! for 0 ≤ x < 1 in fixed point, from the term before. -/
def expSeries : Nat → Nat → Nat → Nat → Nat
  | 0, _, _, _ => 0
  | n + 1, k, x, t => t + expSeries n (k + 1) x (t * x / 2 ^ prec / (k + 1))

/-- e^x for x in fixed point below 1. -/
def expFix (x : Nat) : Nat := expSeries 60 0 x (2 ^ prec)

/-- Σ z^(2k+1) / (2k+1), for |z| ≤ 1/3. -/
def atanhSeries : Nat → Nat → Nat → Nat → Nat
  | 0, _, _, _ => 0
  | n + 1, k, z2, t => t / (2 * k + 1) + atanhSeries n (k + 1) z2 (t * z2 / 2 ^ prec)

/-- The sine (from term 1) and the cosine (from term 0): Σ (−1)^i x^k / k!, k rising by 2. -/
def trigSeries : Nat → Nat → Nat → Int → Int
  | 0, _, _, _ => 0
  | n + 1, k, x2, t => t + trigSeries n (k + 2) x2 (-(t * x2 / 2 ^ prec / ((k + 1) * (k + 2) : Nat)))

/-- m × 2^e in fixed point with p fraction bits, rounded down. -/
def fixAt (p m : Nat) (e : Int) : Nat :=
  let s : Int := e + p
  if 0 ≤ s then m * 2 ^ s.toNat else m / 2 ^ (-s).toNat

/-- R234: 2^a. -/
def fEx2 (f : Fmt) (md : Round) (a : Nat) : Flagged Nat :=
  match f.unpack a with
  | .nan s => canonNan f (if s then flagNV else 0)
  | .inf n => ⟨if n then f.zero false else f.inf false, 0⟩
  | .fin n m e =>
    if m = 0 then f.round md false 1 0
    else if e + Nat.log2 m ≥ 12 then f.round md false 1 (if n then -5000 else 5000)
    else if e + Nat.log2 m < -40 then (Encl.just (!n) 1 0).round f md false 0 a
    else
      let x := signed n (fixAt prec m e)
      let k := x / (2 ^ prec : Nat)
      let r := (x % (2 ^ prec : Nat)).toNat
      if r = 0 then f.round md false 1 k
      else (Encl.near (expFix (r * ln2Fix / 2 ^ prec)) (k - prec)).round f md false 0 a

/-- R234: log2 a. -/
def fLg2 (f : Fmt) (md : Round) (a : Nat) : Flagged Nat :=
  match f.unpack a with
  | .nan s => canonNan f (if s then flagNV else 0)
  | .inf n => if n then canonNan f flagNV else ⟨f.inf false, 0⟩
  | .fin n m e =>
    if m = 0 then ⟨f.inf true, flagDZ⟩
    else if n then canonNan f flagNV
    else
      let k := e + Nat.log2 m
      if m = 2 ^ Nat.log2 m then f.round md (k < 0) k.natAbs 0
      else
        let y := m * 2 ^ (prec - Nat.log2 m)
        let z := (y - 2 ^ prec) * 2 ^ prec / (y + 2 ^ prec)
        let l := 2 * atanhSeries 90 0 (z * z / 2 ^ prec) z * 2 ^ prec / ln2Fix
        let x : Int := k * (2 ^ prec : Nat) + l
        (Encl.near x.natAbs (-(prec : Int))).round f md (x < 0) 1 a

/-- The octant form of an angle: n with |a − n × π/2| ≤ π/4, and the rest in fixed point. -/
def reduceAngle (m : Nat) (e : Int) : Nat × Int :=
  let x := fixAt 448 m e
  let h := piFix / 2
  let n := (2 * x + h) / (2 * h)
  (n, ((x : Int) - n * h) / (2 ^ 192 : Nat))

/-- R234: sin a, or with `cosine` cos a. -/
def fTrig (f : Fmt) (md : Round) (cosine : Bool) (a : Nat) : Flagged Nat :=
  match f.unpack a with
  | .nan s => canonNan f (if s then flagNV else 0)
  | .inf _ => canonNan f flagNV
  | .fin n m e =>
    if m = 0 then (if cosine then f.round md false 1 0 else ⟨a, 0⟩)
    else if e + Nat.log2 m < -40 then
      (if cosine then (Encl.just false 1 0).round f md false 3 a else (Encl.just false m e).round f md n 2 a)
    else
      let r := reduceAngle m e
      let k := (r.1 + (if cosine then 1 else 0)) % 4
      let x2 := (r.2 * r.2 / (2 ^ prec : Nat)).toNat
      let v := if k % 2 = 0 then trigSeries 40 1 x2 r.2 else trigSeries 40 0 x2 (2 ^ prec : Nat)
      let v := if k / 2 = 1 then -v else v
      let v := if n && !cosine then -v else v
      (Encl.near v.natAbs (-(prec : Int))).round f md (v < 0) (if cosine then 3 else 2) a

/-- R234: tanh a. -/
def fTanh (f : Fmt) (md : Round) (a : Nat) : Flagged Nat :=
  match f.unpack a with
  | .nan s => canonNan f (if s then flagNV else 0)
  | .inf n => f.round md n 1 0
  | .fin n m e =>
    if m = 0 then ⟨a, 0⟩
    else if e + Nat.log2 m < -40 then (Encl.just false m e).round f md n 4 a
    else if e + Nat.log2 m ≥ 6 then (Encl.just false 1 0).round f md n 4 a
    else
      let x := 2 * fixAt prec m e
      let k := x / ln2Fix
      let t := expFix (x % ln2Fix) * 2 ^ k
      (Encl.near ((t - 2 ^ prec) * 2 ^ prec / (t + 2 ^ prec)) (-(prec : Int))).round f md n 4 a

/-! ### Block float (R93, R94, R103) -/

/-- R94: one element. `none` for a NaN or an infinity. -/
def Fl.exact : Fl → Option (Bool × Nat × Int)
  | .fin n m e => some (n, m, e)
  | _ => none

/-- A rounding of R94: a mode, or the ordered dither with phase φ. -/
inductive QMode where
  | mode (md : Round)
  | stoch (phi : Nat)
  deriving DecidableEq, Repr

def maxTop (xs : List (Bool × Nat × Int)) : Option Int :=
  xs.foldl (fun (acc : Option Int) x =>
    if x.2.1 = 0 then acc
    else
      let t : Int := x.2.2 + (Nat.log2 x.2.1 : Nat)
      match acc with
      | none => some t
      | some u => some (if u < t then t else u)) none

/-- R94: the mantissas (two's complement of width m), the exponent byte and the flags. -/
def quantize (xs : List Fl) (m : Nat) (q : QMode) : List Int × Nat × Flags :=
  match xs.mapM Fl.exact with
  | none => (xs.map (fun _ => 0), 255, flagNV)
  | some vs =>
    match maxTop vs with
    | none => (xs.map (fun _ => 0), 0, 0)
    | some e =>
      let eb : Nat := min 254 (e + 128).toNat
      let unit_ : Int := (eb : Int) - 127 - (m - 1 : Nat)
      let one (p : Nat × (Bool × Nat × Int)) : Int × Flags :=
        let v := p.2
        let r : Int × Bool := match q with
          | .mode md => let u := roundUnits md v.1 v.2.1 v.2.2 unit_; (signed v.1 u.1, !u.2)
          | .stoch phi => ditherUnits v.1 v.2.1 v.2.2 unit_ (dither p.1 phi)
        let top : Int := 2 ^ (m - 1)
        let sat := if top - 1 < r.1 then top - 1 else if r.1 < -top then -top else r.1
        (sat, (if sat = r.1 then 0 else flagOF) ||| (if sat = r.1 && r.2 then 0 else flagNX))
      let rs := ((List.range vs.length).zip vs).map one
      (rs.map (·.1), eb, rs.foldl (fun f r => f ||| r.2) 0)

/-- R93: the bytes of a block, from its mantissas and exponent byte. -/
def blockBytes (m : Nat) (ms : List Int) (e : Nat) : List Byte :=
  let str := ms.foldr (fun x acc => (x % (2 ^ m : Int)).toNat + 2 ^ m * acc) 0
  (List.range (4 * m)).map (fun i => BitVec.ofNat 8 (str / 2 ^ (8 * i))) ++ [BitVec.ofNat 8 e]

/-- R93: a block's exponent byte and mantissas. -/
def blockParts (m : Nat) (bs : List Byte) : Nat × List Int :=
  let str := (bs.take (4 * m)).foldr (fun b acc => b.toNat + 256 * acc) 0
  ((bs.getD (4 * m) 0).toNat, (List.range 32).map (fun i =>
    let x : Nat := str / 2 ^ (i * m) % 2 ^ m
    if x / 2 ^ (m - 1) = 1 then (x : Int) - 2 ^ m else (x : Int)))

/-- R103: the f32 values of a block. -/
def blockF32 (m : Nat) (bs : List Byte) : List Nat × Flags :=
  let p := blockParts m bs
  if p.1 = 255 then (p.2.map (fun _ => fmtF32.nan), flagNV)
  else (p.2.map (fun x => (fmtF32.round .rne (x < 0) x.natAbs ((p.1 : Int) - 127 - (m - 1 : Nat))).val), 0)

end Sys2Proof.Machine
end

