-- ==== Sys2Proof/Machine/Alu.lean ====
section
/-! DEFINITION. The functions of classes 1 to 5 (R216 to R240), one definition per form: which operands a form reads, what
it writes, and its result in every thread. Recipe slices evaluate the same functions (R204). -/
namespace Sys2Proof.Machine

/-! ### Operand and result words (R89, R212) -/

/-- An operand as a number: unsigned, and as its type. -/
def uval (t : Ty) (a : W64) : Nat := a.toNat % 2 ^ t.width
def ival (t : Ty) (a : W64) : Int := intVal t a.toNat

/-- An integer result of a type: wrapped, and below 32 bits extended to its register (R89). -/
def ipack (t : Ty) (x : Int) : W64 :=
  let n := intBits t x
  if t.width < 32 then BitVec.ofNat 64 (intBits .n32 (intVal t n)) else BitVec.ofNat 64 n

/-- A floating result. -/
def fpack (r : Flagged Nat) : Flagged W64 := ⟨BitVec.ofNat 64 r.val, r.flags⟩
def plainW (x : W64) : Flagged W64 := ⟨x, 0⟩
def boolW (b : Bool) : W64 := if b then 1 else 0

/-! ### What a form reads and writes -/

/-- Where a result goes (R85); `vx` is the indexed target of `movx`. -/
inductive Kind where
  | v (r : Res)
  | vx (x : BitVec 2) (r : Res)
  | p (d : BitVec 3)
  | x (d : BitVec 2)
  deriving DecidableEq, Repr

/-- What a form may depend on beside its operands (R215). -/
structure Ctx where
  md : Round
  w : Nat
  phi : Nat
  deriving DecidableEq, Repr

/-- The operands of one thread. -/
structure LaneIn where
  lane : Nat
  ops : List W64
  ps : List Bool
  deriving DecidableEq, Repr

/-- A compute form: sources with the type that each is read as, predicate operands, D as a multiplicand (R226), a
constant-window operand, the result's type and place, and the results of the visited threads. -/
structure Comp where
  srcs : List (Src × Ty)
  preds : List PredF := []
  useD : Bool := false
  konst : Option (BitVec 20) := none
  ty : Ty
  kind : Kind
  eval : Ctx → List LaneIn → List (Flagged W64)

def LaneIn.a (l : LaneIn) : W64 := l.ops.getD 0 0
def LaneIn.b (l : LaneIn) : W64 := l.ops.getD 1 0
def LaneIn.c (l : LaneIn) : W64 := l.ops.getD 2 0

/-- A form that works on each thread by itself. -/
def pointwise (f : Ctx → LaneIn → Flagged W64) (c : Ctx) (l : List LaneIn) : List (Flagged W64) := l.map (f c)

/-- An integer form of one, two or three operands of its type. -/
def int1 (ty : Ty) (r : Res) (a : Src) (f : Int → Int) : Comp :=
  { srcs := [(a, ty)], ty, kind := .v r, eval := pointwise (fun _ l => plainW (ipack ty (f (ival ty l.a)))) }
def int2 (ty : Ty) (r : Res) (a b : Src) (f : Int → Int → Int) : Comp :=
  { srcs := [(a, ty), (b, ty)], ty, kind := .v r, eval := pointwise (fun _ l => plainW (ipack ty (f (ival ty l.a) (ival ty l.b)))) }
def int3 (ty : Ty) (r : Res) (a b c : Src) (f : Int → Int → Int → Int) : Comp :=
  { srcs := [(a, ty), (b, ty), (c, ty)], ty, kind := .v r
    eval := pointwise (fun _ l => plainW (ipack ty (f (ival ty l.a) (ival ty l.b) (ival ty l.c)))) }

/-! ### Class 1 (R216 to R218) -/

def compAdd (ty : Ty) (r : Res) (a b : Src) : Comp := int2 ty r a b (· + ·)
def compSub (ty : Ty) (r : Res) (a b : Src) : Comp := int2 ty r a b (· - ·)
def compMul (ty : Ty) (r : Res) (a b : Src) : Comp := int2 ty r a b (· * ·)
/-- Bits [2w − 1 : w] of the exact product. -/
def compMulh (ty : Ty) (r : Res) (a b : Src) : Comp := int2 ty r a b (fun x y => x * y / (2 ^ ty.width : Nat))
def compMad (ty : Ty) (r : Res) (a b c : Src) : Comp := int3 ty r a b c (fun x y z => x * y + z)
def compMadw (ty : Ty) (r : Res) (a b c : Src) : Comp :=
  { srcs := [(a, ty), (b, ty), (c, if ty.signed then .i64 else .n64)], ty := if ty.signed then .i64 else .n64, kind := .v r
    eval := pointwise (fun _ l => plainW (BitVec.ofInt 64 (ival ty l.a * ival ty l.b + l.c.toNat))) }
/-- R217. -/
def quotient (x y : Int) : Int := if y = 0 then -1 else Int.tdiv x y
def remainder (x y : Int) : Int := if y = 0 then x else Int.tmod x y
def compDiv (ty : Ty) (r : Res) (a b : Src) : Comp := int2 ty r a b quotient
def compRem (ty : Ty) (r : Res) (a b : Src) : Comp := int2 ty r a b remainder
def compAbs (ty : Ty) (r : Res) (a : Src) : Comp := int1 ty r a (fun x => if x < 0 then -x else x)
def compNeg (ty : Ty) (r : Res) (a : Src) : Comp := int1 ty r a (fun x => 0 - x)
def imin (x y : Int) : Int := if y < x then y else x
def imax (x y : Int) : Int := if x < y then y else x
def compMin (ty : Ty) (r : Res) (a b : Src) : Comp := int2 ty r a b imin
def compMax (ty : Ty) (r : Res) (a b : Src) : Comp := int2 ty r a b imax
def compClamp (ty : Ty) (r : Res) (a b c : Src) : Comp := int3 ty r a b c (fun x y z => imin (imax x y) z)
def compLea (ty : Ty) (r : Res) (a b c : Src) : Comp :=
  let bt : Ty := if ty.signed then .i32 else .n32
  { srcs := [(a, ty), (b, bt), (c, .n32)], ty, kind := .v r
    eval := pointwise (fun _ l => plainW (l.a + (BitVec.ofInt 64 (ival bt l.b) <<< (uval .n32 l.c % 64)))) }
/-- The carry out of a + b + (c AND 1). -/
def compAddc (ty : Ty) (r : Res) (a b c : Src) : Comp :=
  { srcs := [(a, ty), (b, ty), (c, ty)], ty, kind := .v r
    eval := pointwise (fun _ l => plainW (boolW (decide (2 ^ ty.width ≤ uval ty l.a + uval ty l.b + uval ty l.c % 2)))) }
/-- The borrow of a − b − (c AND 1). -/
def compSubb (ty : Ty) (r : Res) (a b c : Src) : Comp :=
  { srcs := [(a, ty), (b, ty), (c, ty)], ty, kind := .v r
    eval := pointwise (fun _ l => plainW (boolW (decide (uval ty l.a < uval ty l.b + uval ty l.c % 2)))) }

/-! ### Class 2 (R219 to R224) -/

/-- A form on the bit pattern of its operands, cut to the width of the type. -/
def cut (ty : Ty) (x : W64) : W64 := if ty.is64 then x else x &&& 0xFFFFFFFF#64
def bits1 (ty : Ty) (r : Res) (a : Src) (f : W64 → W64) : Comp :=
  { srcs := [(a, ty)], ty, kind := .v r, eval := pointwise (fun _ l => plainW (cut ty (f l.a))) }
def bits2 (ty : Ty) (r : Res) (a b : Src) (f : W64 → W64 → W64) : Comp :=
  { srcs := [(a, ty), (b, ty)], ty, kind := .v r, eval := pointwise (fun _ l => plainW (cut ty (f l.a l.b))) }

def compAnd (ty : Ty) (r : Res) (a b : Src) : Comp := bits2 ty r a b (· &&& ·)
def compOr (ty : Ty) (r : Res) (a b : Src) : Comp := bits2 ty r a b (· ||| ·)
def compXor (ty : Ty) (r : Res) (a b : Src) : Comp := bits2 ty r a b (· ^^^ ·)
def compAndn (ty : Ty) (r : Res) (a b : Src) : Comp := bits2 ty r a b (fun x y => x &&& ~~~y)
def compNot (ty : Ty) (r : Res) (a : Src) : Comp := bits1 ty r a (~~~ ·)

/-- Reading I of a shift amount: a 32-bit operand, an immediate sign-extended first (R219). -/
def shiftForm (ty : Ty) (r : Res) (a : Src) (n : IOp) (f : W64 → Nat → W64) : Comp :=
  match n with
  | .imm k =>
    { srcs := [(a, ty)], ty, kind := .v r
      eval := pointwise (fun _ l => plainW (cut ty (f l.a (k.signExtend 32).toNat))) }
  | .src x =>
    { srcs := [(a, ty), (x, .i32)], ty, kind := .v r
      eval := pointwise (fun _ l => plainW (cut ty (f l.a (uval .n32 l.b)))) }
def compShl (ty : Ty) (r : Res) (a : Src) (n : IOp) : Comp :=
  shiftForm ty r a n (fun x k => if ty.width ≤ k then 0 else x <<< k)
def compShr (ty : Ty) (r : Res) (a : Src) (n : IOp) : Comp :=
  shiftForm ty r a n (fun x k => if ty.width ≤ k then 0 else x >>> k)
/-- The pattern of a type's width, sign-extended to 64 bits. -/
def sext (ty : Ty) (x : W64) : W64 := if ty.is64 then x else (x.setWidth 32).signExtend 64
def compSar (ty : Ty) (r : Res) (a : Src) (n : IOp) : Comp :=
  shiftForm ty r a n (fun x k => (sext ty x).sshiftRight (if ty.width ≤ k then ty.width - 1 else k))
def rotl (ty : Ty) (x : W64) (n : Nat) : W64 :=
  if ty.is64 then x.rotateLeft (n % 64) else ((x.setWidth 32).rotateLeft (n % 32)).setWidth 64
def compRot (ty : Ty) (r : Res) (a : Src) (n : IOp) : Comp := shiftForm ty r a n (rotl ty)

/-- R219: a field of a, with the bits at w and above filled, extended from its top bit. -/
def bitField (ty : Ty) (x p : W64) : W64 :=
  let pos := p.toNat % 256
  let len := p.toNat / 256 % 256
  let len := if ty.width < len then ty.width else len
  if len = 0 then 0
  else
    let y := if ty.signed then (sext ty x).sshiftRight (if ty.width ≤ pos then ty.width - 1 else pos)
             else if ty.width ≤ pos then 0 else cut ty x >>> pos
    if 64 ≤ len then y
    else
      let z := y &&& BitVec.ofNat 64 (2 ^ len - 1)
      if ty.signed && z.getLsbD (len - 1) then z ||| ~~~(BitVec.ofNat 64 (2 ^ len - 1)) else z
def compBfx (ty : Ty) (r : Res) (a b : Src) : Comp := bits2 ty r a b (bitField ty)
/-- R219: b with a field replaced by the low bits of a. -/
def bitInsert (x y p : W64) : W64 :=
  let pos := p.toNat % 256
  let len := p.toNat / 256 % 256
  let m : W64 := if 64 ≤ len then BitVec.allOnes 64 else BitVec.ofNat 64 (2 ^ len - 1)
  (y &&& ~~~(m <<< pos)) ||| ((x &&& m) <<< pos)
def compBfi (ty : Ty) (r : Res) (a b c : Src) : Comp :=
  { srcs := [(a, ty), (b, ty), (c, ty)], ty, kind := .v r, eval := pointwise (fun _ l => plainW (cut ty (bitInsert l.a l.b l.c))) }

def bitsOf (ty : Ty) (x : W64) : List Bool := (List.range ty.width).map x.getLsbD
def compPopc (ty : Ty) (r : Res) (a : Src) : Comp :=
  bits1 ty r a (fun x => BitVec.ofNat 64 ((bitsOf ty x).filter id).length)
def compClz (ty : Ty) (r : Res) (a : Src) : Comp :=
  bits1 ty r a (fun x => BitVec.ofNat 64 ((bitsOf ty x).reverse.takeWhile (!·)).length)
def compCtz (ty : Ty) (r : Res) (a : Src) : Comp :=
  bits1 ty r a (fun x => BitVec.ofNat 64 ((bitsOf ty x).takeWhile (!·)).length)
def compBrev (ty : Ty) (r : Res) (a : Src) : Comp :=
  bits1 ty r a (fun x => BitVec.ofNat 64 ((bitsOf ty x).foldl (fun n b => 2 * n + (if b then 1 else 0)) 0))

/-- R220. -/
def permute (x y c : W64) : W64 :=
  let byteAt (i : Nat) : Nat :=
    let sel := c.toNat / 16 ^ i % 16
    if 8 ≤ sel then 0
    else if sel < 4 then x.toNat / 256 ^ sel % 256 else y.toNat / 256 ^ (sel - 4) % 256
  BitVec.ofNat 64 (byteAt 0 + 256 * byteAt 1 + 65536 * byteAt 2 + 16777216 * byteAt 3)
def compPerm (r : Res) (a b c : Src) : Comp :=
  { srcs := [(a, .i32), (b, .i32), (c, .i32)], ty := .i32, kind := .v r, eval := pointwise (fun _ l => plainW (permute l.a l.b l.c)) }

/-- A value moved bit for bit, as the narrow types hold it in a register (R212). -/
def carry (ty : Ty) (x : W64) : W64 :=
  match ty with
  | .f16 | .bf16 => x &&& 0xFFFF#64
  | .i16 | .n16 | .i8 | .n8 => ipack ty (ival ty x)
  | _ => cut ty x
def compSel (ty : Ty) (r : Res) (a b : Src) (pf : PredF) : Comp :=
  { srcs := [(a, ty), (b, ty)], preds := [pf], ty, kind := .v r
    eval := pointwise (fun _ l => plainW (carry ty (if l.ps.headD false then l.a else l.b))) }
def compMov (ty : Ty) (r : Res) (a : Src) : Comp :=
  { srcs := [(a, ty)], ty, kind := .v r, eval := pointwise (fun _ l => plainW (carry ty l.a)) }
def compMovx (ty : Ty) (r : Res) (a : Src) (x : BitVec 2) : Comp :=
  { srcs := [(a, ty)], ty, kind := .vx x r, eval := pointwise (fun _ l => plainW (cut ty l.a)) }

/-- R223: integers by their signedness, floats by their pattern. -/
def compare (ty : Ty) (c : Cond) (x y : W64) : Bool :=
  let a : Int := if ty.isFlt then (uval ty x : Int) else ival ty x
  let b : Int := if ty.isFlt then (uval ty y : Int) else ival ty y
  match c with
  | .eq => a == b
  | .ne => a != b
  | .lt => a < b
  | .le => a ≤ b
  | .gt => b < a
  | .ge => b ≤ a
def compCmp (ty : Ty) (d : BitVec 3) (c : Cond) (a b : Src) : Comp :=
  { srcs := [(a, ty), (b, ty)], ty, kind := .p d, eval := pointwise (fun _ l => plainW (boolW (compare ty c l.a l.b))) }
/-- R224. -/
def compPlop (d : BitVec 3) (pa pb pc : PredF) (table : BitVec 8) : Comp :=
  { srcs := [], preds := [pa, pb, pc], ty := .i32, kind := .p d
    eval := pointwise (fun _ l =>
      let bit (k : Nat) : Nat := if l.ps.getD k false then 2 ^ k else 0
      plainW (boolW (table.getLsbD (bit 0 + bit 1 + bit 2)))) }
/-- R222. -/
def compSetx (d : BitVec 2) (a : Src) (k : IOp) : Comp :=
  match k with
  | .imm n =>
    { srcs := [(a, .i32)], ty := .i32, kind := .x d, eval := pointwise (fun _ l => plainW (l.a + n.signExtend 64)) }
  | .src x =>
    { srcs := [(a, .i32), (x, .i32)], ty := .i32, kind := .x d, eval := pointwise (fun _ l => plainW (l.a + l.b)) }

/-! ### Class 3 (R225 to R230) -/

/-- A floating form of one, two or three operands of its type. -/
def flt1 (ty : Ty) (r : Res) (a : Src) (f : Round → Nat → Flagged Nat) : Comp :=
  { srcs := [(a, ty)], ty, kind := .v r, eval := pointwise (fun c l => fpack (f c.md (uval ty l.a))) }
def flt2 (ty : Ty) (r : Res) (a b : Src) (f : Round → Nat → Nat → Flagged Nat) : Comp :=
  { srcs := [(a, ty), (b, ty)], ty, kind := .v r, eval := pointwise (fun c l => fpack (f c.md (uval ty l.a) (uval ty l.b))) }

def compFadd (ty : Ty) (r : Res) (a b : Src) : Comp := flt2 ty r a b (fAdd ty.fmt)
def compFsub (ty : Ty) (r : Res) (a b : Src) : Comp := flt2 ty r a b (fSub ty.fmt)
def compFmul (ty : Ty) (r : Res) (a b : Src) : Comp := flt2 ty r a b (fMul ty.fmt)
def compFma (ty : Ty) (r : Res) (a b c : Src) : Comp :=
  { srcs := [(a, ty), (b, ty), (c, ty)], ty, kind := .v r
    eval := pointwise (fun x l => fpack (fFma ty.fmt x.md (uval ty l.a) (uval ty l.b) (uval ty l.c))) }
/-- Reading F of R66 as a value of the type. -/
def immFloat (ty : Ty) (f : BitVec 20) : Nat :=
  if ty.fmt = fmtF32 then f.toNat * 4096 else (convert ty .f32 .rne (f.toNat * 4096)).val
/-- D := D × A + F; the operands are D, A. -/
def compFmaImmediate (ty : Ty) (r : Res) (a : Src) (f : BitVec 20) : Comp :=
  { srcs := [(a, ty)], useD := true, ty, kind := .v r
    eval := pointwise (fun x l => fpack (fFma ty.fmt x.md (uval ty l.a) (uval ty l.b) (immFloat ty f))) }
/-- D := D × A + K; the operands are D, A, K. -/
def compFmaConstant (ty : Ty) (r : Res) (a : Src) (f : BitVec 20) : Comp :=
  { srcs := [(a, ty)], useD := true, konst := some f, ty, kind := .v r
    eval := pointwise (fun x l => fpack (fFma ty.fmt x.md (uval ty l.a) (uval ty l.b) (uval ty l.c))) }
def compFmin (ty : Ty) (r : Res) (a b : Src) : Comp := flt2 ty r a b (fun _ => fMinMax ty.fmt false)
def compFmax (ty : Ty) (r : Res) (a b : Src) : Comp := flt2 ty r a b (fun _ => fMinMax ty.fmt true)
def compFabs (ty : Ty) (r : Res) (a : Src) : Comp := flt1 ty r a (fun _ => fAbs ty.fmt)
def compFneg (ty : Ty) (r : Res) (a : Src) : Comp := flt1 ty r a (fun _ => fNeg ty.fmt)
def compFcmp (ty : Ty) (d : BitVec 3) (c : FCond) (a b : Src) : Comp :=
  { srcs := [(a, ty), (b, ty)], ty, kind := .p d
    eval := pointwise (fun _ l => let r := fCmp ty.fmt c (uval ty l.a) (uval ty l.b); ⟨boolW r.val, r.flags⟩) }
def compFclass (ty : Ty) (d : BitVec 3) (a b : Src) : Comp :=
  { srcs := [(a, ty), (b, .i32)], ty, kind := .p d
    eval := pointwise (fun _ l => plainW (boolW (l.b.getLsbD (fClass ty.fmt (uval ty l.a))))) }
def RndMode.round (m : RndMode) (dyn : Round) : Round :=
  match m with
  | .rne => .rne
  | .rz => .rz
  | .rd => .rd
  | .ru => .ru
  | .dyn => dyn
def compFrnd (ty : Ty) (r : Res) (a : Src) (m : RndMode) : Comp := flt1 ty r a (fun md => fRnd ty.fmt (RndMode.round m md))
def compFdiv (ty : Ty) (r : Res) (a b : Src) : Comp := flt2 ty r a b (fDiv ty.fmt)
def compFsqrt (ty : Ty) (r : Res) (a : Src) : Comp := flt1 ty r a (fSqrt ty.fmt)

/-! ### Class 4 (R231 to R234) -/

/-- A conversion's result in its register. -/
def cvtPack (ty : Ty) (r : Flagged Nat) : Flagged W64 :=
  if ty.isFlt then fpack r else ⟨ipack ty (intVal ty r.val), r.flags⟩
def compCvt (ty : Ty) (r : Res) (a : Src) (src : Ty) : Comp :=
  { srcs := [(a, src)], ty, kind := .v r, eval := pointwise (fun c l => cvtPack ty (convert ty src c.md l.a.toNat)) }
/-- The element position is LANE mod 32; a G = 1 form runs as lane 0. -/
def compCvts (ty : Ty) (r : Res) (a : Src) (src : Ty) : Comp :=
  { srcs := [(a, src)], ty, kind := .v r
    eval := pointwise (fun c l => cvtPack ty (convertStoch ty src l.a.toNat (l.lane % 32) c.phi)) }
def compFrcp (ty : Ty) (r : Res) (a : Src) : Comp := flt1 ty r a (fRcp ty.fmt)
def compFrsq (ty : Ty) (r : Res) (a : Src) : Comp := flt1 ty r a (fRsq ty.fmt)
def compFex2 (ty : Ty) (r : Res) (a : Src) : Comp := flt1 ty r a (fEx2 ty.fmt)
def compFlg2 (ty : Ty) (r : Res) (a : Src) : Comp := flt1 ty r a (fLg2 ty.fmt)
def compFsin (ty : Ty) (r : Res) (a : Src) : Comp := flt1 ty r a (fun md => fTrig ty.fmt md false)
def compFcos (ty : Ty) (r : Res) (a : Src) : Comp := flt1 ty r a (fun md => fTrig ty.fmt md true)
def compFtanh (ty : Ty) (r : Res) (a : Src) : Comp := flt1 ty r a (fTanh ty.fmt)

/-! ### Class 5 (R235 to R240) -/

/-- R236: the source lane. -/
def xchLane (m : XchMode) (lane : Nat) (b : W64) : Int :=
  match m with
  | .idx => (uval .n32 b : Int)
  | .xor => ((lane ^^^ uval .n32 b : Nat) : Int)
  | .up => (lane : Int) - ival .i32 b
  | .down => (lane : Int) + ival .i32 b
def compLxch (ty : Ty) (r : Res) (a b : Src) (m : XchMode) : Comp :=
  { srcs := [(a, ty), (b, .i32)], ty, kind := .v r
    eval := fun _ ls => ls.map (fun l =>
      let j := xchLane m l.lane l.b
      match ls.find? (fun k => (k.lane : Int) = j) with
      | some k => plainW (cut ty k.a)
      | none => plainW (cut ty l.a)) }
def LaneIn.p (l : LaneIn) : Bool := l.ps.headD false
def compVoteAll (d : BitVec 3) (pf : PredF) : Comp :=
  { srcs := [], preds := [pf], ty := .i32, kind := .p d
    eval := fun _ ls => ls.map (fun _ => plainW (boolW (ls.all LaneIn.p))) }
def compVoteAny (d : BitVec 3) (pf : PredF) : Comp :=
  { srcs := [], preds := [pf], ty := .i32, kind := .p d
    eval := fun _ ls => ls.map (fun _ => plainW (boolW (ls.any LaneIn.p))) }
/-- Word j of the mask of threads whose predicate holds. -/
def ballotWord (j : Nat) (ls : List LaneIn) : W64 :=
  BitVec.ofNat 64 ((ls.filter (fun l => l.p && l.lane / 32 == j)).foldl (fun n l => n + 2 ^ (l.lane % 32)) 0)
def compVoteBallot (r : Res) (pf : PredF) (j : BitVec 2) : Comp :=
  { srcs := [], preds := [pf], ty := .i32, kind := .v r
    eval := fun _ ls => ls.map (fun _ => plainW (ballotWord j.toNat ls)) }

/-- R238: one step of a fold. -/
def foldStep (ty : Ty) (op : FoldOp) (md : Round) (acc x : W64) : Flagged W64 :=
  match op with
  | .add => if ty.isFlt then fpack (fAdd ty.fmt md (uval ty acc) (uval ty x)) else plainW (ipack ty (ival ty acc + ival ty x))
  | .min =>
    if ty.isFlt then fpack (fMinMax ty.fmt false (uval ty acc) (uval ty x)) else plainW (ipack ty (imin (ival ty acc) (ival ty x)))
  | .max =>
    if ty.isFlt then fpack (fMinMax ty.fmt true (uval ty acc) (uval ty x)) else plainW (ipack ty (imax (ival ty acc) (ival ty x)))
  | .and => plainW (acc &&& x)
  | .or => plainW (acc ||| x)
  | .xor => plainW (acc ^^^ x)
/-- The inclusive prefixes, each with the flags of its own step. -/
def foldScan (ty : Ty) (op : FoldOp) (md : Round) : W64 → List W64 → List (Flagged W64)
  | _, [] => []
  | acc, x :: t => let r := foldStep ty op md acc x; r :: foldScan ty op md r.val t
/-- R91, R238: the operand that a fold starts from; a NaN is delivered as the canonical one, and a signalling one raises
NV. -/
def foldStart (ty : Ty) (x : W64) : Flagged W64 :=
  if ty.isFlt && (ty.fmt.unpack (uval ty x)).isNan then fpack (canonNan ty.fmt (snanFlags [ty.fmt.unpack (uval ty x)])) else plainW x
def foldAll (ty : Ty) (op : FoldOp) (md : Round) (ls : List LaneIn) : List (Flagged W64) :=
  match ls with
  | [] => []
  | l :: t => let s := foldStart ty (cut ty l.a); s :: foldScan ty op md s.val (t.map (fun k => cut ty k.a))
def compGred (ty : Ty) (r : Res) (a : Src) (op : FoldOp) : Comp :=
  { srcs := [(a, ty)], ty, kind := .v r
    eval := fun c ls =>
      let rs := foldAll ty op c.md ls
      let last := (rs.getLast?.map (·.val)).getD 0
      rs.map (fun x => ⟨last, x.flags⟩) }
def compGscan (ty : Ty) (r : Res) (a : Src) (op : FoldOp) : Comp :=
  { srcs := [(a, ty)], ty, kind := .v r, eval := fun c ls => foldAll ty op c.md ls }

/-- R239. -/
def rngkOf (a b : W32) : W32 :=
  let t := a * 0x9E3779B1#32 + b * 0x85EBCA77#32
  let t := t ^^^ (t >>> 15)
  let t := t * 0x2C1B3C6D#32
  t ^^^ (t >>> 12)
def compRngk (r : Res) (a b : Src) : Comp :=
  { srcs := [(a, .n32), (b, .n32)], ty := .n32, kind := .v r
    eval := pointwise (fun _ l => plainW ((rngkOf (l.a.setWidth 32) (l.b.setWidth 32)).setWidth 64)) }
def compElect (d : BitVec 3) : Comp :=
  { srcs := [], ty := .i32, kind := .p d
    eval := fun _ ls => ls.map (fun l => plainW (boolW (ls.all (fun k => l.lane ≤ k.lane)))) }

/-- The compute form of an instruction of classes 1 to 5. -/
def Instr.comp : Instr → Option Comp
  | .add _ ty r a b => some (compAdd ty r a b)
  | .sub _ ty r a b => some (compSub ty r a b)
  | .mul _ ty r a b => some (compMul ty r a b)
  | .mulh _ ty r a b => some (compMulh ty r a b)
  | .mad _ ty r a b c => some (compMad ty r a b c)
  | .madw _ ty r a b c => some (compMadw ty r a b c)
  | .div _ ty r a b => some (compDiv ty r a b)
  | .rem _ ty r a b => some (compRem ty r a b)
  | .abs _ ty r a => some (compAbs ty r a)
  | .neg _ ty r a => some (compNeg ty r a)
  | .min _ ty r a b => some (compMin ty r a b)
  | .max _ ty r a b => some (compMax ty r a b)
  | .clamp _ ty r a b c => some (compClamp ty r a b c)
  | .lea _ ty r a b c => some (compLea ty r a b c)
  | .addc _ ty r a b c => some (compAddc ty r a b c)
  | .subb _ ty r a b c => some (compSubb ty r a b c)
  | .and _ ty r a b => some (compAnd ty r a b)
  | .or _ ty r a b => some (compOr ty r a b)
  | .xor _ ty r a b => some (compXor ty r a b)
  | .andn _ ty r a b => some (compAndn ty r a b)
  | .not _ ty r a => some (compNot ty r a)
  | .shl _ ty r a n => some (compShl ty r a n)
  | .shr _ ty r a n => some (compShr ty r a n)
  | .sar _ ty r a n => some (compSar ty r a n)
  | .rot _ ty r a n => some (compRot ty r a n)
  | .bfx _ ty r a b => some (compBfx ty r a b)
  | .bfi _ ty r a b c => some (compBfi ty r a b c)
  | .popc _ ty r a => some (compPopc ty r a)
  | .clz _ ty r a => some (compClz ty r a)
  | .ctz _ ty r a => some (compCtz ty r a)
  | .brev _ ty r a => some (compBrev ty r a)
  | .perm _ r a b c => some (compPerm r a b c)
  | .sel _ ty r a b pf => some (compSel ty r a b pf)
  | .mov _ ty r a => some (compMov ty r a)
  | .fadd _ ty r a b => some (compFadd ty r a b)
  | .fsub _ ty r a b => some (compFsub ty r a b)
  | .fmul _ ty r a b => some (compFmul ty r a b)
  | .fma _ ty r a b c => some (compFma ty r a b c)
  | .fmaImmediate _ ty r a f => some (compFmaImmediate ty r a f)
  | .fmaConstant _ ty r a f => some (compFmaConstant ty r a f)
  | .fmin _ ty r a b => some (compFmin ty r a b)
  | .fmax _ ty r a b => some (compFmax ty r a b)
  | .fabs _ ty r a => some (compFabs ty r a)
  | .fneg _ ty r a => some (compFneg ty r a)
  | .frnd _ ty r a m => some (compFrnd ty r a m)
  | .fdiv _ ty r a b => some (compFdiv ty r a b)
  | .fsqrt _ ty r a => some (compFsqrt ty r a)
  | .cvt _ ty r a src => some (compCvt ty r a src)
  | .frcp _ ty r a => some (compFrcp ty r a)
  | .frsq _ ty r a => some (compFrsq ty r a)
  | .fex2 _ ty r a => some (compFex2 ty r a)
  | .flg2 _ ty r a => some (compFlg2 ty r a)
  | .fsin _ ty r a => some (compFsin ty r a)
  | .fcos _ ty r a => some (compFcos ty r a)
  | .ftanh _ ty r a => some (compFtanh ty r a)
  | .rngk _ r a b => some (compRngk r a b)
  | .movx _ ty r a x => some (compMovx ty r a x)
  | .cmp _ ty d c a b => some (compCmp ty d c a b)
  | .plop _ d pa pb pc t => some (compPlop d pa pb pc t)
  | .setx _ d a k => some (compSetx d a k)
  | .fcmp _ ty d c a b => some (compFcmp ty d c a b)
  | .fclass _ ty d a b => some (compFclass ty d a b)
  | .cvts _ ty r a src => some (compCvts ty r a src)
  | .lxch _ ty r a b m => some (compLxch ty r a b m)
  | .voteAll _ d pf => some (compVoteAll d pf)
  | .voteAny _ d pf => some (compVoteAny d pf)
  | .voteBallot _ r pf j => some (compVoteBallot r pf j)
  | .gred _ ty r a op => some (compGred ty r a op)
  | .gscan _ ty r a op => some (compGscan ty r a op)
  | .elect _ d => some (compElect d)
  | _ => none

end Sys2Proof.Machine
end

