-- ==== Sys2Proof/Decode.lean ====
section
/-! DEFINITION. Decoding of instruction words (R60 to R70, R83 to R87), total and rejecting by the subcode of R86, and
after it the encoder written from the same tables. -/
namespace Sys2Proof

/-- The TY codes (R89, R90). -/
def Ty.code : Ty → BitVec 4
  | .i32 => 0 | .n32 => 1 | .i64 => 2 | .n64 => 3 | .f32 => 4 | .f64 => 5 | .f16 => 6 | .bf16 => 7
  | .i16 => 8 | .n16 => 9 | .i8 => 10 | .n8 => 11 | .bfp => 12

/-- The type of a TY code; codes 13 to 15 belong to no form and the checks refuse them. -/
def Ty.ofCode (c : BitVec 4) : Ty :=
  match c.toNat with
  | 0 => .i32 | 1 => .n32 | 2 => .i64 | 3 => .n64 | 4 => .f32 | 5 => .f64 | 6 => .f16 | 7 => .bf16
  | 8 => .i16 | 9 => .n16 | 10 => .i8 | 11 => .n8 | _ => .bfp

/-- The bits of an instruction, field by field (R64). `lits` are the words after the head. -/
structure Raw where
  opc : BitVec 10
  ty : BitVec 4
  g : Bool
  grd : BitVec 4
  nwb : Bool
  lat : BitVec 2
  d : BitVec 8
  a : BitVec 11
  b : BitVec 11
  c : BitVec 10
  lits : Lits
  deriving DecidableEq, Repr

/-- LEN from the words present (R60). -/
def Lits.len : Lits → BitVec 2
  | .none => 1
  | .one _ => 2
  | .two _ _ => 3

def Lits.words : Lits → List W32
  | .none => []
  | .one w => [w]
  | .two w v => [w, v]

/-- Head bits [31:0] (R64). -/
def Raw.lo (r : Raw) : W32 :=
  r.d ++ r.lat ++ BitVec.ofBool r.nwb ++ r.grd ++ BitVec.ofBool r.g ++ r.ty ++ r.opc ++ r.lits.len

/-- Head bits [63:32] (R64). -/
def Raw.hi (r : Raw) : W32 := r.c ++ r.b ++ r.a

/-- The words of an instruction, in address order (R60). -/
def Raw.words (r : Raw) : List W32 := r.lo :: r.hi :: r.lits.words

/-- The fields of a head and its literal words (R64). -/
def Raw.ofHead (lo hi : W32) (lits : Lits) : Raw :=
  { opc := lo.extractLsb' 2 10, ty := lo.extractLsb' 12 4, g := lo.getLsbD 16, grd := lo.extractLsb' 17 4
    nwb := lo.getLsbD 21, lat := lo.extractLsb' 22 2, d := lo.extractLsb' 24 8
    a := hi.extractLsb' 0 11, b := hi.extractLsb' 11 11, c := hi.extractLsb' 22 10, lits := lits }

/-- KIND 11 in an 11-bit or a 10-bit source field (R69). -/
def kind11 (w : BitVec 11) : Bool := w.extractLsb' 9 2 == 3
def kind10 (w : BitVec 10) : Bool := w.extractLsb' 8 2 == 3

/-- The source that an 11-bit field names (R69). -/
def src11 (w : BitVec 11) : Src :=
  match (w.extractLsb' 9 2).toNat with
  | 0 => .v (w.extractLsb' 0 8)
  | 1 => .vx (w.extractLsb' 7 2) (w.extractLsb' 0 7)
  | _ =>
    match (w.extractLsb' 6 3).toNat with
    | 0 => .s (w.extractLsb' 0 6)
    | 1 => .x (w.extractLsb' 0 2)
    | 2 => .h (w.extractLsb' 0 4)
    | 3 => .b (w.extractLsb' 0 2)
    | 4 => .lit0
    | 5 => .lit1
    | 6 => .lit64
    | _ => .imm (w.extractLsb' 0 6)

/-- The source that the 10-bit C field names (R69). -/
def src10 (w : BitVec 10) : Src :=
  match (w.extractLsb' 8 2).toNat with
  | 0 => .v (w.extractLsb' 0 8)
  | 1 => .vx (w.extractLsb' 6 2) ((w.extractLsb' 0 6).zeroExtend 7)
  | _ =>
    match (w.extractLsb' 5 3).toNat with
    | 0 => .s ((w.extractLsb' 0 5).zeroExtend 6)
    | 1 => .x (w.extractLsb' 0 2)
    | 2 => .h (w.extractLsb' 0 4)
    | 3 => .b (w.extractLsb' 0 2)
    | 4 => .lit0
    | 5 => .lit1
    | 6 => .lit64
    | _ => .imm ((w.extractLsb' 0 5).signExtend 6)

/-- The encoding of a source in an 11-bit field. -/
def Src.enc11 : Src → BitVec 11
  | .v n => 0#3 ++ n
  | .vx xi base => 1#2 ++ xi ++ base
  | .s n => 2#2 ++ 0#3 ++ n
  | .x n => 2#2 ++ 1#3 ++ 0#4 ++ n
  | .h n => 2#2 ++ 2#3 ++ 0#2 ++ n
  | .b n => 2#2 ++ 3#3 ++ 0#4 ++ n
  | .lit0 => 0x500 | .lit1 => 0x540 | .lit64 => 0x580
  | .imm i => 2#2 ++ 7#3 ++ i

/-- The encoding of a source in the 10-bit C field. -/
def Src.enc10 : Src → BitVec 10
  | .v n => 0#2 ++ n
  | .vx xi base => 1#2 ++ xi ++ base.setWidth 6
  | .s n => 2#2 ++ 0#3 ++ n.setWidth 5
  | .x n => 2#2 ++ 1#3 ++ 0#3 ++ n
  | .h n => 2#2 ++ 2#3 ++ 0#1 ++ n
  | .b n => 2#2 ++ 3#3 ++ 0#3 ++ n
  | .lit0 => 0x280 | .lit1 => 0x2A0 | .lit64 => 0x2C0
  | .imm i => 2#2 ++ 7#3 ++ i.setWidth 5

/-- A reserved bit of a source field is set (R69): the field is not the encoding of what it names. -/
def rsv11 (w : BitVec 11) : Bool := !kind11 w && (src11 w).enc11 != w
def rsv10 (w : BitVec 10) : Bool := !kind10 w && (src10 w).enc10 != w

/-- Order and scope codes (R67); a reserved code reads as the first name and the checks refuse it. -/
def Order.code : Order → BitVec 3
  | .rlx => 0 | .acq => 1 | .rel => 2 | .ar => 3 | .sc => 4
def Order.ofCode (c : BitVec 3) : Order :=
  match c.toNat with
  | 1 => .acq | 2 => .rel | 3 => .ar | 4 => .sc | _ => .rlx
def Scope.code : Scope → BitVec 3
  | .grp => 0 | .team => 1 | .pair => 2 | .die => 3 | .dev => 4 | .sys => 5
def Scope.ofCode (c : BitVec 3) : Scope :=
  match c.toNat with
  | 1 => .team | 2 => .pair | 3 => .die | 4 => .dev | 5 => .sys | _ => .grp

/-- R191: the register numbers: each block of 16 begins with these registers. -/
def SysReg.blocks : List (Nat × List SysReg) :=
  [(0x00, [.lane, .gidx, .team, .nteam, .vcore, .width, .split, .core, .die, .part]),
   (0x10, [.frm, .fstat, .dphase, .sigacc, .rgnpc, .pwr, .lease, .mpcount]),
   (0x20, [.fva, .mapst, .pgwatch, .tcause, .epc, .tmask, .taux])]
def SysReg.code (n : SysReg) : BitVec 20 :=
  BitVec.ofNat 20 ((SysReg.blocks.findSome? (fun b => (b.2.findIdx? (· == n)).map (b.1 + ·))).getD 0)
def SysReg.ofCode (c : BitVec 20) : Option SysReg :=
  (SysReg.blocks.find? (fun b => b.1 == c.toNat / 16 * 16)).bind (fun b => b.2[c.toNat % 16]?)

/-- Counter numbers of R355. -/
def Counter.code : Counter → BitVec 20
  | .cycle => 0x000 | .epart => 0x001 | .eslot => 0x002 | .allow => 0x003 | .wheld => 0x004
  | .pf1 k => 0x010 + k.setWidth 20 | .pfl k => 0x014 + k.setWidth 20
  | .fetch => 0x018 | .fused => 0x019 | .lgrant => 0x020 | .lpass => 0x021 | .mparm => 0x030 | .mpwake => 0x031
  | .evt c => 0x040 + c.setWidth 20
def Counter.ofCode (c : BitVec 20) : Option Counter :=
  match c.toNat with
  | 0x000 => some .cycle | 0x001 => some .epart | 0x002 => some .eslot | 0x003 => some .allow | 0x004 => some .wheld
  | 0x010 | 0x011 | 0x012 | 0x013 => some (.pf1 (c.setWidth 2))
  | 0x014 | 0x015 | 0x016 | 0x017 => some (.pfl (c.setWidth 2))
  | 0x018 => some .fetch | 0x019 => some .fused | 0x020 => some .lgrant | 0x021 => some .lpass
  | 0x030 => some .mparm | 0x031 => some .mpwake
  | n => if n ≥ 0x040 ∧ n ≤ 0x04C then some (.evt (c.setWidth 4)) else none

def Cond.code : Cond → BitVec 5
  | .eq => 0 | .ne => 1 | .lt => 2 | .le => 3 | .gt => 4 | .ge => 5
def Cond.ofCode (c : BitVec 5) : Cond :=
  match c.toNat with
  | 0 => .eq | 1 => .ne | 2 => .lt | 3 => .le | 4 => .gt | _ => .ge
def FCond.code : FCond → BitVec 5
  | .eq => 0 | .ne => 1 | .lt => 2 | .le => 3 | .gt => 4 | .ge => 5 | .num => 6 | .nan => 7 | .equ => 8 | .neu => 9
  | .ltu => 10 | .leu => 11 | .gtu => 12 | .geu => 13
def FCond.ofCode (c : BitVec 5) : FCond :=
  match c.toNat with
  | 0 => .eq | 1 => .ne | 2 => .lt | 3 => .le | 4 => .gt | 5 => .ge | 6 => .num | 7 => .nan | 8 => .equ | 9 => .neu
  | 10 => .ltu | 11 => .leu | 12 => .gtu | _ => .geu
def RndMode.code : RndMode → BitVec 6
  | .rne => 0 | .rz => 1 | .rd => 2 | .ru => 3 | .dyn => 4
def RndMode.ofCode (n : Nat) : RndMode :=
  match n with
  | 0 => .rne | 1 => .rz | 2 => .rd | 3 => .ru | _ => .dyn
def XchMode.code : XchMode → BitVec 6
  | .idx => 0 | .xor => 1 | .up => 2 | .down => 3
def XchMode.ofCode (n : Nat) : XchMode :=
  match n with
  | 0 => .idx | 1 => .xor | 2 => .up | _ => .down
def FoldOp.code : FoldOp → BitVec 6
  | .add => 0 | .min => 1 | .max => 2 | .and => 3 | .or => 4 | .xor => 5
def FoldOp.ofCode (n : Nat) : FoldOp :=
  match n with
  | 0 => .add | 1 => .min | 2 => .max | 3 => .and | 4 => .or | _ => .xor
def AtmOp.code : AtmOp → BitVec 4
  | .add => 0 | .min => 1 | .max => 2 | .and => 3 | .or => 4 | .xor => 5 | .exch => 6
def AtmOp.ofCode (n : Nat) : AtmOp :=
  match n with
  | 0 => .add | 1 => .min | 2 => .max | 3 => .and | 4 => .or | 5 => .xor | _ => .exch

/-- A predicate field (R213). -/
def PredF.enc (p : PredF) : BitVec 5 := BitVec.ofBool p.neg ++ BitVec.ofBool p.q ++ p.idx
def PredF.dec (w : BitVec 5) : PredF := ⟨w.getLsbD 4, w.getLsbD 3, w.extractLsb' 0 3⟩

/-- The 20-bit field F of the immediate layout: head bits [62:43] (R65). -/
def Raw.f (r : Raw) : BitVec 20 := r.c.setWidth 9 ++ r.b
/-- The C and B fields of an F value. -/
def fC (f : BitVec 20) : BitVec 10 := 0#1 ++ f.extractLsb' 11 9
def fB (f : BitVec 20) : BitVec 11 := f.extractLsb' 0 11

/-- Scope, order and hint of the memory layout: head bits [63:54] (R65, R67). -/
@[simp] def Raw.scopeC (r : Raw) : BitVec 3 := r.c.extractLsb' 7 3
@[simp] def Raw.orderC (r : Raw) : BitVec 3 := r.c.extractLsb' 4 3
@[simp] def Raw.hintC (r : Raw) : BitVec 4 := r.c.extractLsb' 0 4
def qualC (o : Order) (sc : Scope) (hint : BitVec 4) : BitVec 10 := sc.code ++ o.code ++ hint

/-- Reading I of F (R66). -/
def IOp.dec (f : BitVec 20) : IOp := if f.getLsbD 19 then .src (src11 (f.setWidth 11)) else .imm (f.setWidth 19)
def IOp.enc : IOp → BitVec 20
  | .imm k => 0#1 ++ k
  | .src x => 1#1 ++ 0#8 ++ x.enc11

/-- The atomic word (R67): data, second source or form field, failure order. -/
def atomWord (data second : BitVec 11) (fail : BitVec 3) : W32 := 0#7 ++ fail ++ second ++ data
def Raw.aw (r : Raw) : W32 :=
  match r.lits with
  | .one w => w
  | _ => 0
def Raw.awData (r : Raw) : BitVec 11 := r.aw.extractLsb' 0 11
def Raw.awSecond (r : Raw) : BitVec 11 := r.aw.extractLsb' 11 11
def Raw.awFail (r : Raw) : BitVec 3 := r.aw.extractLsb' 22 3
def Raw.awOp (r : Raw) : BitVec 4 := r.aw.extractLsb' 11 4

/-- Layouts of R65, with the readings of R66. -/
inductive Layout where
  | reg | immI | imm | mem | atom
  deriving DecidableEq, Repr

/-- What a head field of a form holds. -/
inductive Slot where
  /-- Not used: all zeros (R64). -/
  | unused
  /-- A source of the width of TY. -/
  | tySrc
  /-- A source of a fixed width. -/
  | src (u : Use)
  /-- A source field that must name an immediate, an index register or a handle; read by the form's own check. -/
  | named
  /-- A field outside R69: only the bits of the mask may be set (R213). -/
  | bits (mask : BitVec 11)
  deriving DecidableEq, Repr

/-- Result kinds of R85, with the layouts of D that the forms give. -/
inductive RKind where
  /-- V of the width of TY; V of 32 bits; V of 64 bits. -/
  | v | v32 | v64
  /-- P; P with a condition in D[7:3]. -/
  | p | pCond
  | x | h
  /-- No result, D zero. -/
  | none
  /-- D names the data of the width of TY, a 32-bit length or phase, a call's link, any vector register. -/
  | data | len | link | vreg
  deriving DecidableEq, Repr

inductive Lens where
  | l64 | any | l96
  deriving DecidableEq, Repr

/-- One row of R83: a major form with its legal combinations, its fields, its own checks and what it builds. -/
structure Form where
  opc : Nat
  layout : Layout := .reg
  /-- Legal TY codes: bit t for code t. -/
  tys : BitVec 16 := 1
  g0 : Bool := true
  g1 : Bool := true
  res : RKind := .none
  lens : Lens := .any
  sup : Bool := false
  a : Slot := .unused
  b : Slot := .unused
  c : Slot := .unused
  /-- Orders admitted (R151), as a set of codes; only code 0 when the form has no order. -/
  orders : BitVec 8 := 1
  /-- Whether the form admits a scope other than 000. -/
  hasScope : Bool := false
  /-- Hint codes admitted (R152). -/
  hints : BitVec 8 := 1
  /-- The form's own checks: subcode, and whether it fails. -/
  extra : Raw → List (Nat × Bool) := fun _ => []
  build : Raw → Instr

/-- The head of a decoded instruction. -/
def Raw.head (r : Raw) : Head := ⟨r.g, r.grd.getLsbD 3, r.grd.extractLsb' 0 3, r.lits⟩
/-- The head of an atomic form, whose literal word is no literal (R67). -/
def Raw.headA (r : Raw) : Head := ⟨r.g, r.grd.getLsbD 3, r.grd.extractLsb' 0 3, .none⟩
@[simp] def Raw.res (r : Raw) : Res := ⟨r.nwb, r.lat, r.d⟩
@[simp] def Raw.t (r : Raw) : Ty := Ty.ofCode r.ty
@[simp] def Raw.sa (r : Raw) : Src := src11 r.a
@[simp] def Raw.sb (r : Raw) : Src := src11 r.b
@[simp] def Raw.sc (r : Raw) : Src := src10 r.c
@[simp] def Raw.ord (r : Raw) : Order := Order.ofCode r.orderC
@[simp] def Raw.scp (r : Raw) : Scope := Scope.ofCode r.scopeC
@[simp] def Raw.hint3 (r : Raw) : BitVec 3 := r.hintC.setWidth 3
@[simp] def Raw.rc (r : Raw) : Bool := r.hintC.getLsbD 3
/-- The `.sp` hint code 101 (R152). -/
def Raw.sp (r : Raw) : Bool := r.hint3 == 5
@[simp] def Raw.d3 (r : Raw) : BitVec 3 := r.d.setWidth 3
@[simp] def Raw.d4 (r : Raw) : BitVec 4 := r.d.setWidth 4
@[simp] def Raw.cond5 (r : Raw) : BitVec 5 := r.d.extractLsb' 3 5

/-- The number that an immediate source stands for, when the source is one. -/
def Src.immVal : Src → Option Int
  | .imm i => some i.toInt
  | _ => none
def Src.immNat (x : Src) : Nat := (x.immVal.getD 0).toNat
/-- The source is an immediate between the bounds. -/
def Src.immIn (lo hi : Int) (x : Src) : Bool :=
  match x.immVal with
  | some k => lo ≤ k && k ≤ hi
  | none => false
def Src.isImm (x : Src) : Bool := x.immVal.isSome
def Src.handle : Src → BitVec 4
  | .h n => n
  | _ => 0
def Src.isHandle : Src → Bool
  | .h _ => true
  | _ => false
def Src.xIndex : Src → BitVec 2
  | .x n => n
  | _ => 0
def Src.isX : Src → Bool
  | .x _ => true
  | _ => false

/-- R70: a source that G = 1 refuses whatever it is read for. -/
@[simp] def Src.refusedBy (g : Bool) : Src → Bool
  | .v _ | .vx _ _ | .x _ | .b _ => g
  | _ => false
/-- R86: a field that must name an immediate between the bounds, and a kind of source that is refused there as well. -/
@[simp] def fieldChecks (g : Bool) (lo hi : Int) (x : Src) : List (Nat × Bool) := [(0x0C, !x.immIn lo hi), (0x0A, x.refusedBy g)]

/-- The width m of a TY 12 form (R83): a 5-bit immediate from `lo` to 8. -/
def mChecks (lo : Int) (r : Raw) : List (Nat × Bool) :=
  [(0x0C, r.t == .bfp && !r.sc.immIn lo 8),
   (0x0A, r.t == .bfp && r.sc.refusedBy r.g),
   (0x07, r.t != .bfp && r.c != 0)]
/-- The width m, 0 for the other types. -/
def Raw.m (r : Raw) : BitVec 4 := if r.t == .bfp then BitVec.ofNat 4 r.sc.immNat else 0

def tyALL : BitVec 16 := 0x0FFF
def tyINT : BitVec 16 := 0x0F0F
def tyW : BitVec 16 := 0x000F
def tyFLT : BitVec 16 := 0x00F0

/-- R192: what `srd` and `swr` refuse of a register number. -/
def srdChecks (r : Raw) : List (Nat × Bool) :=
  match SysReg.ofCode r.f with
  | some n => [(0x0C, n == .pgwatch || (r.g && n.perThread))]
  | none => [(0x0C, true)]
def swrChecks (r : Raw) : List (Nat × Bool) :=
  match SysReg.ofCode r.f with
  | some n => [(0x0C, !(n.plainWrite || n == .rgnpc || n == .pgwatch) || (r.g && n.perThread))]
  | none => [(0x0C, true)]
def buildSwr (r : Raw) : Instr :=
  match SysReg.ofCode r.f with
  | some .pgwatch => .swrPgwatch r.head r.t r.sa
  | some .rgnpc => .swrRgnpc r.head r.t r.sa
  | some n => .swr r.head r.t r.sa n
  | none => .swr r.head r.t r.sa .frm
/-- R213: a p register named with G = 1. -/
def predBad (r : Raw) (w : BitVec 5) : Bool := !(PredF.dec w).ok r.g
/-- R159: the operation of the atomic word. -/
def opChecks (r : Raw) : List (Nat × Bool) :=
  [(0x07, r.aw.extractLsb' 15 7 != 0 || r.aw.extractLsb' 25 7 != 0),
   (0x0C, r.awOp.toNat > 6 || !(AtmOp.ofCode r.awOp.toNat).ok r.t), (0x0B, r.awFail != 0)]
/-- R67, R70: a source of the atomic word. -/
def awSrc (r : Raw) (u : Use) (w : BitVec 11) : List (Nat × Bool) :=
  [(0x07, rsv11 w), (0x08, kind11 w), (0x0A, !(src11 w).kindOk r.g u || (src11 w).isLit)]
def aChecks (r : Raw) : List (Nat × Bool) := [(0x0A, r.sa.isLit || r.sb.isLit)]

/-- R83: B names the source type of `cvt` and `cvts`, which gives A its width. Where B names none, A still fails when
neither width admits its kind. -/
def cvtChecks (lo hi : Int) (r : Raw) : List (Nat × Bool) :=
  fieldChecks r.g lo hi r.sb ++ [
   (0x0A, if r.sb.immIn lo hi then !r.sa.kindOk r.g (Ty.ofCode (BitVec.ofNat 4 r.sb.immNat)).use
          else !r.sa.kindOk r.g .w32 && !r.sa.kindOk r.g .w64)]
/-- R237: the three forms of `vote`; B differs with TY. -/
def voteChecks (r : Raw) : List (Nat × Bool) :=
  if r.ty = 2 then [(0x0C, !r.sb.immIn 0 3)] else [(0x07, r.b != 0)]
def buildVote (r : Raw) : Instr :=
  let pf := PredF.dec (r.a.setWidth 5)
  if r.ty = 0 then .voteAll r.head r.d3 pf
  else if r.ty = 1 then .voteAny r.head r.d3 pf
  else .voteBallot r.head r.res pf (BitVec.ofNat 2 r.sb.immNat)
/-- R238. -/
def foldChecks (r : Raw) : List (Nat × Bool) :=
  [(0x0A, !r.sc.isImm), (0x0C, r.sc.isImm && (!r.sc.immIn 0 5 || !(FoldOp.ofCode r.sc.immNat).ok r.t))]
/-- R300: B is the record of `emit` and is zero for the flush form. -/
def emitChecks (r : Raw) : List (Nat × Bool) :=
  if r.ty = 1 then [(0x07, r.b != 0)] else [(0x0A, !r.sb.kindOk r.g .w64)]

/-- Class 0 (R83, R241 to R262). -/
def formsControl : List Form := [
  { opc := 0x000, lens := .l64,
    build := fun r => .nop r.head },
  { opc := 0x001, layout := .imm, lens := .l64,
    build := fun r => .bra r.head r.f },
  { opc := 0x002, a := .src .w64, b := .src .w32,
    build := fun r => .jmp r.head r.sa r.sb },
  { opc := 0x003, layout := .imm, res := .link, lens := .l64,
    build := fun r => .call r.head r.d r.f },
  { opc := 0x004, lens := .l64, a := .src .w64,
    build := fun r => .ret r.head r.sa },
  { opc := 0x005, lens := .l64,
    build := fun r => .exit r.head },
  { opc := 0x006, g1 := false, a := .src .uni64, b := .src .uni64,
    build := fun r => .rejoin r.head r.sa r.sb },
  { opc := 0x007, layout := .imm, lens := .l64,
    build := fun r => .trap r.head r.f },
  { opc := 0x008, layout := .imm, lens := .l64,
    build := fun r => .sysc r.head r.f },
  { opc := 0x009, lens := .l64, sup := true, a := .named, extra := fun r => [(0x0A, !r.sa.isImm), (0x0C, r.sa.isImm && !r.sa.immIn 0 1)],
    build := fun r => if r.sa.immNat = 1 then .eretExit r.head else .eret r.head },
  { opc := 0x00a, layout := .imm, lens := .l64,
    build := fun r => .bkpt r.head r.f },
  { opc := 0x00b, layout := .imm, lens := .l64, extra := fun r => [(0x0C, r.f.extractLsb' 16 4 != 0)],
    build := fun r => .sigchk r.head (r.f.setWidth 16) },
  { opc := 0x00c, lens := .l64,
    build := fun r => .rgn r.head },
  { opc := 0x00d, layout := .imm, tys := 0x0005, res := .v, lens := .l64, extra := srdChecks,
    build := fun r => .srd r.head r.t r.res ((SysReg.ofCode r.f).getD .lane) },
  { opc := 0x00e, layout := .imm, tys := 0x0005, a := .tySrc, extra := swrChecks,
    build := fun r => buildSwr r },
  { opc := 0x00f, g0 := false, sup := true, a := .src .w64,
    build := fun r => .tevict r.head r.sa }]

/-- Class 1 (R83, R216 to R218). -/
def formsInt : List Form := [
  { opc := 0x040, tys := tyINT, res := .v, a := .tySrc, b := .tySrc,
    build := fun r => .add r.head r.t r.res r.sa r.sb },
  { opc := 0x041, tys := tyINT, res := .v, a := .tySrc, b := .tySrc,
    build := fun r => .sub r.head r.t r.res r.sa r.sb },
  { opc := 0x042, tys := tyINT, res := .v, a := .tySrc, b := .tySrc,
    build := fun r => .mul r.head r.t r.res r.sa r.sb },
  { opc := 0x043, tys := tyW, res := .v, a := .tySrc, b := .tySrc,
    build := fun r => .mulh r.head r.t r.res r.sa r.sb },
  { opc := 0x044, tys := tyINT, res := .v, a := .tySrc, b := .tySrc, c := .tySrc,
    build := fun r => .mad r.head r.t r.res r.sa r.sb r.sc },
  { opc := 0x045, tys := 0x0003, res := .v64, a := .src .w32, b := .src .w32, c := .src .w64,
    build := fun r => .madw r.head r.t r.res r.sa r.sb r.sc },
  { opc := 0x046, tys := tyW, res := .v, a := .tySrc, b := .tySrc,
    build := fun r => .div r.head r.t r.res r.sa r.sb },
  { opc := 0x047, tys := tyW, res := .v, a := .tySrc, b := .tySrc,
    build := fun r => .rem r.head r.t r.res r.sa r.sb },
  { opc := 0x048, tys := tyINT, res := .v, a := .tySrc,
    build := fun r => .abs r.head r.t r.res r.sa },
  { opc := 0x049, tys := tyINT, res := .v, a := .tySrc,
    build := fun r => .neg r.head r.t r.res r.sa },
  { opc := 0x04a, tys := tyINT, res := .v, a := .tySrc, b := .tySrc,
    build := fun r => .min r.head r.t r.res r.sa r.sb },
  { opc := 0x04b, tys := tyINT, res := .v, a := .tySrc, b := .tySrc,
    build := fun r => .max r.head r.t r.res r.sa r.sb },
  { opc := 0x04c, tys := tyINT, res := .v, a := .tySrc, b := .tySrc, c := .tySrc,
    build := fun r => .clamp r.head r.t r.res r.sa r.sb r.sc },
  { opc := 0x04d, tys := 0x000C, res := .v64, a := .src .w64, b := .src .w32, c := .src .w32,
    build := fun r => .lea r.head r.t r.res r.sa r.sb r.sc },
  { opc := 0x04e, tys := tyW, res := .v, a := .tySrc, b := .tySrc, c := .tySrc,
    build := fun r => .addc r.head r.t r.res r.sa r.sb r.sc },
  { opc := 0x04f, tys := tyW, res := .v, a := .tySrc, b := .tySrc, c := .tySrc,
    build := fun r => .subb r.head r.t r.res r.sa r.sb r.sc }]

/-- Class 2 (R83, R219 to R224). -/
def formsBit : List Form := [
  { opc := 0x080, tys := tyW, res := .v, a := .tySrc, b := .tySrc,
    build := fun r => .and r.head r.t r.res r.sa r.sb },
  { opc := 0x081, tys := tyW, res := .v, a := .tySrc, b := .tySrc,
    build := fun r => .or r.head r.t r.res r.sa r.sb },
  { opc := 0x082, tys := tyW, res := .v, a := .tySrc, b := .tySrc,
    build := fun r => .xor r.head r.t r.res r.sa r.sb },
  { opc := 0x083, tys := tyW, res := .v, a := .tySrc, b := .tySrc,
    build := fun r => .andn r.head r.t r.res r.sa r.sb },
  { opc := 0x084, tys := tyW, res := .v, a := .tySrc,
    build := fun r => .not r.head r.t r.res r.sa },
  { opc := 0x085, layout := .immI, tys := tyW, res := .v, a := .tySrc,
    build := fun r => .shl r.head r.t r.res r.sa (IOp.dec r.f) },
  { opc := 0x086, layout := .immI, tys := tyW, res := .v, a := .tySrc,
    build := fun r => .shr r.head r.t r.res r.sa (IOp.dec r.f) },
  { opc := 0x087, layout := .immI, tys := tyW, res := .v, a := .tySrc,
    build := fun r => .sar r.head r.t r.res r.sa (IOp.dec r.f) },
  { opc := 0x088, layout := .immI, tys := tyW, res := .v, a := .tySrc,
    build := fun r => .rot r.head r.t r.res r.sa (IOp.dec r.f) },
  { opc := 0x089, tys := tyW, res := .v, a := .tySrc, b := .tySrc,
    build := fun r => .bfx r.head r.t r.res r.sa r.sb },
  { opc := 0x08a, tys := tyW, res := .v, a := .tySrc, b := .tySrc, c := .tySrc,
    build := fun r => .bfi r.head r.t r.res r.sa r.sb r.sc },
  { opc := 0x08b, tys := tyW, res := .v, a := .tySrc,
    build := fun r => .popc r.head r.t r.res r.sa },
  { opc := 0x08c, tys := tyW, res := .v, a := .tySrc,
    build := fun r => .clz r.head r.t r.res r.sa },
  { opc := 0x08d, tys := tyW, res := .v, a := .tySrc,
    build := fun r => .ctz r.head r.t r.res r.sa },
  { opc := 0x08e, tys := tyW, res := .v, a := .tySrc,
    build := fun r => .brev r.head r.t r.res r.sa },
  { opc := 0x08f, res := .v32, a := .src .w32, b := .src .w32, c := .src .w32,
    build := fun r => .perm r.head r.res r.sa r.sb r.sc },
  { opc := 0x090, tys := tyALL, res := .v, a := .tySrc, b := .tySrc, c := .bits 0x01F, extra := fun r => [(0x0A, predBad r (r.c.setWidth 5))],
    build := fun r => .sel r.head r.t r.res r.sa r.sb (PredF.dec (r.c.setWidth 5)) },
  { opc := 0x091, tys := tyALL, res := .v, a := .tySrc,
    build := fun r => .mov r.head r.t r.res r.sa },
  { opc := 0x092, tys := 0x0005, g1 := false, res := .vreg, a := .tySrc, c := .named, extra := fun r => [(0x0A, !r.sc.isX)],
    build := fun r => .movx r.head r.t r.res r.sa r.sc.xIndex },
  { opc := 0x093, tys := tyALL, res := .pCond, a := .tySrc, b := .tySrc, extra := fun r => [(0x0C, r.cond5.toNat > 5)],
    build := fun r => .cmp r.head r.t r.d3 (Cond.ofCode r.cond5) r.sa r.sb },
  { opc := 0x094, res := .p, lens := .l64, a := .bits 0x3FF, b := .bits 0x01F, c := .bits 0x0FF, extra := fun r => [(0x0A, predBad r (r.a.setWidth 5) || predBad r (r.a.extractLsb' 5 5) || predBad r (r.b.setWidth 5))],
    build := fun r => .plop r.head r.d3 (PredF.dec (r.a.setWidth 5)) (PredF.dec (r.a.extractLsb' 5 5)) (PredF.dec (r.b.setWidth 5)) (r.c.setWidth 8) },
  { opc := 0x095, layout := .immI, g1 := false, res := .x, a := .src .w32,
    build := fun r => .setx r.head (r.d.setWidth 2) r.sa (IOp.dec r.f) }]

/-- Class 3 (R83, R225 to R230). -/
def formsFloat : List Form := [
  { opc := 0x0c0, tys := tyFLT, res := .v, a := .tySrc, b := .tySrc,
    build := fun r => .fadd r.head r.t r.res r.sa r.sb },
  { opc := 0x0c1, tys := tyFLT, res := .v, a := .tySrc, b := .tySrc,
    build := fun r => .fsub r.head r.t r.res r.sa r.sb },
  { opc := 0x0c2, tys := tyFLT, res := .v, a := .tySrc, b := .tySrc,
    build := fun r => .fmul r.head r.t r.res r.sa r.sb },
  { opc := 0x0c3, tys := tyFLT, res := .v, a := .tySrc, b := .tySrc, c := .tySrc,
    build := fun r => .fma r.head r.t r.res r.sa r.sb r.sc },
  { opc := 0x0c4, layout := .imm, tys := tyFLT, res := .v, a := .tySrc,
    build := fun r => .fmaImmediate r.head r.t r.res r.sa r.f },
  { opc := 0x0c5, layout := .imm, tys := tyFLT, res := .v, a := .tySrc,
    build := fun r => .fmaConstant r.head r.t r.res r.sa r.f },
  { opc := 0x0c6, tys := tyFLT, res := .v, a := .tySrc, b := .tySrc,
    build := fun r => .fmin r.head r.t r.res r.sa r.sb },
  { opc := 0x0c7, tys := tyFLT, res := .v, a := .tySrc, b := .tySrc,
    build := fun r => .fmax r.head r.t r.res r.sa r.sb },
  { opc := 0x0c8, tys := tyFLT, res := .v, a := .tySrc,
    build := fun r => .fabs r.head r.t r.res r.sa },
  { opc := 0x0c9, tys := tyFLT, res := .v, a := .tySrc,
    build := fun r => .fneg r.head r.t r.res r.sa },
  { opc := 0x0ca, tys := tyFLT, res := .pCond, a := .tySrc, b := .tySrc, extra := fun r => [(0x0C, r.cond5.toNat > 13)],
    build := fun r => .fcmp r.head r.t r.d3 (FCond.ofCode r.cond5) r.sa r.sb },
  { opc := 0x0cb, tys := tyFLT, res := .p, a := .tySrc, b := .src .w32,
    build := fun r => .fclass r.head r.t r.d3 r.sa r.sb },
  { opc := 0x0cc, tys := tyFLT, res := .v, a := .tySrc, c := .named, extra := fun r => [(0x0A, !r.sc.isImm), (0x0C, r.sc.isImm && !r.sc.immIn 0 4)],
    build := fun r => .frnd r.head r.t r.res r.sa (RndMode.ofCode r.sc.immNat) },
  { opc := 0x0cd, tys := 0x0030, res := .v, a := .tySrc, b := .tySrc,
    build := fun r => .fdiv r.head r.t r.res r.sa r.sb },
  { opc := 0x0ce, tys := 0x0030, res := .v, a := .tySrc,
    build := fun r => .fsqrt r.head r.t r.res r.sa }]

/-- Class 4 (R83, R231 to R234). -/
def formsConv : List Form := [
  { opc := 0x100, tys := tyALL, res := .v, a := .named, b := .named, extra := cvtChecks 0 11,
    build := fun r => .cvt r.head r.t r.res r.sa (Ty.ofCode (BitVec.ofNat 4 r.sb.immNat)) },
  { opc := 0x101, tys := 0x0FC0, res := .v, a := .named, b := .named, extra := cvtChecks 4 5,
    build := fun r => .cvts r.head r.t r.res r.sa (Ty.ofCode (BitVec.ofNat 4 r.sb.immNat)) },
  { opc := 0x102, tys := 0x0030, res := .v, a := .tySrc,
    build := fun r => .frcp r.head r.t r.res r.sa },
  { opc := 0x103, tys := 0x0030, res := .v, a := .tySrc,
    build := fun r => .frsq r.head r.t r.res r.sa },
  { opc := 0x104, tys := 0x00D0, res := .v, a := .tySrc,
    build := fun r => .fex2 r.head r.t r.res r.sa },
  { opc := 0x105, tys := 0x00D0, res := .v, a := .tySrc,
    build := fun r => .flg2 r.head r.t r.res r.sa },
  { opc := 0x106, tys := 0x00D0, res := .v, a := .tySrc,
    build := fun r => .fsin r.head r.t r.res r.sa },
  { opc := 0x107, tys := 0x00D0, res := .v, a := .tySrc,
    build := fun r => .fcos r.head r.t r.res r.sa },
  { opc := 0x108, tys := 0x00D0, res := .v, a := .tySrc,
    build := fun r => .ftanh r.head r.t r.res r.sa }]

/-- Class 5 (R83, R236 to R240). -/
def formsLane : List Form := [
  { opc := 0x140, tys := 0x0005, g1 := false, res := .v, a := .tySrc, b := .src .w32, c := .named, extra := fun r => [(0x0A, !r.sc.isImm), (0x0C, r.sc.isImm && !r.sc.immIn 0 3)],
    build := fun r => .lxch r.head r.t r.res r.sa r.sb (XchMode.ofCode r.sc.immNat) },
  { opc := 0x141, tys := 0x0007, g1 := false, res := .v32, lens := .l64, a := .bits 0x01F, b := .named, extra := voteChecks,
    build := fun r => buildVote r },
  { opc := 0x142, tys := 0x003F, g1 := false, res := .v, a := .tySrc, c := .named, extra := foldChecks,
    build := fun r => .gred r.head r.t r.res r.sa (FoldOp.ofCode r.sc.immNat) },
  { opc := 0x143, tys := 0x003F, g1 := false, res := .v, a := .tySrc, c := .named, extra := foldChecks,
    build := fun r => .gscan r.head r.t r.res r.sa (FoldOp.ofCode r.sc.immNat) },
  { opc := 0x144, tys := 0x0002, g1 := false, res := .v32, a := .src .w32, b := .src .w32,
    build := fun r => .rngk r.head r.res r.sa r.sb },
  { opc := 0x145, g1 := false, res := .p, lens := .l64,
    build := fun r => .elect r.head r.d3 }]

/-- Classes 6 and 7 (R83, R151 to R158). -/
def formsMem : List Form := [
  { opc := 0x180, layout := .mem, tys := tyALL, res := .v, a := .src .addr, b := .src .addr, orders := 0x13, hasScope := true, hints := 0x1F, extra := fun r => [(0x0B, r.rc && (r.g || r.orderC != 0))],
    build := fun r => .ldg r.head r.t r.res r.ord r.scp r.rc r.hint3 r.sa r.sb },
  { opc := 0x181, layout := .mem, tys := tyALL, res := .data, a := .src .addr, b := .src .addr, orders := 0x15, hasScope := true, hints := 0x1F,
    build := fun r => .stg r.head r.t r.d r.ord r.scp r.hint3 r.sa r.sb },
  { opc := 0x182, layout := .mem, a := .src .addr, b := .src .addr, hints := 0x1F,
    build := fun r => .pfg r.head r.hint3 r.sa r.sb },
  { opc := 0x1c0, layout := .mem, tys := tyALL, res := .v, a := .src .addr, b := .src .addr, orders := 0x13, hasScope := true,
    build := fun r => .ldl r.head r.t r.res r.ord r.scp r.sa r.sb },
  { opc := 0x1c1, layout := .mem, tys := tyALL, res := .data, a := .src .addr, b := .src .addr, orders := 0x15, hasScope := true,
    build := fun r => .stl r.head r.t r.d r.ord r.scp r.sa r.sb },
  { opc := 0x1c2, layout := .mem, tys := 0x003F, res := .v, a := .named, b := .src .addr, extra := fun r => [(0x0C, !r.sa.immIn 0 7), (0x0A, !r.sa.isImm && !r.sa.kindOk r.g .w32)],
    build := fun r => .ldk r.head r.t r.res (BitVec.ofNat 3 r.sa.immNat) r.sb },
  { opc := 0x1c3, layout := .mem, tys := 0x0031, g1 := false, res := .v, a := .src .addr, b := .src .addr,
    build := fun r => .lda r.head r.t r.res r.sa r.sb },
  { opc := 0x1c4, layout := .mem, tys := 0x0031, g1 := false, res := .data, a := .src .addr, b := .src .addr,
    build := fun r => .sta r.head r.t r.d r.sa r.sb }]

/-- Class 8 (R83, R159 to R169). -/
def formsAtomic : List Form := [
  { opc := 0x200, layout := .atom, tys := 0x003F, res := .v, lens := .l96, a := .src .addr, b := .src .addr, orders := 0x1F, hasScope := true, hints := 0x21, extra := fun r => aChecks r ++ opChecks r ++ awSrc r r.t.use r.awData,
    build := fun r => .atm r.headA r.t r.res r.ord r.scp r.sp r.sa r.sb (AtmOp.ofCode r.awOp.toNat) (src11 r.awData) },
  { opc := 0x201, layout := .atom, tys := tyW, res := .v, lens := .l96, a := .src .addr, b := .src .addr, orders := 0x1F, hasScope := true, hints := 0x21, extra := fun r => aChecks r ++ awSrc r r.t.use r.awData ++ awSrc r r.t.use r.awSecond ++ [(0x07, r.aw.extractLsb' 25 7 != 0), (0x0B, r.awFail.toNat > 4 || !(Order.ofCode r.awFail).okLoad)],
    build := fun r => .cas r.headA r.t r.res r.ord r.scp r.sp r.sa r.sb (src11 r.awData) (src11 r.awSecond) (Order.ofCode r.awFail) },
  { opc := 0x202, layout := .atom, tys := 0x003F, lens := .l96, a := .src .addr, b := .src .addr, orders := 0x05, hasScope := true, hints := 0x21, extra := fun r => aChecks r ++ opChecks r ++ awSrc r r.t.use r.awData,
    build := fun r => .red r.headA r.t r.ord r.scp r.sp r.sa r.sb (AtmOp.ofCode r.awOp.toNat) (src11 r.awData) },
  { opc := 0x203, layout := .atom, tys := 0x003F, lens := .l96, a := .src .addr, b := .src .addr, orders := 0x05, hasScope := true, hints := 0x21, extra := fun r => aChecks r ++ awSrc r r.t.use r.awData ++ awSrc r .w32 r.awSecond ++ [(0x07, r.aw.extractLsb' 25 7 != 0), (0x0B, r.awFail != 0)],
    build := fun r => .ored r.headA r.t r.ord r.scp r.sp r.sa r.sb (src11 r.awData) (src11 r.awSecond) },
  { opc := 0x204, layout := .mem, lens := .l64, orders := 0x1E, hasScope := true,
    build := fun r => .fence r.head r.ord r.scp },
  { opc := 0x205, layout := .mem, a := .src .addr, b := .src .addr, orders := 0x05, hasScope := true,
    build := fun r => .arrive r.head r.ord r.scp r.sa r.sb },
  { opc := 0x206, layout := .mem, res := .len, a := .src .addr, b := .src .addr, orders := 0x03, hasScope := true,
    build := fun r => .waitb r.head r.d r.ord r.scp r.sa r.sb },
  { opc := 0x207, layout := .mem, a := .src .addr, b := .src .addr, orders := 0x0F, hasScope := true,
    build := fun r => .arw r.head r.ord r.scp r.sa r.sb }]

/-- Class 9 (R83, R170 to R173). -/
def formsTransl : List Form := [
  { opc := 0x240, sup := true, a := .src .w64, b := .src .w64, c := .src .w32,
    build := fun r => .pgmap r.head r.sa r.sb r.sc },
  { opc := 0x241, sup := true, a := .src .w64, b := .src .w64,
    build := fun r => .pgunmap r.head r.sa r.sb },
  { opc := 0x242, layout := .mem, tys := 0x0003, res := .len, sup := true, a := .src .addr, b := .src .addr,
    build := fun r => if r.ty = 1 then .tlbinvSync r.head r.d r.sa r.sb else .tlbinv r.head r.d r.sa r.sb },
  { opc := 0x243, layout := .mem, res := .len, a := .src .addr, b := .src .addr,
    build := fun r => .clean r.head r.d r.sa r.sb },
  { opc := 0x244, layout := .mem, res := .len, a := .src .addr, b := .src .addr,
    build := fun r => .invl r.head r.d r.sa r.sb },
  { opc := 0x245, a := .src .w64, b := .src .w64, c := .named, extra := fun r => fieldChecks r.g 0 11 r.sc,
    build := fun r => .scwin r.head r.sa r.sb (BitVec.ofNat 2 r.sc.immNat) (BitVec.ofNat 2 (r.sc.immNat / 4)) }]

/-- Class 10 (R83, R282 to R301). -/
def formsEngine : List Form := [
  { opc := 0x280, res := .h, a := .src .w64, b := .src .w64, c := .src .w32,
    build := fun r => .cpy r.head r.d4 r.sa r.sb r.sc },
  { opc := 0x281, res := .h, sup := true, a := .src .w64, b := .src .w64, c := .bits 0x3FF,
    build := fun r => .rstr r.head r.d4 r.sa r.sb r.c },
  { opc := 0x282, lens := .l64, a := .named, extra := fun r => [(0x0A, !r.sa.isHandle)],
    build := fun r => .fwait r.head r.sa.handle },
  { opc := 0x283, res := .p, lens := .l64, a := .named, extra := fun r => [(0x0A, !r.sa.isHandle)],
    build := fun r => .ftest r.head r.d3 r.sa.handle },
  { opc := 0x284, lens := .l64, a := .named, extra := fun r => [(0x0A, !r.sa.isHandle)],
    build := fun r => .fcancel r.head r.sa.handle },
  { opc := 0x285, layout := .imm, lens := .l64, a := .named, extra := fun r => [(0x0A, !r.sa.isHandle)],
    build := fun r => .yld r.head r.sa.handle r.f },
  { opc := 0x286, res := .h, a := .src .w64,
    build := fun r => .tsub r.head r.d4 r.sa },
  { opc := 0x287, tys := 0x0003, a := .src .w64, b := .named, extra := emitChecks,
    build := fun r => if r.ty = 1 then .emitFlush r.head r.sa else .emit r.head r.sa r.sb },
  { opc := 0x288, res := .h, a := .src .w64, b := .named, extra := fun r => fieldChecks r.g 0 3 r.sb,
    build := fun r => .lnch r.head r.d4 r.sa (BitVec.ofNat 2 r.sb.immNat) }]

/-- Class 11 (R83, R289 to R298). -/
def formsTile : List Form := [
  { opc := 0x2c0, tys := 0x10F0, res := .h, a := .src .w64, b := .src .w64, c := .named, extra := mChecks 2,
    build := fun r => .mma r.head r.t r.d4 r.sa r.sb r.m },
  { opc := 0x2c1, tys := 0x10F0, res := .h, a := .src .w64, b := .src .w64, c := .named, extra := mChecks 2,
    build := fun r => .mxfnc r.head r.t r.d4 r.sa r.sb r.m },
  { opc := 0x2c2, tys := 0x1000, res := .h, a := .src .w64, b := .src .w64, c := .named, extra := mChecks 2,
    build := fun r => .scacc r.head r.d4 r.sa r.sb r.m },
  { opc := 0x2c3, tys := 0x1000, res := .h, a := .src .w64, b := .src .w64, c := .named, extra := mChecks 2,
    build := fun r => .bqnt r.head r.d4 r.sa r.sb r.m },
  { opc := 0x2c4, tys := 0x1000, res := .h, a := .src .w64, b := .src .w64, c := .named, extra := mChecks 2,
    build := fun r => .bunp r.head r.d4 r.sa r.sb r.m },
  { opc := 0x2c5, tys := 0x1031, a := .src .w64, b := .src .w64, c := .named, extra := mChecks 2,
    build := fun r => .accz r.head r.t r.sa r.sb r.m }]

/-- Class 12 (R83, R318). -/
def formsForest : List Form := [
  { opc := 0x300, tys := 0x0002, res := .v32, a := .src .uni32, b := .src .w32, c := .src .w32,
    build := fun r => .unite r.head r.res r.sa r.sb r.sc },
  { opc := 0x301, tys := 0x0002, res := .v32, a := .src .uni32, b := .src .w32,
    build := fun r => .find r.head r.res r.sa r.sb },
  { opc := 0x302, tys := 0x0002, res := .v32, a := .src .uni32, b := .src .w32,
    build := fun r => .csize r.head r.res r.sa r.sb },
  { opc := 0x303, tys := 0x0002, res := .v32, a := .src .uni32, b := .named, extra := fun r => [(0x0A, !r.sb.isImm), (0x0C, r.sb.isImm && !r.sb.immIn 0 3)],
    build := fun r => .fcount r.head r.res r.sa (BitVec.ofNat 2 r.sb.immNat) },
  { opc := 0x304, tys := 0x1090, res := .h, a := .src .uni32, b := .src .w64, c := .named, extra := mChecks 8,
    build := fun r => .relabel r.head r.t r.d4 r.sa r.sb },
  { opc := 0x305, a := .src .uni32,
    build := fun r => .fsnap r.head r.sa },
  { opc := 0x306, a := .src .uni32,
    build := fun r => .fundo r.head r.sa },
  { opc := 0x307, a := .src .uni32,
    build := fun r => .freset r.head r.sa }]

/-- Classes 13 and 14 (R83, R199, R210, R363 to R366). -/
def formsRecipe : List Form := [
  { opc := 0x340, layout := .imm, g1 := false, res := .vreg, lens := .l64, extra := fun r => [(0x0C, r.f.toNat > 255)],
    build := fun r => .rcp r.head r.d (r.f.setWidth 8) },
  { opc := 0x341, g1 := false, res := .vreg, lens := .l64,
    build := fun r => .rcpdrop r.head r.d },
  { opc := 0x342, g1 := false, res := .vreg, lens := .l64,
    build := fun r => .rcpmat r.head r.d },
  { opc := 0x343, g1 := false, res := .vreg, lens := .l64,
    build := fun r => .rcpdem r.head r.d },
  { opc := 0x380, layout := .imm, tys := 0x0004, res := .v64, lens := .l64, extra := fun r => [(0x0C, (Counter.ofCode r.f).isNone)],
    build := fun r => .cntrd r.head r.res ((Counter.ofCode r.f).getD .cycle) },
  { opc := 0x381, res := .h, a := .src .w64, b := .named, extra := fun r => fieldChecks r.g 0 1 r.sb,
    build := fun r => .cntsn r.head r.d4 r.sa (r.sb.immNat == 1) },
  { opc := 0x382, layout := .imm, g0 := false, lens := .l64, extra := fun r => [(0x0C, r.f.toNat > 2)],
    build := fun r => .pwrset r.head (r.f.setWidth 2) }]

/-- The opcode map (R83). -/
def forms : List Form :=
  formsControl ++ formsInt ++ formsBit ++ formsFloat ++ formsConv ++ formsLane ++ formsMem ++ formsAtomic ++ formsTransl
    ++ formsEngine ++ formsTile ++ formsForest ++ formsRecipe

/-- The form of an opcode; an opcode without a row is unassigned (R83). -/
def formOf (opc : Nat) : Option Form := forms.find? (fun f => f.opc == opc)

/-- How a slot reads its source, when it is one. -/
@[simp] def Slot.use? (t : Ty) : Slot → Option Use
  | .tySrc => some t.use
  | .src u => some u
  | _ => none

/-- A slot holds a field of R69 (`named` included). -/
@[simp] def Slot.isSrc : Slot → Bool
  | .unused | .bits _ => false
  | _ => true

/-- The sources that select literals: those of A, B and C, and reading I of F (R66, R68). -/
@[simp] def Form.litSrcs (f : Form) (r : Raw) : List Src :=
  (if f.a.isSrc then [r.sa] else []) ++ (if f.b.isSrc then [r.sb] else []) ++ (if f.c.isSrc then [r.sc] else [])
    ++ (if f.layout == .immI && r.f.getLsbD 19 then [src11 (r.f.setWidth 11)] else [])

/-- The sources of the atomic word: its second field is one in `cas` and `ored` only (R67, R159). -/
@[simp] def Form.awSrcs (f : Form) (r : Raw) : List Src :=
  if f.layout == .atom then
    src11 r.awData :: (if f.opc == 0x201 || f.opc == 0x203 then [src11 r.awSecond] else [])
  else []

/-- R68 with the lengths of R83. An atomic form's literal word 0 is its atomic word, so it selects no other. -/
@[simp] def Form.lits (f : Form) (r : Raw) : Bool :=
  match f.lens with
  | .l64 => r.lits == .none && r.lits.ok (f.litSrcs r) false
  | .l96 => r.lits.len == 2 && r.lits.ok (f.litSrcs r ++ f.awSrcs r) true
  | .any => r.lits.ok (f.litSrcs r) (f.layout == .mem)

/-- The result kind: `vote` has a P result but for its ballot (R83). -/
@[simp] def Form.result (f : Form) (r : Raw) : RKind := if f.opc == 0x141 && r.ty != 2 then .p else f.res

/-- R85: LAT, NWB and D. Inside a slice NWB is 1 and D 0 (R84). -/
@[simp] def Form.resOk (f : Form) (slice : Bool) (r : Raw) : Bool :=
  let noWb := !r.nwb && r.lat == 0
  let v (wide : Bool) := r.res.ok r.g wide
  if slice then r.nwb && r.d == 0 else
  match f.result r with
  | .v => v r.t.is64
  | .v32 => v false
  | .v64 => v true
  | .p => noWb && r.cond5 == 0
  | .pCond => noWb
  | .x => noWb && r.d.toNat < 4
  | .h => noWb && r.d.toNat < 16
  | .none => noWb && r.d == 0
  | .data => noWb && (!r.g || r.d.toNat < 64)
  | .len => noWb && dataOk r.g false r.d
  | .link => noWb && dataOk r.g true r.d
  | .vreg => if f.opc == 0x092 then (!r.nwb || r.d == 0) else noWb

/-- Unused fields and reserved bits (R64, R65, R66, R69). -/
@[simp] def Form.rsvOk (f : Form) (r : Raw) : Bool :=
  let chk (s : Slot) (zero : Bool) (rsv : Bool) (out : BitVec 11 → Bool) : Bool :=
    match s with
    | .unused => zero
    | .bits m => out m
    | _ => !rsv
  let bc := chk f.b (r.b == 0) (rsv11 r.b) (fun m => r.b &&& ~~~m == 0)
    && chk f.c (r.c == 0) (rsv10 r.c) (fun m => r.c.setWidth 11 &&& ~~~m == 0)
  chk f.a (r.a == 0) (rsv11 r.a) (fun m => r.a &&& ~~~m == 0) &&
  match f.layout with
  | .reg => bc
  | .imm => !r.c.getLsbD 9
  | .immI => !r.c.getLsbD 9 && (!r.f.getLsbD 19 || (r.f.extractLsb' 11 8 == 0 && !rsv11 (r.f.setWidth 11)))
  | .mem | .atom => chk f.b (r.b == 0) (rsv11 r.b) (fun m => r.b &&& ~~~m == 0)

/-- KIND 11 in a source field (R69). -/
@[simp] def Form.kindBad (f : Form) (r : Raw) : Bool :=
  (f.a.isSrc && kind11 r.a) || (f.b.isSrc && kind11 r.b) || (f.c.isSrc && kind10 r.c)
    || (f.layout == .immI && r.f.getLsbD 19 && kind11 (r.f.setWidth 11))

/-- Source kinds that G, the width or the form refuses (R70), a store's odd data pair among them. -/
@[simp] def Form.srcBad (f : Form) (r : Raw) : Bool :=
  let bad (s : Slot) (x : Src) : Bool :=
    match s.use? r.t with
    | some u => !x.kindOk r.g u
    | none => false
  bad f.a r.sa || bad f.b r.sb || bad f.c r.sc
    || (f.layout == .immI && r.f.getLsbD 19 && !(src11 (r.f.setWidth 11)).kindOk r.g .w32)
    || (f.res == .data && !dataOk r.g r.t.is64 r.d)

/-- Order, scope and RC codes (R67, R151). -/
@[simp] def Form.qualBad (f : Form) (r : Raw) : Bool :=
  (f.layout == .mem || f.layout == .atom) &&
    (!f.orders.getLsbD r.orderC.toNat || r.scopeC.toNat > 5 || (!f.hasScope && r.scopeC != 0)
      || (r.rc && f.opc != 0x180))

/-- Hint codes (R152). -/
@[simp] def Form.hintBad (f : Form) (r : Raw) : Bool :=
  (f.layout == .mem || f.layout == .atom) && !f.hints.getLsbD r.hint3.toNat

/-- The forms a slice admits (R80, R98, R198, R214): compute forms of classes 1 to 4 with a V result other than `movx`
and `cvts`, not `sel`, which reads a predicate; `rngk`; `ldg.rc`; `ldk`. -/
def Form.inSlice (f : Form) (r : Raw) : Bool :=
  (0x040 ≤ f.opc && f.opc < 0x140 && (f.res == .v || f.res == .v32 || f.res == .v64) && f.opc != 0x090 && f.opc != 0x101)
    || f.opc == 0x144 || (f.opc == 0x180 && r.rc) || f.opc == 0x1C2

/-- A source kind that a slice does not admit (R198): an indexed source, an x register, a handle. -/
def Src.sliceBad : Src → Bool
  | .vx _ _ | .x _ | .h _ => true
  | _ => false

/-- R69, R83: the sources that a form's words name, and whether each is a pair. The width of a form that is not of TY 12,
the B field of `vote` but for its ballot and that of the flush form of `emit` are none. -/
def Form.sources (f : Form) (r : Raw) : List (Src × Bool) :=
  let field (s : Slot) (x : Src) : List (Src × Bool) :=
    match s with
    | .unused | .bits _ => []
    | .named => [(x, false)]
    | .tySrc => [(x, r.t.use == .w64)]
    | .src u => [(x, u == .w64)]
  let noB := (f.opc == 0x141 && r.ty != 2) || (f.opc == 0x287 && r.ty == 1)
  let noC := ((0x2C0 ≤ f.opc && f.opc ≤ 0x2C5) || f.opc == 0x304) && r.t != .bfp
  (if f.opc == 0x100 || f.opc == 0x101 then [(r.sa, r.sb.immIn 0 11 && (Ty.ofCode (BitVec.ofNat 4 r.sb.immNat)).is64)] else field f.a r.sa)
    ++ (if noB then [] else field f.b r.sb) ++ (if noC then [] else field f.c r.sc)
    ++ (if f.layout == .immI && r.f.getLsbD 19 then [(src11 (r.f.setWidth 11), false)] else [])
    ++ (f.awSrcs r).map (fun x => (x, r.t.is64))

/-- What a slice also refuses (R84, R198): a guard, a form it does not admit, a source kind it does not admit. -/
def Form.sliceChecks (f : Form) (r : Raw) : List (Nat × Bool) :=
  [(0x0C, !f.inSlice r || r.grd != 7), (0x0A, (f.sources r).any (fun x => x.1.sliceBad))]

/-- The checks of R86 that a form fails, by subcode. -/
def Form.failing (f : Form) (slice : Bool) (r : Raw) : List Nat :=
  (([(0x04, !f.tys.getLsbD r.ty.toNat), (0x05, if r.g then slice || !f.g1 else !f.g0),
    (0x06, !f.resOk slice r), (0x07, !f.rsvOk r), (0x08, f.kindBad r), (0x09, !f.lits r),
    (0x0A, f.srcBad r), (0x0B, f.qualBad r), (0x0C, f.hintBad r)] : List (Nat × Bool)) ++ f.extra r ++ (if slice then f.sliceChecks r else [])).filterMap
      (fun (p : Nat × Bool) => if p.2 then some p.1 else none)

/-- The lowest of the subcodes (R86). -/
def lowest : List Nat → Option Nat
  | [] => none
  | x :: xs => match lowest xs with
    | none => some x
    | some y => some (if y < x then y else x)

/-- An instruction's fields, checked, or the lowest subcode that applies. -/
def decodeRaw (slice : Bool) (r : Raw) : Except Nat Instr :=
  match formOf r.opc.toNat with
  | none => .error 0x03
  | some f =>
    match lowest (f.failing slice r) with
    | some k => .error k
    | none => .ok (f.build r)

/-- Decodes the instruction at the head of a list of words: the words from its start to the end of its fetch block
(R60 to R62, R86). -/
def decode (slice : Bool) : List W32 → Except Nat Instr
  | [] => .error 0x02
  | lo :: rest =>
    match (lo.extractLsb' 0 2).toNat, rest with
    | 0, _ => if lo = 0 then .ok .filler else .error 0x01
    | 1, hi :: _ => decodeRaw slice (Raw.ofHead lo hi .none)
    | 2, hi :: w0 :: _ => decodeRaw slice (Raw.ofHead lo hi (.one w0))
    | 3, hi :: w0 :: w1 :: _ => decodeRaw slice (Raw.ofHead lo hi (.two w0 w1))
    | _, _ => .error 0x02

/-- How many words an instruction start takes by its LEN (R60). -/
def lenWords (lo : W32) : Nat :=
  match (lo.extractLsb' 0 2).toNat with
  | 0 => 1 | 1 => 2 | 2 => 3 | _ => 4

/-- The instruction starts of a fetch block, as word indexes (R62). -/
def blockStarts (ws : List W32) : List Nat :=
  let rec go : Nat → Nat → List Nat
    | 0, _ => []
    | fuel + 1, i =>
      match ws[i]? with
      | some w => i :: go fuel (i + lenWords w)
      | none => []
  go 8 0

/-- The level of R83: the form may be used at supervisor level only, or names a register marked supervisor (R191). -/
def Instr.supervisor : Instr → Bool
  | .eret _ | .eretExit _ | .tevict _ _ | .pgmap .. | .pgunmap .. | .tlbinv .. | .tlbinvSync .. | .rstr .. => true
  | .swrPgwatch .. | .swrRgnpc .. => true
  | .srd _ _ _ n => match n with
    | .fva | .mapst | .tcause | .epc | .tmask | .taux => true
    | _ => false
  | .swr _ _ _ n => match n with
    | .sigacc | .tcause | .epc | .taux => true
    | _ => false
  | _ => false

/-- A head of the register or memory layout (R65). -/
def mk (h : Head) (opc : BitVec 10) (ty : BitVec 4) (d : BitVec 8) (a b : BitVec 11) (c : BitVec 10) : Raw :=
  { opc, ty, g := h.g, grd := BitVec.ofBool h.neg ++ h.idx, nwb := false, lat := 0, d, a, b, c, lits := h.lits }
/-- A head of the immediate layout (R65). -/
def mkF (h : Head) (opc : BitVec 10) (ty : BitVec 4) (d : BitVec 8) (a : BitVec 11) (f : BitVec 20) : Raw :=
  mk h opc ty d a (fB f) (fC f)
def Raw.withRes (x : Raw) (r : Res) : Raw := { x with nwb := r.nwb, lat := r.lat }
def Raw.withAtom (x : Raw) (w : W32) : Raw := { x with lits := .one w }
/-- The C field of a TY 12 form (R83). -/
def mC (ty : Ty) (m : BitVec 4) : BitVec 10 := if ty == .bfp then (Src.imm (0#2 ++ m)).enc10 else 0

/-- The fields of an instruction; the filler and the device's own steps have no head. -/
def Instr.raw : Instr → Option Raw
  | .nop h => some (mk h 0x000 0 0 0 0 0)
  | .bra h f => some (mkF h 0x001 0 0 0 f)
  | .jmp h a b => some (mk h 0x002 0 0 a.enc11 b.enc11 0)
  | .call h d f => some (mkF h 0x003 0 d 0 f)
  | .ret h a => some (mk h 0x004 0 0 a.enc11 0 0)
  | .exit h => some (mk h 0x005 0 0 0 0 0)
  | .rejoin h a b => some (mk h 0x006 0 0 a.enc11 b.enc11 0)
  | .trap h n => some (mkF h 0x007 0 0 0 n)
  | .sysc h n => some (mkF h 0x008 0 0 0 n)
  | .eret h => some (mk h 0x009 0 0 (Src.imm 0).enc11 0 0)
  | .eretExit h => some (mk h 0x009 0 0 (Src.imm 1).enc11 0 0)
  | .bkpt h n => some (mkF h 0x00A 0 0 0 n)
  | .sigchk h s => some (mkF h 0x00B 0 0 0 (0#4 ++ s))
  | .rgn h => some (mk h 0x00C 0 0 0 0 0)
  | .srd h ty r n => some ((mkF h 0x00D ty.code r.d 0 n.code).withRes r)
  | .swr h ty a n => some (mkF h 0x00E ty.code 0 a.enc11 n.code)
  | .swrPgwatch h ty a => some (mkF h 0x00E ty.code 0 a.enc11 SysReg.pgwatch.code)
  | .swrRgnpc h ty a => some (mkF h 0x00E ty.code 0 a.enc11 SysReg.rgnpc.code)
  | .tevict h a => some (mk h 0x00F 0 0 a.enc11 0 0)
  | .add h ty r a b => some ((mk h 0x040 ty.code r.d a.enc11 b.enc11 0).withRes r)
  | .sub h ty r a b => some ((mk h 0x041 ty.code r.d a.enc11 b.enc11 0).withRes r)
  | .mul h ty r a b => some ((mk h 0x042 ty.code r.d a.enc11 b.enc11 0).withRes r)
  | .mulh h ty r a b => some ((mk h 0x043 ty.code r.d a.enc11 b.enc11 0).withRes r)
  | .div h ty r a b => some ((mk h 0x046 ty.code r.d a.enc11 b.enc11 0).withRes r)
  | .rem h ty r a b => some ((mk h 0x047 ty.code r.d a.enc11 b.enc11 0).withRes r)
  | .min h ty r a b => some ((mk h 0x04a ty.code r.d a.enc11 b.enc11 0).withRes r)
  | .max h ty r a b => some ((mk h 0x04b ty.code r.d a.enc11 b.enc11 0).withRes r)
  | .mad h ty r a b c => some ((mk h 0x044 ty.code r.d a.enc11 b.enc11 c.enc10).withRes r)
  | .madw h ty r a b c => some ((mk h 0x045 ty.code r.d a.enc11 b.enc11 c.enc10).withRes r)
  | .clamp h ty r a b c => some ((mk h 0x04c ty.code r.d a.enc11 b.enc11 c.enc10).withRes r)
  | .lea h ty r a b c => some ((mk h 0x04d ty.code r.d a.enc11 b.enc11 c.enc10).withRes r)
  | .addc h ty r a b c => some ((mk h 0x04e ty.code r.d a.enc11 b.enc11 c.enc10).withRes r)
  | .subb h ty r a b c => some ((mk h 0x04f ty.code r.d a.enc11 b.enc11 c.enc10).withRes r)
  | .abs h ty r a => some ((mk h 0x048 ty.code r.d a.enc11 0 0).withRes r)
  | .neg h ty r a => some ((mk h 0x049 ty.code r.d a.enc11 0 0).withRes r)
  | .and h ty r a b => some ((mk h 0x080 ty.code r.d a.enc11 b.enc11 0).withRes r)
  | .or h ty r a b => some ((mk h 0x081 ty.code r.d a.enc11 b.enc11 0).withRes r)
  | .xor h ty r a b => some ((mk h 0x082 ty.code r.d a.enc11 b.enc11 0).withRes r)
  | .andn h ty r a b => some ((mk h 0x083 ty.code r.d a.enc11 b.enc11 0).withRes r)
  | .not h ty r a => some ((mk h 0x084 ty.code r.d a.enc11 0 0).withRes r)
  | .shl h ty r a n => some ((mkF h 0x085 ty.code r.d a.enc11 n.enc).withRes r)
  | .shr h ty r a n => some ((mkF h 0x086 ty.code r.d a.enc11 n.enc).withRes r)
  | .sar h ty r a n => some ((mkF h 0x087 ty.code r.d a.enc11 n.enc).withRes r)
  | .rot h ty r a n => some ((mkF h 0x088 ty.code r.d a.enc11 n.enc).withRes r)
  | .bfx h ty r a b => some ((mk h 0x089 ty.code r.d a.enc11 b.enc11 0).withRes r)
  | .bfi h ty r a b c => some ((mk h 0x08a ty.code r.d a.enc11 b.enc11 c.enc10).withRes r)
  | .popc h ty r a => some ((mk h 0x08b ty.code r.d a.enc11 0 0).withRes r)
  | .clz h ty r a => some ((mk h 0x08c ty.code r.d a.enc11 0 0).withRes r)
  | .ctz h ty r a => some ((mk h 0x08d ty.code r.d a.enc11 0 0).withRes r)
  | .brev h ty r a => some ((mk h 0x08e ty.code r.d a.enc11 0 0).withRes r)
  | .perm h r a b c => some ((mk h 0x08F 0 r.d a.enc11 b.enc11 c.enc10).withRes r)
  | .sel h ty r a b pf => some ((mk h 0x090 ty.code r.d a.enc11 b.enc11 (0#5 ++ pf.enc)).withRes r)
  | .mov h ty r a => some ((mk h 0x091 ty.code r.d a.enc11 0 0).withRes r)
  | .movx h ty r a x => some ((mk h 0x092 ty.code r.d a.enc11 0 (Src.x x).enc10).withRes r)
  | .cmp h ty d k a b => some (mk h 0x093 ty.code (k.code ++ d) a.enc11 b.enc11 0)
  | .plop h d pa pb pc t => some (mk h 0x094 0 (0#5 ++ d) (0#1 ++ pb.enc ++ pa.enc) (0#6 ++ pc.enc) (0#2 ++ t))
  | .setx h d a k => some (mkF h 0x095 0 (0#6 ++ d) a.enc11 k.enc)
  | .fadd h ty r a b => some ((mk h 0x0c0 ty.code r.d a.enc11 b.enc11 0).withRes r)
  | .fsub h ty r a b => some ((mk h 0x0c1 ty.code r.d a.enc11 b.enc11 0).withRes r)
  | .fmul h ty r a b => some ((mk h 0x0c2 ty.code r.d a.enc11 b.enc11 0).withRes r)
  | .fma h ty r a b c => some ((mk h 0x0c3 ty.code r.d a.enc11 b.enc11 c.enc10).withRes r)
  | .fmaImmediate h ty r a f => some ((mkF h 0x0C4 ty.code r.d a.enc11 f).withRes r)
  | .fmaConstant h ty r a f => some ((mkF h 0x0C5 ty.code r.d a.enc11 f).withRes r)
  | .fmin h ty r a b => some ((mk h 0x0c6 ty.code r.d a.enc11 b.enc11 0).withRes r)
  | .fmax h ty r a b => some ((mk h 0x0c7 ty.code r.d a.enc11 b.enc11 0).withRes r)
  | .fabs h ty r a => some ((mk h 0x0c8 ty.code r.d a.enc11 0 0).withRes r)
  | .fneg h ty r a => some ((mk h 0x0c9 ty.code r.d a.enc11 0 0).withRes r)
  | .fcmp h ty d k a b => some (mk h 0x0CA ty.code (k.code ++ d) a.enc11 b.enc11 0)
  | .fclass h ty d a b => some (mk h 0x0CB ty.code (0#5 ++ d) a.enc11 b.enc11 0)
  | .frnd h ty r a k => some ((mk h 0x0CC ty.code r.d a.enc11 0 (Src.imm k.code).enc10).withRes r)
  | .fdiv h ty r a b => some ((mk h 0x0cd ty.code r.d a.enc11 b.enc11 0).withRes r)
  | .fsqrt h ty r a => some ((mk h 0x0ce ty.code r.d a.enc11 0 0).withRes r)
  | .cvt h ty r a fr => some ((mk h 0x100 ty.code r.d a.enc11 (Src.imm (0#2 ++ fr.code)).enc11 0).withRes r)
  | .cvts h ty r a fr => some ((mk h 0x101 ty.code r.d a.enc11 (Src.imm (0#2 ++ fr.code)).enc11 0).withRes r)
  | .frcp h ty r a => some ((mk h 0x102 ty.code r.d a.enc11 0 0).withRes r)
  | .frsq h ty r a => some ((mk h 0x103 ty.code r.d a.enc11 0 0).withRes r)
  | .fex2 h ty r a => some ((mk h 0x104 ty.code r.d a.enc11 0 0).withRes r)
  | .flg2 h ty r a => some ((mk h 0x105 ty.code r.d a.enc11 0 0).withRes r)
  | .fsin h ty r a => some ((mk h 0x106 ty.code r.d a.enc11 0 0).withRes r)
  | .fcos h ty r a => some ((mk h 0x107 ty.code r.d a.enc11 0 0).withRes r)
  | .ftanh h ty r a => some ((mk h 0x108 ty.code r.d a.enc11 0 0).withRes r)
  | .lxch h ty r a b k => some ((mk h 0x140 ty.code r.d a.enc11 b.enc11 (Src.imm k.code).enc10).withRes r)
  | .voteAll h d pf => some (mk h 0x141 0 (0#5 ++ d) (0#6 ++ pf.enc) 0 0)
  | .voteAny h d pf => some (mk h 0x141 1 (0#5 ++ d) (0#6 ++ pf.enc) 0 0)
  | .voteBallot h r pf j => some ((mk h 0x141 2 r.d (0#6 ++ pf.enc) (Src.imm (0#4 ++ j)).enc11 0).withRes r)
  | .gred h ty r a k => some ((mk h 0x142 ty.code r.d a.enc11 0 (Src.imm k.code).enc10).withRes r)
  | .gscan h ty r a k => some ((mk h 0x143 ty.code r.d a.enc11 0 (Src.imm k.code).enc10).withRes r)
  | .rngk h r a b => some ((mk h 0x144 1 r.d a.enc11 b.enc11 0).withRes r)
  | .elect h d => some (mk h 0x145 0 (0#5 ++ d) 0 0 0)
  | .ldg h ty r o sc rc hint a b => some ((mk h 0x180 ty.code r.d a.enc11 b.enc11 (qualC o sc (BitVec.ofBool rc ++ hint))).withRes r)
  | .stg h ty d o sc hint a b => some (mk h 0x181 ty.code d a.enc11 b.enc11 (qualC o sc (0#1 ++ hint)))
  | .pfg h hint a b => some (mk h 0x182 0 0 a.enc11 b.enc11 (0#7 ++ hint))
  | .ldl h ty r o sc a b => some ((mk h 0x1C0 ty.code r.d a.enc11 b.enc11 (qualC o sc 0)).withRes r)
  | .stl h ty d o sc a b => some (mk h 0x1C1 ty.code d a.enc11 b.enc11 (qualC o sc 0))
  | .ldk h ty r w b => some ((mk h 0x1C2 ty.code r.d (Src.imm (0#3 ++ w)).enc11 b.enc11 0).withRes r)
  | .lda h ty r a b => some ((mk h 0x1C3 ty.code r.d a.enc11 b.enc11 0).withRes r)
  | .sta h ty d a b => some (mk h 0x1C4 ty.code d a.enc11 b.enc11 0)
  | .atm h ty r o sc sp a b k x => some (((mk h 0x200 ty.code r.d a.enc11 b.enc11 (qualC o sc (if sp then 5 else 0))).withRes r).withAtom (atomWord x.enc11 (0#7 ++ k.code) 0))
  | .cas h ty r o sc sp a b x y fl => some (((mk h 0x201 ty.code r.d a.enc11 b.enc11 (qualC o sc (if sp then 5 else 0))).withRes r).withAtom (atomWord x.enc11 y.enc11 fl.code))
  | .red h ty o sc sp a b k x => some ((mk h 0x202 ty.code 0 a.enc11 b.enc11 (qualC o sc (if sp then 5 else 0))).withAtom (atomWord x.enc11 (0#7 ++ k.code) 0))
  | .ored h ty o sc sp a b x y => some ((mk h 0x203 ty.code 0 a.enc11 b.enc11 (qualC o sc (if sp then 5 else 0))).withAtom (atomWord x.enc11 y.enc11 0))
  | .fence h o sc => some (mk h 0x204 0 0 0 0 (qualC o sc 0))
  | .arrive h o sc a b => some (mk h 0x205 0 0 a.enc11 b.enc11 (qualC o sc 0))
  | .waitb h d o sc a b => some (mk h 0x206 0 d a.enc11 b.enc11 (qualC o sc 0))
  | .arw h o sc a b => some (mk h 0x207 0 0 a.enc11 b.enc11 (qualC o sc 0))
  | .pgmap h a b c => some (mk h 0x240 0 0 a.enc11 b.enc11 c.enc10)
  | .pgunmap h a b => some (mk h 0x241 0 0 a.enc11 b.enc11 0)
  | .tlbinv h d a b => some (mk h 0x242 0 d a.enc11 b.enc11 0)
  | .tlbinvSync h d a b => some (mk h 0x242 1 d a.enc11 b.enc11 0)
  | .clean h d a b => some (mk h 0x243 0 d a.enc11 b.enc11 0)
  | .invl h d a b => some (mk h 0x244 0 d a.enc11 b.enc11 0)
  | .scwin h a b w m => some (mk h 0x245 0 0 a.enc11 b.enc11 (Src.imm (0#2 ++ m ++ w)).enc10)
  | .cpy h d a b c => some (mk h 0x280 0 (0#4 ++ d) a.enc11 b.enc11 c.enc10)
  | .rstr h d a b c => some (mk h 0x281 0 (0#4 ++ d) a.enc11 b.enc11 c)
  | .fwait h n => some (mk h 0x282 0 0 (Src.h n).enc11 0 0)
  | .ftest h d n => some (mk h 0x283 0 (0#5 ++ d) (Src.h n).enc11 0 0)
  | .fcancel h n => some (mk h 0x284 0 0 (Src.h n).enc11 0 0)
  | .yld h n f => some (mkF h 0x285 0 0 (Src.h n).enc11 f)
  | .tsub h d a => some (mk h 0x286 0 (0#4 ++ d) a.enc11 0 0)
  | .emit h a b => some (mk h 0x287 0 0 a.enc11 b.enc11 0)
  | .emitFlush h a => some (mk h 0x287 1 0 a.enc11 0 0)
  | .lnch h d a p => some (mk h 0x288 0 (0#4 ++ d) a.enc11 (Src.imm (0#4 ++ p)).enc11 0)
  | .mma h ty d a b m => some (mk h 0x2C0 ty.code (0#4 ++ d) a.enc11 b.enc11 (mC ty m))
  | .mxfnc h ty d a b m => some (mk h 0x2C1 ty.code (0#4 ++ d) a.enc11 b.enc11 (mC ty m))
  | .scacc h d a b m => some (mk h 0x2c2 12 (0#4 ++ d) a.enc11 b.enc11 (mC .bfp m))
  | .bqnt h d a b m => some (mk h 0x2c3 12 (0#4 ++ d) a.enc11 b.enc11 (mC .bfp m))
  | .bunp h d a b m => some (mk h 0x2c4 12 (0#4 ++ d) a.enc11 b.enc11 (mC .bfp m))
  | .accz h ty a b m => some (mk h 0x2C5 ty.code 0 a.enc11 b.enc11 (mC ty m))
  | .unite h r a b c => some ((mk h 0x300 1 r.d a.enc11 b.enc11 c.enc10).withRes r)
  | .find h r a b => some ((mk h 0x301 1 r.d a.enc11 b.enc11 0).withRes r)
  | .csize h r a b => some ((mk h 0x302 1 r.d a.enc11 b.enc11 0).withRes r)
  | .fcount h r a k => some ((mk h 0x303 1 r.d a.enc11 (Src.imm (0#4 ++ k)).enc11 0).withRes r)
  | .relabel h ty d a b => some (mk h 0x304 ty.code (0#4 ++ d) a.enc11 b.enc11 (mC ty 8))
  | .fsnap h a => some (mk h 0x305 0 0 a.enc11 0 0)
  | .fundo h a => some (mk h 0x306 0 0 a.enc11 0 0)
  | .freset h a => some (mk h 0x307 0 0 a.enc11 0 0)
  | .rcp h d k => some (mkF h 0x340 0 d 0 (0#12 ++ k))
  | .rcpdrop h d => some (mk h 0x341 0 d 0 0 0)
  | .rcpmat h d => some (mk h 0x342 0 d 0 0 0)
  | .rcpdem h d => some (mk h 0x343 0 d 0 0 0)
  | .cntrd h r n => some ((mkF h 0x380 2 r.d 0 n.code).withRes r)
  | .cntsn h d a s => some (mk h 0x381 0 (0#4 ++ d) a.enc11 (Src.imm (if s then 1 else 0)).enc11 0)
  | .pwrset h c => some (mkF h 0x382 0 0 0 (0#18 ++ c))
  | _ => none

/-- The words of an instruction, in address order (R60, R61). -/
def encode (i : Instr) : Option (List W32) :=
  match i with
  | .filler => some [0]
  | i => i.raw.map Raw.words

/-- Head bits [31:0], over which the signature accumulator runs (R249). -/
def Instr.headWord (i : Instr) : W32 := ((i.raw.map Raw.lo).getD 0)

/-- The length of an instruction in bytes (R60, R61). -/
def Instr.bytes (i : Instr) : Nat :=
  match i.raw with
  | some r => 8 + 4 * r.lits.words.length
  | none => 4

/-- The 32-bit words of a number, least significant first. -/
def wordsOf : Nat → Nat → List W32
  | 0, _ => []
  | n + 1, w => BitVec.ofNat 32 w :: wordsOf n (w / 2 ^ 32)

/-- What the decoder reads from an instruction whose bits are `w`, bit 0 the least significant bit of the first word;
the bits above `nbits` are zero, up to the longest instruction of 128 bits. -/
def decodeTableWord (nbits w : Nat) : Option Instr :=
  match decode false (wordsOf 4 (w % 2 ^ nbits)) with
  | .ok i => some i
  | .error _ => none

end Sys2Proof
end

