-- ==== Sys2Proof/Machine/State.lean ====
section
/-! DEFINITION. The state of the MB6: everything the spec's catalogues R104, R187, R191, R269, R302 and R355 and the
chapters on the package, ordering, queues and faults give the machine, as plain data; and the reset state. -/
namespace Sys2Proof.Machine

/-- A sparse table: entries in strictly rising key order, none equal to the table's default. -/
abbrev Tab (α : Type) := List (Nat × α)

/-- Global, scratchpad and accumulator bytes; the default (0, or undefined) is the reader's. -/
abbrev Bytes := Tab Byte
abbrev LocalBytes := Tab (Option Byte)

/-- A context slot: 16 × partition + slot (R23). -/
abbrev SlotKey := Nat

/-- The cause codes of R329. -/
inductive Cause where
  | illop | badtarget | idxrange | align | prot | pgfault | regen | rjdl | sigmis | ucerr | poison | dustfull | bkpt
  | trapn | sysc
  deriving DecidableEq, Repr

/-- A queue that can be full (R276, R281). -/
inductive QueueName where
  | copy (core : Nat)
  | tile (pair : Nat)
  | signing
  deriving DecidableEq, Repr

/-- What a split waits for beside the operands of its next instruction (R41, R281). -/
inductive Wait where
  | none
  /-- At a `rejoin` whose lanes have not arrived (R245): an instruction boundary. -/
  | rejoin
  /-- Inside an issued `waitb`, `arw`, `ored`, fence, forest or maintenance form: until operation `op` is done. -/
  | op (op : Nat)
  /-- Inside `fwait` on a handle (R287). -/
  | fwait (h : Nat)
  /-- At a `yld` label until the handle is empty or complete (R288). -/
  | yld (h : Nat)
  /-- Before an instruction that would divide the split with too few numbers free (R40). -/
  | number
  /-- Before an instruction whose queue is full (R281): a die's ring, a core's copy queue, a pair's tile queue, or another
  queue of the device. -/
  | queue (q : QueueName)
  /-- Before an instruction that needs a demoted register's segments (R189). -/
  | segments (reg : Nat)
  /-- Before an instruction that reads a pending handle (R193). -/
  | handle (h : Nat)
  /-- At `eret #0` until the trap mask has gathered (R260). -/
  | gather
  /-- At a `tevict` until the team it names stands at its boundaries (R262, R348). -/
  | evict (team : Nat)
  /-- In the lodge for missing pages (R140). -/
  | pages
  /-- Refused by an ordered-reduction buffer until the given core cycle or a freed entry (R164). -/
  | retry (op until_ : Nat)
  /-- Inside a form of class 9 until its own writes are applied everywhere and every access of the slot issued before
  name `before` in the range from `lo` of `len` bytes (0: all) is performed (R141, R170). -/
  | sync (before : Nat) (lo : W64) (len : Nat)
  deriving DecidableEq, Repr

/-- A trap as R255 reports it. `fva` lists the lanes whose FVA it sets. -/
structure TrapRec where
  cause : Cause
  detail : Nat
  mask : Mask
  epc : W64
  taux : W64
  fva : Tab W64
  /-- R148: on return the instruction executes again only for these threads. -/
  again : Option Mask := none
  /-- R148: the instruction was found wanting after its split had gone on: where the split stands, and its wait. -/
  resume : Option (W64 × Wait) := none
  deriving DecidableEq, Repr

/-- A split of a group (R38, R249, R257). `held` are the threads held while its handler runs. -/
structure Split where
  live : Bool := false
  pc : W64 := 0
  mask : Mask := 0
  emask : Mask := 0
  acc : W32 := 0
  mc : Bool := false
  sup : Bool := false
  wait : Wait := .none
  trap : Option TrapRec := none
  /-- R332: created by a rollback and has executed nothing since. -/
  fresh : Bool := false
  /-- R75: at its next chain member; the chain's first PC and how many members have run. -/
  chain : Option (W64 × Nat) := none
  /-- R148: threads that have been performed by the instruction at a PC, which executes again without them. -/
  skip : Option (W64 × Mask) := none
  /-- R148: after the instruction at the first PC, which executes again, the split goes on at the second. -/
  resume : Option (W64 × W64 × Wait) := none
  /-- R75: the chain at this PC was interrupted, and restarts. -/
  redo : Option W64 := none
  deriving DecidableEq, Repr

/-- How a handler was entered (R257): the core cycle, whether the split had started an instruction in it, and what a trap of
a lower split in the same cycle puts back: the split and FVA. -/
structure Entered where
  cycle : Nat
  started : Bool
  was : Split
  fva : Tab W64
  deriving DecidableEq, Repr

/-- The handler that a group runs (R257): the trapped split, its mask, the held threads, the saved accumulator. -/
structure Handler where
  split : Nat
  mask : Mask
  held : Mask
  saved : W32
  skip : Option (W64 × Mask) := none
  resume : Option (W64 × W64 × Wait) := none
  redo : Option W64 := none
  entered : Option Entered := none
  deriving DecidableEq, Repr

/-- What a group has started in the core cycle `at_` (R98, R211, R274): the splits, FRM and DPHASE as the cycle found them,
and the splits whose `cvts` or `bqnt` has taken a phase; `wrote`: an `swr` has written DPHASE. -/
structure InCycle where
  at_ : Nat
  splits : List Nat := []
  frm : BitVec 2 := 0
  dphase : W32 := 0
  took : List Nat := []
  wrote : Bool := false
  /-- Splits whose next instruction has been found unable to start in this cycle. -/
  tried : List Nat := []
  deriving DecidableEq, Repr

/-- A handle (R193). -/
inductive Handle where
  | empty
  | pending (cmd : Nat)
  | complete (v : W64)
  deriving DecidableEq, Repr

/-- The spaces of R253's block set. -/
inductive Space where
  | global | scratch | acc
  deriving DecidableEq, Repr

/-- How far one thread's access has come. -/
inductive AccState where
  | waiting
  /-- Its request is on the way and has been applied; the reply is due (R160, R165). -/
  | applied
  /-- `arw` has arrived and waits for the phase (R169). -/
  | arrived
  /-- Answered REFUSED (R164). -/
  | refused
  | done
  /-- Not performed, with the cause and detail found at its home (R148). -/
  | failed (c : Cause) (detail : Nat)
  deriving DecidableEq, Repr

/-- The phases of a forest instruction (R319, R320). -/
inductive ForestPhase where
  | rootA | rootB | link | compressA | compressB | single
  deriving DecidableEq, Repr

/-- A forest instruction's progress in one thread. `y` is the pass's cursor. -/
structure ForestState where
  phase : ForestPhase := .single
  a : W32 := 0
  b : W32 := 0
  ra : W32 := 0
  rb : W32 := 0
  size : W32 := 0
  y : W32 := 0
  w : W32 := 0
  /-- R165: what has been applied was a pass; with its answer the next one begins. -/
  more : Bool := false
  deriving DecidableEq, Repr

/-- One thread's access of a memory operation. `loc` is a physical address, or a local one when `glob` is false. -/
structure Access where
  lane : Nat
  va : W64
  glob : Bool
  loc : Nat
  size : Nat
  data : W64 := 0
  /-- The comparand of `cas`, the index of `ored`, the phase operand of a wait. -/
  cmp : W64 := 0
  /-- R131: the page has WR (`cas`). -/
  wr : Bool := true
  st : AccState := .waiting
  old : W64 := 0
  fs : ForestState := {}
  /-- The sequence number of R165. -/
  seq : Nat := 0
  /-- The value is undefined (R294, R327). -/
  undef : Bool := false
  /-- R177: a later operation was done before this `cas`, which may then only take a path that is no acquire. -/
  passed : Bool := false
  /-- R182: a fence later in the sc order was done before this `cas`, which may then not take the path that is at `.sc`. -/
  late : Bool := false
  /-- R281: an `emit` has found its ring full, and no entry has been freed since. -/
  full : Bool := false
  deriving DecidableEq, Repr

/-- The forest instructions. -/
inductive ForestOp where
  | unite | find | csize | fcount (sel : BitVec 2) | fsnap | fundo | freset
  deriving DecidableEq, Repr

inductive OpKind where
  | load
  | store
  | atm (op : AtmOp)
  | cas (fail : Order)
  | red (op : AtmOp)
  | ored
  | fence
  | arrive
  | waitb
  | arw
  | forest (f : ForestOp) (desc : Nat)
  /-- R300: an append to the node whose descriptor is the access; its data is the record's local address. -/
  | emit
  deriving DecidableEq, Repr

/-- A memory operation in the issue stream of a split (R175, R179): one issued instruction. -/
structure MemOp where
  id : Nat
  split : Nat
  pc : W64
  sup : Bool
  kind : OpKind
  ty : Ty
  order : Order
  scope : Scope
  g : Bool
  dest : Option Res
  accs : List Access
  /-- The threads it is performed for. -/
  mask : Mask := 0
  /-- R182: the clock that a `fence.sc` waits for, its place in the sc order, and the host requests before it. -/
  snap : Option (List Nat × Nat × Nat) := none
  /-- The cache hint (R152). -/
  hint : BitVec 3 := 0
  /-- R317: the virtual ranges that the steps of a forest instruction may touch beside its descriptor. -/
  spans : List (Nat × Nat) := []
  deriving DecidableEq, Repr

/-- The region record of R252 and R332. -/
structure Region where
  acc : W32 := 0
  mask : Mask := 0
  frm : BitVec 2 := 0
  dphase : W32 := 0
  retry : Nat := 0
  blocks : List (Space × Nat) := []
  deriving DecidableEq, Repr

/-- A resident or saved group (R187, R191, R196, R197, R274). Tables of per-thread registers are keyed
register × 128 + lane; `v` lists the values that are defined. -/
structure Group where
  gidx : Nat
  width : Nat
  s : Tab W64 := []
  q : BitVec 8 := 0
  p : Tab Bool := []
  x : Tab (BitVec 16) := []
  v : Tab (Option W32) := []
  /-- Latches b0–b3 as written since the running chain began (R72–R75). -/
  latch : Tab (Option W64) := []
  h : Tab Handle := []
  splits : List Split
  /-- R40, the newest entry first; and whether the frame holds the list as it stands. -/
  overflow : List Split := []
  listed : Bool := true
  frm : BitVec 2 := 0
  fstat : BitVec 5 := 0
  dphase : W32 := 0
  rgnpc : W64 := 0
  pwr : BitVec 3 := 0
  mpcount : Nat := 0
  watch : List Nat := []
  fva : Tab W64 := []
  mapst : Tab (BitVec 8) := []
  tmask : Mask := 0
  tcause : W64 := 0
  epc : W64 := 0
  taux : W64 := 0
  handler : Option Handler := none
  /-- Recipe state words by register (R196), s pin counts, binding masks by entry (R197). -/
  recipe : Tab W64 := []
  spin : Tab Nat := []
  masks : Tab Mask := []
  /-- The uniform inputs (UMASK) of each register's live binding, as its `rcp` read them (R199). -/
  umask : Tab W64 := []
  region : Region := {}
  exited : Mask := 0
  stream : List MemOp := []
  /-- R274: AGE, the two WAIT counters, and the place that the group is bound to. -/
  age : Nat := 0
  wait : Nat := 0
  waitU : Nat := 0
  core : Nat := 0
  quad : Nat := 0
  lg : Nat := 0
  issued : Option InCycle := none
  /-- R275: consecutive cycles withheld, and one more than the core cycle that was counted last. -/
  withheld : Nat := 0
  heldAt : Nat := 0
  /-- R312: logged operations so far, by lane. -/
  opn : Tab Nat := []
  /-- Register rows and latches that ECC found uncorrectable (R331), by the key of their table. -/
  badV : List Nat := []
  /-- R333: a rollback that waits: the region record and RGNPC as it found them. -/
  rolling : Option (Region × W64) := none
  /-- R294: how often a register has been written since its EPIN was set. -/
  epinBad : Tab Nat := []
  deriving DecidableEq, Repr

/-- A scratchpad window (R108). VALID and DIRTY list block and word indexes. -/
structure Window where
  lbase : Nat := 0
  len : Nat := 0
  vbase : W64 := 0
  mode : Nat := 0
  valid : List Nat := []
  dirty : List Nat := []
  deriving DecidableEq, Repr

/-- A range of a tile-task record or of `relabel` that the team must not touch (R294, R327). -/
structure Guarded where
  cmd : Nat
  space : Space
  high : Bool
  lo : Nat
  len : Nat
  write : Bool
  /-- The group and handle through which completion can be observed. -/
  holder : Option (Nat × Nat) := none
  /-- R298: the group and split whose `lda` and `sta` wait for an `accz`. -/
  waits : Option (Nat × Nat) := none
  /-- The command has completed. -/
  done : Bool := false
  /-- The interval of R294 has not ended; a completed `accz` stays only to link a chain of dependent records. -/
  live : Bool := true
  /-- A tile-task record that has not been cancelled: it may depend on others (R277). -/
  tile : Bool := true
  /-- The operations of its split before it (R184). -/
  after : List Nat := []
  /-- R325: rows of `row` bytes, `stride` bytes apart; 0 when the range is one piece. -/
  row : Nat := 0
  stride : Nat := 0
  deriving DecidableEq, Repr

/-- A team, resident or saved. `acc` holds the allocation of the core, or of the lower and the higher core. -/
structure Team where
  uid : Nat
  launch : Nat
  number : Nat
  place : Place
  groups : List Group
  spad : LocalBytes := []
  accLow : LocalBytes := []
  accHigh : LocalBytes := []
  windows : List Window
  frame : Option Nat := none
  guarded : List Guarded := []
  /-- Commands whose results the team has spoiled (R294, R327). -/
  spoiled : List Nat := []
  /-- Words that ECC found uncorrectable (R331): scratchpad, accumulators. -/
  badLocal : List Nat := []
  badAcc : List (Bool × Nat) := []
  admitted : Nat := 0
  /-- R59: ticks of QUANT seen while resident. -/
  ticks : Nat := 0
  /-- R206: the clock that its loads wait for after resumption. -/
  clock : Option (List Nat) := none
  /-- R278, R194: LEASE as saved. -/
  lease : BitVec 16 := 0
  /-- R59: a time-slice switch evicts the team at its next boundaries. -/
  leaving : Bool := false
  deriving DecidableEq, Repr

/-- The kernel descriptor (R304), read once at dequeue. -/
structure Desc where
  entry : W64 := 0
  width : Nat := 16
  regs : Nat := 8
  threads : Nat := 16
  localSize : Nat := 0
  accSize : Nat := 0
  node : Bool := false
  pdef : Nat := 0
  pmax : Nat := 0
  rtab : W64 := 0
  nrcp : Nat := 0
  rsize : Nat := 0
  coal : Nat := 0
  succ : W64 := 0
  nsucc : Nat := 0
  sarea : W64 := 0
  salen : Nat := 0
  cbase : List W64 := []
  clen : List Nat := []
  deriving DecidableEq, Repr

/-- A launch command (R24) in a queue. -/
structure LaunchCmd where
  slot : SlotKey
  kdesc : W64
  nteam : Nat
  mode : Nat
  args : W64
  olog : W64
  done : W64
  seq : W32
  deriving DecidableEq, Repr

/-- An order-log entry (R312). -/
structure LogEntry where
  kind : Nat
  site : Nat
  team : Nat
  gidx : Nat
  lane : Nat
  opn : Nat
  value : W64
  ord : Nat
  deriving DecidableEq, Repr

/-- An active launch (R269, R270). -/
structure Launch where
  id : Nat
  part : Nat
  cmd : LaunchCmd
  prio : Nat
  deq : Nat
  desc : Desc
  /-- Cursors of the virtual-core lists, default v, and bindings (R48, R49). -/
  cursor : Tab (Option Nat) := []
  binding : Tab (Option Place) := []
  /-- Teams ended: all below `endedTo`, and those listed. -/
  endedTo : Nat := 0
  ended : List Nat := []
  /-- R115: words of code and constants written since the launch began, by physical word address. -/
  stale : List Nat := []
  /-- R306: words written at any time since the launch began. -/
  changed : List Nat := []
  /-- Order log: what is still to be replayed, next ORD of each site, next undispatched entry by slot. -/
  replay : List LogEntry := []
  ords : Tab Nat := []
  overflowed : List Nat := []
  /-- FSIZE and NFRAME as read at dequeue (R345). -/
  fsize : Nat := 0
  nframe : Nat := 0
  /-- R25, R305, R312: every team has ended; the successors and the log's DONE are written. -/
  closing : Bool := false
  deriving DecidableEq, Repr

/-- A placement-queue entry (R271). `uid` names the saved team of a resumed entry. -/
structure Entry where
  uid : Nat
  launch : Nat
  team : Nat
  resumed : Bool
  waitedTick : Bool := false
  ahead : Bool := false
  /-- R189: the team is resumed only where it fits with its full footprint. -/
  full : Bool := false
  deriving DecidableEq, Repr

/-- What an engine command does (R284 to R298, R326, R364). -/
inductive CmdKind where
  | cpy (dst src : W64) (len : Nat) (dl sl : Bool)
  | rstr (pa : Nat) (frames : Nat) (pw : W32)
  /-- A tile-task record: word 0, A, B, and the B operand bytes read at issue by `mma`. -/
  | tile (w0 a b : W64) (regs : Option (List (Option Byte)))
  /-- A forest's descriptor; the four words of the control block, and behind them the descriptor's virtual address. -/
  | relabel (desc : Nat) (ty : Ty) (ctl : List W64)
  | cntsn (buf : W64) (sel : Bool)
  deriving DecidableEq, Repr

/-- An engine command. `left` are the intervals of pieces not yet read, `held` the pieces read and not yet written. -/
structure Cmd where
  id : Nat
  kind : CmdKind
  part : Nat
  slot : SlotKey
  team : Nat
  gidx : Nat
  core : Nat
  pair : Nat
  launch : Nat
  sup : Bool
  /-- The rounding mode, DPHASE and stochastic choice at issue (R296). -/
  frm : BitVec 2 := 0
  dphase : W32 := 0
  engine : Option Nat := none
  started : Bool := false
  /-- Nothing is left but to tell its handle. -/
  finished : Bool := false
  left : List (Nat × Nat) := []
  held : List (Nat × List (Option Byte) × Bool) := []
  status : Nat := 0
  detail : Nat := 0
  addr : W64 := 0
  flags : BitVec 5 := 0
  cursor : Nat := 0
  roots : List Nat := []
  /-- R294: of each register that an `mxfnc` names, the group, the register and its writes under EPIN before the issue. -/
  pins : List (Nat × Nat × Nat) := []
  /-- R184: the operations of the issuing split's stream that the command joins its queue behind. -/
  after : List Nat := []
  deriving DecidableEq, Repr

/-- A write in the arrival queue of a die (R175). `pos` holds each byte's coherence position. -/
structure Arrival where
  src : Nat
  vc : List Nat
  cells : List (Nat × Byte × Nat)
  team : Nat
  gidx : Nat
  split : Nat
  deriving DecidableEq, Repr

/-- A die view (R175): values, positions, clock and arrival queue. -/
structure View where
  mem : Bytes := []
  pos : Tab Nat := []
  clock : List Nat := [0, 0, 0, 0, 0, 0, 0, 0]
  queue : List Arrival := []
  deriving DecidableEq, Repr

/-- An ordered-reduction entry (R163) of a context, in the buffer of a slice or in the migration area (R143). -/
structure Held where
  key : SlotKey := 0
  slice : Nat
  set_ : Nat
  ty : Ty
  idx : Nat
  x : W64
  migrated : Bool := false
  clock : List Nat := []
  /-- R162: software has stored to the set since. -/
  spoilt : Bool := false
  deriving DecidableEq, Repr

/-- A live re-stripe (R143): its frames, its cursor in 512-byte blocks and the new word. -/
structure Moving where
  cmd : Nat
  pa : Nat
  bytes : Nat
  cursor : Nat
  old : List W32
  pw : W32
  deriving DecidableEq, Repr

/-- A cached translation (R130): the agent, the slot, the level, the prefix of the address and the entry. -/
structure Tlb where
  agent : Nat
  slot : SlotKey
  level : Nat
  prefix_ : Nat
  pte : W64
  deriving DecidableEq, Repr

/-- The memory system: views, home orders, host memory, poison, frame map, storage. -/
structure MemSys where
  views : List View
  /-- The home units' coherence order: the last position of each byte. -/
  home : Tab Nat := []
  /-- Host memory beyond the device (R20), by physical address. -/
  host : Bytes := []
  /-- Poisoned sectors (R120), by physical sector number: what a read of the sector finds, at the slice that holds it or in
  HBM. -/
  poison : List Nat := []
  /-- Sectors whose poison bit is set in HBM alone, under a valid copy in a cache whose own bit is clear (R104, R116). -/
  buried : List Nat := []
  /-- R119: HBM sectors whose stored data ECC will find wrong at the next read, and what it will find. -/
  latent : Tab Ecc := []
  frameMap : Tab (Option W32) := []
  /-- Storage reserved on each stack, in 4 KiB units (R136). -/
  reserved : Tab Nat := []
  moving : List Moving := []
  ored : List Held := []
  deriving DecidableEq, Repr

/-- A context slot (R23, R303, R355). -/
structure Slot where
  accepted : W64 := 0
  dropped : W64 := 0
  recfail : W64 := 0
  reclast : W64 := 0
  ptroot : W64 := 0
  sventry : W64 := 0
  save : W64 := 0
  fdt : W64 := 0
  eslot : W64 := 0
  mparm : W64 := 0
  mpwake : W64 := 0
  deriving DecidableEq, Repr

/-- A partition (R17, R59, R270, R355). -/
structure Part where
  clusters : BitVec 64 := 0
  ranges : List (Nat × Nat) := []
  shares : List Nat := []
  quantum : BitVec 20 := 0
  quantumNext : BitVec 20 := 0
  evt : Tab W32 := []
  epart : W64 := 0
  pfil : W64 := 0
  pful : W64 := 0
  pfltl : W64 := 0
  pfxl : W64 := 0
  nextDeq : Nat := 0
  /-- MSI-X messages sent (R26, R337). -/
  msix : Nat := 0
  queues : List (List LaunchCmd) := [[], [], [], []]
  placement : List Entry := []
  deriving DecidableEq, Repr

/-- The states in which an L1 holds a sector (R113); the fifth, invalid, is the lack of one. -/
inductive Moesi where
  | modified | owned | exclusive | shared
  deriving DecidableEq, Repr

/-- An L1 line (R104): the line number, the state of each of its four sectors, the replacement priority of R152 (0 `.str`,
2 `.keep`), the prefetch state. -/
structure L1Line where
  core : Nat
  line : Nat
  secs : List (Option Moesi)
  prio : Nat := 1
  prefetched : Bool := false
  inflight : Bool := false
  deriving DecidableEq, Repr

/-- A valid sector of a last-level block (R116). `excl` says that a host line is held exclusive (R117). -/
structure LlcSec where
  dirty : Bool := false
  excl : Bool := false
  prefetched : Option Nat := none
  inflight : Bool := false
  deriving DecidableEq, Repr

/-- A tag block of a last-level slice (R116): the slice, the 512-byte range, the coherence grain of its page, its valid
sectors by their index. The poison bit of a valid sector is `MemSys.poison`; that of its storage may differ
(`MemSys.buried`). -/
structure LlcBlock where
  unit_ : Nat
  block : Nat
  grain : Nat := 0
  secs : Tab (Option LlcSec) := []
  deriving DecidableEq, Repr

/-- The stream that a prefetcher follows (R124): the last demand address and the distance from the one before it. An L1's
stream holds virtual addresses of a slot at a level; a slice's holds physical ones. -/
structure Stream where
  slot : SlotKey := 0
  sup : Bool := false
  last : Nat := 0
  stride : Int := 0
  deriving DecidableEq, Repr

/-- A request in the host bridge queue (R175). -/
inductive HostReq where
  | read (pa n : Nat)
  | write (pa : Nat) (bytes : List Byte)
  /-- A snoop of a host line over CXL.cache. -/
  | snoop (pa : Nat) (invalidate : Bool)
  deriving DecidableEq, Repr

/-- A release that was performed before operations that it would have waited for (R178): its group and split, its scope,
the bytes it wrote, the names of those operations, and the splits that have read the bytes since. A fence is one without
bytes; the writes that follow it take its part. -/
structure Early where
  team : Nat
  gidx : Nat
  split : Nat
  scope : Scope
  glob : Bool
  loc : Nat
  size : Nat
  before : List Nat
  seen : List (Nat × Nat × Nat) := []
  /-- An acquire that does not synchronise with it has read it: it is as if it were `.rlx`. -/
  lax : Bool := false
  deriving DecidableEq, Repr

/-- Splits of one quadrant (core × 4 + quadrant) that share fetches (R45): the block fetched last, and the one before. -/
structure FuseSet where
  quad : Nat
  slot : SlotKey
  block : Nat
  prev : Nat
  members : List (Nat × Nat × Nat)
  deriving DecidableEq, Repr

/-- An instruction or constant cache line (R104, R115): the core, the slot and the virtual line. -/
structure CodeLine where
  core : Nat
  const : Bool
  slot : SlotKey
  line : Nat
  deriving DecidableEq, Repr

/-- A core (R355). -/
structure Core where
  cycle : W64 := 0
  pfi1 : W64 := 0
  pfu1 : W64 := 0
  pflt1 : W64 := 0
  pfx1 : W64 := 0
  fetch : W64 := 0
  fused : W64 := 0
  /-- R276: one more than the cycle in which an instruction last used the engine port. -/
  port : Nat := 0
  /-- R277: one more than the cycle in which a tile-task record last entered the pair's queue from this core. -/
  tport : Nat := 0
  deriving DecidableEq, Repr

/-- A lane group, or a uniform datapath (R37, R358): core cycles it stays busy, the mode, the core cycles a change still
takes, the cycles of its starts among the preceding 256, and the split whose latch chain runs on it. -/
structure LaneGroup where
  busy : Nat := 0
  nominal : Bool := false
  changing : Nat := 0
  starts : List Nat := []
  chain : Option (Nat × Nat × Nat) := none
  deriving DecidableEq, Repr

/-- A cluster's allowance (R275, R357): A, the charges of this cycle, the settings, WHELD, the starvation hold (the team,
group and split whose withheld instruction it is for). -/
structure Cluster where
  allow : BitVec 32 := 4096
  charges : Nat := 0
  settings : Allowance := {}
  wheld : W64 := 0
  heldNow : Bool := false
  starving : Option (Nat × Nat × Nat) := none
  deriving DecidableEq, Repr

/-- An engine lease (R278). -/
structure Lease where
  team : Option Nat := none
  count : Nat := 0
  deriving DecidableEq, Repr

/-- A core pair (R269, R278): the tile-task queue in submission order, the two leases, the counters. -/
structure Pair where
  queue : List Nat := []
  lease0 : Lease := {}
  lease1 : Lease := {}
  lgrant : W64 := 0
  lpass : W64 := 0
  deriving DecidableEq, Repr

/-- A junction directory entry (R308). `recalling`, `used` and `wants` serve R309's replacement: the request that waits for
the recall, as its core, its address and whether it writes. -/
structure DirEntry where
  mode : Nat := 0
  ptrs : List Nat := []
  coarse : BitVec 64 := 0
  ost : Nat := 0
  odie : Nat := 0
  ocore : Nat := 0
  tag : Nat := 0
  recalling : Bool := false
  used : Nat := 0
  wants : Option (Nat × Nat × Bool) := none
  deriving DecidableEq, Repr

/-- A black-box entry (R351). -/
structure BoxEntry where
  unit_ : Nat
  cls : Nat
  src : Nat
  action : Nat
  recovered : Bool
  seq : W32
  cyc : W64
  addr : W64
  detail : W32
  part : Option Nat
  ctx : Option Nat
  deriving DecidableEq, Repr

/-- A request in the signing queue (R364): its command, the core that issued it and that core's cycle (R365). -/
structure SignReq where
  cmd : Nat
  core : Nat := 0
  cycle : W64 := 0
  deriving DecidableEq, Repr

/-- The management controller and the fuses (R28 to R30, R362, R364). The lifecycle is its byte; any other fuse
pattern reads as 5. -/
structure Mgmt where
  lifecycle : Nat
  msm : List (BitVec 256)
  rnum : Nat
  sealedRnum : Nat
  sealedPart : Tab W64 := []
  sealedSlot : Tab W64 := []
  sealedEovh : W64 := 0
  /-- GAP by counter: partition, or 16 + slot key (R362). -/
  gap : List Nat := []
  eovh : W64 := 0
  signQ : List SignReq := []
  /-- Accepting work; false after the loss of J0 until module reset (R343), and without power (R362). -/
  alive : Bool := true
  powered : Bool := true
  deriving DecidableEq, Repr

/-- What the module last answered to its host over CXL or the sideband. -/
inductive HostReply where
  | none
  | readData (bytes : List Byte) (poison : Bool)
  | writeDone
  | dropped
  | accepted
  | refused
  /-- R29: the signature and the certificate chain of the key that made it. -/
  | quote (sig : BitVec 512) (chain : List Byte)
  /-- R185: the completion of a host write. -/
  | cmp
  /-- A register or a counter that the host reads (R23, R59, R303, R311, R337, R355). -/
  | port (v : W64)
  /-- R357: the settings of a cluster's allowance. -/
  | allowance (a : Allowance)
  /-- R8: the enabled clusters; R136: free storage by stack, in 4 KiB units; R30: the lifecycle state and whether debug
  access is open; the black box or the controller's log (R343, R352); the logged accesses (R22). -/
  | enabled (mask : BitVec 64)
  | storage (free : List Nat)
  | lifecycle (n : Nat) (debug : Bool)
  | box (l : List BoxEntry)
  | strays (l : List (Nat × Bool))
  deriving DecidableEq, Repr

/-- The rest of the device: caches, counters, queues, the black box. -/
structure Dev where
  enabled : BitVec 64
  harvested : Bool
  parts : Tab Part := []
  slots : Tab Slot := []
  cores : Tab Core := []
  quads : Tab Nat := []
  lanes : Tab LaneGroup := []
  pairs : Tab Pair := []
  clusters : Tab Cluster := []
  launches : List Launch := []
  copyQ : Tab (List Nat) := []
  cmds : List Cmd := []
  l1 : List L1Line := []
  llc : List LlcBlock := []
  /-- Prefetch streams: of L1s by core, of slices from 256. -/
  streams : Tab (Option Stream) := []
  code : List CodeLine := []
  tlb : List Tlb := []
  dir : Tab DirEntry := []
  /-- R309: by set, since when a request has waited for a way, and its address. -/
  dirWait : Tab (Nat × Nat) := []
  /-- Junction dies that have failed (R310, R343). -/
  failed : List Nat := []
  down : List Link := []
  severity : Tab W32 := []
  box : List BoxEntry := []
  boxFrozen : Bool := false
  boxStopped : Bool := false
  ctrlLog : List BoxEntry := []
  unitSeq : Tab W32 := []
  peers : List (Nat × Nat × Option Nat) := []
  /-- Kept answers of R165: source, target, number, answer; and the next number of each pair. -/
  answers : List (Nat × Nat × Nat × W64) := []
  nextSeq : Tab Nat := []
  logQ : Tab (List (Nat × LogEntry)) := []
  /-- The sc order (R182): fences of each scope that have taken their place and are not yet done. -/
  scNext : Nat := 0
  scOpen : List (Nat × Option Nat) := []
  /-- Releases performed early (R178). -/
  early : List Early := []
  fuses : List FuseSet := []
  /-- The host bridge queue (R175), oldest first, and how many requests have entered it and been performed (R182). -/
  hostQ : List HostReq := []
  hostIn : Nat := 0
  hostDone : Nat := 0
  /-- Host writes whose Cmp is due (R185): the count that each home die's clock must reach on every die. -/
  hostCmp : List (List (Nat × Nat)) := []
  /-- R22: host accesses outside every range: the address, and whether it was a write. -/
  hostLog : List (Nat × Bool) := []
  reply : HostReply := .none
  /-- Completion records written over a poisoned sector (R26): address, slot, record. -/
  badRecords : List (Nat × SlotKey × W64) := []
  /-- R360: who has spent energy in this core cycle: slots by key, 256 + partition with no slot, 512 no partition. -/
  spent : List Nat := []
  deriving DecidableEq, Repr

/-- The split whose instruction the next step runs. -/
structure Issuer where
  team : Nat
  gidx : Nat
  split : Nat
  deriving DecidableEq, Repr

/-- The machine. The fields below `dev` are the model's own (log entry 3): the split whose instruction runs next, the
events due, the counters that feed `Config.undef`, `Config.choice` and `Config.nextEvent`, and the next free name. -/
structure State where
  mem : MemSys
  mgmt : Mgmt
  teams : List Team
  saved : List Team
  dev : Dev
  cur : Option Issuer
  agenda : List Instr
  undefs : Nat
  choices : Nat
  tick : Nat
  nextUid : Nat
  deriving DecidableEq, Repr

/-- Why the machine stops. -/
inductive Fault where
  /-- An instruction was to run and no split is issuing, or the split named does not exist. Raised by the meanings when
  they are applied to a state that no step makes. Safe: the device has no such state. -/
  | noIssuer
  deriving DecidableEq, Repr

/-- Why the model gives no meaning. -/
inductive Refusal where
  /-- Raised by Dispatch for a row whose meaning is not written. Safe: nothing is claimed of it. -/
  | notModelled (mnemonic : String)
  deriving DecidableEq, Repr

/-- The defaults of the severity matrix (R339), by class. -/
def severityDefault : Nat → W32
  | 0 | 2 | 5 | 6 | 8 => 0x09249249
  | 1 => 0x1A492492
  | 10 => 0x196DB6DB
  | _ => 0x12492492

/-- Module reset (R28, R59, R104, R134, R187, R269, R302, R339, R355, R357). Values that the spec does not give are those
of log entries 1 and 3. -/
def State.reset : State where
  mem := { views := List.replicate 8 {} }
  mgmt := { lifecycle := 3, msm := List.replicate 8 0, rnum := 0, sealedRnum := 0 }
  teams := []
  saved := []
  dev := { enabled := BitVec.allOnes 64, harvested := false }
  cur := none
  agenda := []
  undefs := 0
  choices := 0
  tick := 0
  nextUid := 1

end Sys2Proof.Machine
end

