-- ==== Sys2Proof/Machine/Prog.lean ====
section
/-! DEFINITION. Sparse tables; the primitive effects by which every meaning changes the state; and the programs of such
effects in which the meanings are written. Whatever every effect keeps, every step keeps. -/
namespace Sys2Proof.Machine

/-! ### Sparse tables -/

/-- The value at a key; `d` is the value of every key that is not listed. -/
def Tab.get {α : Type} (d : α) : Tab α → Nat → α
  | [], _ => d
  | (j, a) :: t, k => if k = j then a else if k < j then d else Tab.get d t k

def Tab.del {α : Type} (k : Nat) : Tab α → Tab α
  | [] => []
  | (j, a) :: t => if k = j then t else if k < j then (j, a) :: t else (j, a) :: Tab.del k t

def Tab.put {α : Type} (k : Nat) (x : α) : Tab α → Tab α
  | [] => [(k, x)]
  | (j, a) :: t => if k = j then (k, x) :: t else if k < j then (k, x) :: (j, a) :: t else (j, a) :: Tab.put k x t

/-- Sets a key; the default removes the entry, so that equal tables are equal lists. -/
def Tab.set {α : Type} [DecidableEq α] (d : α) (t : Tab α) (k : Nat) (x : α) : Tab α :=
  if x = d then t.del k else t.put k x

/-- Drops the keys of a range. -/
def Tab.clear {α : Type} (lo hi : Nat) (t : Tab α) : Tab α := t.filter (fun e => e.1 < lo || hi ≤ e.1)

/-- Keys strictly rising and above a bound. -/
def Tab.risingFrom {α : Type} : Nat → Tab α → Bool
  | _, [] => true
  | b, (k, _) :: t => b ≤ k && Tab.risingFrom (k + 1) t

/-- The canonical form: keys strictly rising and no entry equal to the default. -/
def Tab.wf {α : Type} [DecidableEq α] (d : α) (t : Tab α) : Bool := Tab.risingFrom 0 t && t.all (fun e => e.2 ≠ d)

/-- A set of numbers in rising order. -/
def insertNat (n : Nat) : List Nat → List Nat
  | [] => [n]
  | m :: t => if n = m then m :: t else if n < m then n :: m :: t else m :: insertNat n t

def removeNat (n : Nat) (l : List Nat) : List Nat := l.filter (· != n)

/-- Replaces the first element that satisfies a test. -/
def replaceFirst {α : Type} (p : α → Bool) (x : α) : List α → List α
  | [] => []
  | a :: t => if p a then x :: t else a :: replaceFirst p x t

/-- Changes the first element that satisfies a test. -/
def modFirst {α : Type} (p : α → Bool) (f : α → α) : List α → List α
  | [] => []
  | a :: t => if p a then f a :: t else a :: modFirst p f t

/-- The n-th element of a list replaced. -/
def setNth {α : Type} : List α → Nat → α → List α
  | [], _, _ => []
  | _ :: t, 0, x => x :: t
  | a :: t, n + 1, x => a :: setNth t n x

/-! ### The placement word (R133, R134) -/

/-- R133: no field holds an illegal value. -/
def legalPlacement (pw : W32) : Bool :=
  pw.extractLsb' 0 8 != 0 && pw.extractLsb' 8 2 != 0 && (pw.extractLsb' 10 4).toNat ≤ 5 && (pw.extractLsb' 14 3).toNat ≤ 3
    && pw.extractLsb' 20 2 != 3 && !(pw.extractLsb' 20 2 == 2 && pw.extractLsb' 17 3 == 0) && (pw.extractLsb' 22 2).toNat ≤ 1
    && (pw.extractLsb' 22 2 == 1 || pw.extractLsb' 24 3 == 0) && pw.extractLsb' 27 5 == 0

/-- R134: the home placement of a frame, the whole frame on stack f mod 16. -/
def homePlacement (f : Nat) : W32 :=
  let st := f % 16
  BitVec.ofNat 32 (2 ^ (st / 2) + (if st % 2 = 0 then 1 else 2) * 2 ^ 8 + 5 * 2 ^ 10 + 2 * 2 ^ 14 + 7 * 2 ^ 17 + 2 ^ 20)

/-- The frame map's word of a frame (R134). -/
def MemSys.frameWord (m : MemSys) (f : Nat) : W32 := (Tab.get none m.frameMap f).getD (homePlacement f)

/-! ### Effects on the memory system -/

/-- The effects on the memory system. -/
inductive MemEff where
  /-- R179: bytes of one write committed from a die: next coherence position, view and clock of the die, a place in the
  arrival queue of every other die. -/
  | commit (die : Nat) (cells : List (Nat × Byte)) (team gidx split : Nat)
  /-- R185: bytes of host memory, current for every agent. -/
  | hostWrite (cells : List (Nat × Byte))
  /-- R180: the die takes the k-th write of its arrival queue. -/
  | applyWrite (die k : Nat)
  | poison (sector : Nat) (on : Bool)
  /-- R104, R116: the poison bit of a sector's storage under a valid copy. -/
  | bury (sector : Nat) (on : Bool)
  /-- R119: what ECC will find in a sector. -/
  | latent (sector : Nat) (e : Ecc)
  /-- R134: an illegal word is never stored (R133). -/
  | frame (f : Nat) (pw : W32)
  | reserve (stack units : Nat)
  /-- R126: a range reads zero, unpoisoned, on every die. -/
  | wipe (lo hi : Nat)
  /-- R136: a range holds any bytes from now on, the same on every die; the bytes are drawn from a seed. -/
  | scramble (lo hi seed : Nat)
  | moving (l : List Moving)
  | ored (l : List Held)
  /-- Module reset: nothing of HBM can be reached until a range is assigned, and reads zero then (R104, R126, R134). -/
  | reset
  /-- R41: committed writes of split `b` of a group count as those of split `a` (R178). -/
  | retag (team gidx a b : Nat)
  deriving DecidableEq, Repr

def View.take (v : View) (cells : List (Nat × Byte × Nat)) : View :=
  cells.foldl (fun v c =>
    if Tab.get 0 v.pos c.1 < c.2.2 then
      { v with mem := Tab.set 0 v.mem c.1 c.2.1, pos := Tab.set 0 v.pos c.1 c.2.2 }
    else v) v

/-- The clock with die d's counter advanced. -/
def bump (clock : List Nat) (d : Nat) : List Nat := setNth clock d (clock.getD d 0 + 1)

def MemEff.apply (e : MemEff) (m : MemSys) : MemSys :=
  match e with
  | .commit die cells team gidx split =>
    let placed := cells.map (fun c => (c.1, c.2, Tab.get 0 m.home c.1 + 1))
    let home := placed.foldl (fun h c => Tab.set 0 h c.1 c.2.2) m.home
    let vc := bump (m.views.getD die {}).clock die
    let views := (m.views.zip (List.range m.views.length)).map (fun p =>
      if p.2 = die then { View.take p.1 placed with clock := vc }
      else { p.1 with queue := p.1.queue ++ [⟨die, vc, placed, team, gidx, split⟩] })
    { m with home, views }
  | .hostWrite cells => { m with host := cells.foldl (fun h c => Tab.set 0 h c.1 c.2) m.host }
  | .applyWrite die k =>
    match m.views[die]? with
    | none => m
    | some v =>
      match v.queue[k]? with
      | none => m
      | some w =>
        let v1 := View.take v w.cells
        { m with views := setNth m.views die { v1 with clock := setNth v.clock w.src (w.vc.getD w.src 0), queue := v.queue.eraseIdx k } }
  | .poison sector on => { m with poison := if on then insertNat sector m.poison else removeNat sector m.poison }
  | .bury sector on => { m with buried := if on then insertNat sector m.buried else removeNat sector m.buried }
  | .latent sector e => { m with latent := Tab.set .good m.latent sector e }
  | .frame f pw =>
    if legalPlacement pw then
      { m with frameMap := Tab.set none m.frameMap f (if pw = homePlacement f then none else some pw) }
    else m
  | .reserve stack units => { m with reserved := Tab.set 0 m.reserved stack units }
  | .wipe lo hi =>
    { m with views := m.views.map (fun v => { v with
               mem := Tab.clear lo hi v.mem
               queue := v.queue.map (fun a => { a with cells := a.cells.filter (fun c => c.1 < lo || hi ≤ c.1) }) }),
             poison := m.poison.filter (fun s => 32 * s < lo || hi ≤ 32 * s)
             buried := m.buried.filter (fun s => 32 * s < lo || hi ≤ 32 * s)
             latent := m.latent.filter (fun e => 32 * e.1 < lo || hi ≤ 32 * e.1)
             ored := m.ored.filter (fun h => h.set_ + 16 ≤ lo || hi ≤ h.set_) }
  | .scramble lo hi seed =>
    { m with views := m.views.map (fun v => { v with
        mem := (List.range' lo (hi - lo)).foldl (fun t a => Tab.set 0 t a ((Config.undef (seed + a)).setWidth 8)) v.mem }) }
  | .moving l => { m with moving := l }
  | .reset => { views := List.replicate 8 {}, host := m.host, poison := m.poison }
  | .ored l => { m with ored := l }
  | .retag team gidx a b =>
    { m with views := m.views.map (fun v => { v with queue := v.queue.map (fun w =>
        if w.team == team && w.gidx == gidx && w.split == b then { w with split := a } else w) }) }

/-! ### Effects -/

/-- The primitive effects. -/
inductive Eff where
  | cur (c : Option Issuer)
  | group (team : Nat) (g : Group)
  | team (t : Team)
  | teams (resident saved : List Team)
  | mem (e : MemEff)
  | dev (d : Dev)
  /-- Taken only when the lifecycle and the reading number do not go back (R30, R365). -/
  | mgmt (m : Mgmt)
  | agenda (l : List Instr)
  | undef
  | choice
  | tick
  | uid
  deriving DecidableEq, Repr

def Team.withGroup (t : Team) (g : Group) : Team := { t with groups := replaceFirst (fun h => h.gidx == g.gidx) g t.groups }

def Eff.apply (e : Eff) (s : State) : State :=
  match e with
  | .cur c => { s with cur := c }
  | .group u g => { s with teams := modFirst (fun t => t.uid == u) (fun t => t.withGroup g) s.teams }
  | .team t => { s with teams := replaceFirst (fun x => x.uid == t.uid) t s.teams }
  | .teams r w => { s with teams := r, saved := w }
  | .mem e => { s with mem := e.apply s.mem }
  | .dev d => { s with dev := d }
  | .mgmt m => if s.mgmt.lifecycle ≤ m.lifecycle && s.mgmt.rnum ≤ m.rnum then { s with mgmt := m } else s
  | .agenda l => { s with agenda := l }
  | .undef => { s with undefs := s.undefs + 1 }
  | .choice => { s with choices := s.choices + 1 }
  | .tick => { s with tick := s.tick + 1 }
  | .uid => { s with nextUid := s.nextUid + 1 }

/-! ### Programs -/

/-- A program: it reads the state and applies effects; it may end early with what it has done, stop with a fault, or
refuse. -/
inductive Prog (α : Type) where
  | pure (a : α)
  | halt
  | fault (f : Fault)
  | refuse (r : Refusal)
  | read (k : State → Prog α)
  | eff (e : Eff) (k : Prog α)

namespace Prog

def bind {α β : Type} : Prog α → (α → Prog β) → Prog β
  | .pure a, f => f a
  | .halt, _ => .halt
  | .fault x, _ => .fault x
  | .refuse x, _ => .refuse x
  | .read k, f => .read (fun s => (k s).bind f)
  | .eff e k, f => .eff e (k.bind f)

@[reducible] def monad : Monad Prog where
  pure := Prog.pure
  bind := Prog.bind

/-- Runs a program from a state. -/
def run : Prog Unit → State → Host.Outcome State Fault Refusal
  | .pure _, s => .next s
  | .halt, s => .next s
  | .fault x, _ => .fault x
  | .refuse x, _ => .refused x
  | .read k, s => (k s).run s
  | .eff e k, s => k.run (e.apply s)

/-- How a program ends: with a result, early, or stopped. -/
inductive Ran (α : Type) where
  | done (a : α) (s : State)
  | halted (s : State)
  | faulted (f : Fault)
  | refused (r : Refusal)
  deriving DecidableEq, Repr

/-- A program's end from a state. -/
def go {α : Type} : Prog α → State → Ran α
  | .pure a, s => .done a s
  | .halt, s => .halted s
  | .fault x, _ => .faulted x
  | .refuse x, _ => .refused x
  | .read k, s => (k s).go s
  | .eff e k, s => k.go (e.apply s)

def get : Prog State := .read .pure
def act (e : Eff) : Prog Unit := .eff e (.pure ())
/-- Reads a function of the state. -/
def look {α : Type} (f : State → α) : Prog α := .read (fun s => .pure (f s))
def when (b : Bool) (p : Prog Unit) : Prog Unit := if b then p else .pure ()

/-- A program for each element, in order. -/
def each {α : Type} : List α → (α → Prog Unit) → Prog Unit
  | [], _ => .pure ()
  | a :: t, f => (f a).bind (fun _ => each t f)

/-- A program for each element, in order, with its results. -/
def collect {α β : Type} : List α → (α → Prog β) → Prog (List β)
  | [], _ => .pure []
  | a :: t, f => (f a).bind (fun b => (collect t f).bind (fun bs => .pure (b :: bs)))

/-- Repeats a program that answers whether to go on, at most `n` times. -/
def loop : Nat → Prog Bool → Prog Unit
  | 0, _ => .pure ()
  | n + 1, p => p.bind (fun b => if b then loop n p else .pure ())

/-- A fresh undefined value (R3). -/
def undef : Prog W64 := .read (fun s => .eff .undef (.pure (Config.undef s.undefs)))

/-- A choice among n candidates that the spec leaves to the device. -/
def choose (n : Nat) : Prog Nat :=
  if n ≤ 1 then .pure 0 else .read (fun s => .eff .choice (.pure (Config.choice s.choices % n)))

/-- The next free name. -/
def fresh : Prog Nat := .read (fun s => .eff .uid (.pure s.nextUid))

def modDev (f : Dev → Dev) : Prog Unit := .read (fun s => .eff (.dev (f s.dev)) (.pure ()))
def modMgmt (f : Mgmt → Mgmt) : Prog Unit := .read (fun s => .eff (.mgmt (f s.mgmt)) (.pure ()))

/-- An event due in the next step. -/
def due (i : Instr) : Prog Unit := .read (fun s => .eff (.agenda (s.agenda ++ [i])) (.pure ()))

end Prog

/-! ### Finding things in the state -/

def State.team? (s : State) (u : Nat) : Option Team := s.teams.find? (fun t => t.uid == u)
def State.group? (s : State) (u g : Nat) : Option Group := (s.team? u).bind (fun t => t.groups.find? (fun x => x.gidx == g))
def State.launch? (s : State) (id : Nat) : Option Launch := s.dev.launches.find? (fun l => l.id == id)

def Dev.part (d : Dev) (p : Nat) : Part := Tab.get {} d.parts p
def Dev.setPart (d : Dev) (p : Nat) (x : Part) : Dev := { d with parts := Tab.set {} d.parts p x }
def Dev.slot (d : Dev) (k : SlotKey) : Slot := Tab.get {} d.slots k
def Dev.setSlot (d : Dev) (k : SlotKey) (x : Slot) : Dev := { d with slots := Tab.set {} d.slots k x }
def Dev.core (d : Dev) (n : Nat) : Core := Tab.get {} d.cores n
def Dev.setCore (d : Dev) (n : Nat) (x : Core) : Dev := { d with cores := Tab.set {} d.cores n x }
/-- Lane groups are keyed core × 8 + quadrant × 2 + lane group. -/
def Dev.lane (d : Dev) (k : Nat) : LaneGroup := Tab.get {} d.lanes k
def Dev.setLane (d : Dev) (k : Nat) (x : LaneGroup) : Dev := { d with lanes := Tab.set {} d.lanes k x }
def Dev.pair (d : Dev) (n : Nat) : Pair := Tab.get {} d.pairs n
def Dev.setPair (d : Dev) (n : Nat) (x : Pair) : Dev := { d with pairs := Tab.set {} d.pairs n x }
def Dev.cluster (d : Dev) (c : Nat) : Cluster := Tab.get {} d.clusters c
def Dev.setCluster (d : Dev) (c : Nat) (x : Cluster) : Dev := { d with clusters := Tab.set {} d.clusters c x }
def Dev.cmd? (d : Dev) (id : Nat) : Option Cmd := d.cmds.find? (fun c => c.id == id)
def Dev.setCmd (d : Dev) (x : Cmd) : Dev := { d with cmds := replaceFirst (fun c => c.id == x.id) x d.cmds }
def Dev.setLaunch (d : Dev) (x : Launch) : Dev := { d with launches := replaceFirst (fun l => l.id == x.id) x d.launches }

/-- R7: the die, the module cluster and the pair of a core. -/
def dieOf (core : Nat) : Nat := core / 32
def clusterOf (core : Nat) : Nat := core / 4
def pairOf (core : Nat) : Nat := core / 2

end Sys2Proof.Machine
end

