-- ==== Sys2Proof/Machine/Splits.lean ====
section
/-! DEFINITION. Lanes and masks, splits of a group (R38 to R43), the signature accumulator (R249, R250), exits (R244) and
the overflow list (R40), as functions of one group. -/
namespace Sys2Proof.Machine

/-! ### Lanes -/

/-- The lanes below `w` that a mask holds, ascending. -/
def lanesOf (w : Nat) (m : Mask) : List Nat := (List.range w).filter (fun l => m.getLsbD l)
def maskOf (ls : List Nat) : Mask := ls.foldl (fun m l => m ||| BitVec.ofNat 128 (2 ^ l)) 0
/-- Every lane of a group. -/
def fullMask (w : Nat) : Mask := BitVec.ofNat 128 (2 ^ w - 1)
def lowestLane (w : Nat) (m : Mask) : Nat := (lanesOf w m).headD 0
def popCount (w : Nat) (m : Mask) : Nat := (lanesOf w m).length

/-! ### Per-thread registers of a group -/

/-- The key of a per-thread register. -/
def laneKey (reg lane : Nat) : Nat := reg * 128 + lane

def Group.pred (g : Group) (k lane : Nat) : Bool := k = 7 || Tab.get false g.p (laneKey k lane)
def Group.qpred (g : Group) (k : Nat) : Bool := k = 7 || g.q.getLsbD k
def Group.xreg (g : Group) (k lane : Nat) : BitVec 16 := Tab.get 0 g.x (laneKey k lane)
def Group.sreg (g : Group) (k : Nat) : W64 := if k = 63 then 0 else Tab.get 0 g.s k
def Group.vreg (g : Group) (k lane : Nat) : Option W32 := Tab.get none g.v (laneKey k lane)
def Group.handle (g : Group) (k : Nat) : Handle := Tab.get .empty g.h k
def Group.setHandle (g : Group) (k : Nat) (x : Handle) : Group := { g with h := Tab.set .empty g.h k x }

/-- The threads that a G = 0 instruction visits (R35), and the q guard of a G = 1 one (R36). -/
def Group.guardMask (g : Group) (h : Head) (m : Mask) : Mask :=
  if h.neg = false && h.idx = 7 then m
  else maskOf ((lanesOf g.width m).filter (fun l => g.pred h.idx.toNat l != h.neg))
def Group.guardQ (g : Group) (h : Head) : Bool := g.qpred h.idx.toNat != h.neg

/-! ### Splits -/

def Group.split (g : Group) (n : Nat) : Split := g.splits.getD n {}
def Group.setSplit (g : Group) (n : Nat) (x : Split) : Group := { g with splits := setNth g.splits n x }
def Group.modSplit (g : Group) (n : Nat) (f : Split → Split) : Group := g.setSplit n (f (g.split n))

/-- Free split numbers, ascending (R38). A number whose threads are all held by a handler is in use. -/
def Group.freeNumbers (g : Group) : List Nat := (List.range 4).filter (fun n => !(g.split n).live)

/-- Every thread has exited (R42). -/
def Group.over (g : Group) : Bool := g.exited &&& fullMask g.width == fullMask g.width

/-- A split that stands at an instruction boundary and may merge (R41). -/
def Split.atBoundary (x : Split) : Bool :=
  x.live && x.trap.isNone && x.resume.isNone && x.mask != 0 &&
    match x.wait with
    | .none | .rejoin | .number | .queue _ | .segments _ | .handle _ | .gather | .evict _ => true
    | _ => false

/-- A split that may issue, as far as its own waits go (R41); a wait before issue is tried again. -/
def Split.runnable (x : Split) : Bool :=
  x.live && x.trap.isNone && x.mask != 0 && (x.wait == .none)

/-- R281: a wait that parks its group in the lodge. -/
def Group.lodges (g : Group) (x : Split) : Bool :=
  x.live && (match x.wait with
    | .pages | .fwait _ | .yld _ | .handle _ | .queue _ | .retry _ _ => true
    | .op id => g.stream.any (fun o => o.id == id && (match o.kind with
        | .waitb | .arw => true
        | .emit => o.accs.any (·.full)
        | _ => false))
    | _ => false)

/-- R281: the group is parked. -/
def Group.parked (g : Group) : Bool := g.splits.any g.lodges && !g.splits.any Split.runnable

/-- R281: splits look again; a group that was parked has its WAITs at 0. -/
def Group.wake (g : Group) (f : Split → Split) : Group :=
  { g with splits := g.splits.map f, overflow := g.overflow.map f
           wait := if g.parked then 0 else g.wait, waitU := if g.parked then 0 else g.waitU }

/-- An operation leaves the stream; a group that was parked for it has its WAITs at 0 (R281). -/
def Group.dropOp (g : Group) (id : Nat) : Group :=
  let woken := g.parked && g.splits.any (fun x => x.live && x.wait == .op id)
  { g with stream := g.stream.filter (fun o => o.id != id), wait := if woken then 0 else g.wait, waitU := if woken then 0 else g.waitU }

/-- Two splits merge: equal PCs, both at a boundary, not a handler split with a user split (R41, R258). -/
def Split.meets (a b : Split) : Bool := a.atBoundary && b.atBoundary && a.pc == b.pc && a.sup == b.sup

/-! ### The signature accumulator (R249, R250) -/

def crcStep (c : W32) : W32 := if c.getLsbD 0 then (c >>> 1) ^^^ 0x82F63B78#32 else c >>> 1

def crcSteps : Nat → W32 → W32
  | 0, c => c
  | n + 1, c => crcSteps n (crcStep c)

/-- CRC-32C of the four bytes of a word in memory order (R249). -/
def crc32c (w : W32) : W32 := crcSteps 32 (w ^^^ 0xFFFFFFFF#32) ^^^ 0xFFFFFFFF#32

def unguarded (h : Head) : Bool := h.neg == false && h.idx == 7

/-- R249: the accumulator after a counted instruction, with the mask as it stands at issue. -/
def Split.sign (x : Split) (head : W32) (bare : Bool) : Split :=
  { x with acc := x.acc ^^^ crc32c head ^^^ (if x.mc then 0x80000000#32 else 0), mc := bare && x.mask != x.emask }

/-- R250: the accumulator of two splits that meet. -/
def mergeAcc (a b : W32) : W32 := if a = b then a else a ^^^ b ^^^ 0x00018000#32

def Split.remask (x : Split) : Split := { x with emask := x.mask, mc := false }

/-- R148: what two splits at one PC have performed of its instruction. -/
def mergeSkip (a b : Option (W64 × Mask)) : Option (W64 × Mask) :=
  match a, b with
  | some (p, m), some (q, n) => if p = q then some (p, m ||| n) else some (p, m)
  | some x, none => some x
  | none, y => y

/-- R41, R250: two splits become one. -/
def Split.merge (a b : Split) : Split :=
  { a with mask := a.mask ||| b.mask, emask := a.mask ||| b.mask, acc := mergeAcc a.acc b.acc, mc := false, wait := .none,
           fresh := false, chain := none, skip := mergeSkip a.skip b.skip }

/-- The first pair of splits that merge: numbers 0 to 3, then overflow entries as 4 + index. -/
def Group.mergePair (g : Group) : Option (Nat × Nat) :=
  let live := (List.range 4).filter (fun n => (g.split n).atBoundary)
  let pairs := live.flatMap (fun a => ((live.filter (fun b => a < b)).map (fun b => (a, b)))
    ++ (List.range g.overflow.length).map (fun k => (a, 4 + k)))
  pairs.find? (fun p => (g.split p.1).meets (if p.2 < 4 then g.split p.2 else g.overflow.getD (p.2 - 4) {}))

/-- Operations of stream `b` continue in stream `a` after a merge. -/
def Group.restream (g : Group) (a b : Nat) : Group :=
  { g with stream := g.stream.map (fun o => if o.split == b then { o with split := a } else o) }

/-- R274: a split that has started in this cycle goes on under another number. -/
def InCycle.renumber (a b : Nat) (p : InCycle) : InCycle := if p.splits.contains b then { p with splits := insertNat a p.splits } else p

/-- Merges the pair (R41): the lower number stays. -/
def Group.mergeAt (g : Group) (a b : Nat) : Group :=
  if b < 4 then
    { ((g.setSplit a ((g.split a).merge (g.split b))).setSplit b {}).restream a b with issued := g.issued.map (InCycle.renumber a b) }
  else
    { g.setSplit a ((g.split a).merge (g.overflow.getD (b - 4) {})) with overflow := g.overflow.eraseIdx (b - 4), listed := false }

/-- R40: the newest overflow entry takes a free number. -/
def Group.popOverflow (g : Group) : Group :=
  match g.overflow, g.freeNumbers with
  | e :: rest, n :: _ => { g.setSplit n e with overflow := rest, listed := false }
  | _, _ => g

/-- R40: splits that wait for a number try again once one is free. -/
def Group.numbersAgain (g : Group) : Group :=
  if g.freeNumbers.isEmpty then g
  else { g with splits := g.splits.map (fun x => if x.wait == .number then { x with wait := .none } else x) }

/-! ### Division (R39, R40, R250) -/

/-- Threads with one next PC: the PC, the threads, and which of them leave by a taken target. -/
structure NextSet where
  pc : W64
  mask : Mask
  taken : Mask
  deriving DecidableEq, Repr

/-- Adds a lane to the sets, kept in ascending order of PC. -/
def addLane (lane : Nat) (pc : W64) (taken : Bool) : List NextSet → List NextSet
  | [] => [⟨pc, maskOf [lane], if taken then maskOf [lane] else 0⟩]
  | s :: t =>
    if s.pc = pc then ⟨pc, s.mask ||| maskOf [lane], if taken then s.taken ||| maskOf [lane] else s.taken⟩ :: t
    else if pc.toNat < s.pc.toNat then ⟨pc, maskOf [lane], if taken then maskOf [lane] else 0⟩ :: s :: t
    else s :: addLane lane pc taken t

/-- R250: the accumulator of a set, from the updated value. -/
def NextSet.acc (s : NextSet) (a : W32) : W32 :=
  if s.taken = 0 then a else if s.taken = s.mask then 0 else mergeAcc 0 a

/-- The split that a set becomes; `whole` says that the split did not divide. -/
def NextSet.split (s : NextSet) (x : Split) (whole : Bool) : Split :=
  let y : Split := { x with pc := s.pc, mask := s.mask, acc := s.acc x.acc, wait := .none, fresh := false, chain := none, skip := none }
  if whole && (s.taken = 0 || s.taken = s.mask) then y else { y with emask := s.mask, mc := false }

/-- R39, R40: the sets after the first take the lowest free numbers, then become overflow entries. -/
def Group.place (g : Group) : List Split → Group
  | [] => g
  | x :: t =>
    match g.freeNumbers with
    | n :: _ => (g.setSplit n x).place t
    | [] => { g with overflow := x :: g.overflow, listed := false }.place t

/-- R39: split n divides into the sets. Which of them holds the operations of its stream R175 leaves open: DESIGN CHOICE, the
one that keeps the number (log entry 94). -/
def Group.divide (g : Group) (n : Nat) (sets : List NextSet) : Group :=
  let x := g.split n
  match sets with
  | [] => g
  | [s] => g.setSplit n (s.split x true)
  | s :: rest => (g.setSplit n (s.split x false)).place (rest.map (fun r => r.split x false))

/-! ### Exit (R42, R244) -/

/-- Threads leave a mask wherever the group holds them. -/
def Group.removeThreads (g : Group) (m : Mask) : Group :=
  let drop (x : Split) : Split :=
    if x.mask &&& m = 0 then x
    else if x.mask &&& ~~~m = 0 then {}
    else ({ x with mask := x.mask &&& ~~~m } : Split).remask
  { g with splits := g.splits.map drop, overflow := (g.overflow.map drop).filter (fun x => x.live)
           listed := g.listed && g.overflow.all (fun x => x.mask &&& m == 0) }

/-- R245, R260: splits that wait at a `rejoin` or for their trap mask look again. -/
def Group.rejoinAgain (g : Group) : Group :=
  let again (x : Split) : Split := if x.wait == .rejoin || x.wait == .gather then { x with wait := .none } else x
  { g with splits := g.splits.map again, overflow := g.overflow.map again }

/-- R244: threads exit, and leave every binding mask. -/
def Group.exitThreads (g : Group) (m : Mask) : Group :=
  ({ g.removeThreads m with
      exited := g.exited ||| m
      masks := (g.masks.map (fun (e : Nat × Mask) => (e.1, e.2 &&& ~~~m))).filter (fun e => e.2 != 0) }).rejoinAgain

/-- Threads that no split, overflow entry or handler holds have exited. -/
def Group.unexited (g : Group) (m : Mask) : Mask := m &&& ~~~g.exited

end Sys2Proof.Machine
end

