-- ==== Sys2Proof/Machine/Memory.lean ====
section
/-! DEFINITION. Global and local bytes, the address map (R20), placement (R135, R136), translation (R127 to R132), the
ordering machine's commits (R179 to R181) and the lodge's watches (R140). -/
namespace Sys2Proof.Machine

/-! ### Words and bytes (little-endian, R89) -/

/-- The number whose little-endian bytes are given. -/
def leNat : List Byte → Nat
  | [] => 0
  | b :: t => b.toNat + 256 * leNat t

/-- The low n bytes of a number, lowest first. -/
def bytesOf : Nat → Nat → List Byte
  | 0, _ => []
  | n + 1, x => BitVec.ofNat 8 x :: bytesOf n (x / 256)

def leWord (l : List Byte) : W64 := BitVec.ofNat 64 (leNat l)

/-- Bytes at consecutive addresses. -/
def cellsAt (a n : Nat) (x : W64) : List (Nat × Byte) := (List.range' a n).zip (bytesOf n x.toNat)

/-- Bits [hi:lo] of a number. -/
def field (x lo n : Nat) : Nat := x / 2 ^ lo % 2 ^ n
def fld (x : W64) (lo n : Nat) : Nat := field x.toNat lo n
def lo32 (x : W64) : Nat := fld x 0 32
def hi32 (x : W64) : Nat := fld x 32 32

/-! ### The physical address map (R20) -/

def hbmEnd : Nat := 0x90_0000_0000
def hostBase : Nat := 0x4_0000_0000_0000
def peerBase : Nat := 0x8_0000_0000_0000
def peerEnd : Nat := 0xC_0000_0000_0000
def inHbm (pa : Nat) : Bool := pa < hbmEnd
def inHost (pa : Nat) : Bool := hostBase ≤ pa && pa < peerBase
def inPeer (pa : Nat) : Bool := peerBase ≤ pa && pa < peerEnd
/-- The port of a peer window (R285). -/
def peerPort (pa : Nat) : Nat := (pa - peerBase) / 2 ^ 46

/-- R17: the bytes lie in one of the partition's memory ranges. -/
def Part.owns (p : Part) (pa n : Nat) : Bool := p.ranges.any (fun r => r.1 ≤ pa && pa + n ≤ r.1 + r.2)

/-- The partition whose ranges hold an address. -/
def Dev.owner (d : Dev) (pa : Nat) : Option Nat := (d.parts.find? (fun e => e.2.owns pa 1)).map (·.1)

/-! ### Placement (R135, R136) -/

/-- The stacks of a placement word, ascending. -/
def stacksOf (pw : W32) : List Nat :=
  (List.range 16).filter (fun s => pw.getLsbD (s / 2) && pw.getLsbD (8 + s % 2))

def grain (pw : W32) : Nat := 256 * 2 ^ field pw.toNat 17 3

/-- The placement word in force for a byte; a block of a moving page below the cursor has the new word (R143). -/
def MemSys.placeWord (m : MemSys) (pa : Nat) : W32 :=
  match m.moving.find? (fun v => v.pa ≤ pa && pa < v.pa + v.bytes) with
  | some v => if pa < v.pa + 512 * v.cursor then v.pw else v.old.getD ((pa - v.pa) / 65536) (homePlacement (pa / 65536))
  | none => m.frameWord (pa / 65536)

/-- The stack that stores a byte (R135). -/
def stackFor (pw : W32) (pa : Nat) : Nat :=
  let l := stacksOf pw
  l.getD (pa / grain pw % l.length) 0

/-- R135: the home die and slice of a byte; host lines are homed by their address. -/
def MemSys.homeDie (m : MemSys) (pa : Nat) : Nat :=
  if inHost pa then pa / 4096 % 8
  else
    let pw := m.placeWord pa
    if field pw.toNat 22 2 = 1 then field pw.toNat 24 3 else stackFor pw pa / 2
def homeSlice (pa : Nat) : Nat := ((pa / 512) ^^^ (pa / 16384)) % 32
def MemSys.homeUnit (m : MemSys) (pa : Nat) : Nat := m.homeDie pa * 32 + homeSlice pa

/-- Where a byte is stored and homed (R135). -/
structure StoredAt where
  stack : Nat
  channel : Nat
  bankGroup : Nat
  homeDie : Nat
  homeSlice : Nat
  deriving DecidableEq, Repr

/-- R135: Place. The channel and the bank group fix only the bandwidth. -/
def MemSys.place (m : MemSys) (pa : Nat) : StoredAt :=
  let pw := m.placeWord pa
  let n := (stacksOf pw).length
  let k := pa / grain pw
  let chn := 2 ^ field pw.toNat 10 4
  { stack := stackFor pw pa, channel := k / n % chn, bankGroup := k / (n * chn) % 2 ^ field pw.toNat 14 3
    homeDie := m.homeDie pa, homeSlice := homeSlice pa }

/-- R136: 4 KiB units that a frame takes on a stack. -/
def frameUnits (f : Nat) (pw : W32) (stack : Nat) : Nat :=
  let g := grain pw
  let n := ((List.range (65536 / g)).filter (fun i => stackFor pw (65536 * f + g * i) == stack)).length
  (n * g + 4095) / 4096

/-- 4 KiB units of a 36 GiB stack. -/
def stackUnits : Nat := 9437184

/-- R134, R136: the units that the frames of byte ranges take on a stack at home placement, 16 for each frame. -/
def homeUnits (ranges : List (Nat × Nat)) (stack : Nat) : Nat :=
  (ranges.map (fun r => 16 * (((r.1 + r.2) / 65536 + 15 - stack) / 16 - (r.1 / 65536 + 15 - stack) / 16))).foldl (· + ·) 0

/-- R136: the units that the frames of ranges hold on a stack now: those of a frame that was placed anew under its word. -/
def MemSys.heldUnits (m : MemSys) (ranges : List (Nat × Nat)) (stack : Nat) : Nat :=
  let replaced := m.frameMap.filter (fun e => ranges.any (fun r => r.1 ≤ 65536 * e.1 && 65536 * e.1 < r.1 + r.2))
  let atHome (f : Nat) : Nat := if f % 16 = stack then 16 else 0
  homeUnits ranges stack - (replaced.map (fun e => atHome e.1)).foldl (· + ·) 0
    + (replaced.map (fun e => frameUnits e.1 (m.frameWord e.1) stack)).foldl (· + ·) 0

/-- R136: replaces the reservation of frames by another, or nothing when a stack has too little free storage. -/
def MemSys.rereserve (m : MemSys) (frames : List Nat) (old new : Nat → Option W32) : Option (List (Nat × Nat)) :=
  let units (w : Nat → Option W32) (st : Nat) : Nat :=
    (frames.map (fun f => match w f with
      | some pw => frameUnits f pw st
      | none => 0)).foldl (· + ·) 0
  let next := (List.range 16).map (fun st => (st, Tab.get 0 m.reserved st - units old st + units new st))
  if next.all (fun e => e.2 ≤ stackUnits) then some next else none

/-! ### Reading memory -/

/-- A byte as a die's view holds it (R175); host memory is current for everyone (R185). -/
def MemSys.byte (m : MemSys) (die pa : Nat) : Byte :=
  if inHost pa then Tab.get 0 m.host pa else Tab.get 0 (m.views.getD die {}).mem pa

def MemSys.bytes (m : MemSys) (die pa n : Nat) : List Byte := (List.range' pa n).map (m.byte die)
def MemSys.word (m : MemSys) (die pa n : Nat) : W64 := leWord (m.bytes die pa n)

/-- Sector `s` has a byte of the range. -/
def sectorMeets (pa n s : Nat) : Bool := 32 * s < pa + n && pa < 32 * s + 32

def MemSys.poisoned (m : MemSys) (pa n : Nat) : Bool := m.poison.any (sectorMeets pa n)

/-- R119: the stored sectors of a range hold no error that ECC will find, and no poison bit that a copy hides. -/
def MemSys.eccGood (m : MemSys) (pa n : Nat) : Bool :=
  m.latent.all (fun e => !sectorMeets pa n e.1) && m.buried.all (fun s => !sectorMeets pa n s)

/-- R181: the die's view holds the latest write of every byte. -/
def MemSys.latest (m : MemSys) (die pa n : Nat) : Bool :=
  (List.range' pa n).all (fun a => Tab.get 0 (m.views.getD die {}).pos a == Tab.get 0 m.home a)

/-! ### Writing memory -/

/-- R115: words of a launch's code or constant windows. -/
def Dev.noteStale (d : Dev) (pas : List Nat) : Dev :=
  { d with launches := d.launches.map (fun l =>
      { l with stale := pas.foldl (fun st a => insertNat (a / 4) st) l.stale
               changed := pas.foldl (fun st a => insertNat (a / 4) st) l.changed }) }

/-- A byte as its home unit holds it: its latest write in coherence order (R175). -/
def MemSys.newest (m : MemSys) (pa : Nat) : Byte :=
  if inHost pa then Tab.get 0 m.host pa
  else match m.views.find? (fun v => Tab.get 0 v.pos pa == Tab.get 0 m.home pa) with
    | some v => Tab.get 0 v.mem pa
    | none => 0

/-- Eight bytes as the last writes of their coherence orders left them. -/
def MemSys.newestWord (m : MemSys) (pa : Nat) : W64 := leWord ((List.range' pa 8).map m.newest)

/-- Merges that are due, numbers that an overflow entry takes, the list in the frame (R40, R41): the steps right after this
one. -/
def settle (u gi : Nat) : Prog Unit :=
  .read (fun s => match s.group? u gi with
    | none => .pure ()
    | some g =>
      .eff (.group u g.numbersAgain) (
      if !g.listed || (!g.overflow.isEmpty && !g.freeNumbers.isEmpty) then Prog.due (.splitOverflow ⟨u, gi⟩)
      else match g.mergePair with
        | some (a, b) => Prog.due (.splitMerge ⟨u, gi⟩ a b)
        | none => .pure ()))

/-- A group of a slot that the lodge has woken. -/
structure Woken where
  key : SlotKey
  team : Nat
  gidx : Nat
  deriving DecidableEq, Repr

/-- R140: the lodge rereads the watched entries of the blocks written, at their home slices. -/
def rereadWatches (s : State) (blocks : List Nat) : List Team × List Woken :=
  s.teams.foldr (fun t (acc : List Team × List Woken) =>
    let key := ((s.launch? t.launch).map (fun l => l.cmd.slot)).getD 0
    let gs := t.groups.map (fun g =>
      let watch := g.watch.filter (fun a => !(blocks.contains (a / 512) && (s.mem.newest a).getLsbD 0))
      let woke := g.mpcount > 0 && watch.isEmpty && !g.watch.isEmpty
      let g := if watch.isEmpty then g.wake (fun x => if x.wait == .pages then { x with wait := .none } else x) else g
      ({ g with watch, mpcount := watch.length }, woke))
    (({ t with groups := gs.map (·.1) } :: acc.1), (gs.filter (·.2)).map (fun g => ⟨key, t.uid, g.1.gidx⟩) ++ acc.2)) ([], [])

/-- Groups that have been woken: counted in MPWAKE (R355), and merged with the splits that they meet (R41). -/
def afterWake (l : List Woken) : Prog Unit :=
  Prog.bind (Prog.modDev (fun d => l.foldl (fun d w => let x := d.slot w.key; d.setSlot w.key { x with mpwake := x.mpwake + 1 }) d))
    (fun _ => Prog.each l (fun w => settle w.team w.gidx))

/-- Wakes by R140 after a write. -/
def wakeWatches (blocks : List Nat) : Prog Unit :=
  .read (fun s =>
    if s.teams.any (fun t => t.groups.any (fun g => g.watch.any (fun a => blocks.contains (a / 512)))) then
      let r := rereadWatches s blocks
      .eff (.teams r.1 s.saved) (afterWake r.2)
    else .pure ())

/-- R120: a write of all 32 bytes of a sector clears its poison. -/
def clearedSectors (cells : List (Nat × Byte)) : List Nat :=
  let secs := cells.foldl (fun l c => insertNat (c.1 / 32) l) []
  secs.filter (fun s => (List.range' (32 * s) 32).all (fun a => cells.any (fun c => c.1 == a)))

/-- R179: a write commits from a die: it takes its positions, the die's view and clock and the other dies' arrival queues.
The bytes of host memory among it are what host coherence makes current from then on (R185). -/
def commitCells (die : Nat) (cells : List (Nat × Byte)) (team gidx split : Nat) : Prog Unit :=
  letI := Prog.monad
  do
    let hostC := cells.filter (fun c => inHost c.1)
    Prog.when (!hostC.isEmpty) (Prog.act (.mem (.hostWrite hostC)))
    Prog.act (.mem (.commit die cells team gidx split))
    let s ← Prog.get
    Prog.each ((clearedSectors cells).filter (fun x => s.mem.poison.contains x)) (fun x => Prog.act (.mem (.poison x false)))
    Prog.each ((clearedSectors cells).filter (fun x => Tab.get .good s.mem.latent x != .good)) (fun x => Prog.act (.mem (.latent x .good)))
    -- what is written back from a sound copy is sound
    Prog.each (s.mem.buried.filter (fun x => cells.any (fun c => c.1 / 32 == x))) (fun x => Prog.act (.mem (.bury x false)))
    Prog.modDev (fun d =>
      { d.noteStale (cells.map (·.1)) with
        badRecords := d.badRecords.filter (fun r => !(clearedSectors cells).contains (r.1 / 32)) })
    wakeWatches (cells.foldl (fun l c => insertNat (c.1 / 512) l) [])

/-- A commit by no group. -/
def noOrigin : Nat := 0
def commitPlain (die : Nat) (cells : List (Nat × Byte)) : Prog Unit := commitCells die cells noOrigin 0 0
def commitWord (die pa n : Nat) (x : W64) : Prog Unit := commitPlain die (cellsAt pa n x)

/-- R162: a store into a set that holds contributions leaves VALUE and NEXT undefined; the contributions are still applied or
dropped. -/
def spoilSets (die pa n : Nat) : Prog Unit :=
  letI := Prog.monad
  do
    let s ← Prog.get
    let sets := ((s.mem.ored.filter (fun h => pa < h.set_ + 16 && h.set_ < pa + n)).map (·.set_)).foldl (fun l a => insertNat a l) []
    Prog.when (!sets.isEmpty) (do
      Prog.act (.mem (.ored (s.mem.ored.map (fun h => if sets.contains h.set_ then { h with spoilt := true } else h))))
      Prog.each sets (fun a => do
        let u ← Prog.undef
        let v ← Prog.undef
        commitPlain die (cellsAt a 8 u ++ cellsAt (a + 8) 4 v)))

/-! ### Page tables (R127 to R131) -/

/-- What an access needs of a page (R131). -/
inductive Need where
  | read | write | both | cas | fetch | none
  deriving DecidableEq, Repr

/-- R127: bits [63:57] equal bit 56. -/
def canonical (va : W64) : Bool := fld va 56 8 == 0 || fld va 56 8 == 255

def pteV (e : W64) : Bool := e.getLsbD 0
def pteLeaf (e : W64) : Bool := e.getLsbD 1
def pteAddr (e : W64) : Nat := fld e 11 41 * 2048

/-- R129: a valid entry that is not well formed for its level. -/
def pteBad (level : Nat) (e : W64) : Bool :=
  fld e 7 4 != 0 || fld e 52 12 != 0
    || (if pteLeaf e then
          level ≥ 2 || (level == 1 && pteAddr e % 2 ^ 24 != 0) || (level == 0 && pteAddr e % 2 ^ 16 != 0)
        else
          level == 0 || fld e 2 4 != 0 || (level ≥ 2 && pteAddr e % 2 ^ 16 != 0))

/-- R128: the first address bit that indexes a level, and how many index it. -/
def levelShift : Nat → Nat
  | 3 => 50 | 2 => 37 | 1 => 24 | _ => 16
def levelBits : Nat → Nat
  | 3 => 7 | 2 => 13 | 1 => 13 | _ => 8
def levelIndex (level : Nat) (va : W64) : Nat := fld va (levelShift level) (levelBits level)
def levelPrefix (level : Nat) (va : W64) : Nat := fld va (levelShift level) (57 - levelShift level)

/-- Where a walk ends: a leaf, an invalid entry, or a failure; with the address of the entry last read. -/
inductive WalkEnd where
  | leaf (level : Nat) (e : W64) (at_ : Nat)
  | invalid (level : Nat) (e : W64) (at_ : Nat)
  | bad
  | range
  deriving DecidableEq, Repr

/-- A walk, with the valid entries it read by level (R130). -/
structure Walk where
  path : List (Nat × W64)
  end_ : WalkEnd
  deriving DecidableEq, Repr

/-- The bytes of a table of a level (R128). -/
def tableBytes (level : Nat) : Nat := if level = 3 then 1024 else if level = 0 then 2048 else 65536

/-- Walks from a table of `level - 1` (R130, R131). -/
def walkFrom (rd : Nat → W64) (part : Part) (va : W64) : Nat → Nat → Walk
  | 0, _ => ⟨[], .bad⟩
  | n + 1, table =>
    if !(inHbm table && part.owns table (tableBytes n)) then ⟨[], .range⟩
    else
      let a := table + 8 * levelIndex n va
      let e := rd a
      if !pteV e then ⟨[], .invalid n e a⟩
      else if pteBad n e then ⟨[(n, e)], .bad⟩
      else if pteLeaf e then ⟨[(n, e)], .leaf n e a⟩
      else
        let w := walkFrom rd part va n (pteAddr e)
        ⟨(n, e) :: w.path, w.end_⟩

/-- The walk from PTROOT. -/
def walkRoot (rd : Nat → W64) (part : Part) (ptroot va : W64) : Walk :=
  if ptroot.getLsbD 0 then walkFrom rd part va 4 (fld ptroot 16 36 * 65536) else ⟨[], .range⟩

/-- The walk as a cached entry continues it (R130). -/
def walkCached (rd : Nat → W64) (part : Part) (va : W64) (c : Tlb) : Walk :=
  if pteBad c.level c.pte then ⟨[(c.level, c.pte)], .bad⟩
  else if pteLeaf c.pte then ⟨[(c.level, c.pte)], .leaf c.level c.pte 0⟩
  else walkFrom rd part va c.level (pteAddr c.pte)

/-- The physical address of a leaf. -/
def leafPa (level : Nat) (e va : W64) : Nat := pteAddr e + fld va 0 (levelShift level)

/-- R131 checks 4 to 6, after the walk. -/
def leafCheck (part : Part) (sup : Bool) (need : Need) (level : Nat) (e va : W64) : Except (Cause × Nat) (Nat × Bool) :=
  let pa := leafPa level e va
  let rd := need == .read || need == .both || need == .cas
  let wr := need == .write || need == .both
  if need != .none && !e.getLsbD 5 && !sup then .error (.prot, 4)
  else if rd && !e.getLsbD 2 then .error (.prot, 1)
  else if wr && !e.getLsbD 3 then .error (.prot, 2)
  else if need == .fetch && !e.getLsbD 4 then .error (.prot, 3)
  else if inHbm pa then (if part.owns pa 1 then .ok (pa, e.getLsbD 3) else .error (.prot, 6))
  else if inHost pa || inPeer pa then .ok (pa, e.getLsbD 3)
  else .error (.prot, 7)

/-- R131: the outcome of a walk for an access. -/
def walkCheck (part : Part) (sup : Bool) (need : Need) (va : W64) (w : Walk) : Except (Cause × Nat) (Nat × Bool) :=
  match w.end_ with
  | .bad => .error (.pgfault, 4)
  | .range => .error (.prot, 6)
  | .invalid _ e _ => .error (.pgfault, if e.getLsbD 6 then 1 else 2)
  | .leaf level e _ => leafCheck part sup need level e va

/-- An agent's translation cache takes the valid entries that a walk has read, wherever the walk ends; an invalid one is not
cached (R130). -/
def Dev.fillTlb (d : Dev) (agent : Nat) (key : SlotKey) (va : W64) (w : Walk) : Dev :=
  { d with tlb := w.path.foldl (fun l e =>
      let c : Tlb := ⟨agent, key, e.1, levelPrefix e.1 va, e.2⟩
      if l.contains c then l else l ++ [c]) d.tlb }

/-- The walks that an access may make: from the root, or from any entry that the agent's cache holds (R130). -/
def walksOf (s : State) (agent die : Nat) (key : SlotKey) (va : W64) : List Walk :=
  let rd := fun a => s.mem.word die a 8
  let part := s.dev.part (key / 16)
  walkRoot rd part (s.dev.slot key).ptroot va ::
    (s.dev.tlb.filter (fun c => c.agent == agent && c.slot == key && c.prefix_ == levelPrefix c.level va)).map
      (walkCached rd part va)

/-- The walk from the root. -/
def rootWalk (s : State) (die : Nat) (key : SlotKey) (va : W64) : Walk :=
  walkRoot (fun a => s.mem.word die a 8) (s.dev.part (key / 16)) (s.dev.slot key).ptroot va

/-- Two checks come out the same. -/
def sameEnd (a b : Except (Cause × Nat) (Nat × Bool)) : Bool :=
  match a, b with
  | .ok x, .ok y => x == y
  | .error x, .error y => x == y
  | _, _ => false

/-- The walks from cached entries whose outcome is not that of the walk from the root. -/
def oddWalks (s : State) (agent die : Nat) (key : SlotKey) (sup : Bool) (need : Need) (va : W64) : List Walk :=
  let part := s.dev.part (key / 16)
  let w0 := rootWalk s die key va
  (walksOf s agent die key va).filter (fun w => w.end_ != w0.end_ && !sameEnd (walkCheck part sup need va w) (walkCheck part sup need va w0))

/-- The walk that an access makes. The agents are the cores 0 to 255, their map units from 256 and copy engines from 512.
The free choice between cached and fresh entries is drawn only where their outcomes differ. -/
def chooseWalk (agent die : Nat) (key : SlotKey) (sup : Bool) (need : Need) (va : W64) : Prog Walk :=
  letI := Prog.monad
  do
    let s ← Prog.get
    let w0 := rootWalk s die key va
    let odd := oddWalks s agent die key sup need va
    let k ← Prog.choose (odd.length + 1)
    let w := (w0 :: odd).getD k w0
    let fresh := s.dev.fillTlb agent key va w
    Prog.when (fresh.tlb.length != s.dev.tlb.length) (Prog.act (.dev fresh))
    pure w

/-- Translate (R131). -/
def translate (agent die : Nat) (key : SlotKey) (sup : Bool) (need : Need) (va : W64) :
    Prog (Except (Cause × Nat) (Nat × Bool)) :=
  letI := Prog.monad
  if !canonical va then .pure (.error (.prot, 5))
  else do
    let w ← chooseWalk agent die key sup need va
    let s ← Prog.get
    pure (walkCheck (s.dev.part (key / 16)) sup need va w)

/-- Translates each thread's address in turn: addresses by lane, or the failures by lane (R132). -/
def translateAll (agent die : Nat) (key : SlotKey) (sup : Bool) (need : Need) (eas : List (Nat × W64)) :
    Prog (List (Nat × W64 × Except (Cause × Nat) (Nat × Bool))) :=
  letI := Prog.monad
  Prog.collect eas (fun e => do
    let r ← translate agent die key sup need e.2
    pure (e.1, e.2, r))

end Sys2Proof.Machine
end

