-- ==== Sys2Proof/Machine/Cache.lean ====
section
/-! DEFINITION. The caches, their prefetchers and the junction directory (R12, R104, R113 to R116, R118, R122 to R126,
R308, R309). They are state that events, counters and reports read; no value depends on them (R114, R122). -/
namespace Sys2Proof.Machine

/-- The partition that a cluster belongs to (R16). -/
def Dev.clusterPart (d : Dev) (c : Nat) : Option Nat := (d.parts.find? (fun e => e.2.clusters.getLsbD c)).map (·.1)

/-- The partition of a core. -/
def Dev.corePart (d : Dev) (core : Nat) : Option Nat := d.clusterPart (clusterOf core)

/-! ### Who pays (R360) -/

/-- Who pays for what the module does: a slot by its key, 256 + a partition with no slot, 512 no partition. -/
abbrev Payer := Nat
def partPayer : Option Nat → Payer
  | some p => 256 + p
  | none => 512
/-- The partition of a payer; that of 512 is none, and no partition has its number. -/
def payerPart (who : Payer) : Nat := if who < 256 then who / 16 else who - 256
/-- A payer has spent energy in this core cycle. -/
def Dev.spend (d : Dev) (who : Payer) : Dev := { d with spent := insertNat who d.spent }
def spendFor (who : Payer) : Prog Unit := Prog.modDev (fun d => d.spend who)
/-- Write-backs are charged to the partition that owns the address. -/
def Dev.spendBack (d : Dev) (sectors : List Nat) : Dev := sectors.foldl (fun d i => d.spend (partPayer (d.owner (32 * i)))) d

/-! ### The junction directory (R12, R122, R123, R308 to R310) -/

/-- The junction die that tracks a block, and its set. -/
def Dev.dirSite (d : Dev) (pa : Nat) : Nat × Nat :=
  if d.failed.isEmpty then (field pa 9 1, field pa 10 15)
  else (if d.failed.contains 0 then 1 else 0, field pa 9 15)
def dirTag (pa : Nat) : Nat := field pa 24 28
/-- The first key of a set. -/
def dirBase (junction set : Nat) : Nat := (junction * 32768 + set) * 16
/-- The keys of an address's set. -/
def Dev.dirKeys (d : Dev) (pa : Nat) : List Nat := let x := d.dirSite pa; List.range' (dirBase x.1 x.2) 16
/-- The key of the block's entry. -/
def Dev.dirFind (d : Dev) (pa : Nat) : Option Nat :=
  (d.dirKeys pa).find? (fun k => let e := Tab.get {} d.dir k; e.mode != 0 && !e.recalling && e.tag == dirTag pa)
/-- The address of the block that an entry tracks. -/
def dirAddr (d : Dev) (junction set : Nat) (e : DirEntry) : Nat :=
  if d.failed.isEmpty then e.tag * 2 ^ 24 % 2 ^ 52 + (set % 2 ^ 14) * 1024 + junction * 512 else e.tag * 2 ^ 24 + set * 512

/-- The time that the directory's wait is measured in: the furthest cycle counter. -/
def Dev.now (d : Dev) : Nat := d.cores.foldl (fun n e => max n e.2.cycle.toNat) 0

/-- R123: a cluster of the requester's partition, which looks its tags up. -/
def Dev.answersProbe (d : Dev) (core cluster : Nat) : Bool := (d.corePart core).isSome && d.clusterPart cluster == d.corePart core

/-- The entry names a core. -/
def DirEntry.names (e : DirEntry) (core : Nat) : Bool :=
  (e.mode == 1 && e.ptrs.contains core) || (e.mode == 2 && e.coarse.getLsbD (clusterOf core)) || (e.ost != 0 && e.ocore == core)

def coarseBit (core : Nat) : BitVec 64 := 1#64 <<< clusterOf core

/-- R309: a further sharer; an owner whose data another core reads is left in state O (R113; log entry 100). -/
def DirEntry.share (e : DirEntry) (core : Nat) : DirEntry :=
  let e := { e with ost := if e.ost = 2 && e.ocore != core then 3 else e.ost }
  if e.mode = 2 then { e with coarse := e.coarse ||| coarseBit core }
  else if e.ptrs.contains core then e
  else if e.ptrs.length < 4 then { e with ptrs := e.ptrs ++ [core] }
  else { e with mode := 2, ptrs := [], coarse := (e.ptrs ++ [core]).foldl (fun m c => m ||| coarseBit c) 0 }

/-- R122: what a write to one half of a block with two home dies leaves of its entry: the copies on the die whose own snoop
covers them, as sharers. -/
def DirEntry.onDie (e : DirEntry) (die : Nat) : DirEntry :=
  let keeps (c : Nat) : Bool := dieOf c == die
  let x : DirEntry := { e with ptrs := e.ptrs.filter keeps, coarse := e.coarse &&& (0xFF#64 <<< (8 * die)), ost := 0, odie := 0, ocore := 0 }
  let x := if e.ost != 0 && keeps e.ocore then x.share e.ocore else x
  if x.ptrs.isEmpty && x.coarse == 0 then {} else x

/-- R309: the entry that the request leaves; the default is the invalid entry. `stays` is the die that a write to half a
block does not probe (R122). -/
def DirEntry.after (e : DirEntry) (pa core : Nat) (write other : Bool) (stays : Option Nat) (stamp : Nat) : DirEntry :=
  let kept : DirEntry := (stays.map e.onDie).getD {}
  if write && kept.mode != 0 then
    if other then { kept with ost := 2, odie := dieOf core, ocore := core, used := stamp } else { kept with used := stamp }
  else if write then
    if other then { mode := 1, ost := 2, odie := dieOf core, ocore := core, tag := dirTag pa, used := stamp } else {}
  else if other then { (if e.mode = 0 then { mode := 1, ptrs := [core], tag := dirTag pa } else e.share core) with used := stamp }
  else e

/-- The least recently used entry of a set that is not being recalled. -/
def Dev.lruKey (d : Dev) (keys : List Nat) : Option Nat :=
  (keys.filter (fun k => !(Tab.get {} d.dir k).recalling)).foldl (fun best k => match best with
    | none => some k
    | some b => if (Tab.get {} d.dir k).used < (Tab.get {} d.dir b).used then some k else some b) none

def waitKey (x : Nat × Nat) : Nat := x.1 * 32768 + x.2

/-! ### Last-level blocks (R104, R116, R118) -/

/-- The set of a block in its slice, of 512; the spec does not say which (log entry 80). -/
def llcSet (block : Nat) : Nat := block / 32 % 512

def Dev.llcAt (d : Dev) (unit block : Nat) : Option LlcBlock := d.llc.find? (fun b => b.unit_ == unit && b.block == block)

/-- Changes a block, if the slice holds it; a block without a valid sector is gone. -/
def Dev.modLlc (d : Dev) (p : LlcBlock → Bool) (f : LlcBlock → LlcBlock) : Dev :=
  { d with llc := (d.llc.map (fun b => if p b then f b else b)).filter (fun b => !b.secs.isEmpty) }

def LlcBlock.sec (b : LlcBlock) (i : Nat) : Option LlcSec := Tab.get none b.secs i
def LlcBlock.setSec (b : LlcBlock) (i : Nat) (x : Option LlcSec) : LlcBlock := { b with secs := Tab.set none b.secs i x }
/-- The block holds a sector, named by its physical sector number. -/
def LlcBlock.holds (b : LlcBlock) (sector : Nat) : Bool := b.block == sector / 16 && (b.sec (sector % 16)).isSome
/-- A valid sector becomes clean. -/
def LlcBlock.clean (b : LlcBlock) (i : Nat) : LlcBlock := b.setSec i ((b.sec i).map (fun x => { x with dirty := false }))
/-- A sector that the block holds becomes dirty. -/
def LlcBlock.soil (b : LlcBlock) (i : Nat) : LlcBlock := b.setSec i ((b.sec i).map (fun x => { x with dirty := true }))

/-- Data written back to the home slice of a sector; where the slice does not hold it they go on to HBM. -/
def Dev.soilLlc (d : Dev) (sector : Nat) : Dev := d.modLlc (fun b => b.block == sector / 16) (fun b => b.soil (sector % 16))

/-! ### L1 lines (R104, R113) -/

def Moesi.dirty : Moesi → Bool
  | .modified | .owned => true
  | .exclusive | .shared => false
/-- Once its data have been written back. -/
def Moesi.cleaned : Moesi → Moesi
  | .modified => .exclusive
  | .owned => .shared
  | x => x
/-- Once another core has read the sector. -/
def Moesi.read : Moesi → Moesi
  | .modified => .owned
  | .exclusive => .shared
  | x => x

def L1Line.sec (l : L1Line) (i : Nat) : Option Moesi := l.secs.getD i none
def L1Line.dirty (l : L1Line) (i : Nat) : Bool := ((l.sec i).map Moesi.dirty).getD false
def L1Line.dirtySectors (l : L1Line) : List Nat := ((List.range 4).filter l.dirty).map (fun i => 4 * l.line + i)

/-- The state in which a core's L1 holds a sector. -/
def Dev.l1State (d : Dev) (core sector : Nat) : Option Moesi :=
  (d.l1.find? (fun l => l.core == core && l.line == sector / 4)).bind (fun l => l.sec (sector % 4))

/-- Changes the states of the sectors that a test admits; a line without a valid sector is gone. -/
def Dev.mapL1 (d : Dev) (p : L1Line → Nat → Bool) (f : Moesi → Option Moesi) : Dev :=
  { d with l1 := (d.l1.map (fun l => { l with secs := (List.range 4).map (fun i =>
      if p l (4 * l.line + i) then (l.sec i).bind f else l.sec i) })).filter (fun l => l.secs.any Option.isSome) }

/-- Lines that a test admits leave their L1s, their dirty data written back. -/
def Dev.dropL1 (d : Dev) (p : L1Line → Bool) : Dev :=
  let d := ((d.l1.filter p).flatMap L1Line.dirtySectors).foldl Dev.soilLlc d
  { d with l1 := d.l1.filter (fun l => !p l) }

/-- Sectors that a test admits are written back from the L1s and the slices (R118): they stay valid, and are clean. -/
def Dev.cleanSectors (d : Dev) (p : Nat → Bool) : Dev :=
  let d := d.mapL1 (fun _ i => p i) (fun x => some x.cleaned)
  { d with llc := d.llc.map (fun b => { b with secs := b.secs.map (fun e =>
      if p (16 * b.block + e.1) then (e.1, e.2.map (fun x => { x with dirty := false })) else e) }) }

/-- Sectors that a test admits leave every cache. -/
def Dev.dropSectors (d : Dev) (p : Nat → Bool) : Dev :=
  let d := d.mapL1 (fun _ i => p i) (fun _ => none)
  { d with llc := (d.llc.map (fun b => { b with secs := b.secs.filter (fun e => !p (16 * b.block + e.1)) })).filter (fun b => !b.secs.isEmpty) }

/-- The sectors that are acquired and surrendered with the one that holds a byte (R113, R133). -/
def MemSys.unitSectors (m : MemSys) (pa : Nat) : List Nat :=
  match field (m.placeWord pa).toNat 20 2 with
  | 0 => [pa / 32]
  | 1 => List.range' (pa / 128 * 4) 4
  | _ => List.range' (pa / 512 * 16) 16

/-! ### Requests (R113, R122, R123, R309) -/

/-- R122: where the two halves of a block have different home dies, that of the half that holds a byte: a write there does
not probe it. -/
def MemSys.halfDie (m : MemSys) (pa : Nat) : Option Nat :=
  if m.homeDie (pa / 512 * 512) = m.homeDie (pa / 512 * 512 + 256) then none else some (m.homeDie pa)

/-- Copies of a block leave the named cores that answer, but those on a die that is not probed. -/
def Dev.invalidateNamed (d : Dev) (core block : Nat) (stays : Option Nat) (e : DirEntry) : Dev :=
  d.dropL1 (fun l => l.line / 4 == block && l.core != core && some (dieOf l.core) != stays && e.names l.core
    && d.answersProbe core (clusterOf l.core))

/-- R122, R309: a recall: the copies that the entry names are invalid, their dirty data written back, and the entry is
free. The probe carries the tag of the block's own partition (log entry 81). -/
def Dev.recallEntry (d : Dev) (k : Nat) : Dev :=
  let e := Tab.get {} d.dir k
  let pa := dirAddr d (k / 16 / 32768) (k / 16 % 32768) e
  let d := d.dropL1 (fun l => l.line / 4 == pa / 512 && e.names l.core && d.corePart l.core == d.owner pa)
  { d with dir := Tab.set {} d.dir k {} }

/-- R143: a block's entry is recalled. -/
def Dev.dropDir (d : Dev) (pa : Nat) : Dev :=
  match d.dirFind pa with
  | some k => d.recallEntry k
  | none => d

/-- The entry at a key once it has served a request of a core. -/
def Dev.dirPut (d : Dev) (m : MemSys) (core pa : Nat) (write : Bool) (k : Nat) : Dev :=
  let e := Tab.get {} d.dir k
  let stamp := 1 + (d.dirKeys pa).foldl (fun m k => max m (Tab.get {} d.dir k).used) 0
  let d := if write then d.invalidateNamed core (pa / 512) (m.halfDie pa) e else d
  { d with dir := Tab.set {} d.dir k (e.after pa core write (dieOf core != m.homeDie pa) (m.halfDie pa) stamp)
           dirWait := Tab.set (0, 0) d.dirWait (waitKey (d.dirSite pa)) (0, 0) }

/-- The way that an entry is recalled from first where its set is full. -/
def Dev.dirVictim (d : Dev) (pa : Nat) : Nat := (d.lruKey (d.dirKeys pa)).getD ((d.dirKeys pa).headD 0)

/-- A request that a cache miss makes: it is served in one step, whatever recall it has to wait for. -/
def Dev.dirServe (d : Dev) (m : MemSys) (core pa : Nat) (write : Bool) : Dev :=
  if 2 ≤ d.failed.length then d
  else match d.dirFind pa with
  | some k => d.dirPut m core pa write k
  | none =>
    if dieOf core == m.homeDie pa then d
    else match (d.dirKeys pa).find? (fun k => (Tab.get ({} : DirEntry) d.dir k).mode == 0) with
    | some k => d.dirPut m core pa write k
    | none => (d.recallEntry (d.dirVictim pa)).dirPut m core pa write (d.dirVictim pa)

/-- The other copies of a coherence unit answer a core's request: a write leaves none, a read leaves no sole owner. -/
def Dev.snoop (d : Dev) (m : MemSys) (core pa : Nat) (write : Bool) : Dev :=
  let unit := m.unitSectors pa
  d.mapL1 (fun l i => l.core != core && unit.contains i && d.answersProbe core (clusterOf l.core))
    (fun x => if write then none else some x.read)

/-- A core asks for a coherence unit. -/
def Dev.request (d : Dev) (m : MemSys) (core pa : Nat) (write : Bool) : Dev :=
  (d.dirServe m core pa write).snoop m core pa write

/-- R113, R117: an agent of the home takes a coherence unit: no L1 of the partition whose tag the request carries keeps a
copy, and the block has no entry. -/
def Dev.claim (d : Dev) (m : MemSys) (part : Option Nat) (pa : Nat) : Dev :=
  let unit := m.unitSectors pa
  let d := match d.dirFind pa with
    | some k =>
      let e : DirEntry := Tab.get {} d.dir k
      let d := d.dropL1 (fun l => l.line / 4 == pa / 512 && e.names l.core && d.corePart l.core == part)
      { d with dir := Tab.set {} d.dir k {} }
    | none => d
  d.mapL1 (fun l i => unit.contains i && part.isSome && d.corePart l.core == part) (fun _ => none)

/-! ### Filling (R113, R116, R125, R152) -/

/-- Lines of one L1 set: 256 KiB are 128 sets of 16 ways (R104; the set is log entry 80). -/
def Dev.l1Set (d : Dev) (core line : Nat) : List L1Line := d.l1.filter (fun l => l.core == core && l.line % 128 == line % 128)
def l1Ways : Nat := 16

/-- The lines of a list of sectors. -/
def linesOf (secs : List Nat) : List Nat := secs.foldl (fun l s => insertNat (s / 4) l) []

/-- A line leaves its L1 to make room, with the other lines that are surrendered together with it (R113). -/
def Dev.evictL1 (d : Dev) (m : MemSys) (l : L1Line) : Dev :=
  let goes (x : L1Line) : Bool := x.core == l.core && (x.line == l.line || (linesOf (m.unitSectors (128 * l.line))).contains x.line)
  let out := d.l1.filter goes
  let c := d.core l.core
  let n := (out.filter (·.prefetched)).length
  ((d.setCore l.core { c with pfx1 := c.pfx1 + BitVec.ofNat 64 n }).spendBack (out.flatMap L1Line.dirtySectors)).dropL1 goes

/-- A line is in an L1 with new states of its sectors. In a full set the device replaces a line of the lowest priority. -/
def fillL1 (core line prio : Nat) (f : Nat → Option Moesi → Option Moesi) (pre inflight : Bool) : Prog Unit :=
  letI := Prog.monad
  let secs (old : Nat → Option Moesi) : List (Option Moesi) := (List.range 4).map (fun i => f (4 * line + i) (old i))
  do
    let s ← Prog.get
    match s.dev.l1.find? (fun l => l.core == core && l.line == line) with
    | some l =>
      let new : L1Line := { l with secs := secs l.sec, prefetched := l.prefetched || pre, inflight := l.inflight || inflight }
      Prog.modDev (fun d => { d with l1 := replaceFirst (fun x => x.core == core && x.line == line) new d.l1 })
    | none => do
      let all := s.dev.l1Set core line
      let low := all.foldl (fun p l => min p l.prio) 2
      let cands := all.filter (fun l => l.prio == low)
      let k ← Prog.choose (if all.length < l1Ways then 1 else cands.length)
      Prog.modDev (fun d =>
        let d := if all.length < l1Ways then d else (match cands[k]? with
          | some l => d.evictL1 s.mem l
          | none => d)
        { d with l1 := { core, line, secs := secs (fun _ => none), prio, prefetched := pre, inflight } :: d.l1 })

/-- R125: the first demand access to a prefetched line is a useful or a late one. -/
def Dev.countL1 (d : Dev) (core line : Nat) : Dev :=
  match d.l1.find? (fun l => l.core == core && l.line == line) with
  | none => d
  | some l =>
    if !l.prefetched then d
    else
      let c := d.core core
      let c := if l.inflight then { c with pflt1 := c.pflt1 + 1 } else { c with pfu1 := c.pfu1 + 1 }
      { d.setCore core c with l1 := replaceFirst (fun x => x.core == core && x.line == line) { l with prefetched := false, inflight := false } d.l1 }

/-- The replacement priority that a hint asks for (R152). -/
def hintPrio (hint : BitVec 3) : Nat := if hint = 1 then 0 else if hint = 2 then 2 else 1

/-- A demand access of a core's L1 to a byte of HBM. Answers whether the L1 served it alone. -/
def touchL1 (core pa : Nat) (write : Bool) (hint : BitVec 3) : Prog Bool :=
  letI := Prog.monad
  do
    Prog.modDev (fun d => d.countL1 core (pa / 128))
    let s ← Prog.get
    let unit := s.mem.unitSectors pa
    let held := s.dev.l1State core (pa / 32)
    let served := match held with
      | some x => !write || x == .modified || x == .exclusive
      | none => false
    Prog.when (!served) (Prog.modDev (fun d => d.request s.mem core pa write))
    let alone := dieOf core == s.mem.homeDie pa && !s.dev.l1.any (fun l => l.core != core && unit.any (fun i => l.line == i / 4 && (l.sec (i % 4)).isSome))
    let put (i : Nat) (old : Option Moesi) : Option Moesi :=
      if !unit.contains i then old
      else if write then some .modified
      else match old with
        | some x => some x
        | none => some (if alone then .exclusive else .shared)
    -- R152: `.nl1` uses a valid copy and allocates none
    Prog.when (!(hint == 3 && held.isNone) && !(served && !write))
      (Prog.each (linesOf unit) (fun line => fillL1 core line (hintPrio hint) put false false))
    pure served

/-- The sectors of a block that one access to a slice brings: the sector, or both of a host line (R116). -/
def llcNeed (pa : Nat) : List Nat := if inHost pa then [pa / 64 % 8 * 2, pa / 64 % 8 * 2 + 1] else [pa / 32 % 16]

/-- The 128-byte lines of a block, each named by its first sector, and the partition that a line was prefetched for without
a demand access since (R125). -/
def LlcBlock.prefetchedFor (b : LlcBlock) (i : Nat) : Option Nat :=
  (List.range' (i / 4 * 4) 4).findSome? (fun i => (b.sec i).bind (·.prefetched))
/-- The prefetch of a line is still on its way. -/
def LlcBlock.late (b : LlcBlock) (i : Nat) : Bool := (List.range' (i / 4 * 4) 4).any (fun i => ((b.sec i).map (·.inflight)).getD false)
/-- A demand access has reached the line. -/
def LlcBlock.demanded (b : LlcBlock) (i : Nat) : LlcBlock :=
  { b with secs := b.secs.map (fun e => if e.1 / 4 = i / 4 then (e.1, e.2.map (fun x => { x with prefetched := none, inflight := false })) else e) }
/-- A block leaves its slice: what was prefetched of it in vain is counted, and what is dirty goes to HBM. -/
def Dev.evictLlc (d : Dev) (v : LlcBlock) : Dev :=
  let d := ([0, 4, 8, 12].filterMap v.prefetchedFor).foldl (fun d p => let x := d.part p; d.setPart p { x with pfxl := x.pfxl + 1 }) d
  let d := d.spendBack ((v.secs.filter (fun e => (e.2.map (·.dirty)).getD false)).map (fun e => 16 * v.block + e.1))
  { d with llc := d.llc.filter (fun b => !(b.unit_ == v.unit_ && b.block == v.block)) }

/-- A block is in a slice. In a full set the device replaces a block. -/
def fillLlc (unit block grain : Nat) (f : LlcBlock → LlcBlock) : Prog Unit :=
  letI := Prog.monad
  do
    let s ← Prog.get
    match s.dev.llcAt unit block with
    | some b => Prog.modDev (fun d => { d with llc := replaceFirst (fun x => x.unit_ == unit && x.block == block) (f b) d.llc })
    | none => do
      let all := s.dev.llc.filter (fun b => b.unit_ == unit && llcSet b.block == llcSet block)
      let k ← Prog.choose (if all.length < 16 then 1 else all.length)
      Prog.modDev (fun d =>
        let d := if all.length < 16 then d else (match all[k]? with
          | some v => d.evictLlc v
          | none => d)
        { d with llc := f { unit_ := unit, block, grain } :: d.llc })

/-- R125: the counts of a demand access to a line of a block that was prefetched for the partition. -/
def Dev.countLlc (d : Dev) (part : Nat) (b : LlcBlock) (i : Nat) : Dev :=
  if b.prefetchedFor i != some part then d
  else
    let p := d.part part
    d.setPart part (if b.late i then { p with pfltl := p.pfltl + 1 } else { p with pful := p.pful + 1 })

/-- An access that reaches a byte's home slice. A host line is held in the last-level cache only (R21, R116); a write or an
atomic has it exclusive (R117, R154). -/
def touchLlc (who : Payer) (pa : Nat) (write : Bool) : Prog Unit :=
  letI := Prog.monad
  if !(inHbm pa || inHost pa) then .pure ()
  else do
    let s ← Prog.get
    let unit := s.mem.homeUnit pa
    Prog.modDev (fun d => (match d.llcAt unit (pa / 512) with
      | some b => d.countLlc (payerPart who) b (pa / 32 % 16)
      | none => d).spend who)
    fillLlc unit (pa / 512) (field (s.mem.placeWord pa).toNat 20 2) (fun b => (llcNeed pa).foldl (fun b i =>
      let x := (b.sec i).getD {}
      b.setSec i (some { x with dirty := x.dirty || write, excl := x.excl || (write && inHost pa) })) (b.demanded (pa / 32 % 16)))

/-- R124: what a demand access teaches a prefetcher. -/
def Dev.train (d : Dev) (agent : Nat) (slot : SlotKey) (sup : Bool) (at_ : Nat) : Dev :=
  let stride := match Tab.get none d.streams agent with
    | some x => if x.slot == slot && x.sup == sup then (at_ : Int) - (x.last : Int) else 0
    | none => 0
  { d with streams := Tab.set none d.streams agent (some { slot, sup, last := at_, stride }) }

/-- A demand access of a core to a byte of global memory: its L1, and on a miss the home slice. -/
def touch (core : Nat) (key : SlotKey) (sup : Bool) (va : W64) (pa : Nat) (write : Bool) (hint : BitVec 3) : Prog Unit :=
  letI := Prog.monad
  if inHbm pa then do
    let trains := hint != 1 && hint != 4
    Prog.modDev (fun d => (if trains then d.train core key sup va.toNat else d).spend key)
    let served ← touchL1 core pa write hint
    Prog.when (!served) (do
      let s ← Prog.get
      Prog.when trains (Prog.modDev (fun d => d.train (256 + s.mem.homeUnit pa) key false pa))
      touchLlc key pa write)
  else touchLlc key pa write

/-- An access at the home of a byte by an agent without an L1: a bank unit, an engine, the host (R113, R117). -/
def touchHome (who : Payer) (pa : Nat) (write : Bool) : Prog Unit :=
  letI := Prog.monad
  do
    Prog.when (write && inHbm pa) (Prog.read (fun s => Prog.modDev (fun d => d.claim s.mem (some (payerPart who)) pa)))
    touchLlc who pa write

/-! ### Prefetching (R124, R125, R155) -/

/-- A 128-byte line of HBM comes into an L1 in shared state, counted as issued, by a request for each of its coherence units
(R113), which may bring other lines along; whether it is still on the way at its first use is the device's timing. -/
def prefetchL1 (who : Payer) (core pa : Nat) : Prog Unit :=
  letI := Prog.monad
  do
    let k ← Prog.choose 2
    Prog.modDev (fun d => let x := d.core core; (d.setCore core { x with pfi1 := x.pfi1 + 1 }).spend who)
    let s ← Prog.get
    let line := pa / 128 * 128
    let asks := if s.mem.unitSectors pa == [pa / 32] then [line, line + 32, line + 64, line + 96] else [line]
    Prog.modDev (fun d => asks.foldl (fun d a => d.request s.mem core a false) d)
    Prog.each (linesOf (asks.flatMap s.mem.unitSectors)) (fun l =>
      fillL1 core l 1 (fun _ old => some (old.getD .shared)) (l == pa / 128) (l == pa / 128 && k == 1))

/-- The same for the last-level cache, for a partition. -/
def prefetchLlc (who : Payer) (pa : Nat) : Prog Unit :=
  letI := Prog.monad
  do
    let k ← Prog.choose 2
    let part := payerPart who
    Prog.modDev (fun d => let x := d.part part; (d.setPart part { x with pfil := x.pfil + 1 }).spend who)
    let s ← Prog.get
    fillLlc (s.mem.homeUnit pa) (pa / 512) (field (s.mem.placeWord pa).toNat 20 2) (fun b =>
      (List.range' (pa / 128 % 4 * 4) 4).foldl (fun b i => match b.sec i with
        | some _ => b
        | none => b.setSec i (some { prefetched := some part, inflight := k == 1 })) b)

/-- The whole 128-byte line is there. -/
def Dev.l1Has (d : Dev) (core pa : Nat) : Bool := (List.range 4).all (fun i => (d.l1State core (pa / 128 * 4 + i)).isSome)
def Dev.llcHas (d : Dev) (unit pa : Nat) : Bool :=
  (List.range' (pa / 128 % 4 * 4) 4).all (fun i => ((d.llcAt unit (pa / 512)).bind (fun b => b.sec i)).isSome)

/-! ### Instruction and constant caches (R104, R115) -/

/-- Lines that a core's instruction cache (128 KiB) and constant cache (64 KiB) hold. -/
def codeLines (const : Bool) : Nat := if const then 512 else 1024

/-- Lines join a cache of a core; the oldest ones leave it. -/
def Dev.fillCode (d : Dev) (core : Nat) (const : Bool) (new : List CodeLine) : Dev :=
  let mine := new ++ d.code.filter (fun c => c.core == core && c.const == const)
  { d with code := mine.take (codeLines const) ++ d.code.filter (fun c => !(c.core == core && c.const == const)) }

/-- A word of a constant window has been read through the constant cache. -/
def Dev.touchConst (d : Dev) (core : Nat) (slot : SlotKey) (va : W64) : Dev :=
  let c : CodeLine := { core, const := true, slot, line := va.toNat / 128 }
  if d.code.contains c then d else d.fillCode core true [c]

end Sys2Proof.Machine
end

