-- ==== Sys2Proof/Machine/Ops.lean ====
section
/-! DEFINITION. The operations the meanings share: events and the severity matrix (R311, R337, R351), completion records
(R25, R26), kills and resets, fetching, taking a trap and returning from one (R255 to R260), retiring an instruction. -/
namespace Sys2Proof.Machine

/-- The present cycle of a core. -/
def State.now (s : State) (core : Nat) : Nat := (s.dev.core core).cycle.toNat

/-! ### Interrupts, records, the black box -/

def sendMsix (p : Nat) : Prog Unit := Prog.modDev (fun d => let x := d.part p; d.setPart p { x with msix := x.msix + 1 })

/-- The porter's own accesses: a fresh walk, with no translation cache (R130). -/
def translateFresh (s : State) (key : SlotKey) (sup : Bool) (need : Need) (va : W64) : Except (Cause × Nat) (Nat × Bool) :=
  let part := s.dev.part (key / 16)
  if !canonical va then .error (.prot, 5)
  else walkCheck part sup need va (walkRoot (fun a => s.mem.word (s.mem.homeDie a) a 8) part (s.dev.slot key).ptroot va)

/-- R26: a record that cannot be written. -/
def recordFailed (key : SlotKey) (rec_ : W64) : Prog Unit :=
  letI := Prog.monad
  do
    Prog.modDev (fun d => let x := d.slot key; d.setSlot key { x with recfail := x.recfail + 1, reclast := rec_ })
    sendMsix (key / 16)

/-- R25, R26: the completion record, one 8-byte store at supervisor level. -/
def writeRecord (key : SlotKey) (done : W64) (seq : W32) (status : Nat) : Prog Unit :=
  letI := Prog.monad
  do
    let rec_ : W64 := BitVec.ofNat 64 (seq.toNat + status * 2 ^ 32)
    let s ← Prog.get
    match translateFresh s key true .write done with
    | .ok (pa, _) =>
      if inPeer pa then recordFailed key rec_
      else do
        commitWord (s.mem.homeDie pa) pa 8 rec_
        Prog.modDev (fun d =>
          let old := d.badRecords.filter (fun r => !(r.1 < pa + 8 && pa < r.1 + 8))
          { d with badRecords := if s.mem.poisoned pa 8 then (pa, key, rec_) :: old else old })
    | .error _ => recordFailed key rec_

/-- The unit codes of R351: die + 16 × unit. -/
def unitCode (die unit_ : Nat) : Nat := die + 16 * unit_
def coreUnit (core : Nat) : Nat := unitCode (dieOf core) (core % 32)
def sliceUnit (m : MemSys) (pa : Nat) : Nat := unitCode (m.homeDie pa) (32 + homeSlice pa)
def controllerUnit : Nat := unitCode 8 78

/-- R351: a unit's local cycle count: a core's CYCLE; that of every other unit is the model's own count of its moves (log
entry 101). -/
def State.unitCycle (s : State) (unit_ : Nat) : W64 :=
  if unit_ % 16 < 8 && unit_ / 16 < 32 then (s.dev.core (unit_ % 16 * 32 + unit_ / 16)).cycle else BitVec.ofNat 64 s.tick

/-- R352: an entry in the ring of 4096, or in the controller's log of 64 once J1 is lost (R343). -/
def blackBox (e : BoxEntry) : Prog Unit :=
  Prog.modDev (fun d =>
    let n := Tab.get 0 d.unitSeq e.unit_
    let e := { e with seq := n }
    let d := { d with unitSeq := Tab.set 0 d.unitSeq e.unit_ (n + 1) }
    if d.boxStopped then { d with ctrlLog := (d.ctrlLog ++ [e]).drop ((d.ctrlLog.length + 1) - 64) }
    else if d.boxFrozen then d
    else { d with box := (d.box ++ [e]).drop ((d.box.length + 1) - 4096) })

/-! ### Kill context and reset partition (R337) -/

/-- R278: leases end with their team. -/
def Dev.endLease (d : Dev) (uid : Nat) : Dev :=
  { d with pairs := d.pairs.map (fun e => (e.1, { e.2 with
      lease0 := if e.2.lease0.team == some uid then {} else e.2.lease0
      lease1 := if e.2.lease1.team == some uid then {} else e.2.lease1 })) }

/-- The place of the BUSY byte of a frame (R345), through the slot's translation at supervisor level (R348), where it can be
written. -/
def busyByte (s : State) (key : SlotKey) (frame : Nat) : Option Nat :=
  match translateFresh s key true .write ((s.dev.slot key).save + BitVec.ofNat 64 (64 + frame / 8)) with
  | .ok (pa, _) => if inPeer pa then none else some pa
  | .error _ => none

/-- The BUSY bit of a frame takes a value; the host keeps the area mapped. -/
def setBusy (key : SlotKey) (frame : Nat) (on : Bool) : Prog Unit :=
  letI := Prog.monad
  do
    let s ← Prog.get
    match busyByte s key frame with
    | some pa =>
      let b := s.mem.newest pa
      let bit : Byte := BitVec.ofNat 8 (2 ^ (frame % 8))
      commitPlain (s.mem.homeDie pa) [(pa, if on then b ||| bit else b &&& ~~~bit)]
    | none => .pure ()

/-- R136: one of the two reservations of a re-stripe is released, and the re-stripe is over. -/
def releaseMove (v : Moving) (new : Bool) : Prog Unit :=
  letI := Prog.monad
  do
    let s ← Prog.get
    let fs := List.range' (v.pa / 65536) (v.bytes / 65536)
    let old (f : Nat) : Option W32 := if new then some v.pw else some (v.old.getD (f - v.pa / 65536) (homePlacement f))
    match s.mem.rereserve fs old (fun _ => none) with
    | some next => Prog.each next (fun u => Prog.act (.mem (.reserve u.1 u.2)))
    | none => pure ()
    Prog.act (.mem (.moving (s.mem.moving.filter (fun x => x.cmd != v.cmd))))

/-- Stops every team and command of a launch, and forgets the launch. A re-stripe that has started reaches the end of its
page (R286). -/
def dropLaunch (id : Nat) : Prog Unit :=
  letI := Prog.monad
  do
    let s ← Prog.get
    match s.launch? id with
    | none => .pure ()
    | some l => do
      let gone := (s.teams ++ s.saved).filter (fun t => t.launch == id)
      Prog.each (gone.filterMap (·.frame)) (fun f => setBusy l.cmd.slot f false)
      let uids := gone.map (·.uid)
      let runs (c : Cmd) : Bool := c.started && s.mem.moving.any (fun v => v.cmd == c.id)
      let cmds := (s.dev.cmds.filter (fun c => c.launch == id && !runs c)).map (·.id)
      Prog.each (s.mem.moving.filter (fun v => cmds.contains v.cmd)) (fun v => releaseMove v true)
      let fences := gone.flatMap (fun t => t.groups.flatMap (fun g => g.stream.filterMap (fun o => o.snap.map (fun x => x.2.1))))
      Prog.act (.teams (s.teams.filter (fun t => t.launch != id)) (s.saved.filter (fun t => t.launch != id)))
      Prog.modDev (fun d =>
        let d := uids.foldl Dev.endLease d
        let p := d.part l.part
        let d := d.setPart l.part { p with placement := p.placement.filter (fun e => e.launch != id) }
        { d with
          launches := d.launches.filter (fun x => x.id != id)
          scOpen := d.scOpen.filter (fun f => !fences.contains f.1)
          early := d.early.filter (fun f => !uids.contains f.team)
          fuses := d.fuses.map (fun f => { f with members := f.members.filter (fun m => !uids.contains m.1) })
          cmds := d.cmds.filter (fun c => !cmds.contains c.id)
          copyQ := d.copyQ.map (fun e => (e.1, e.2.filter (fun c => !cmds.contains c)))
          pairs := d.pairs.map (fun e => (e.1, { e.2 with queue := e.2.queue.filter (fun c => !cmds.contains c) })) })
      Prog.modMgmt (fun m => { m with signQ := m.signQ.filter (fun r => !cmds.contains r.cmd) })
      match s.cur with
      | some c => Prog.when (uids.contains c.team) (Prog.act (.cur none))
      | none => .pure ()

/-- Ends a launch at once with a status (R337). -/
def endLaunch (l : Launch) (status : Nat) : Prog Unit :=
  letI := Prog.monad
  do
    dropLaunch l.id
    writeRecord l.cmd.slot l.cmd.done l.cmd.seq status

/-- Action 3: every running launch of the slot. -/
def killSlot (key : SlotKey) : Prog Unit :=
  letI := Prog.monad
  do
    let s ← Prog.get
    Prog.each (s.dev.launches.filter (fun l => l.cmd.slot == key)) (fun l => endLaunch l 3)

/-- R362: the controller seals EPART, ESLOT, EOVH and the reading number. -/
def sealEnergy : Prog Unit :=
  letI := Prog.monad
  do
    let s ← Prog.get
    Prog.modMgmt (fun m => { m with
      sealedPart := s.dev.parts.map (fun e => (e.1, e.2.epart)), sealedSlot := s.dev.slots.map (fun e => (e.1, e.2.eslot))
      sealedEovh := m.eovh, sealedRnum := m.rnum })

/-- R337, R104: dirty lines of a partition's ranges are written back. -/
def Dev.writeBack (d : Dev) (p : Nat) : Dev := d.cleanSectors (fun i => (d.part p).owns (32 * i) 1)

/-- Action 4. -/
def resetPartition (p : Nat) : Prog Unit :=
  letI := Prog.monad
  do
    sealEnergy
    let s ← Prog.get
    Prog.each (s.dev.launches.filter (fun l => l.part == p)) (fun l => endLaunch l 4)
    let queued := ((s.dev.part p).queues).flatMap id
    Prog.modDev (fun d => let x := d.part p; (d.setPart p { x with queues := [[], [], [], []], placement := [] }).writeBack p)
    Prog.each queued (fun c => writeRecord c.slot c.done c.seq 4)

/-! ### The severity matrix (R311, R337, R338) -/

def Dev.action (d : Dev) (cls src : Nat) : Nat := field (Tab.get (severityDefault cls) d.severity cls).toNat (3 * src) 3

/-- An event of a class from a source: its charge, its action, its black-box entry. `detail` is the entry's DETAIL. -/
structure Event where
  cls : Nat
  src : Nat
  slot : Option SlotKey
  part : Option Nat
  unit_ : Nat
  addr : W64 := 0
  detail : W32 := 0
  recovered : Bool := false

/-- R338, R333: the action that an event takes. -/
def Event.action (e : Event) (d : Dev) : Nat :=
  let a := d.action e.cls e.src
  let a := if e.recovered && a > 1 then 1 else a
  if e.slot.isSome then a
  else if e.part.isSome then (if a = 3 then 2 else a)
  else if a ≥ 3 then 2 else a

def raiseEvent (e : Event) : Prog Unit :=
  letI := Prog.monad
  do
    let s ← Prog.get
    let a := e.action s.dev
    let part := match e.slot with
      | some k => some (k / 16)
      | none => e.part
    if a = 0 then .pure ()
    else do
      blackBox { unit_ := e.unit_, cls := e.cls, src := e.src, action := a, recovered := e.recovered, seq := 0
                 cyc := s.unitCycle e.unit_, addr := e.addr, detail := e.detail
                 part, ctx := e.slot.map (· % 16) }
      (match part with
        | some p => do
          Prog.modDev (fun d => let x := d.part p; d.setPart p { x with evt := Tab.set 0 x.evt e.cls (Tab.get 0 x.evt e.cls + 1) })
          Prog.when (a ≥ 2) (sendMsix p)
        | none => Prog.when (a ≥ 2) (Prog.each (List.range 16) sendMsix))
      Prog.when (a = 3) (match e.slot with
        | some k => killSlot k
        | none => .pure ())
      Prog.when (a = 4) (do
        (match part with
          | some p => resetPartition p
          | none => .pure ())
        Prog.modDev (fun d => { d with boxFrozen := true }))

/-! ### Reading HBM (R119, R149) -/

/-- A cache holds a valid copy of a sector (R113, R116). -/
def Dev.cached (d : Dev) (sector : Nat) : Bool :=
  d.l1.any (fun l => l.line == sector / 4 && (l.sec (sector % 4)).isSome) || d.llc.any (fun b => b.holds sector)

/-- R116, R120: a read finds the poison bit of storage that no valid copy hides any more. -/
def unbury (pa n : Nat) : Prog Unit :=
  .read (fun s => Prog.each (s.mem.buried.filter (fun x => sectorMeets pa n x && !s.dev.cached x)) (fun x =>
    Prog.bind (Prog.act (.mem (.bury x false))) (fun _ => Prog.act (.mem (.poison x true)))))

/-- R119: the stored errors of a range that a read meets: those of sectors that no cache holds. -/
def State.eccHits (s : State) (pa n : Nat) : List (Nat × Ecc) :=
  s.mem.latent.filter (fun e => sectorMeets pa n e.1 && !s.dev.cached e.1)

/-- R119: what ECC finds in the sectors of a range that an instruction or an engine consumes for a slot: a corrected word
is reported, an uncorrectable sector reported and poisoned. -/
def eccRead (key : SlotKey) (pa n : Nat) : Prog Unit :=
  letI := Prog.monad
  .read (fun s =>
    if s.mem.eccGood pa n then .pure ()
    else do
      unbury pa n
      Prog.each (s.eccHits pa n) (fun e => do
        Prog.act (.mem (.latent e.1 .good))
        Prog.when (e.2 == .uncorrectable) (Prog.act (.mem (.poison e.1 true)))
        raiseEvent { cls := if e.2 == .uncorrectable then 1 else 0, src := 5, slot := some key, part := none
                     unit_ := sliceUnit s.mem (32 * e.1), addr := BitVec.ofNat 64 (32 * e.1) }))

/-- A range is consumed for a slot: whether a byte of it is poisoned. -/
def consume (key : SlotKey) (pa n : Nat) : Prog Bool :=
  Prog.bind (eccRead key pa n) (fun _ => Prog.look (fun s => s.mem.poisoned pa n))

/-! ### The running instruction -/

/-- What an instruction sees of its issuer: names, place, PC and next start, level, the visited threads of a G = 0
form (R35) and the q guard of a G = 1 form (R36). -/
structure Env where
  team : Nat
  gidx : Nat
  split : Nat
  g : Bool
  head : W32
  bare : Bool
  pc : W64
  next : W64
  w : Nat
  mask : Mask
  v : Mask
  q : Bool
  sup : Bool
  core : Nat
  die : Nat
  key : SlotKey
  launch : Nat
  regs : Nat
  lane : Nat
  instr : Instr
  chain0 : Option (W64 × Nat)
  /-- The next start lies in the slice area (R84). -/
  falls : Bool

/-- The threads that the form performs for: V, or the whole split under a true q guard. -/
def Env.visited (e : Env) : Mask := if e.g then (if e.q then e.mask else 0) else e.v
/-- The lanes that the form performs for; a G = 1 form performs once, named by lane 0. -/
def Env.lanes (e : Env) : List Nat := if e.g then (if e.q then [0] else []) else lanesOf e.w e.v
def Env.active (e : Env) : Bool := !e.lanes.isEmpty

/-! What is looked up here is gone only when the context has been killed in the course of this step (R337), which ends
what it was doing. -/

def getGroup (u gi : Nat) : Prog Group :=
  .read (fun s => match s.group? u gi with
    | some g => .pure g
    | none => .halt)
def Env.group (e : Env) : Prog Group := getGroup e.team e.gidx
def modGroup (u gi : Nat) (f : Group → Group) : Prog Unit :=
  .read (fun s => match s.group? u gi with
    | some g => .eff (.group u (f g)) (.pure ())
    | none => .halt)
def Env.modGroup (e : Env) (f : Group → Group) : Prog Unit := Machine.modGroup e.team e.gidx f
def Env.modSplit (e : Env) (f : Split → Split) : Prog Unit := e.modGroup (fun g => g.modSplit e.split f)
def getTeam (u : Nat) : Prog Team :=
  .read (fun s => match s.team? u with
    | some t => .pure t
    | none => .halt)
def Env.getTeam (e : Env) : Prog Team := Machine.getTeam e.team
def modTeam (u : Nat) (f : Team → Team) : Prog Unit :=
  .read (fun s => match s.team? u with
    | some t => .eff (.team (f t)) (.pure ())
    | none => .halt)
def State.anyTeam? (s : State) (u : Nat) : Option Team := (s.teams ++ s.saved).find? (fun t => t.uid == u)
/-- A team that may have been evicted (R58). -/
def modAnyTeam (u : Nat) (f : Team → Team) : Prog Unit :=
  .read (fun s =>
    let g (t : Team) : Team := if t.uid == u then f t else t
    .eff (.teams (s.teams.map g) (s.saved.map g)) (.pure ()))
/-- A command that has nothing left to do (R193, R283). -/
def Cmd.ended (c : Cmd) : Bool :=
  c.finished || (c.started && (c.status == 2 || c.status == 3 || c.status == 5 || c.status == 6 || (match c.kind with
    | .cpy .. => c.left.isEmpty && c.held.isEmpty
    | _ => false)))
def getLaunch (id : Nat) : Prog Launch :=
  .read (fun s => match s.launch? id with
    | some l => .pure l
    | none => .halt)

/-! ### Observing completion (R184, R294) -/

/-- The pieces of a guarded range. -/
def Guarded.pieces (g : Guarded) : List (Nat × Nat) :=
  if g.row = 0 then [(g.lo, g.len)]
  else (List.range (if g.stride = 0 then 1 else (g.len - g.row) / g.stride + 1)).map (fun i => (g.lo + g.stride * i, g.row))
/-- It holds one of n bytes. -/
def Guarded.meets (g : Guarded) (a n : Nat) : Bool := g.pieces.any (fun p => p.1 < a + n && a < p.1 + p.2)

/-- R277: two guarded ranges conflict. -/
def Guarded.conflicts (a b : Guarded) : Bool :=
  a.space == b.space && (a.space == .scratch || a.high == b.high) && a.lo < b.lo + b.len && b.lo < a.lo + a.len && (a.write || b.write)

/-- The commands of a team, newest first, that have ranges. -/
def Team.guardCmds (t : Team) : List Nat := (t.guarded.foldl (fun l g => insertNat g.cmd l) []).reverse

/-- R294: commands whose interval ends once the completion of the given ones is observed: records that these depend on,
through any chain. -/
def Team.chainEnds (t : Team) (seen : List Nat) : List Nat :=
  t.guardCmds.foldl (fun acc c =>
    if acc.contains c then acc
    else if t.guarded.any (fun x => x.cmd == c && x.tile && t.guarded.any (fun y => acc.contains y.cmd && c < y.cmd && y.tile && x.conflicts y))
    then c :: acc else acc) seen

/-- R184: completion observed through a handle of a group. -/
def Team.observe (t : Team) (gi h : Nat) : Team :=
  let seen := (t.guarded.filter (fun g => g.done && g.holder == some (gi, h))).map (·.cmd)
  if seen.isEmpty then t
  else
    let gone := t.chainEnds seen
    { t with guarded := t.guarded.filter (fun g => !gone.contains g.cmd), spoiled := t.spoiled.filter (fun c => !gone.contains c) }

def observe (u gi h : Nat) : Prog Unit :=
  .read (fun s => match s.team? u with
    | some t => if t.guarded.isEmpty then .pure () else .eff (.team (t.observe gi h)) (.pure ())
    | none => .pure ())

/-! ### Fetch (R44, R62, R63, R115) -/

/-- The words of a fetch block from the address of one of its words. A word written since the launch began is undefined
until its cache line is invalidated (R115). -/
def fetchWords (core launch pa : Nat) : Prog (List W32) :=
  letI := Prog.monad
  do
    let s ← Prog.get
    let stale := ((s.launch? launch).map (·.stale)).getD []
    Prog.collect (List.range (8 - pa / 4 % 8)) (fun i =>
      let a := pa + 4 * i
      if stale.contains (a / 4) then do
        let x ← Prog.undef
        pure (x.setWidth 32)
      else pure ((s.mem.word (dieOf core) a 4).setWidth 32))

/-- R63: why no words make a target an instruction start, as BADTARGET's subcode (R88). Of a misaligned target in the slice
area the spec does not say which subcode is reported: DESIGN CHOICE, 0x01 (log entry 88). -/
def placeBad (desc : Desc) (target : W64) : Option Nat :=
  if target.toNat % 4 ≠ 0 then some 1
  else if desc.sarea.toNat ≤ target.toNat && target.toNat < desc.sarea.toNat + desc.salen then some 3
  else none

/-- R63: the same once the words of its block are known. -/
def targetBad (desc : Desc) (target : W64) (ws : List W32) : Option Nat :=
  if (placeBad desc target).isSome then placeBad desc target
  else if (blockStarts ws).contains (target.toNat / 4 % 8) then none
  else some 2

/-- A target's fetch block translated and read (R242): the failure of R131, or the subcode of R88. -/
def checkTarget (core launch : Nat) (key : SlotKey) (sup : Bool) (target : W64) :
    Prog (Except (Cause × Nat) (Option Nat)) :=
  letI := Prog.monad
  do
    let l ← getLaunch launch
    let block := BitVec.ofNat 64 (target.toNat / 32 * 32)
    let r ← translate core (dieOf core) key sup .fetch block
    match r with
    | .error x => pure (.error x)
    | .ok (pa, _) =>
      if inPeer pa then pure (.error (.prot, 12))
      else do
        let ws ← fetchWords core launch (pa / 32 * 32)
        pure (.ok (targetBad l.desc target ws))

/-! ### Starting an instruction (R35, R37, R73, R275, R357) -/

/-- The class of an instruction: bits [9:6] of its opcode (R83). -/
def Instr.cls (i : Instr) : Nat := ((i.raw.map (fun r => r.opc.toNat / 64)).getD 15)

def Src.isLatch : Src → Bool
  | .b _ => true
  | _ => false

/-- The register-layout sources of an encoding. -/
def Instr.latchFields (i : Instr) : List Src :=
  match i.raw with
  | none => []
  | some r => [r.sa, r.sb, r.sc]

/-- R73: an instruction that may be a member of a latch chain. -/
def Instr.chainable (i : Instr) : Bool :=
  match i.raw with
  | some r => !r.g && 1 ≤ r.opc.toNat / 64 && r.opc.toNat / 64 ≤ 5
  | none => false

/-- R61: no instruction. -/
def Instr.isFiller (i : Instr) : Bool := i == .filler

/-- R73: it reads a latch; predicate fields and 20-bit fields hold no source. -/
def Instr.readsLatch (i : Instr) : Bool :=
  match i with
  | .shl _ _ _ a n | .shr _ _ _ a n | .sar _ _ _ a n | .rot _ _ _ a n | .setx _ _ a n =>
    Src.isLatch a || (match n with
      | .src x => Src.isLatch x
      | .imm _ => false)
  | .fmaImmediate _ _ _ a _ | .fmaConstant _ _ _ a _ => Src.isLatch a
  | .sel _ _ _ a b _ => Src.isLatch a || Src.isLatch b
  | .plop .. | .voteAll .. | .voteAny .. | .voteBallot .. | .elect .. => false
  | .movx _ _ _ a _ => Src.isLatch a
  | i => Instr.chainable i && (Instr.latchFields i).any Src.isLatch

/-- R73: the chain of a split once the instruction at `pc` starts. -/
def Split.chainNext (x : Split) (pc : W64) (i : Instr) : Option (W64 × Nat) :=
  if Instr.isFiller i then x.chain
  else if !(Instr.chainable i) then none
  else match x.chain with
    | some (p, n) => if Instr.readsLatch i && n < 4 then some (p, n + 1) else some (pc, 1)
    | none => some (pc, 1)

/-- The table key of a lane group; uniform datapaths follow from 4096. -/
def laneGroupKey (core quad lg : Nat) : Nat := core * 8 + quad * 2 + lg
def uniformKey (core quad : Nat) : Nat := 4096 + core * 4 + quad

/-- R275: the cost class. -/
def Instr.cost (i : Instr) (g chained : Bool) : Nat :=
  let relabels := match i with
    | .relabel .. => true
    | _ => false
  let heavy := match i with
    | .fdiv .. | .fsqrt .. => true
    | .fadd _ ty _ _ _ | .fsub _ ty _ _ _ | .fmul _ ty _ _ _ | .fma _ ty _ _ _ _ | .fmaImmediate _ ty _ _ _
    | .fmaConstant _ ty _ _ _ | .fmin _ ty _ _ _ | .fmax _ ty _ _ _ | .fabs _ ty _ _ | .fneg _ ty _ _
    | .fcmp _ ty _ _ _ _ | .fclass _ ty _ _ _ | .frnd _ ty _ _ _ => ty == .f64
    | _ => false
  let c := Instr.cls i
  if Instr.isFiller i then 0
  else if c = 10 || c = 11 || relabels then 3
  else if g || c = 0 || c = 13 || c = 14 || chained then 0
  else if heavy || c = 4 then 2
  else 1

/-- R35: streaming cycles. -/
def streamCycles (g : Bool) (threads : Nat) : Nat := if g then 1 else max 1 ((threads + 15) / 16)

/-- R275, R357: the charge of a start. -/
def charge (cls cycles : Nat) : Nat :=
  match cls with
  | 0 => 0
  | 1 => cycles
  | 2 => 4 * cycles
  | _ => 32

/-- R274: a group that shares a datapath with the one that starts and has a runnable split. -/
def Group.agesBy (g h : Group) (uni : Bool) : Bool :=
  h.core == g.core && h.quad == g.quad && (uni || h.lg == g.lg) && h.splits.any Split.runnable

/-- R274: the group that starts has waited; every other group of the datapath with a runnable split ages. -/
def ageGroups (u gi : Nat) (uni : Bool) : Prog Unit :=
  .read (fun s => match s.group? u gi with
    | none => .pure ()
    | some g =>
      let me (t : Team) (h : Group) : Bool := t.uid == u && h.gidx == gi
      let others := s.teams.any (fun t => t.groups.any (fun h => !me t h && g.agesBy h uni))
      let rest (h : Group) : Group := if uni then { h with waitU := 0 } else { h with wait := 0 }
      let grow (h : Group) : Group := if uni then { h with waitU := h.waitU + 1 } else { h with wait := h.wait + 1 }
      if others then
        .eff (.teams (s.teams.map (fun t => { t with groups := t.groups.map (fun h =>
          if me t h then rest h else if g.agesBy h uni then grow h else h) })) s.saved) (.pure ())
      else if (if uni then g.waitU == 0 else g.wait == 0) then .pure () else .eff (.group u (rest g)) (.pure ()))

/-- R72: the lane group starts an instruction of group g: the latch entries of every other group there are undefined. No
chain of theirs is running, so that it makes no difference whether the instruction then has to wait after all. -/
def dropLatches (u : Nat) (g : Group) : Prog Unit :=
  .read (fun s =>
    let hit (t : Team) (h : Group) : Bool :=
      !(t.uid == u && h.gidx == g.gidx) && h.core == g.core && h.quad == g.quad && h.lg == g.lg && !h.latch.isEmpty
    if s.teams.any (fun t => t.groups.any (hit t)) then
      .eff (.teams (s.teams.map (fun t => { t with groups := t.groups.map (fun h => if hit t h then { h with latch := [] } else h) })) s.saved)
        (.pure ())
    else .pure ())

/-- The datapath is taken and the cluster charged. In near-threshold mode two streaming cycles take five (R358). -/
def started (e : Env) : Prog Unit :=
  .read (fun s =>
    match s.group? e.team e.gidx with
    | none => .pure ()
    | some g =>
      let chained := match (g.split e.split).chain with
        | some (_, n) => n ≥ 2
        | none => false
      let cyc := streamCycles e.g (popCount e.w e.visited)
      (Prog.modDev (fun d =>
        let k := if e.g then uniformKey g.core g.quad else laneGroupKey g.core g.quad g.lg
        let l := d.lane k
        let now := (d.core g.core).cycle.toNat
        let busy := if l.nominal || e.g then cyc else (5 * cyc + 1) / 2
        let chain := if e.g then none else match (g.split e.split).chain with
          | some (_, n) => if n < 4 then some (e.team, e.gidx, e.split) else none
          | none => none
        let d := (d.spend e.key).setLane k { l with
          busy := busy, chain := chain
          starts := if e.g then [] else now :: l.starts.filter (fun c => now < c + 256) }
        let c := clusterOf g.core
        let x := d.cluster c
        d.setCluster c { x with charges := x.charges + charge (Instr.cost e.instr e.g chained) cyc
                                starving := if x.starving == some (e.team, e.gidx, e.split) then none else x.starving })).bind (fun _ =>
        (Prog.when ((s.dev.cluster (clusterOf g.core)).starving == some (e.team, e.gidx, e.split))
          (Machine.modGroup e.team e.gidx (fun g => { g with withheld := 0 }))).bind (fun _ =>
        Prog.when (!chained) (ageGroups e.team e.gidx e.g))))

/-! ### Traps (R255, R257 to R260) -/

/-- The causes in the order of their codes, which count from 1 (R329). -/
def causes : List Cause :=
  [.illop, .badtarget, .idxrange, .align, .prot, .pgfault, .regen, .rjdl, .sigmis, .ucerr, .poison, .dustfull, .bkpt, .trapn, .sysc]

def Cause.code (c : Cause) : Nat := causes.idxOf c + 1

/-- R191: TCAUSE. -/
def tcauseOf (t : TrapRec) (split : Nat) : W64 := BitVec.ofNat 64 (t.cause.code + 256 * t.detail + 65536 * split)

/-- R259: a trap that cannot be delivered kills the context, with an entry of class 13. -/
def handlerKill (core : Nat) (key : SlotKey) (cause detail : Nat) : Prog Unit :=
  letI := Prog.monad
  do
    let s ← Prog.get
    blackBox { unit_ := coreUnit core, cls := 13, src := 9, action := 3, recovered := false, seq := 0
               cyc := s.unitCycle (coreUnit core), addr := 0, detail := BitVec.ofNat 32 (cause + 256 * detail)
               part := some (key / 16), ctx := some (key % 16) }
    sendMsix (key / 16)
    killSlot key

/-- R75: the chain that a trap with this EPC restarts. -/
def Split.interrupted (x : Split) (epc : W64) : Option W64 :=
  (x.chain.map (·.1)).filter (· == epc)

/-- Split n has started an instruction in this cycle. -/
def Group.startedIn (g : Group) (now n : Nat) : Bool :=
  match g.issued with
  | some p => p.at_ == now && p.splits.contains n
  | none => false

/-- R257: the state of a group whose split n enters the handler for its pending trap. Where a regeneration failed in
threads of other splits (R207), the handler runs in the split's own threads of the mask, or in all of them. -/
def Group.enter (g : Group) (now n : Nat) (t : TrapRec) (entry : W64) : Group :=
  let x := g.split n
  let m := if t.mask &&& x.mask = 0 then x.mask else t.mask &&& x.mask
  { g.setSplit n { x with mask := m, emask := m, mc := false, acc := 0, pc := entry, sup := true, wait := .none
                          trap := none, fresh := false, chain := none, skip := none, redo := none } with
    handler := some ⟨n, m, x.mask &&& ~~~m, x.acc, match t.again with
                       | some k => some (t.epc, x.mask &&& ~~~k)
                       | none => x.skip,
                     t.resume.map (fun r => (t.epc, r.1, r.2)), x.redo.filter (· == t.epc),
                     some ⟨now, g.startedIn now n, x, g.fva⟩⟩
    tcause := tcauseOf t n, epc := t.epc, taux := t.taux, tmask := t.mask
    fva := t.fva.foldl (fun f e => Tab.set 0 f e.1 e.2) g.fva }

/-- R257: the handler was entered in this cycle and has started nothing. -/
def Handler.untouched (h : Handler) (g : Group) (now : Nat) : Option Entered :=
  h.entered.filter (fun x => x.cycle == now && x.started == g.startedIn now h.split)

/-- R257: split n holds a pending trap. Traps of several splits in one cycle are all recorded, and the lowest split's is
delivered first: a handler that a higher split has entered in this very cycle is put back. -/
def Group.raise (g : Group) (now n : Nat) (t : TrapRec) : Group :=
  let g := g.modSplit n (fun x => { x with trap := some t, wait := .none, redo := x.interrupted t.epc, chain := none })
  match g.handler with
  | none => g
  | some h => match h.untouched g now with
    | some x => if n < h.split then { g.setSplit h.split x.was with handler := none, fva := x.fva } else g
    | none => g

/-- R257: the lowest-numbered split with a pending trap. -/
def Group.firstTrap (g : Group) : Option (Nat × TrapRec) :=
  ((List.range 4).filterMap (fun n => (g.split n).trap.map (fun t => (n, t)))).head?

/-- R257: Deliver. The entry address is checked as R259 gives. -/
def deliver (u gi : Nat) : Prog Unit :=
  letI := Prog.monad
  do
    let g ← getGroup u gi
    if g.handler.isSome then .pure ()
    else match g.firstTrap with
    | none => .pure ()
    | some (n, t) => do
      let tm ← getTeam u
      let l ← getLaunch tm.launch
      let s ← Prog.get
      let entry := (s.dev.slot l.cmd.slot).sventry
      let r ← checkTarget g.core l.id l.cmd.slot true entry
      match r with
      | .ok none => modGroup u gi (fun g => g.enter (s.now g.core) n t entry)
      | _ => handlerKill g.core l.cmd.slot t.cause.code t.detail

/-- R257: RaiseTrap. The split is the one named; the instruction that runs ends. -/
def raiseOn (u gi n : Nat) (t : TrapRec) : Prog Unit :=
  letI := Prog.monad
  do
    let g ← getGroup u gi
    if (g.split n).sup then do
      let tm ← getTeam u
      let l ← getLaunch tm.launch
      handlerKill g.core l.cmd.slot t.cause.code t.detail
    else do
      let s ← Prog.get
      modGroup u gi (fun g => g.raise (s.now g.core) n t)
      deliver u gi

/-- The trap record of the running instruction (R87, R148, R255). -/
def Env.record (e : Env) (g : Group) (cause : Cause) (detail : Nat) (m : Mask) (taux : W64 := 0) (fva : Tab W64 := [])
    (epc : Option W64 := none) : TrapRec :=
  let x := g.split e.split
  { cause, detail, mask := m, taux, fva
    epc := epc.getD (match x.chain with
      | some (p, _) => p
      | none => e.pc)
    again := none
    resume := match x.resume with
      | some (p, q, w) => if p = e.pc then some (q, w) else none
      | none => none }

/-- A trap of the running instruction: it ends with none of its own effects. Inside a latch chain EPC is the chain's first
member (R75, R87). -/
def trap {α : Type} (e : Env) (cause : Cause) (detail : Nat) (m : Mask) (taux : W64 := 0) (fva : Tab W64 := [])
    (epc : Option W64 := none) : Prog α :=
  Prog.bind (started e) (fun _ =>
    Prog.bind e.group (fun g =>
      Prog.bind (Prog.act (.cur none)) (fun _ =>
        Prog.bind (raiseOn e.team e.gidx e.split (e.record g cause detail m taux fva epc)) (fun _ => .halt))))

/-- R274: split n has not started after all, and is no candidate for the rest of the cycle. -/
def InCycle.giveUp (p : InCycle) (n : Nat) : InCycle := { p with splits := removeNat n p.splits, tried := insertNat n p.tried }

/-- The running instruction does not start yet: nothing of it happens. -/
def notYet {α : Type} (e : Env) (w : Wait) : Prog α :=
  Prog.bind (e.modGroup (fun g =>
    { g.modSplit e.split (fun x => { x with wait := w, chain := e.chain0 }) with
      issued := g.issued.map (fun p => p.giveUp e.split) })) (fun _ => .eff (.cur none) .halt)

/-! ### Retiring -/

/-- The split once its instruction has ended. One that executed again goes on where the split stood before, and is not
signed again (R148). -/
def Split.after (x : Split) (e : Env) (signed : Bool) (w : Wait) : Split :=
  match x.resume with
  | some (p, q, v) =>
    if p = e.pc then { x with pc := q, wait := if w = .none then v else w, fresh := false, skip := none, resume := none }
    else { (if signed then x.sign e.head e.bare else x) with pc := e.next, wait := w, fresh := false, skip := none, resume := none }
  | none => { (if signed then x.sign e.head e.bare else x) with pc := e.next, wait := w, fresh := false, skip := none }

/-- The end of an instruction: the datapath, the signature (R249), the PC; `f` is the form's own change of its split. -/
def finish (e : Env) (signed : Bool) (w : Wait) (f : Split → Split := id) : Prog Unit :=
  letI := Prog.monad
  do
    started e
    let g ← e.group
    e.modSplit (fun x => (f x).after e signed w)
    Prog.act (.cur none)
    Prog.when (g.split e.split).resume.isSome (Prog.due (.complete ⟨e.team, e.gidx⟩ 0))
    settle e.team e.gidx

/-- The end of an instruction that goes on to the next start. -/
def retire (e : Env) : Prog Unit := finish e true .none

/-- The end of an instruction that the signature does not count (R249). -/
def retireUncounted (e : Env) (f : Split → Split := id) : Prog Unit := finish e false .none f

/-- The same, with the split then waiting inside the instruction. -/
def retireWaiting (e : Env) (w : Wait) : Prog Unit := finish e true w

/-- Threads that the instruction at the split's PC has performed already (R148). -/
def Split.skipped (x : Split) : Mask :=
  match x.skip with
  | some (p, m) => if p == x.pc then m else 0
  | none => 0

/-- The instruction at a PC of a launch, as the memory of a core's die holds it; nothing is fetched (R44). -/
def peekInstr (s : State) (l : Launch) (sup : Bool) (core : Nat) (pc : W64) : Option Instr :=
  let block := pc.toNat / 32 * 32
  match translateFresh s l.cmd.slot sup .fetch (BitVec.ofNat 64 block) with
  | .ok (pa, _) =>
    let k := pc.toNat % 32 / 4
    match decode false ((List.range (8 - k)).map (fun i => (s.mem.word (dieOf core) (pa + 4 * (k + i)) 4).setWidth 32)) with
    | .ok i => some i
    | .error _ => none
  | .error _ => none

/-- R61: the first instruction at or after a PC, past any fillers, and the fillers passed. -/
def peekPast (s : State) (l : Launch) (sup : Bool) (core : Nat) : Nat → W64 → Nat × Option Instr
  | 0, _ => (0, none)
  | n + 1, pc => match peekInstr s l sup core pc with
    | some .filler => let r := peekPast s l sup core n (pc + 4); (r.1 + 1, r.2)
    | x => (0, x)

/-- No run of fillers is longer than the words of the address space (R127). -/
def fillerRun : Nat := 0x80000000000000

/-- R73: the members that continue a chain at a PC, as they stand in memory, n at most. -/
def chainRest (s : State) (l : Launch) (sup : Bool) (core : Nat) : Nat → W64 → List Instr
  | 0, _ => []
  | n + 1, pc =>
    let r := peekPast s l sup core fillerRun pc
    match r.2 with
    | some i =>
      if Instr.chainable i && Instr.readsLatch i then i :: chainRest s l sup core n (pc + BitVec.ofNat 64 (4 * r.1 + i.bytes)) else []
    | none => []

/-- R73: the members of the chain that begins at a PC. -/
def chainMembers (s : State) (l : Launch) (sup : Bool) (core : Nat) (pc : W64) : List Instr :=
  match peekInstr s l sup core pc with
  | some i => i :: chainRest s l sup core 3 (pc + BitVec.ofNat 64 i.bytes)
  | none => []

/-- The n words from an address are fillers. -/
def fillerWords (s : State) (key : SlotKey) (sup : Bool) (core : Nat) : Nat → Nat → Bool
  | 0, _ => true
  | n + 1, va =>
    (match translateFresh s key sup .fetch (BitVec.ofNat 64 va) with
      | .ok (pa, _) => !inPeer pa && s.mem.word (dieOf core) pa 4 == 0
      | .error _ => false) && fillerWords s key sup core n (va + 4)

/-- R84: nothing but fillers stands between the next start and the slice area. -/
def fallsOff (s : State) (l : Launch) (sup : Bool) (core : Nat) (pc next : W64) : Bool :=
  let area := l.desc.sarea.toNat
  0 < l.desc.salen && pc.toNat < area && next.toNat ≤ area && fillerWords s l.cmd.slot sup core ((area - next.toNat) / 4) next.toNat

/-- Instructions that decide themselves which threads go to the next start. -/
def Instr.choosesNext : Instr → Bool
  | .bra .. | .jmp .. | .call .. | .ret .. | .exit .. | .eret .. | .eretExit .. | .yld .. | .trap .. | .sysc .. | .bkpt .. => true
  | _ => false

/-- R63, R84: threads of a mask would fall into the slice area; its first address is the target that fails (log entry
82). -/
def fallTrap {α : Type} (e : Env) (m : Mask) : Prog α :=
  .read (fun s => trap e .badtarget 3 m (((s.launch? e.launch).map (fun l => l.desc.sarea)).getD e.next))

/-- R84, R88: the report at the last instruction before the slice area, made once its operands are read. -/
def fallCheck (e : Env) : Prog Unit := if e.falls && !Instr.choosesNext e.instr then fallTrap e e.mask else .pure ()

/-- What an instruction sees of its issuer when it starts. -/
def envOf (s : State) (c : Issuer) (g : Group) (l : Launch) (i : Instr) (h : Head) : Env :=
  let x := g.split c.split
  { team := c.team, gidx := c.gidx, split := c.split, g := h.g, head := i.headWord, bare := unguarded h
    pc := x.pc, next := x.pc + BitVec.ofNat 64 i.bytes, w := g.width, mask := x.mask
    v := if h.g then 0 else g.guardMask h x.mask &&& ~~~x.skipped, q := h.g && g.guardQ h, sup := x.sup, core := g.core
    die := dieOf g.core, key := l.cmd.slot, launch := l.id, regs := l.desc.regs
    lane := laneGroupKey g.core g.quad g.lg, instr := i, chain0 := x.chain
    falls := fallsOff s l x.sup g.core x.pc (x.pc + BitVec.ofNat 64 i.bytes) }

/-- What the group has started in this cycle (R98, R211, R274). -/
def Group.issuedNow (g : Group) (now : Nat) : InCycle :=
  match g.issued with
  | some x => if x.at_ = now then x else { at_ := now, frm := g.frm, dphase := g.dphase }
  | none => { at_ := now, frm := g.frm, dphase := g.dphase }

/-- R211: FRM as the running instruction reads it: as its cycle found it. -/
def Group.frmNow (g : Group) : BitVec 2 := (g.issued.map (·.frm)).getD g.frm

/-- R98: the phase that the next execution of this cycle takes. -/
def Group.phaseNow (g : Group) : W32 :=
  match g.issued with
  | some x => x.dphase + BitVec.ofNat 32 x.took.length
  | none => g.dphase

/-- R98: split n has taken its phase; DPHASE advances unless an `swr` of this cycle has written it. -/
def Group.takePhase (g : Group) (n : Nat) : Group :=
  match g.issued with
  | some x => { g with issued := some { x with took := x.took ++ [n] }, dphase := if x.wrote then g.dphase else g.dphase + 1 }
  | none => { g with dphase := g.dphase + 1 }

/-- R98: DPHASE as an instruction reads it: as its cycle found it. -/
def Group.dphaseNow (g : Group) : W32 := (g.issued.map (·.dphase)).getD g.dphase

/-- R73 to R75: the group once split n starts an instruction: the split's chain, and fresh latches where the instruction
does not continue one. -/
def Group.begin (g : Group) (n : Nat) (now : Nat) (i : Instr) : Group :=
  let x := g.split n
  let chain := x.chainNext x.pc i
  let goes := match chain with
    | some (_, k) => 2 ≤ k
    | none => false
  let redo := x.redo.filter (fun r => chain.map (·.1) == some r)
  let p := g.issuedNow now
  let uni := (i.raw.map (·.g)).getD false
  { g.setSplit n { x with chain, redo } with
    latch := if goes || uni then g.latch else [], issued := some { p with splits := insertNat n p.splits } }

/-- The frame of every instruction (R87, R145, R282): the issuer, then the level, then the body. -/
def instruction (i : Instr) (h : Head) (body : Env → Prog Unit) : Prog Unit :=
  .read (fun s =>
    match s.cur with
    | none => .fault .noIssuer
    | some c =>
      match s.team? c.team, s.group? c.team c.gidx with
      | some t, some g =>
        match s.launch? t.launch with
        | none => .fault .noIssuer
        | some l =>
          if !(g.split c.split).live then .fault .noIssuer
          else
            let e := envOf s c g l i h
            .eff (.group c.team (g.begin c.split (s.dev.core g.core).cycle.toNat i)) (
              if i.supervisor && !e.sup then trap e .prot 15 e.mask
              else if e.active then body e
              else Prog.bind (fallCheck e) (fun _ => body e))
      | _, _ => .fault .noIssuer)

/-! ### Returning from a handler (R258, R260) -/

/-- R260: split n's threads go back to user level at EPC with the held threads. -/
def Group.leave (g : Group) (n : Nat) (hd : Handler) : Group :=
  let x := g.split n
  let m := g.unexited (x.mask ||| hd.held)
  let y : Split := { x with live := true, mask := m, emask := m, mc := false, acc := hd.saved, pc := g.epc, sup := false
                            wait := if g.mpcount > 0 then .pages else .none, trap := none, chain := none
                            skip := match hd.skip with
                              | some (p, k) => if p = g.epc then some (p, k) else none
                              | none => none
                            resume := match hd.resume with
                              | some (p, q, w) => if p = g.epc then some (p, q, w) else none
                              | none => none
                            redo := hd.redo.filter (fun r => r == g.epc) }
  { g.setSplit n (if m = 0 then {} else y) with handler := none }

/-- The end of a handler as `eret #0` ends it: EPC is checked under R63. The executing split is n. -/
def endHandler (u gi n : Nat) : Prog Unit :=
  letI := Prog.monad
  do
    let g ← getGroup u gi
    match g.handler with
    | none => .pure ()
    | some hd => do
      let tm ← getTeam u
      let l ← getLaunch tm.launch
      let r ← checkTarget g.core l.id l.cmd.slot false g.epc
      match r with
      | .ok none => do
        modGroup u gi (fun g => g.leave n hd)
        deliver u gi
        settle u gi
      | .ok (some k) => handlerKill g.core l.cmd.slot 2 k
      | .error _ => match placeBad l.desc g.epc with
        | some k => handlerKill g.core l.cmd.slot 2 k
        -- the words at an EPC that no longer translates are met at fetch (R132)
        | none => do
          modGroup u gi (fun g => g.leave n hd)
          deliver u gi
          settle u gi

/-- What follows when threads have left a group (R42, R244, R258). -/
def afterExit (u gi : Nat) : Prog Unit :=
  letI := Prog.monad
  do
    let g ← getGroup u gi
    match g.handler with
    | some hd =>
      if g.unexited hd.mask = 0 then
        -- the handler ends; the held threads resume under the trapped split's number when it is free
        let n := if (g.split hd.split).live then (g.freeNumbers.headD hd.split) else hd.split
        endHandler u gi n
      else settle u gi
    | none => do
      deliver u gi
      settle u gi

end Sys2Proof.Machine
end

