-- ==== Sys2Proof/Machine/Order.lean ====
section
/-! DEFINITION. The ordering machine's rules: what an operation of an issue stream waits for (R177, R178), where a load
takes its value (R179), what covers what (R180 to R182), and what a bank unit computes (R159). -/
namespace Sys2Proof.Machine

/-! ### Operations -/

/-- Not performed yet. -/
def Access.waiting (a : Access) : Bool := a.st == .waiting || a.st == .refused
/-- Its instruction still waits for it: not performed, or a wait that has not ended. -/
def Access.undone (a : Access) : Bool := a.waiting || a.st == .arrived
/-- Two accesses touch a common byte. -/
def Access.touches (a b : Access) : Bool :=
  a.glob == b.glob && a.loc < b.loc + b.size && b.loc < a.loc + a.size

def MemOp.pendingAny (o : MemOp) : Bool := o.kind == .fence || o.accs.any Access.waiting
def MemOp.openAny (o : MemOp) : Bool := o.kind == .fence || o.accs.any Access.undone

def acquires (o : Order) : Bool := o == .acq || o == .ar || o == .sc
def releases (o : Order) : Bool := o == .rel || o == .ar || o == .sc

/-- Loads and atomics of R177's table. -/
def OpKind.reads : OpKind → Bool
  | .load | .atm _ | .cas _ => true
  | .forest _ _ => true
  | _ => false
/-- Stores, atomics, `red` and `ored` of R177's table. -/
def OpKind.writes : OpKind → Bool
  | .store | .atm _ | .cas _ | .red _ | .ored | .forest _ _ | .emit => true
  | _ => false
def OpKind.arrives : OpKind → Bool
  | .arrive | .arw => true
  | _ => false

/-- R177: an earlier operation that is an acquire whatever path it takes. -/
def MemOp.surelyAcquires (f : MemOp) : Bool :=
  match f.kind with
  | .load | .atm _ => acquires f.order
  | .cas fail => acquires f.order && acquires fail
  | .waitb | .arw => acquires f.order
  | _ => false
/-- A `cas` that is an acquire on one of its paths only. -/
def MemOp.mayAcquire (f : MemOp) : Bool :=
  match f.kind with
  | .cas fail => acquires f.order != acquires fail
  | _ => false

/-- R178: an access is in the scope set of a release by an agent on a die. -/
def inScopeSet (m : MemSys) (die : Nat) (sc : Scope) (a : Access) : Bool :=
  sc == .dev || sc == .sys || !a.glob || m.homeDie a.loc == die

/-- R182: a `cas` that behaves as an access at `.sc` on one of its paths only. -/
def MemOp.halfSc (o : MemOp) : Bool :=
  match o.kind with
  | .cas fail => (o.order == .sc) != (fail == .sc)
  | _ => false

/-- What a later operation is, as R177's table sees it. -/
structure Later where
  access : Option Access
  isLoad : Bool := false
  release : Option Scope := none
  fence : Option Order := none
  write : Bool := false
  spans : List (Nat × Nat) := []
  deriving DecidableEq, Repr

/-- A global access lies in one of the virtual ranges. -/
def Access.within (a : Access) (l : List (Nat × Nat)) : Bool :=
  a.glob && l.any (fun p => a.va.toNat < p.1 + p.2 && p.1 < a.va.toNat + a.size)

/-- R177: what an earlier operation must still do before a release. -/
def heldRelease (m : MemSys) (die : Nat) (sc : Scope) (f : MemOp) : Bool :=
  (f.kind.reads && f.pendingAny) || (f.kind.writes && f.accs.any (fun b => b.waiting && inScopeSet m die sc b))

/-- R177: an earlier operation holds a later one back, whatever its release is worth. -/
def holdsBackAnyway (f : MemOp) (e : Later) : Bool :=
  let touch := match e.access with
    | none => false
    | some a => f.accs.any (fun b => b.waiting && b.touches a && !(e.isLoad && f.kind == .store))
        || (f.pendingAny && a.within f.spans)
  let span := f.accs.any (fun b => b.waiting && b.within e.spans)
    || (f.pendingAny && f.spans.any (fun p => e.spans.any (fun q => p.1 < q.1 + q.2 && q.1 < p.1 + p.2)))
  let acquire := f.surelyAcquires && f.openAny
  let read := f.kind.reads && f.pendingAny
  let fence := match e.fence with
    | some .sc => f.openAny
    | some .acq | some .ar => read
    | _ => false
  let afterFence := f.kind == .fence && (f.order == .acq || f.order == .ar || f.order == .sc || e.write)
  touch || span || acquire || fence || afterFence

/-- R177: an earlier operation holds a later one back. -/
def holdsBack (m : MemSys) (die : Nat) (f : MemOp) (e : Later) : Bool :=
  holdsBackAnyway f e || (match e.release with
    | none => false
    | some sc => heldRelease m die sc f)

/-- The operations of a split's stream before operation `id`. -/
def Group.before (g : Group) (split id : Nat) : List MemOp :=
  (g.stream.takeWhile (fun o => o.id != id)).filter (fun o => o.split == split)
def Group.op? (g : Group) (id : Nat) : Option MemOp := g.stream.find? (fun o => o.id == id)

/-- R178: at `.sys` the earlier stores are applied on every die. -/
def appliedEverywhere (m : MemSys) (team gidx split : Nat) : Bool :=
  m.views.all (fun v => v.queue.all (fun w => !(w.team == team && w.gidx == gidx && w.split == split)))

/-- The clock of a die covers another (R180, R206). -/
def covers (v w : List Nat) : Bool := (v.zip w).all (fun p => p.2 ≤ p.1)

/-- What R177 sees of an access of an operation, with the order of the path it takes. -/
def MemOp.later (o : MemOp) (a : Access) (order : Order) : Later :=
  { access := some a, isLoad := o.kind == .load
    release := if releases order && (o.kind.writes || o.kind.arrives) then some o.scope else none
    write := o.kind.writes || o.kind.arrives, spans := o.spans }

/-- R147: no lower lane of the same instruction has still to reach a common byte. A refused thread has reached its unit. -/
def lanesInOrder (o : MemOp) (a : Access) : Bool := o.accs.all (fun b => !(b.lane < a.lane && b.st == .waiting && b.touches a))

/-! ### Scratchpad banks (R105 to R107, R156) -/

/-- The core of a pair that holds a local byte. -/
def ownerCore (p : Place) (loc : Nat) : Nat :=
  match p with
  | .core n => n
  | .pair k => 2 * k + loc / 4096 % 2

/-- R106. -/
def bankOf (loc : Nat) : Nat := (loc / 4 + loc / 128) % 32
def banksOf (loc size : Nat) : List Nat := if size ≤ 4 then [bankOf loc] else [bankOf loc, bankOf (loc + 4)]

/-- R156: an earlier load or store of the split has still to arrive at the same bank of the other core. -/
def requestHeld (s : State) (team core : Nat) (fs : List MemOp) (a : Access) : Bool :=
  !a.glob && (match s.team? team with
    | none => false
    | some t => ownerCore t.place a.loc != core && fs.any (fun f => (f.kind == .load || f.kind == .store) && f.accs.any (fun b =>
        b.waiting && !b.glob && ownerCore t.place b.loc == ownerCore t.place a.loc
          && (banksOf b.loc b.size).any (fun k => (banksOf a.loc a.size).contains k))))

/-- R178: the earlier operations that a release waits for. -/
def releaseWaits (s : State) (g : Group) (o : MemOp) (order : Order) : List Nat :=
  if releases order && (o.kind.writes || o.kind.arrives || o.kind == .fence) then
    ((g.before o.split o.id).filter (heldRelease s.mem (dieOf g.core) o.scope)).map (·.id)
  else []

/-- R178: the release is as strong as its scope says. -/
def releaseWhole (s : State) (team : Nat) (g : Group) (o : MemOp) (order : Order) : Bool :=
  (releaseWaits s g o order).isEmpty
    && !(releases order && (o.kind.writes || o.kind.arrives || o.kind == .fence) && o.scope == .sys
          && !appliedEverywhere s.mem team g.gidx o.split)

/-! ### Releases whose scope does not cover an acquirer (R178) -/

/-- R178: the agents that a scope covers, of a split on a core: whether another split is among them. -/
def scopeCovers (sc : Scope) (core team gidx core2 team2 gidx2 : Nat) : Bool :=
  match sc with
  | .grp => team == team2 && gidx == gidx2
  | .team => team == team2
  | .pair => pairOf core == pairOf core2
  | .die => dieOf core == dieOf core2
  | .dev | .sys => true

/-- An operation that an early release should have waited for is still to come. -/
def Early.open_ (s : State) (e : Early) : Bool :=
  match s.group? e.team e.gidx with
  | none => false
  | some g => g.stream.any (fun o => e.before.contains o.id && o.pendingAny)
      || (e.scope == .sys && !appliedEverywhere s.mem e.team e.gidx e.split)

def Early.meets (e : Early) (team : Nat) (a : Access) : Bool :=
  e.glob == a.glob && (e.glob || e.team == team) && a.loc < e.loc + e.size && e.loc < a.loc + a.size

/-- It is another split's. -/
def Early.foreign (e : Early) (team gidx split : Nat) : Bool := (e.team, e.gidx, e.split) != (team, gidx, split)

/-- R178: an early release and an acquire, of a scope, by a split of a group synchronise. -/
def Early.synchronises (s : State) (e : Early) (team : Nat) (g : Group) (split : Nat) (sc : Scope) : Bool :=
  e.foreign team g.gidx split && (match s.group? e.team e.gidx with
    | none => false
    | some h => scopeCovers e.scope h.core e.team e.gidx g.core team g.gidx && scopeCovers sc g.core team g.gidx h.core e.team e.gidx)

/-- R177, R178: a release whose earlier operations are not done is seen by nobody but an acquire that it does not synchronise
with, to which it is as if it were `.rlx`, and by everybody once such an acquire has read it (log entry 104). -/
def earlyHeld (s : State) (team : Nat) (g : Group) (split : Nat) (sc : Scope) (a : Access) (order : Order) : Bool :=
  s.dev.early.any (fun e => e.meets team a && e.foreign team g.gidx split && e.open_ s
    && (if acquires order then e.synchronises s team g split sc else !e.lax))

/-- The same for a fence, of releases that its split has read. -/
def fenceHeld (s : State) (team : Nat) (g : Group) (o : MemOp) : Bool :=
  acquires o.order && s.dev.early.any (fun e => e.seen.contains (team, g.gidx, o.split) && e.synchronises s team g o.split o.scope && e.open_ s)

/-- A split reads bytes that early releases wrote, with an order and a scope. -/
def noteSeen (s : State) (team : Nat) (g : Group) (split : Nat) (sc : Scope) (a : Access) (order : Order) : List Early :=
  s.dev.early.map (fun e => if !e.meets team a then e else
    { e with seen := if e.seen.contains (team, g.gidx, split) then e.seen else (team, g.gidx, split) :: e.seen
             lax := e.lax || (acquires order && e.foreign team g.gidx split && !e.synchronises s team g split sc) })

/-- What the early releases become when a write is performed: its own, and those of early fences before it. -/
def earlyEntries (s : State) (team : Nat) (g : Group) (o : MemOp) (a : Access) (order : Order) : List Early :=
  let at_ (sc : Scope) (before : List Nat) : Early :=
    { team, gidx := g.gidx, split := o.split, scope := sc, glob := a.glob, loc := a.loc, size := a.size, before }
  let own := if releaseWhole s team g o order then [] else [at_ o.scope (releaseWaits s g o order)]
  own ++ (s.dev.early.filter (fun e => e.size == 0 && (e.team, e.gidx, e.split) == (team, g.gidx, o.split) && e.open_ s)).map
    (fun e => at_ e.scope e.before)

/-- R178: bookkeeping of an access that is performed with an order. -/
def noteEarly (team : Nat) (g : Group) (o : MemOp) (a : Access) (order : Order) : Prog Unit :=
  .read (fun s =>
    let new := if o.kind.writes || o.kind.arrives then earlyEntries s team g o a order else []
    if new.isEmpty && s.dev.early.isEmpty then .pure ()
    else
      let old := if o.kind == .waitb || o.kind.reads || o.kind.arrives then noteSeen s team g o.split o.scope a order else s.dev.early
      Prog.modDev (fun d => { d with early := old.filter (fun e => e.open_ s) ++ new }))

/-- An operation whose end waits for nothing but earlier operations of its split and for writes to be applied. -/
def MemOp.ordinary (o : MemOp) : Bool :=
  match o.kind with
  | .load | .store | .atm _ | .red _ => true
  | .cas _ => !o.mayAcquire && !o.halfSc
  | _ => false

/-- A release may be performed before earlier operations: none of these waits for another early release, and no operation
that another early release waits for waits for this one. -/
def earlySafe (s : State) (team : Nat) (g : Group) (o : MemOp) (a : Option Access) : Bool :=
  let others := s.dev.early.filter (fun e => e.foreign team g.gidx o.split && e.open_ s)
  let at_ : Option Early := a.map (fun a => { team, gidx := g.gidx, split := o.split, scope := o.scope, glob := a.glob, loc := a.loc, size := a.size, before := [] })
  (match (s.team? team).bind (fun t => s.launch? t.launch) with
    | some l => l.cmd.mode != 2
    | none => false)
    && (g.before o.split o.id).all (fun f => !f.pendingAny || (f.ordinary && f.accs.all (fun b => !b.waiting || !others.any (fun e => e.meets team b))))
    && others.all (fun e => match s.group? e.team e.gidx with
      | none => true
      | some h => h.stream.all (fun f => f.split != e.split || f.accs.all (fun b =>
          !b.waiting || !(match at_ with
            | none => false
            | some x => x.meets e.team b))))

/-- R156, R177: nothing but a release's own waiting holds the access back, and that may wait (R178). -/
def mayPerformEarly (s : State) (team : Nat) (g : Group) (o : MemOp) (a : Access) (order : Order) : Bool :=
  let fs := g.before o.split o.id
  fs.all (fun f => !holdsBackAnyway f (o.later a order)) && lanesInOrder o a
    && !(o.kind == .store && requestHeld s team g.core fs a)
    && ((earlyEntries s team g o a order).isEmpty || earlySafe s team g o (some a))

/-- R177: later operations done before a `cas` bind it to the path that is no acquire. -/
def Group.passCasOf (g : Group) (before : List Nat) : Group :=
  { g with stream := g.stream.map (fun o =>
      if before.contains o.id && o.mayAcquire then { o with accs := o.accs.map (fun a => if a.waiting then { a with passed := true } else a) }
      else o) }

def Group.passCas (g : Group) (split id : Nat) : Group := g.passCasOf ((g.before split id).map (·.id))

/-- R184: how an engine command joins its queue: a release at `.dev`. -/
def joinLater : Later := { access := none, release := some .dev, write := true }

/-- R184: nothing of a split's stream holds back a command, which is a release at `.dev`. -/
def engineMayJoin (s : State) (g : Group) (split : Nat) : Bool :=
  (g.stream.filter (fun o => o.split == split)).all (fun f => !holdsBack s.mem (dieOf g.core) f joinLater)

/-- The operations that hold it back. -/
def joinWaits (s : State) (g : Group) (split : Nat) : List Nat :=
  ((g.stream.filter (fun o => o.split == split)).filter (fun f => holdsBack s.mem (dieOf g.core) f joinLater)).map (·.id)

/-! ### Local memory -/

def Team.localByte (t : Team) (a : Nat) : Option Byte := Tab.get none t.spad a
def Team.localBytes (t : Team) (a n : Nat) : List (Option Byte) := (List.range' a n).map t.localByte
def Team.setLocal (t : Team) (cells : List (Nat × Option Byte)) : Team :=
  { t with spad := cells.foldl (fun l c => Tab.set none l c.1 c.2) t.spad }

/-- Little-endian value of bytes that may be undefined: fresh values take the place of undefined ones. -/
def settleBytes (l : List (Option Byte)) : Prog W64 :=
  letI := Prog.monad
  if l.all Option.isSome then pure (leWord (l.map (fun b => b.getD 0)))
  else do
    let u ← Prog.undef
    let us := bytesOf l.length u.toNat
    pure (leWord ((l.zip us).map (fun p => p.1.getD p.2)))

/-! ### Loads (R179) -/

/-- Where a load takes its value now. -/
inductive LoadFrom where
  | blocked
  | store (x : W64)
  | view
  deriving DecidableEq, Repr

/-- The newest store of the same split to the same bytes that is still in the buffer: it must cover the load. -/
def forwardFrom (fs : List MemOp) (a : Access) : LoadFrom :=
  let hits := (fs.filter (fun f => f.kind == .store)).flatMap (fun f => f.accs.filter (fun b => b.waiting && b.touches a))
  match hits.getLast? with
  | none => .view
  | some b =>
    if b.loc ≤ a.loc && a.loc + a.size ≤ b.loc + b.size then
      .store (BitVec.ofNat 64 (b.data.toNat / 2 ^ (8 * (a.loc - b.loc)) % 2 ^ (8 * a.size)))
    else .blocked

/-- R206: a team that was resumed on another die loads nothing until its die's clock covers its old die's. -/
def clockOk (s : State) (t : Team) (die : Nat) : Bool :=
  match t.clock with
  | none => true
  | some c => covers (s.mem.views.getD die {}).clock c

/-- R156, R179, R206: a load of an operation that stands after `fs` in its stream. -/
def loadFrom (s : State) (t : Team) (g : Group) (fs : List MemOp) (a : Access) : LoadFrom :=
  let die := dieOf g.core
  let l : Later := { access := some a, isLoad := true }
  if !clockOk s t die || fs.any (fun f => holdsBack s.mem die f l) then .blocked
  else match forwardFrom fs a with
    | .view => if requestHeld s t.uid g.core fs a then .blocked else .view
    | x => x

/-- The bytes at the place of an access as its issuer sees them. -/
def bytesAt (s : State) (t : Team) (die : Nat) (a : Access) : List (Option Byte) :=
  if a.glob then (s.mem.bytes die a.loc a.size).map some else t.localBytes a.loc a.size

/-! ### Bank units (R159) -/

/-- The new value of `atm`, `red` and `ored`; bank units round to nearest even and raise no flags. -/
def bankNew (op : AtmOp) (ty : Ty) (old x : W64) : W64 :=
  match op with
  | .add => (foldStep ty .add .rne old x).val
  | .min => (foldStep ty .min .rne old x).val
  | .max => (foldStep ty .max .rne old x).val
  | .and => old &&& x
  | .or => old ||| x
  | .xor => old ^^^ x
  | .exch => x

/-- The value of an access's type as bytes. -/
def tyBytes (t : Ty) : Nat := t.width / 8

/-! ### Registers that wait for results (R176) -/

/-- Registers whose results are due, of operations that are not done: v registers with the threads that wait for them. -/
structure Due where
  v : List (Nat × Mask)
  s : List Nat
  deriving DecidableEq, Repr

def dueOf (l : List MemOp) : Due :=
  l.foldl (fun d o =>
    match o.dest with
    | none => d
    | some r =>
      if o.g then { d with s := r.d.toNat :: d.s }
      else if r.nwb then d
      else { d with v := (r.d.toNat, o.mask) :: (if o.ty.is64 then (r.d.toNat + 1, o.mask) :: d.v else d.v) }) ⟨[], []⟩

/-- The v registers due in a thread of a mask. -/
def Due.regs (d : Due) (m : Mask) : List Nat := (d.v.filter (fun p => p.2 &&& m != 0)).map (·.1)

end Sys2Proof.Machine
end

