-- ==== Sys2Proof/Machine/Operands.lean ====
section
/-! DEFINITION. Operand forms (R69, R70, R212), register references (R248), recipe registers (R196 to R210), uncorrectable
words (R330 to R335), results (R71, R72, R150) and the region record (R252, R253). -/
namespace Sys2Proof.Machine

/-! ### What an instruction names -/

/-- How an operand is read: as a value of a type, or as an address term (R67). -/
inductive As where
  | ty (t : Ty)
  | addr
  deriving DecidableEq, Repr

def As.wide : As → Bool
  | .ty t => t.is64
  | .addr => false

/-- An operand: its place as R248 numbers it (0 A, 1 B, 2 C, 3 D), its source, how it is read. -/
structure Opnd where
  pos : Nat
  src : Src
  as_ : As
  deriving DecidableEq, Repr

/-- What an instruction writes beside memory: a V result, or the indexed target of `movx`. -/
inductive Dst where
  | nothing
  | reg (r : Res) (wide : Bool)
  | idx (x : BitVec 2) (r : Res) (wide : Bool)
  deriving DecidableEq, Repr

structure Shape where
  srcs : List Opnd
  dst : Dst := .nothing
  deriving DecidableEq, Repr

def opA (x : Src) (t : Ty) : Opnd := ⟨0, x, .ty t⟩
def opB (x : Src) (t : Ty) : Opnd := ⟨1, x, .ty t⟩
def opC (x : Src) (t : Ty) : Opnd := ⟨2, x, .ty t⟩
def adA (x : Src) : Opnd := ⟨0, x, .addr⟩
def adB (x : Src) : Opnd := ⟨1, x, .addr⟩
/-- The register that D names as an operand (R71). -/
def dataReg (g : Bool) (d : BitVec 8) (t : Ty) : Opnd := ⟨3, if g then .s (d.setWidth 6) else .v d, .ty t⟩
/-- A length operand of class 9 in D: a 32-bit v register or a whole s register (R172). -/
def lenReg (g : Bool) (d : BitVec 8) : Opnd := dataReg g d (if g then .n64 else .n32)

/-- The operands of a compute form. -/
def Comp.shape (g : Bool) (c : Comp) : Shape :=
  let srcs := ((List.range c.srcs.length).zip c.srcs).map (fun p => (⟨p.1, p.2.1, .ty p.2.2⟩ : Opnd))
  match c.kind with
  | .v r => ⟨if c.useD then dataReg g r.d c.ty :: srcs else srcs, .reg r c.ty.is64⟩
  | .vx x r => ⟨srcs, .idx x r c.ty.is64⟩
  | .p _ | .x _ => ⟨srcs, .nothing⟩

/-- The register operands of every instruction. -/
def Instr.shape (i : Instr) : Shape :=
  match i with
  | .jmp _ a b => ⟨[opA a .i64, opB b .i32], .nothing⟩
  | .call _ d _ => ⟨[], .reg ⟨false, 0, d⟩ true⟩
  | .ret _ a => ⟨[opA a .i64], .nothing⟩
  | .rejoin _ a b => ⟨[opA a .i64, opB b .i64], .nothing⟩
  | .srd _ ty r _ => ⟨[], .reg r ty.is64⟩
  | .swr _ ty a _ | .swrPgwatch _ ty a | .swrRgnpc _ ty a => ⟨[opA a ty], .nothing⟩
  | .tevict _ a => ⟨[opA a .i64], .nothing⟩
  | .ldg _ ty r _ _ _ _ a b | .ldl _ ty r _ _ a b | .lda _ ty r a b => ⟨[adA a, adB b], .reg r ty.is64⟩
  | .stg h ty d _ _ _ a b | .stl h ty d _ _ a b | .sta h ty d a b => ⟨[adA a, adB b, dataReg h.g d ty], .nothing⟩
  | .pfg _ _ a b => ⟨[adA a, adB b], .nothing⟩
  | .ldk _ ty r _ b => ⟨[adB b], .reg r ty.is64⟩
  | .atm _ ty r _ _ _ a b _ x => ⟨[adA a, adB b, opC x ty], .reg r ty.is64⟩
  | .cas _ ty r _ _ _ a b x y _ => ⟨[adA a, adB b, opC x ty, opC y ty], .reg r ty.is64⟩
  | .red _ ty _ _ _ a b _ x => ⟨[adA a, adB b, opC x ty], .nothing⟩
  | .ored _ ty _ _ _ a b x y => ⟨[adA a, adB b, opC x ty, opC y .n32], .nothing⟩
  | .arrive _ _ _ a b | .arw _ _ _ a b => ⟨[adA a, adB b], .nothing⟩
  | .waitb h d _ _ a b => ⟨[adA a, adB b, dataReg h.g d .n32], .nothing⟩
  | .pgmap _ a b c => ⟨[opA a .i64, opB b .i64, opC c .n32], .nothing⟩
  | .pgunmap _ a b | .scwin _ a b _ _ | .rstr _ _ a b _ | .emit _ a b => ⟨[opA a .i64, opB b .i64], .nothing⟩
  | .tlbinv h d a b | .tlbinvSync h d a b | .clean h d a b | .invl h d a b => ⟨[adA a, adB b, lenReg h.g d], .nothing⟩
  | .cpy _ _ a b c => ⟨[opA a .i64, opB b .i64, opC c .n32], .nothing⟩
  | .tsub _ _ a | .emitFlush _ a | .lnch _ _ a _ | .cntsn _ _ a _ => ⟨[opA a .i64], .nothing⟩
  | .mma _ _ _ a b _ | .mxfnc _ _ _ a b _ | .scacc _ _ a b _ | .bqnt _ _ a b _ | .bunp _ _ a b _ | .accz _ _ a b _ =>
    ⟨[opA a .i64, opB b .i64], .nothing⟩
  | .unite _ r a b c => ⟨[opA a .n32, opB b .n32, opC c .n32], .reg r false⟩
  | .find _ r a b | .csize _ r a b => ⟨[opA a .n32, opB b .n32], .reg r false⟩
  | .fcount _ r a _ => ⟨[opA a .n32], .reg r false⟩
  | .relabel _ _ _ a b => ⟨[opA a .n32, opB b .i64], .nothing⟩
  | .fsnap _ a | .fundo _ a | .freset _ a => ⟨[opA a .n32], .nothing⟩
  | .cntrd _ r _ => ⟨[], .reg r true⟩
  | .rcp _ d _ | .rcpdrop _ d | .rcpmat _ d | .rcpdem _ d => ⟨[dataReg false d .n32], .nothing⟩
  | i => match Instr.comp i with
    | some c => Comp.shape (((i.raw.map (·.g)).getD false)) c
    | none => ⟨[], .nothing⟩

/-! ### Register references (R248) -/

/-- A vector register reference: its place, its index register and base, whether it is a pair. -/
structure Ref where
  pos : Nat
  x : Option (BitVec 2)
  base : Nat
  wide : Bool
  deriving DecidableEq, Repr

def Opnd.ref? (o : Opnd) : Option Ref :=
  match o.src with
  | .v n => some ⟨o.pos, none, n.toNat, o.as_.wide⟩
  | .vx x b => some ⟨o.pos, some x, b.toNat, o.as_.wide⟩
  | _ => none

def Dst.ref? : Dst → Option Ref
  | .nothing => none
  | .reg r wide => if r.nwb then none else some ⟨3, none, r.d.toNat, wide⟩
  | .idx x r wide => some ⟨3, some x, r.d.toNat, wide⟩

/-- R221: `movx` checks its target whether it writes it or not. -/
def Dst.writes : Dst → Bool
  | .nothing => false
  | .reg r _ | .idx _ r _ => !r.nwb

/-- The register that a reference names in a lane, without wrapping. -/
def Ref.num (g : Group) (lane : Nat) (r : Ref) : Int :=
  match r.x with
  | none => (r.base : Int)
  | some k => (g.xreg k.toNat lane).toInt + (r.base : Int)

/-- R248: the reference fails against an allocation of n registers. -/
def Ref.fails (n : Nat) (g : Group) (lane : Nat) (r : Ref) : Bool :=
  let k := r.num g lane
  k < 0 || (n : Int) ≤ k || (r.wide && ((n : Int) ≤ k + 1 || (r.x.isSome && k % 2 == 1)))

/-- The references of a G = 0 instruction, in the order A, B, C, D. -/
def Shape.refs (sh : Shape) : List Ref :=
  let l := sh.srcs.filterMap Opnd.ref? ++ sh.dst.ref?.toList
  (List.range 4).flatMap (fun p => l.filter (fun r => r.pos == p))

/-- The v registers that references name in any of the lanes, ascending. -/
def regsOf (g : Group) (lanes : List Nat) (l : List Ref) : List Nat :=
  l.foldl (fun acc r => (match r.x with
    | none => [r.base]
    | some _ => lanes.map (fun t => (r.num g t).toNat)).foldl
      (fun acc k => let acc := insertNat k acc; if r.wide then insertNat (k + 1) acc else acc) acc) []

def Shape.readRegs (sh : Shape) (g : Group) (lanes : List Nat) : List Nat := regsOf g lanes (sh.srcs.filterMap Opnd.ref?)
def Shape.writtenRegs (sh : Shape) (g : Group) (lanes : List Nat) : List Nat :=
  if sh.dst.writes then regsOf g lanes sh.dst.ref?.toList else []

/-- R248: TAUX of IDXRANGE. -/
def rangeTaux (n : Nat) (g : Group) (lane : Nat) (r : Ref) : W64 :=
  BitVec.ofNat 64 (((r.num g lane) % (131072 : Int)).toNat + r.pos * 2 ^ 17 + n * 2 ^ 19)

/-- R248. -/
def checkRefs (e : Env) (sh : Shape) : Prog Unit :=
  letI := Prog.monad
  if e.g then .pure ()
  else do
    let g ← e.group
    match sh.refs.find? (fun r => e.lanes.any (fun t => r.fails e.regs g t)) with
    | none => pure ()
    | some r =>
      let bad := e.lanes.filter (fun t => r.fails e.regs g t)
      trap e .idxrange 0 (maskOf bad) (rangeTaux e.regs g (bad.headD 0) r)

/-! ### Pending results (R70, R176, R193) -/

def Src.handle? : Src → Option Nat
  | .h n => some n.toNat
  | _ => none

/-- The handle that an instruction waits for: a pending one that it reads. -/
def Shape.pendingHandle (sh : Shape) (g : Group) : Option Nat :=
  (sh.srcs.filterMap (fun o => Src.handle? o.src)).find? (fun n => match g.handle n with
    | .pending _ => true
    | _ => false)

/-- R176: a register that the instruction reads waits for a result in one of its threads. One that it writes is waited for
too, so that results land in program order: the spec names only what an instruction reads (log entry 83). -/
def Shape.blocked (sh : Shape) (gbit : Bool) (g : Group) (lanes : List Nat) : Bool :=
  let due := dueOf g.stream
  if gbit then
    sh.srcs.any (fun o => match o.src with
      | .s n => due.s.contains n.toNat
      | _ => false)
      || (match sh.dst with
        | .reg r _ => due.s.contains r.d.toNat
        | _ => false)
  else
    sh.srcs.any (fun o => match o.src with
      | .s n => due.s.contains n.toNat
      | _ => false)
      || (sh.readRegs g lanes ++ sh.writtenRegs g lanes).any (fun r => (due.regs (maskOf lanes)).contains r)

/-- The instruction does not start while it waits for an operand. -/
def awaitOperands (e : Env) (sh : Shape) : Prog Unit :=
  letI := Prog.monad
  do
    let g ← e.group
    match sh.pendingHandle g with
    | some n => notYet e (.handle n)
    | none =>
      if sh.blocked e.g g e.lanes then notYet e .none
      else Prog.each (sh.srcs.filterMap (fun o => Src.handle? o.src)) (fun n => observe e.team e.gidx n)

/-! ### Reading operands (R67, R70, R212) -/

/-- A vector register of a lane; a value that nothing defined is undefined. -/
def readV (g : Group) (r lane : Nat) : Prog W32 :=
  match g.vreg r lane with
  | some x => .pure x
  | none => Prog.bind Prog.undef (fun u => .pure (u.setWidth 32))

def sext32 (x : W32) : W64 := x.signExtend 64
def zext32 (x : W32) : W64 := x.setWidth 64

/-- A v register operand. -/
def readReg (g : Group) (r lane : Nat) (a : As) : Prog W64 :=
  letI := Prog.monad
  match a with
  | .addr => do
    let x ← readV g r lane
    pure (sext32 x)
  | .ty t =>
    if t.is64 then do
      let lo ← readV g r lane
      let hi ← readV g (r + 1) lane
      pure (zext32 lo ||| (zext32 hi <<< 32))
    else do
      let x ← readV g r lane
      pure (zext32 x)

/-- A 64-bit source read at an operand's width. -/
def wide64 (a : As) (x : W64) : W64 :=
  match a with
  | .addr => x
  | .ty t => if t.is64 then x else zext32 (x.setWidth 32)

/-- A literal word. R70 converts a literal of an f64 form exactly; whether a signalling FP32 NaN then still raises NV (R91) the
spec does not say: DESIGN CHOICE, it is read as the canonical NaN (log entry 109). -/
def litWord (a : As) (w : W32) : W64 :=
  match a with
  | .addr => sext32 w
  | .ty .f64 => BitVec.ofNat 64 (convert .f64 .f32 .rne w.toNat).val
  | .ty t => if t.is64 then sext32 w else zext32 w

/-- A small integer: sign-extended, or converted exactly. -/
def immValue (a : As) (i : Int) : W64 :=
  match a with
  | .addr => BitVec.ofInt 64 i
  | .ty t =>
    if t.isFlt then BitVec.ofNat 64 (convert t .i32 .rne (intBits .i32 i)).val
    else wide64 a (BitVec.ofInt 64 i)

def Lits.w0 : Lits → W32
  | .none => 0
  | .one w => w
  | .two w _ => w
def Lits.w1 : Lits → W32
  | .two _ w => w
  | _ => 0

/-- The operand of a lane. -/
def readOpnd (g : Group) (lits : Lits) (lane : Nat) (o : Opnd) : Prog W64 :=
  letI := Prog.monad
  match o.src with
  | .v n => readReg g n.toNat lane o.as_
  | .vx x b => readReg g ((g.xreg x.toNat lane).toInt + (b.toNat : Int)).toNat lane o.as_
  | .s n => pure (wide64 o.as_ (g.sreg n.toNat))
  | .x n => pure (wide64 o.as_ ((g.xreg n.toNat lane).signExtend 64))
  | .h n => pure (wide64 o.as_ (match g.handle n.toNat with
      | .complete v => v
      | _ => 0))
  | .b n => match Tab.get none g.latch (laneKey n.toNat lane) with
      | some x => pure (wide64 o.as_ x)
      | none => do
        let u ← Prog.undef
        pure (wide64 o.as_ u)
  | .lit0 => pure (litWord o.as_ (Lits.w0 lits))
  | .lit1 => pure (litWord o.as_ (Lits.w1 lits))
  | .lit64 => pure (zext32 (Lits.w0 lits) ||| (zext32 (Lits.w1 lits) <<< 32))
  | .imm i => pure (immValue o.as_ i.toInt)

/-- The operands of each lane, in the shape's order. -/
def readAll (e : Env) (lits : Lits) (sh : Shape) : Prog (List (Nat × List W64)) :=
  letI := Prog.monad
  do
    let g ← e.group
    Prog.collect e.lanes (fun t => do
      let xs ← Prog.collect sh.srcs (readOpnd g lits t)
      pure (t, xs))

/-- R67: the displacement (`a` is an immediate for a form whose A is no address term). -/
def disp (h : Head) (a b : Src) : W64 :=
  match h.lits with
  | .one w => if Src.isLit a || Src.isLit b then 0 else sext32 w
  | _ => 0

/-! ### Results (R71, R72, R85, R150, R212) -/

/-- Latches are keyed apart from registers in `badV`. -/
def latchBase : Nat := 65536

/-- Registers whose words are about to be written (R331): bad words that the write leaves are undefined from now on. -/
def Group.repair (g : Group) (r : Nat) : Group :=
  let bad := g.badV.filter (fun k => k < latchBase && k / 128 == r)
  if bad.isEmpty then g
  else { g with v := bad.foldl (fun v k => Tab.set none v k none) g.v
                badV := g.badV.filter (fun k => !(k < latchBase && k / 128 == r)) }

def Group.setV (g : Group) (r lane : Nat) (x : Option W32) : Group :=
  { g with v := Tab.set none g.v (laneKey r lane) x
           epinBad := if (Tab.get 0 g.recipe r).getLsbD 2 then Tab.set 0 g.epinBad r (Tab.get 0 g.epinBad r + 1) else g.epinBad }

/-- A regenerated word of a v register: no write that R200 counts. -/
def Group.fillV (g : Group) (r lane : Nat) (x : Option W32) : Group := { g with v := Tab.set none g.v (laneKey r lane) x }

/-- A v register or pair of one lane. -/
def Group.putV (g : Group) (r lane : Nat) (wide : Bool) (x : W64) : Group :=
  let g := (g.repair r).setV r lane (some (x.setWidth 32))
  if wide then (g.repair (r + 1)).setV (r + 1) lane (some (x.extractLsb' 32 32)) else g

/-- R150, R212: a result as an s register holds it. -/
def uniformResult (ty : Ty) (x : W64) : W64 :=
  if ty.is64 then x else if ty == .i32 || ty == .i16 || ty == .i8 then sext32 (x.setWidth 32) else zext32 (x.setWidth 32)

def Group.putS (g : Group) (n : Nat) (x : W64) : Group := if n = 63 then g else { g with s := Tab.set 0 g.s n x }

/-- WriteResult (R72) for a lane, or the one write of a G = 1 form. -/
def Group.putResult (g : Group) (gbit : Bool) (ty : Ty) (r : Res) (lane : Nat) (x : W64) : Group :=
  if gbit then g.putS r.d.toNat (uniformResult ty x)
  else
    let k := laneKey r.lat.toNat lane
    let g := { g with latch := Tab.set none g.latch k (some x), badV := g.badV.filter (· != latchBase + k) }
    if r.nwb then g else g.putV r.d.toNat lane ty.is64 x

def Group.putResults (g : Group) (gbit : Bool) (ty : Ty) (r : Res) (l : List (Nat × W64)) : Group :=
  l.foldl (fun g p => g.putResult gbit ty r p.1 p.2) g

/-- A P result; p7 and q7 discard it (R85). -/
def Group.putPred (g : Group) (gbit : Bool) (d : BitVec 3) (lane : Nat) (b : Bool) : Group :=
  if d = 7 then g
  else if gbit then { g with q := if b then g.q ||| BitVec.ofNat 8 (2 ^ d.toNat) else g.q &&& ~~~(BitVec.ofNat 8 (2 ^ d.toNat)) }
  else { g with p := Tab.set false g.p (laneKey d.toNat lane) b }

def Group.putX (g : Group) (d lane : Nat) (x : BitVec 16) : Group := { g with x := Tab.set 0 g.x (laneKey d lane) x }

/-- R213. -/
def Group.readPred (g : Group) (lane : Nat) (p : PredF) : Bool :=
  (if p.q then g.qpred p.idx.toNat else g.pred p.idx.toNat lane) != p.neg

/-! ### The region record (R252, R253) -/

def Group.regionOpen (g : Group) : Bool := g.rgnpc.getLsbD 0

/-- Clears OPEN. -/
def Group.closeRegion (g : Group) : Group := { g with rgnpc := g.rgnpc &&& ~~~1#64 }

def blocksOf (l : List (Nat × Nat)) : List Nat :=
  l.foldl (fun b p => insertNat ((p.1 + p.2 - 1) / 512) (insertNat (p.1 / 512) b)) []

/-- A load records the blocks that it reads; a 65th block closes the region. Global blocks are counted by physical
address (log entry 15). -/
def Group.noteLoads (g : Group) (sp : Space) (l : List (Nat × Nat)) : Group :=
  if !g.regionOpen then g
  else
    let add := ((blocksOf l).map (fun b => (sp, b))).filter (fun b => !g.region.blocks.contains b)
    if 64 < g.region.blocks.length + add.length then g.closeRegion
    else { g with region := { g.region with blocks := g.region.blocks ++ add } }

/-- A store to a recorded block closes the region. -/
def Group.noteStores (g : Group) (sp : Space) (l : List (Nat × Nat)) : Group :=
  if g.regionOpen && (blocksOf l).any (fun b => g.region.blocks.contains (sp, b)) then g.closeRegion else g

/-! ### Uncorrectable words (R330 to R336) -/

/-- R332: a group's conditions for a rollback on behalf of the threads of a mask. -/
def Group.mayRollback (g : Group) (m : Mask) : Bool :=
  g.regionOpen && (m &&& ~~~g.region.mask) == 0 && g.region.retry < 3 && g.rolling.isNone
    && (match g.handler with
      | some hd => (hd.mask ||| hd.held) &&& g.region.mask == 0
      | none => true)

/-- R333: issue stops for every split and overflow entry that holds a thread of the region; the latches are gone. -/
def Group.startRollback (g : Group) : Group :=
  { g with splits := g.splits.map (fun x => { x with chain := none }), rolling := some (g.region, g.rgnpc) }

/-- R333: the threads of a rollback that waits. -/
def Group.rollMask (g : Group) : Mask := ((g.rolling.map (fun r => r.1.mask)).getD 0) &&& ~~~g.exited

/-- A group begins to roll back. -/
def rollGroup (u gi : Nat) : Prog Unit :=
  Prog.bind (modGroup u gi Group.startRollback) (fun _ => Prog.due (.rollback ⟨u, gi⟩))

/-- R335: the other groups of a team roll back that meet R332's conditions for their own regions. -/
def rollOthers (t : Team) (gi : Nat) : Prog Unit :=
  Prog.each (t.groups.filter (fun g => g.gidx != gi && g.mayRollback g.region.mask)) (fun g => rollGroup t.uid g.gidx)

/-- An event charged to the context of the running instruction. -/
def Env.event (e : Env) (cls src : Nat) (addr : W64 := 0) (detail : W32 := 0) (recovered : Bool := false) : Prog Unit :=
  raiseEvent { cls, src, slot := some e.key, part := none, unit_ := coreUnit e.core, addr, detail, recovered }

/-- R330, R337: a consumed error: the matrix first, then the trap unless the action ends the context. `addr` is the
black-box entry's ADDR; for poison it is the physical address of the first thread's word. -/
def consumed {α : Type} (e : Env) (cls src : Nat) (addr : W64) (c : Cause) (detail : Nat) (m : Mask) (taux : W64) (fva : Tab W64) :
    Prog α :=
  .read (fun s =>
    let a := s.dev.action cls src
    let addr := match fva with
      | [] => addr
      | (_, va) :: _ => match translateFresh s e.key true .none va with
        | .ok (pa, _) => BitVec.ofNat 64 pa
        | .error _ => addr
    Prog.bind (e.event cls src addr (BitVec.ofNat 32 detail)) (fun _ =>
      if 3 ≤ a then .eff (.cur none) .halt else trap e c detail m taux fva))

/-- R332, R333, R336: the group rolls back instead of taking the trap of the running instruction. -/
def rollBack {α : Type} (e : Env) (cls src : Nat) (addr : W64 := 0) : Prog α :=
  Prog.bind (e.event cls src addr 0 true) (fun _ =>
    Prog.bind (rollGroup e.team e.gidx) (fun _ => .eff (.cur none) .halt))

/-- R330, R332: the running instruction consumes an uncorrectable register word or latch. -/
def badOperand {α : Type} (e : Env) (m : Mask) (taux : W64) : Prog α :=
  Prog.bind e.group (fun g =>
    if g.mayRollback e.mask then rollBack e 1 0 taux else consumed e 1 0 taux .ucerr 0 m taux [])

/-- R335: every group of the team that meets R332's conditions rolls back; the consuming group traps if it does not. -/
def badShared {α : Type} (e : Env) (src : Nat) (m : Mask) (taux : W64) : Prog α :=
  Prog.bind e.getTeam (fun t =>
    Prog.bind (rollOthers t e.gidx) (fun _ =>
      Prog.bind e.group (fun g =>
        if g.mayRollback e.mask then rollBack e 1 src taux else consumed e 1 src taux .ucerr src m taux [])))

/-! ### Recipe state (R196, R197, R201) -/

def Group.word (g : Group) (r : Nat) : W64 := Tab.get 0 g.recipe r
def Group.setWord (g : Group) (r : Nat) (w : W64) : Group := { g with recipe := Tab.set 0 g.recipe r w }
def wordBnd (w : W64) : Bool := w.getLsbD 0
def wordDem (w : W64) : Bool := w.getLsbD 1
def wordEpin (w : W64) : Bool := w.getLsbD 2
def wordSlice (w : W64) : Nat := fld w 3 8
def wordMidx (w : W64) : Nat := fld w 11 4
def wordPinc (w : W64) : Nat := fld w 15 9
def wordNin (w : W64) : Nat := fld w 24 2
def wordIn (w : W64) (i : Nat) : Nat := fld w (26 + 8 * i) 8
def wordRfrm (w : W64) : BitVec 2 := w.extractLsb' 50 2
def wordInputs (w : W64) : List Nat := (List.range (wordNin w)).map (wordIn w)
/-- PINC and EPIN alone. -/
def wordPins (w : W64) : W64 := w &&& 0xFF8004#64
def withPinc (w : W64) (n : Nat) : W64 := (w &&& ~~~0xFF8000#64) ||| BitVec.ofNat 64 (n % 512 * 32768)
def wordSetDem (w : W64) (b : Bool) : W64 := if b then w ||| 2 else w &&& ~~~2#64

def Group.bound (g : Group) (r : Nat) : Bool := wordBnd (g.word r)
def Group.demoted (g : Group) (r : Nat) : Bool := wordDem (g.word r)
/-- R200. -/
def Group.pinned (g : Group) (r : Nat) : Bool := wordPinc (g.word r) > 0 || wordEpin (g.word r)
/-- R197: the binding mask of a bound register. -/
def Group.bindMask (g : Group) (r : Nat) : Mask := Tab.get 0 g.masks (wordMidx (g.word r))

def uniformInputs (u : W64) : List Nat := (List.range 63).filter (fun j => u.getLsbD j)

/-- Counts the inputs of a binding up or down. -/
def Group.countInputs (g : Group) (ins : List Nat) (u : W64) (up : Bool) : Group :=
  let step (n : Nat) : Nat := if up then n + 1 else n - 1
  let g := ins.foldl (fun g r => g.setWord r (withPinc (g.word r) (step (wordPinc (g.word r))))) g
  (uniformInputs u).foldl (fun g j => { g with spin := Tab.set 0 g.spin j (step (Tab.get 0 g.spin j)) }) g

/-- R201: EndBinding; segments are the caller's concern. A mask entry that no binding names any more is free. -/
def Group.endBinding (g : Group) (r : Nat) : Group :=
  let w := g.word r
  if !wordBnd w then g
  else
    let g := g.countInputs (wordInputs w) (Tab.get 0 g.umask r) false
    let g := { g.setWord r (wordPins (g.word r)) with umask := Tab.set 0 g.umask r 0 }
    if g.recipe.any (fun x => wordBnd x.2 && wordMidx x.2 == wordMidx w) then g
    else { g with masks := Tab.set 0 g.masks (wordMidx w) 0 }

/-- R188: segments taken in a bank of a quadrant. When the rows of a group that has exited become free the spec does not say:
DESIGN CHOICE, with its team's end or eviction (log entry 110). -/
def bankUse (s : State) (core quad bank : Nat) : Nat :=
  (s.teams.map (fun t =>
    let n := ((s.launch? t.launch).map (fun l => l.desc.regs)).getD 0
    ((t.groups.filter (fun g => g.core == core && g.quad == quad)).map (fun g =>
      g.width / 16 * ((List.range n).filter (fun r => r % 8 == bank && !g.demoted r)).length)).foldl (· + ·) 0)).foldl (· + ·) 0
/-- Segments of a bank (R188). -/
def bankSegments : Nat := 1008

/-- R189: a demoted register gets its segments back, or the instruction waits. -/
def obtainSegments (e : Env) (r : Nat) : Prog Unit :=
  .read (fun s => match s.group? e.team e.gidx with
    | none => .halt
    | some g =>
      if !g.demoted r then .pure ()
      else if bankUse s g.core g.quad (r % 8) + g.width / 16 ≤ bankSegments then .pure ()
      else notYet e (.segments r))

/-! ### Regeneration (R204 to R207, R306) -/

/-- A recipe table entry. -/
structure SliceEntry where
  start : W64
  count : Nat
  ins : List Nat
  umask : W64
  valid : Bool
  deriving DecidableEq, Repr

/-- R306: the four words of entry k, judged from the entry alone. -/
def sliceEntry (d : Desc) (k : Nat) (ws : List W64) : SliceEntry :=
  let w0 := ws.getD 0 0
  let w1 := ws.getD 1 0
  let w2 := ws.getD 2 0
  let w3 := ws.getD 3 0
  let start := fld w0 0 57
  let nin := fld w0 61 2
  let inp (i : Nat) : Nat := fld w1 (8 * i) 8
  { start := BitVec.ofNat 64 start, count := fld w0 57 4, ins := (List.range nin).map inp, umask := w2 &&& ~~~(1#64 <<< 63)
    valid := k < d.nrcp && w0.getLsbD 63 && 1 ≤ fld w0 57 4 && fld w0 57 4 ≤ 8 && start % 4 == 0
      && d.sarea.toNat ≤ start && start < d.sarea.toNat + d.salen
      && (List.range 3).all (fun i => if i < nin then inp i < d.regs else inp i == 0)
      && fld w1 24 40 == 0 && !w2.getLsbD 63 && w3 == 0 }

/-- Why a thread's regeneration failed: cause and detail of the check (for POISON, the source of R311), the address, the
slice instruction. -/
structure RegenFail where
  cause : Cause
  detail : Nat
  va : W64
  off : Nat
  deriving DecidableEq, Repr

/-- R207: the subcause. -/
def RegenFail.sub (f : RegenFail) : Nat :=
  match f.cause with
  | .pgfault => if f.detail = 1 then 1 else 3
  | .poison => 4
  | _ => 2

/-- R311: the source of poison at an address: HBM, or the host link. -/
def poisonSource (pa : Nat) : Nat := if inHost pa then 7 else 5

/-- R206: the running instruction loads nothing before the team's clock is covered. -/
def awaitClock (e : Env) : Prog Unit :=
  .read (fun s => match s.team? e.team with
    | none => .halt
    | some t => if clockOk s t e.die then .pure () else notYet e .none)

/-- A value read, with the place it was read at, or the first failure (R131, R145, R149). -/
def readPiece (e : Env) (need : Need) (va : W64) (n : Nat) : Prog (Except (Cause × Nat) (List Byte × Nat)) :=
  letI := Prog.monad
  do
    let r ← translate e.core e.die e.key false need va
    match r with
    | .error x => pure (.error x)
    | .ok (pa, _) =>
      if inPeer pa then pure (.error (.prot, 12))
      else do
        let bad ← consume e.key pa n
        let s ← Prog.get
        pure (if bad then .error (.poison, poisonSource pa) else .ok (s.mem.bytes e.die pa n, pa))

/-- Bytes through the slot's translation at user level, in pieces of 8, or the first failure. -/
def readUser (e : Env) (va : W64) (n : Nat) : Prog (Except (Cause × Nat) (List Byte)) :=
  letI := Prog.monad
  do
    awaitClock e
    let ws ← Prog.collect (List.range ((n + 7) / 8)) (fun i => readPiece e .read (va + BitVec.ofNat 64 (8 * i)) (min 8 (n - 8 * i)))
    pure (ws.foldr (fun w acc => match w, acc with
      | .ok b, .ok bs => .ok (b.1 ++ bs)
      | .error x, _ => .error x
      | _, .error x => .error x) (.ok []))

/-- The entry of a slice, and whether its words have changed since the launch began. -/
def readEntry (e : Env) (l : Launch) (k : Nat) : Prog (Except (Cause × Nat) (SliceEntry × Bool)) :=
  letI := Prog.monad
  do
    let va := l.desc.rtab + BitVec.ofNat 64 (32 * k)
    let r ← readUser e va 32
    match r with
    | .error x => pure (.error x)
    | .ok bs => do
      let pa ← translate e.core e.die e.key false .read va
      let changed := match pa with
        | .ok (a, _) => (List.range 8).any (fun i => l.changed.contains (a / 4 + i))
        | .error _ => false
      pure (.ok (sliceEntry l.desc k ((List.range 4).map (fun i => leWord ((bs.drop (8 * i)).take 8))), changed))

/-- A slice as it decodes: its instructions, why it goes no further, whether a word has changed (R84, R198, R306). -/
structure SliceRun where
  instrs : List Instr
  illegal : Option Nat
  fail : Option RegenFail
  changed : Bool

/-- R198: the entry declares a source; of a pair, both registers. -/
def SliceEntry.admits (n : SliceEntry) (wide : Bool) (x : Src) : Bool :=
  match x with
  | .v r => n.ins.contains r.toNat && (!wide || n.ins.contains (r.toNat + 1))
  | .s j => n.umask.getLsbD j.toNat && j != 63
  | _ => true

/-- The sources of a slice instruction, and whether they are pairs (R198). -/
def sliceSrcs (i : Instr) : List (Src × Bool) :=
  match i with
  | .ldg _ _ _ _ _ _ _ a b => [(a, false), (b, false)]
  | .ldk _ _ _ _ b => [(b, false)]
  | i => ((Instr.comp i).map (fun c => c.srcs.map (fun x => (x.1, x.2.is64)))).getD []

/-- The fields of an instruction start, where its words are there. -/
def rawOf : List W32 → Option Raw
  | lo :: hi :: rest => match (lo.extractLsb' 0 2).toNat, rest with
    | 1, _ => some (Raw.ofHead lo hi .none)
    | 2, w0 :: _ => some (Raw.ofHead lo hi (.one w0))
    | 3, w0 :: w1 :: _ => some (Raw.ofHead lo hi (.two w0 w1))
    | _, _ => none
  | _ => none

/-- R86, R198: of a slice instruction that another check refuses, a source is not declared. -/
def SliceEntry.undeclared (n : SliceEntry) (ws : List W32) : Bool :=
  match rawOf ws with
  | none => false
  | some r => match formOf r.opc.toNat with
    | none => false
    | some f => (f.sources r).any (fun x => !n.admits x.2 x.1)

/-- Decodes up to `n` instructions of an entry's slice from an address; the fuel counts words. -/
def decodeSlice (e : Env) (l : Launch) (en : SliceEntry) : Nat → W64 → Nat → Prog SliceRun
  | 0, _, _ => .pure ⟨[], some 2, none, false⟩
  | fuel + 1, pc, n =>
    letI := Prog.monad
    if n = 0 then pure ⟨[], none, none, false⟩
    else if l.desc.sarea.toNat + l.desc.salen ≤ pc.toNat then pure ⟨[], some 2, none, false⟩
    else do
      let r ← readPiece e .fetch pc 4
      match r with
      | .error x => pure ⟨[], none, some ⟨x.1, x.2, pc, 0⟩, false⟩
      | .ok (_, pa) => do
        let ws ← fetchWords e.core e.launch (pa / 4 * 4)
        match ws with
        | [] => pure ⟨[], some 2, none, false⟩
        | w :: _ =>
          if w = 0 then decodeSlice e l en fuel (pc + 4) n
          else match decode true ws with
            | .error k => pure ⟨[], some (if 0x0A < k && en.undeclared ws then 0x0A else k), none, false⟩
            | .ok i => do
              let len := i.bytes / 4
              let changed := (List.range len).any (fun j => l.changed.contains (pa / 4 + j))
              let rest ← decodeSlice e l en fuel (pc + BitVec.ofNat 64 i.bytes) (n - 1)
              pure { rest with instrs := i :: rest.instrs, changed := changed || rest.changed
                               fail := rest.fail.map (fun f => { f with off := f.off + 1 }) }

/-- R157, R211: a constant window word or pair: the address of its first word, or why there is none. A K operand checks
the window's length before the offset's parity. -/
def windowAddr (d : Desc) (konst : Bool) (win offset : Nat) (wide : Bool) : Except (Cause × Nat) W64 :=
  let len := d.clen.getD win 0
  if konst && len ≤ offset then .error (.prot, 10)
  else if wide && offset % 2 == 1 then .error (.align, 0)
  else if len ≤ offset || (wide && len ≤ offset + 1) then .error (.prot, 10)
  else .ok (d.cbase.getD win 0 + BitVec.ofNat 64 (4 * offset))

/-- What a read of a window or of global memory gave a thread: its value and the physical place, or why it failed. -/
abbrev Fetched := Except (Cause × Nat × W64) (W64 × Nat)

/-- R115, R157: n bytes of a window through the constant cache; a word written since the launch began is undefined. -/
def windowWord (e : Env) (l : Launch) (va : W64) (n : Nat) : Prog Fetched :=
  letI := Prog.monad
  do
    let r ← translate e.core e.die e.key false .read va
    match r with
    | .error x => pure (.error (x.1, x.2, va))
    | .ok (pa, _) => do
      if inPeer pa then pure (.error (.prot, 12, va))
      else do
        let bad ← consume e.key pa n
        if bad then pure (.error (.poison, poisonSource pa, va))
        else do
          Prog.modDev (fun d => d.touchConst e.core e.key va)
          if (List.range (n / 4)).any (fun j => l.stale.contains (pa / 4 + j)) then do
            let u ← Prog.undef
            pure (.ok (if n = 8 then u else zext32 (u.setWidth 32), pa))
          else do
            let s ← Prog.get
            pure (.ok (s.mem.word e.die pa n, pa))

/-- The words of a pair lie in different pages. -/
def pageSplit (va : W64) : Bool := va.toNat % 65536 == 65532

/-- R157: a word or pair of a window. -/
def readWindow (e : Env) (l : Launch) (konst : Bool) (win offset : Nat) (wide : Bool) : Prog Fetched :=
  letI := Prog.monad
  match windowAddr l.desc konst win offset wide with
  | .error x => pure (.error (x.1, x.2, l.desc.cbase.getD win 0 + BitVec.ofNat 64 (4 * offset)))
  | .ok va => do
    awaitClock e
    if !(wide && pageSplit va) then windowWord e l va (if wide then 8 else 4)
    else do
      let lo ← windowWord e l va 4
      let hi ← windowWord e l (va + 4) 4
      pure (match lo, hi with
        | .ok x, .ok y => .ok (x.1 ||| y.1 <<< 32, x.2)
        | .error x, _ => .error x
        | _, .error y => .error y)

/-- A value loaded from memory as its register holds it (R150). -/
def extend (ty : Ty) (x : W64) : W64 :=
  match ty with
  | .i16 | .n16 | .i8 | .n8 => ipack ty (ival ty x)
  | _ => x

/-- R205: a replayed load of one thread, in the consuming split's stream just before the consumer. -/
def replayLoad (e : Env) (ty : Ty) (lane : Nat) (va : W64) : Prog Fetched :=
  letI := Prog.monad
  let n := tyBytes ty
  if va.toNat % n ≠ 0 then pure (.error (.align, 0, va))
  else do
    let r ← translate e.core e.die e.key false .read va
    match r with
    | .error x => pure (.error (x.1, x.2, va))
    | .ok (pa, _) => do
      if inPeer pa then pure (.error (.prot, 12, va))
      else do
        let s ← Prog.get
        let g ← e.group
        let t ← e.getTeam
        let a : Access := { lane, va, glob := true, loc := pa, size := n }
        let fs := g.stream.filter (fun o => o.split == e.split)
        match loadFrom s t g fs a with
        | .blocked => notYet e .none
        | .store x => do
          e.modGroup (fun g => g.passCasOf (fs.map (·.id)))
          pure (.ok (extend ty x, pa))
        | .view =>
          if earlyHeld s e.team g e.split .dev a .rlx then notYet e .none
          else do
          Prog.when (!s.dev.early.isEmpty) (Prog.modDev (fun d => { d with early := noteSeen s e.team g e.split .dev a .rlx }))
          let bad ← consume e.key pa n
          if bad then pure (.error (.poison, poisonSource pa, va))
          else do
            touch e.core e.key false va pa false 0
            -- R177: a `cas` that the load overtakes is bound to the path that is no acquire
            e.modGroup (fun g => g.passCasOf (fs.map (·.id)))
            let s ← Prog.get
            -- R184, R294: what an engine command is writing is undefined to its team
            if t.guarded.any (fun x => x.live && x.space == .global && x.write && x.meets va.toNat n) then do
              let u ← Prog.undef
              pure (.ok (extend ty (cut ty u), pa))
            else pure (.ok (extend ty (s.mem.word e.die pa n), pa))

/-- A slice's run in progress: the z registers, the failures by thread, the bytes it has read. -/
structure ZState where
  z : Tab (Option W64) := []
  fails : List (Nat × RegenFail) := []
  reads : List (Nat × Nat) := []

def ZState.failed (st : ZState) (lane : Nat) : Bool := st.fails.any (fun f => f.1 == lane)

/-- The result of one thread joins the run; `n` bytes of a replayed load are recorded (R253). Of a thread that fails at two
instructions of the slice R207 does not say which failure counts: DESIGN CHOICE, the first (log entry 102). -/
def ZState.take (st : ZState) (off lat lane n : Nat) (r : Fetched) : ZState :=
  match r with
  | .ok (x, pa) =>
    { st with z := Tab.set none st.z (laneKey lat lane) (some x), reads := if n = 0 then st.reads else (pa, n) :: st.reads }
  | .error (c, d, va) => if st.failed lane then st else { st with fails := st.fails ++ [(lane, ⟨c, d, va, off⟩)] }

/-- The literal words of an instruction. -/
def Instr.lits (i : Instr) : Lits := ((i.raw.map (·.lits)).getD .none)

/-- Folds a program over lanes. -/
def overLanes {σ : Type} (f : σ → Nat → Prog σ) : σ → List Nat → Prog σ
  | st, [] => .pure st
  | st, t :: ts => (f st t).bind (fun st => overLanes f st ts)

/-- One slice instruction in every thread of the mask. -/
def sliceStep (e : Env) (l : Launch) (md : BitVec 2) (lanes : List Nat) (off : Nat) (i : Instr) (st : ZState) : Prog ZState :=
  letI := Prog.monad
  do
    let g0 ← e.group
    let g := { g0 with latch := st.z }
    match i with
    | .ldg h ty r _ _ _ _ a b =>
      overLanes (fun st t => do
        let x ← readOpnd g (Instr.lits i) t (adA a)
        let y ← readOpnd g (Instr.lits i) t (adB b)
        let v ← replayLoad e ty t (x + y + disp h a b)
        pure (st.take off r.lat.toNat t (tyBytes ty) v)) st lanes
    | .ldk h ty r win b =>
      overLanes (fun st t => do
        let y ← readOpnd g (Instr.lits i) t (adB b)
        let v ← readWindow e l false win.toNat ((y + disp h (.imm 0) b).toNat % 2 ^ 32) ty.is64
        pure (st.take off r.lat.toNat t 0 v)) st lanes
    | i =>
      match Instr.comp i with
      | none => pure st
      | some c => do
        let lat := match c.kind with
          | .v r => r.lat
          | _ => 0
        let srcs := ((List.range c.srcs.length).zip c.srcs).map (fun p => (⟨p.1, p.2.1, .ty p.2.2⟩ : Opnd))
        let srcs := if c.useD then ⟨3, .b lat, .ty c.ty⟩ :: srcs else srcs
        overLanes (fun st t => do
          let xs ← Prog.collect srcs (readOpnd g (Instr.lits i) t)
          let kv ← (match c.konst with
            | none => pure none
            | some f => do
              let v ← readWindow e l true (f.extractLsb' 17 3).toNat (f.setWidth 17).toNat c.ty.is64
              pure (some v))
          match kv with
          | some (.error x) => pure (st.take off lat.toNat t 0 (.error x))
          | _ => do
            let ks := match kv with
              | some (.ok (x, _)) => [x]
              | _ => []
            let res := c.eval ⟨Round.ofFrm md, e.w, 0⟩ [⟨t, xs ++ ks, []⟩]
            let x := (res.head?.map (·.val)).getD 0
            pure { st with z := Tab.set none st.z (laneKey lat.toNat t) (some x) }) st lanes

/-- The instructions of a slice in order. -/
def sliceRun (e : Env) (l : Launch) (md : BitVec 2) (lanes : List Nat) : Nat → List Instr → ZState → Prog ZState
  | _, [], st => .pure st
  | off, i :: t, st => (sliceStep e l md lanes off i st).bind (fun st => sliceRun e l md lanes (off + 1) t st)

/-- R207: TAUX. -/
def regenTaux (slice off reg odet : Nat) : W64 := BitVec.ofNat 64 (slice + off * 2 ^ 8 + reg * 2 ^ 11 + odet * 2 ^ 24)

/-- R207: the trap of held failures. OFFSET and ODET are those of the lowest failing thread of the subcause; the rule does
not say whose (log entry 84). -/
def regenTrap {α : Type} (e : Env) (slice reg : Nat) (fails : List (Nat × RegenFail)) : Prog α :=
  let sub := ([2, 1, 3, 4].find? (fun k => fails.any (fun f => f.2.sub == k))).getD 2
  let mine := fails.filter (fun f => f.2.sub == sub)
  let low := mine.foldl (fun b f => if f.1 < b.1 then f else b) (mine.headD (0, ⟨.prot, 0, 0, 0⟩))
  let m := maskOf (mine.map (·.1))
  let taux := regenTaux slice low.2.off reg (if sub = 4 then 0 else low.2.detail)
  let fva : Tab W64 := mine.reverse.foldl (fun t f => Tab.put f.1 f.2.va t) []
  if sub = 4 then consumed e 3 low.2.detail 0 .regen 4 m taux fva else trap e .regen sub m taux fva

/-- Regenerates register r (R204). An input whose load is still due is waited for, as R176 has an instruction wait for what
it reads (log entry 84). ILLOP is raised for the threads of M, as R204 writes it (log entry 85). In value form this is the repair of R331: the register keeps its segments. The fuel
bounds repairs of inputs of inputs. -/
def regenerate : Nat → Env → Nat → Prog Unit
  | 0, e, r => badOperand e e.mask (BitVec.ofNat 64 r)
  | fuel + 1, e, r =>
    letI := Prog.monad
    do
      let g ← e.group
      let l ← getLaunch e.launch
      let w := g.word r
      let m := g.bindMask r &&& ~~~g.exited
      let lanes := lanesOf e.w m
      let k := wordSlice w
      let en ← readEntry e l k
      match en with
      | .error x =>
        -- R207: the failure is held for every thread of M, and where M is empty there is none to raise
        if lanes.isEmpty then do
          obtainSegments e r
          e.modGroup (fun g => g.setWord r (wordSetDem (g.word r) false))
        else regenTrap e k r (lanes.map (fun t => (t, ⟨x.1, x.2, l.desc.rtab + BitVec.ofNat 64 (32 * k), 0⟩)))
      | .ok (n, changed) => do
        -- R176: the inputs hold their values
        Prog.when (n.ins.any (fun u => ((dueOf g.stream).regs m).contains u)) (notYet e .none)
        -- R331: a bad word of an input is met first
        Prog.each (n.ins.filter (fun u => lanes.any (fun t => g.badV.contains (laneKey u t)))) (fun u =>
          if g.bound u && !g.demoted u then do
            regenerate fuel e u
            e.event 0 0 (BitVec.ofNat 64 u)
          else badOperand e (maskOf (lanes.filter (fun t => g.badV.contains (laneKey u t)))) (BitVec.ofNat 64 u))
        let sl ← decodeSlice e l n (l.desc.salen / 4 + 9) n.start n.count
        let odd := (List.range sl.instrs.length).find? (fun j =>
          match sl.instrs[j]? with
          | some i => (sliceSrcs i).any (fun x => !n.admits x.2 x.1)
          | none => false)
        match odd, sl.illegal with
        | some j, _ => trap e .illop (0x80 + 0x0A) m (regenTaux k j r 0)
        | none, some c => trap e .illop (0x80 + c) m (regenTaux k (sl.instrs.length % 8) r 0)
        | none, none => do
          let st ← sliceRun e l (wordRfrm w) lanes 0 sl.instrs {}
          let held := match sl.fail with
            | none => st.fails
            | some f => st.fails ++ lanes.map (fun t => (t, f))
          if !held.isEmpty then regenTrap e k r held
          else do
            obtainSegments e r
            let open_ := changed || sl.changed || !n.valid
            e.modGroup (fun g =>
              let g := (g.repair r).noteLoads .global st.reads
              let g := lanes.foldl (fun g t => g.fillV r t (if open_ then none else
                (Tab.get none st.z (laneKey 0 t)).map (fun x => x.setWidth 32))) g
              g.setWord r (wordSetDem (g.word r) false))

/-- A repair follows inputs of inputs; no chain of bindings is longer than the registers. -/
def repairDepth : Nat := 256

/-- R204, R331: sources that are demoted, or bound with an uncorrectable word, are regenerated in ascending order. A bad
word elsewhere is consumed (R330). -/
def materialize (e : Env) (sh : Shape) : Prog Unit :=
  letI := Prog.monad
  if e.g then pure ()
  else do
    let g0 ← e.group
    Prog.each (sh.readRegs g0 e.lanes) (fun r => do
      let g ← e.group
      if g.demoted r then regenerate repairDepth e r
      else do
        let bad := e.lanes.filter (fun t => g.badV.contains (laneKey r t))
        if bad.isEmpty then pure ()
        else if g.bound r then do
          regenerate repairDepth e r
          e.event 0 0 (BitVec.ofNat 64 r)
        else badOperand e (maskOf bad) (BitVec.ofNat 64 r))
    let g ← e.group
    Prog.each (sh.srcs.filterMap (fun o => match o.src with
      | .b n => some n.toNat
      | _ => none)) (fun n =>
        let bad := e.lanes.filter (fun t => g.badV.contains (latchBase + laneKey n t))
        if bad.isEmpty then pure () else badOperand e (maskOf bad) (BitVec.ofNat 64 (0x100 + n)))

/-- R201: the live bindings that name a register as an input, by ascending target. -/
def Group.dependents (g : Group) (uniform : Bool) (r : Nat) : List Nat :=
  (g.recipe.filter (fun x => wordBnd x.2 &&
    (if uniform then (Tab.get 0 g.umask x.1).getLsbD r else (wordInputs x.2).contains r))).map (·.1)

/-- R201: the first part of WriteCheck, a pin break. -/
def pinBreak (e : Env) (uniform : Bool) (r : Nat) : Prog Unit :=
  letI := Prog.monad
  do
    let g0 ← e.group
    Prog.each (g0.dependents uniform r) (fun b => do
      let g ← e.group
      Prog.when (g.demoted b) (regenerate repairDepth e b)
      e.modGroup (fun g => g.endBinding b))

/-- R201: WriteCheck for a v register that the threads of a mask write. -/
def writeCheck (e : Env) (r : Nat) (m : Mask) : Prog Unit :=
  letI := Prog.monad
  do
    pinBreak e false r
    let g ← e.group
    if !g.bound r then pure ()
    else do
      Prog.when (g.demoted r) (
        if g.bindMask r &&& ~~~g.exited &&& ~~~m = 0 then obtainSegments e r else regenerate repairDepth e r)
      e.modGroup (fun g => g.endBinding r)

/-- R201: WriteCheck for what the shape writes. -/
def checkWrites (e : Env) (sh : Shape) : Prog Unit :=
  letI := Prog.monad
  do
    let g ← e.group
    if e.g then
      match sh.dst with
      | .reg r _ => pinBreak e true r.d.toNat
      | _ => pure ()
    else
      Prog.each (sh.writtenRegs g e.lanes) (fun r =>
        -- a thread of an indexed target writes only the registers that it names
        writeCheck e r (maskOf (e.lanes.filter (fun t => (regsOf g [t] sh.dst.ref?.toList).contains r))))

/-- The operands of an instruction whose threads are not empty: waiting, register references, regeneration, pins. -/
def operands (e : Env) (lits : Lits) (sh : Shape) : Prog (List (Nat × List W64)) :=
  letI := Prog.monad
  do
    awaitOperands e sh
    checkRefs e sh
    materialize e sh
    checkWrites e sh
    let rows ← readAll e lits sh
    fallCheck e
    pure rows

/-- The failure of a window word in every visited thread (R132, R149, R157). -/
def windowTrap {α : Type} (e : Env) (c : Cause) (d : Nat) (va : W64) : Prog α :=
  let fva : Tab W64 := (lanesOf e.w e.visited).map (fun t => (t, va))
  if c = .poison then consumed e 3 d 0 .poison 0 e.visited 0 fva else trap e c d e.visited 0 fva

/-- Step 3 of R211: the K operand. -/
def konstOperand (e : Env) (c : Comp) : Prog (List W64) :=
  letI := Prog.monad
  match c.konst with
  | none => pure []
  | some f => do
    let l ← getLaunch e.launch
    let v ← readWindow e l true (f.extractLsb' 17 3).toNat (f.setWidth 17).toNat c.ty.is64
    match v with
    | .error (c, d, va) => windowTrap e c d va
    | .ok (x, _) => pure [x]

/-- R211: the effect of a compute form on its group. -/
def Comp.effect (c : Comp) (gbit : Bool) (res : List (Nat × Flagged W64)) (g : Group) : Group :=
  let g := { g with fstat := res.foldl (fun f p => f ||| p.2.flags) g.fstat }
  match c.kind with
  | .v r => g.putResults gbit c.ty r (res.map (fun p => (p.1, p.2.val)))
  | .vx x r => res.foldl (fun g p =>
      let k := laneKey r.lat.toNat p.1
      let g' := { g with latch := Tab.set none g.latch k (some p.2.val), badV := g.badV.filter (· != latchBase + k) }
      if r.nwb then g' else g'.putV ((g.xreg x.toNat p.1).toInt + (r.d.toNat : Int)).toNat p.1 c.ty.is64 p.2.val) g
  | .p d => res.foldl (fun g p => g.putPred gbit d p.1 (p.2.val != 0)) g
  | .x d => res.foldl (fun g p => g.putX d.toNat p.1 (p.2.val.setWidth 16)) g

/-! ### Chains that restart (R75) -/

/-- What a chain member reads, by number: v registers, then index registers from 256, predicates from 260. -/
def Instr.chainReads (i : Instr) (g : Group) (lanes : List Nat) : List Nat :=
  let xs := (Instr.shape i).srcs.filterMap (fun o => match o.src with
    | .x n => some (256 + n.toNat)
    | .vx x _ => some (256 + x.toNat)
    | _ => none)
  let ps := (((Instr.comp i).map (·.preds)).getD []).filterMap (fun p => if p.q then none else some (260 + p.idx.toNat))
  (Instr.shape i).readRegs g lanes ++ xs ++ ps ++ ((i.raw.map Raw.head).toList.map (fun h => 260 + h.idx.toNat))

/-- What it writes. -/
def Instr.chainWrites (i : Instr) (g : Group) (lanes : List Nat) : List Nat :=
  (Instr.shape i).writtenRegs g lanes ++ (match (Instr.comp i).map (·.kind) with
    | some (.p d) => if d = 7 then [] else [260 + d.toNat]
    | some (.x d) => [256 + d.toNat]
    | _ => [])

/-- A member wrote what an earlier member of the chain reads. -/
def chainHazard (g : Group) (lanes : List Nat) : List Instr → Bool
  | [] => false
  | i :: t => t.any (fun j => (Instr.chainWrites j g lanes).any (fun k => (Instr.chainReads i g lanes).contains k)) || chainHazard g lanes t

/-- R75: the running member belongs to a chain that has restarted, and a member writes what an earlier one reads: its results
are undefined. -/
def chainSpoilt (s : State) (e : Env) (g : Group) : Bool :=
  match (g.split e.split).redo, s.launch? e.launch with
  | some pc, some l => chainHazard g e.lanes (chainMembers s l e.sup e.core pc)
  | _, _ => false

/-- Results whose values are undefined. -/
def loseResults (ty : Ty) (res : List (Flagged W64)) : Prog (List (Flagged W64)) :=
  Prog.collect res (fun r => Prog.bind Prog.undef (fun u => .pure ⟨cut ty u, r.flags⟩))

/-- R211: an instruction of classes 1 to 5; `post` is what the form does once to its group beside its results. -/
def compute (i : Instr) (h : Head) (c : Comp) (post : Nat → Group → Group := fun _ g => g) : Prog Unit :=
  letI := Prog.monad
  instruction i h (fun e =>
    if !e.active then retire e
    else do
      let sh := Comp.shape h.g c
      awaitOperands e sh
      checkRefs e sh
      let ks ← konstOperand e c
      materialize e sh
      checkWrites e sh
      let rows ← readAll e h.lits sh
      fallCheck e
      let g ← e.group
      let ins := rows.map (fun p => (⟨p.1, p.2 ++ ks, c.preds.map (g.readPred p.1)⟩ : LaneIn))
      let res := c.eval ⟨Round.ofFrm g.frmNow, e.w, g.phaseNow.toNat⟩ ins
      let s ← Prog.get
      let res ← (if chainSpoilt s e g then loseResults c.ty res else pure res)
      e.modGroup (fun g => post e.split (c.effect h.g ((rows.map (·.1)).zip res) g))
      retire e)

end Sys2Proof.Machine
end

