-- ==== Sys2Proof/Machine/Bit.lean ====
section
/-! DEFINITION. The meanings of class 2, bits, moves and comparisons (R219 to R224): each is the shared execution of R211 applied to
the form's function of Alu. -/
namespace Sys2Proof.Machine

/-- R219. -/
def execAnd (h : Head) (ty : Ty) (r : Res) (a b : Src) (s : State) : Host.Outcome State Fault Refusal :=
  (compute (.and h ty r a b) h (compAnd ty r a b)).run s

/-- R219. -/
def execOr (h : Head) (ty : Ty) (r : Res) (a b : Src) (s : State) : Host.Outcome State Fault Refusal :=
  (compute (.or h ty r a b) h (compOr ty r a b)).run s

/-- R219. -/
def execXor (h : Head) (ty : Ty) (r : Res) (a b : Src) (s : State) : Host.Outcome State Fault Refusal :=
  (compute (.xor h ty r a b) h (compXor ty r a b)).run s

/-- R219. -/
def execAndn (h : Head) (ty : Ty) (r : Res) (a b : Src) (s : State) : Host.Outcome State Fault Refusal :=
  (compute (.andn h ty r a b) h (compAndn ty r a b)).run s

/-- R219. -/
def execNot (h : Head) (ty : Ty) (r : Res) (a : Src) (s : State) : Host.Outcome State Fault Refusal :=
  (compute (.not h ty r a) h (compNot ty r a)).run s

/-- R219. -/
def execShl (h : Head) (ty : Ty) (r : Res) (a : Src) (n : IOp) (s : State) : Host.Outcome State Fault Refusal :=
  (compute (.shl h ty r a n) h (compShl ty r a n)).run s

/-- R219. -/
def execShr (h : Head) (ty : Ty) (r : Res) (a : Src) (n : IOp) (s : State) : Host.Outcome State Fault Refusal :=
  (compute (.shr h ty r a n) h (compShr ty r a n)).run s

/-- R219. -/
def execSar (h : Head) (ty : Ty) (r : Res) (a : Src) (n : IOp) (s : State) : Host.Outcome State Fault Refusal :=
  (compute (.sar h ty r a n) h (compSar ty r a n)).run s

/-- R219. -/
def execRot (h : Head) (ty : Ty) (r : Res) (a : Src) (n : IOp) (s : State) : Host.Outcome State Fault Refusal :=
  (compute (.rot h ty r a n) h (compRot ty r a n)).run s

/-- R219. -/
def execBfx (h : Head) (ty : Ty) (r : Res) (a b : Src) (s : State) : Host.Outcome State Fault Refusal :=
  (compute (.bfx h ty r a b) h (compBfx ty r a b)).run s

/-- R219. -/
def execBfi (h : Head) (ty : Ty) (r : Res) (a b c : Src) (s : State) : Host.Outcome State Fault Refusal :=
  (compute (.bfi h ty r a b c) h (compBfi ty r a b c)).run s

/-- R219. -/
def execPopc (h : Head) (ty : Ty) (r : Res) (a : Src) (s : State) : Host.Outcome State Fault Refusal :=
  (compute (.popc h ty r a) h (compPopc ty r a)).run s

/-- R219. -/
def execClz (h : Head) (ty : Ty) (r : Res) (a : Src) (s : State) : Host.Outcome State Fault Refusal :=
  (compute (.clz h ty r a) h (compClz ty r a)).run s

/-- R219. -/
def execCtz (h : Head) (ty : Ty) (r : Res) (a : Src) (s : State) : Host.Outcome State Fault Refusal :=
  (compute (.ctz h ty r a) h (compCtz ty r a)).run s

/-- R219. -/
def execBrev (h : Head) (ty : Ty) (r : Res) (a : Src) (s : State) : Host.Outcome State Fault Refusal :=
  (compute (.brev h ty r a) h (compBrev ty r a)).run s

/-- R220. -/
def execPerm (h : Head) (r : Res) (a b c : Src) (s : State) : Host.Outcome State Fault Refusal :=
  (compute (.perm h r a b c) h (compPerm r a b c)).run s

/-- R221. -/
def execSel (h : Head) (ty : Ty) (r : Res) (a b : Src) (pf : PredF) (s : State) : Host.Outcome State Fault Refusal :=
  (compute (.sel h ty r a b pf) h (compSel ty r a b pf)).run s

/-- R221. -/
def execMov (h : Head) (ty : Ty) (r : Res) (a : Src) (s : State) : Host.Outcome State Fault Refusal :=
  (compute (.mov h ty r a) h (compMov ty r a)).run s

/-- R221. -/
def execMovx (h : Head) (ty : Ty) (r : Res) (a : Src) (x : BitVec 2) (s : State) : Host.Outcome State Fault Refusal :=
  (compute (.movx h ty r a x) h (compMovx ty r a x)).run s

/-- R223. -/
def execCmp (h : Head) (ty : Ty) (d : BitVec 3) (cond : Cond) (a b : Src) (s : State) : Host.Outcome State Fault Refusal :=
  (compute (.cmp h ty d cond a b) h (compCmp ty d cond a b)).run s

/-- R224. -/
def execPlop (h : Head) (d : BitVec 3) (pa pb pc : PredF) (table : BitVec 8) (s : State) : Host.Outcome State Fault Refusal :=
  (compute (.plop h d pa pb pc table) h (compPlop d pa pb pc table)).run s

/-- R222. -/
def execSetx (h : Head) (d : BitVec 2) (a : Src) (k : IOp) (s : State) : Host.Outcome State Fault Refusal :=
  (compute (.setx h d a k) h (compSetx d a k)).run s

end Sys2Proof.Machine
end

