-- ==== Sys2Proof/Machine/Conv.lean ====
section
/-! DEFINITION. The meanings of class 4, conversions and special functions (R231 to R234): each is the shared
execution of R211 applied to the form's function of Alu. -/
namespace Sys2Proof.Machine

/-- R231. -/
def execCvt (h : Head) (ty : Ty) (r : Res) (a : Src) (from_ : Ty) (s : State) : Host.Outcome State Fault Refusal :=
  (compute (.cvt h ty r a from_) h (compCvt ty r a from_)).run s

/-- R98, R99: the execution takes the phase and advances DPHASE by one. -/
def execCvts (h : Head) (ty : Ty) (r : Res) (a : Src) (from_ : Ty) (s : State) : Host.Outcome State Fault Refusal :=
  (compute (.cvts h ty r a from_) h (compCvts ty r a from_) (fun n g => g.takePhase n)).run s

/-- R233. -/
def execFrcp (h : Head) (ty : Ty) (r : Res) (a : Src) (s : State) : Host.Outcome State Fault Refusal :=
  (compute (.frcp h ty r a) h (compFrcp ty r a)).run s

/-- R233. -/
def execFrsq (h : Head) (ty : Ty) (r : Res) (a : Src) (s : State) : Host.Outcome State Fault Refusal :=
  (compute (.frsq h ty r a) h (compFrsq ty r a)).run s

/-- R234. -/
def execFex2 (h : Head) (ty : Ty) (r : Res) (a : Src) (s : State) : Host.Outcome State Fault Refusal :=
  (compute (.fex2 h ty r a) h (compFex2 ty r a)).run s

/-- R234. -/
def execFlg2 (h : Head) (ty : Ty) (r : Res) (a : Src) (s : State) : Host.Outcome State Fault Refusal :=
  (compute (.flg2 h ty r a) h (compFlg2 ty r a)).run s

/-- R234. -/
def execFsin (h : Head) (ty : Ty) (r : Res) (a : Src) (s : State) : Host.Outcome State Fault Refusal :=
  (compute (.fsin h ty r a) h (compFsin ty r a)).run s

/-- R234. -/
def execFcos (h : Head) (ty : Ty) (r : Res) (a : Src) (s : State) : Host.Outcome State Fault Refusal :=
  (compute (.fcos h ty r a) h (compFcos ty r a)).run s

/-- R234. -/
def execFtanh (h : Head) (ty : Ty) (r : Res) (a : Src) (s : State) : Host.Outcome State Fault Refusal :=
  (compute (.ftanh h ty r a) h (compFtanh ty r a)).run s

end Sys2Proof.Machine
end

