-- ==== Sys2Proof/Machine/Access.lean ====
section
/-! DEFINITION. What the memory forms share: effective addresses and the checks of R145, windows (R108, R109), local and
accumulator bytes (R104, R105, R111), uncorrectable local words (R331), and joining the issue stream (R175, R179, R182). -/
namespace Sys2Proof.Machine

/-- An operand row by lane. -/
abbrev Rows := List (Nat × List W64)

/-- R67: the effective addresses; the address terms are the first two operands. -/
def effAddrs (h : Head) (a b : Src) (rows : Rows) : List (Nat × W64) :=
  rows.map (fun r => (r.1, r.2.getD 0 0 + r.2.getD 1 0 + disp h a b))

/-- The operands after the address terms. -/
def rowAt (rows : Rows) (k lane : Nat) : W64 := (((rows.find? (fun r => r.1 == lane)).map (·.2)).getD []).getD k 0

/-- The threads that a performed lane stands for: with G = 1 every thread of the split. -/
def Env.threads (e : Env) (lane : Nat) : List Nat := if e.g then lanesOf e.w e.visited else [lane]
def Env.spread {α : Type} (e : Env) (l : List (Nat × α)) : List (Nat × α) :=
  l.flatMap (fun p => (e.threads p.1).map (fun t => (t, p.2)))

/-- A trap with the address of each failing thread in FVA. -/
def addressTrap {α : Type} (e : Env) (c : Cause) (detail : Nat) (l : List (Nat × W64)) : Prog α :=
  let fva : Tab W64 := e.spread l
  trap e c detail (maskOf (fva.map (·.1))) 0 fva

/-- R132, R242: the trap of failed translations: PROT before PGFAULT, the detail of the lowest thread. -/
def translationTrap {α : Type} (e : Env) (fails : List (Nat × W64 × Cause × Nat)) : Prog α :=
  let prot := fails.filter (fun f => f.2.2.1 == .prot)
  let l := if prot.isEmpty then fails else prot
  addressTrap e (if prot.isEmpty then .pgfault else .prot) ((l.head?.map (fun f => f.2.2.2)).getD 0) (l.map (fun f => (f.1, f.2.1)))

/-- Check 4 of R145. -/
def checkAlign (e : Env) (n : Nat) (eas : List (Nat × W64)) : Prog Unit :=
  let bad := eas.filter (fun a => a.2.toNat % n != 0)
  if bad.isEmpty then .pure () else addressTrap e .align 0 bad

/-- Translations by thread. -/
abbrev Translated := List (Nat × W64 × Except (Cause × Nat) (Nat × Bool))

/-- The threads whose translation failed. -/
def failedOf (rs : Translated) : List (Nat × W64 × Cause × Nat) :=
  rs.filterMap (fun r => match r.2.2 with
    | .error x => some (r.1, r.2.1, x)
    | .ok _ => none)
/-- The threads whose translation passed. -/
def passedOf (rs : Translated) : List (Nat × W64 × Nat × Bool) :=
  rs.filterMap (fun r => match r.2.2 with
    | .ok x => some (r.1, r.2.1, x)
    | .error _ => none)

/-- Checks 6 and 7 of R145: the physical address of each thread and whether its page has WR. -/
def checkGlobal (e : Env) (need : Need) (eas : List (Nat × W64)) : Prog (List (Nat × W64 × Nat × Bool)) :=
  letI := Prog.monad
  do
    let rs ← translateAll e.core e.die e.key e.sup need eas
    if !(failedOf rs).isEmpty then translationTrap e (failedOf rs)
    else
      let peers := (passedOf rs).filter (fun r => inPeer r.2.2.1)
      if peers.isEmpty then pure (passedOf rs) else addressTrap e .prot 12 (peers.map (fun r => (r.1, r.2.1)))

/-! ### Windows (R108, R109) -/

def Window.covers (w : Window) (a : Nat) : Bool := w.mode != 0 && w.lbase ≤ a && a < w.lbase + w.len

/-- The window that holds a local byte, by number. -/
def Team.windowAt (t : Team) (a : Nat) : Option (Nat × Window) :=
  ((List.range t.windows.length).zip t.windows).find? (fun p => p.2.covers a)

/-- The fill block of a local address in its window, when it is not valid. -/
def Team.missingBlock (t : Team) (a : Nat) : Option (Nat × Window × Nat) :=
  match t.windowAt a with
  | some (k, w) => let b := (a - w.lbase) / 512; if w.valid.contains b then none else some (k, w, b)
  | none => none

def Team.setWindow (t : Team) (k : Nat) (w : Window) : Team := { t with windows := setNth t.windows k w }

/-- The agent number of a core's map unit. -/
def mapUnit (core : Nat) : Nat := 256 + core

/-- R109: the map unit of a core fills a block of a window: relaxed loads at `.dev`, on the core's die. Bytes of poisoned
sectors are undefined. Answers why the block cannot be filled. -/
def fillBlock (core : Nat) (key : SlotKey) (sup : Bool) (team win : Nat) (w : Window) (blk : Nat) : Prog (Option (Cause × Nat)) :=
  letI := Prog.monad
  do
    let r ← translate (mapUnit core) (dieOf core) key sup .read (w.vbase + BitVec.ofNat 64 (512 * blk))
    match r with
    | .error x => pure (some x)
    | .ok (pa, _) =>
      if inPeer pa then pure (some (.prot, 12))
      else do
        eccRead key pa 512
        Prog.each (List.range 16) (fun i => touchLlc key (pa + 32 * i) false)
        let s ← Prog.get
        let lo := w.lbase + 512 * blk
        modAnyTeam team (fun t => match t.windows[win]? with
          | none => t
          | some w =>
            -- words written locally since the block was last valid are kept
            let cells := ((List.range 512).filter (fun i => !w.dirty.contains ((512 * blk + i) / 4))).map (fun i =>
              (lo + i, if s.mem.poisoned (pa + i) 1 then none else some (s.mem.byte (dieOf core) (pa + i))))
            (t.setLocal cells).setWindow win { w with valid := insertNat blk w.valid })
        pure none

/-- The blocks of windows that a local range needs and that are not valid. -/
def Team.missingBlocks (t : Team) (a n : Nat) : List (Nat × Window × Nat) :=
  ((List.range' a n).filterMap (fun x => t.missingBlock x)).foldl (fun l b => if l.contains b then l else l ++ [b]) []

/-- Blocks are filled in turn; the answer is the first failure and its address. -/
def fillBlocks (core : Nat) (key : SlotKey) (sup : Bool) (team : Nat) : List (Nat × Window × Nat) → Prog (Option (Cause × Nat × W64))
  | [] => .pure none
  | (k, w, b) :: rest => Prog.bind (fillBlock core key sup team k w b) (fun r => match r with
      | some (cause, d) => .pure (some (cause, d, w.vbase + BitVec.ofNat 64 (512 * b)))
      | none => fillBlocks core key sup team rest)

/-- R109: the blocks that the accesses need are filled first, at the accessor's level. A fault is raised here. -/
def fillWindows (e : Env) (eas : List (Nat × W64)) : Prog Unit :=
  letI := Prog.monad
  do
    let t ← e.getTeam
    let need := eas.filterMap (fun a => (t.missingBlock a.2.toNat).map (fun b => (a.1, b)))
    if need.isEmpty then pure ()
    else do
      awaitClock e
      let rs ← Prog.collect need (fun n => do
        let va := n.2.2.1.vbase + BitVec.ofNat 64 (512 * n.2.2.2)
        let r ← translate (mapUnit e.core) e.die e.key e.sup .read va
        pure (n.1, va, match r with
          | .ok (pa, _) => if inPeer pa then some (Cause.prot, 12) else none
          | .error x => some x))
      let fails := rs.filterMap (fun r => r.2.2.map (fun x => (r.1, r.2.1, x)))
      if !fails.isEmpty then translationTrap e fails
      else do
        let blocks := need.foldl (fun acc n => if acc.any (fun b => b.1 == n.2.1 && b.2.2 == n.2.2.2) then acc
          else acc ++ [(n.2.1, n.2.2.1, n.2.2.2)]) []
        Prog.each blocks (fun b => Prog.bind (fillBlock e.core e.key e.sup e.team b.1 b.2.1 b.2.2) (fun _ => .pure ()))

/-- Check 5 of R145 for local addresses (R105, R146), then the window blocks. -/
def checkLocal (e : Env) (size : Nat) (store : Bool) (eas : List (Nat × W64)) : Prog Unit :=
  letI := Prog.monad
  do
    let l ← getLaunch e.launch
    let t ← e.getTeam
    let why (a : W64) : Option Nat :=
      if l.desc.localSize < a.toNat + size then some 10
      else if store then (match t.windowAt a.toNat with
        | some (_, w) => if w.mode = 1 then some 11 else none
        | none => none)
      else none
    let bad := eas.filterMap (fun a => (why a.2).map (fun d => (a.1, a.2, d)))
    match bad with
    | (_, _, d) :: _ => addressTrap e .prot d (bad.map (fun b => (b.1, b.2.1)))
    | [] => fillWindows e eas

/-! ### Local and accumulator bytes -/

/-- Guarded ranges of engine commands that an access touches (R294, R327). -/
def Team.guards (t : Team) (sp : Space) (high : Bool) (a n : Nat) : List Guarded :=
  t.guarded.filter (fun g => g.live && g.space == sp && (sp == .scratch || g.high == high) && g.meets a n)

def Team.accOf (t : Team) (high : Bool) : LocalBytes := if high then t.accHigh else t.accLow
def Team.accBytes (t : Team) (high : Bool) (a n : Nat) : List (Option Byte) := (List.range' a n).map (Tab.get none (t.accOf high))
def Team.setAcc (t : Team) (high : Bool) (cells : List (Nat × Option Byte)) : Team :=
  let put (l : LocalBytes) : LocalBytes := cells.foldl (fun l c => Tab.set none l c.1 c.2) l
  if high then { t with accHigh := put t.accHigh } else { t with accLow := put t.accLow }

/-- Undefined bytes in a local range. -/
def Team.lose (t : Team) (sp : Space) (high : Bool) (lo len : Nat) : Team :=
  match sp with
  | .scratch => t.setLocal ((List.range' lo len).map (fun a => (a, none)))
  | .acc => t.setAcc high ((List.range' lo len).map (fun a => (a, none)))
  | .global => t

/-- What a command has written by now may be undefined: it has completed, or it is a `relabel`, which writes in pieces. -/
def Guarded.lost (g : Guarded) (hit : List Nat) : Bool := hit.contains g.cmd && g.write && (g.done || g.row != 0)

/-- A write of the team into a range that a command uses spoils what the command makes of it: what the command has written is
undefined at once. -/
def Team.spoil (t : Team) (l : List Guarded) : Team :=
  let hit := l.map (·.cmd)
  let t := { t with spoiled := hit.foldl (fun s c => insertNat c s) t.spoiled }
  (t.guarded.filter (fun g => g.lost hit)).foldl (fun t g => g.pieces.foldl (fun t p => t.lose g.space g.high p.1 p.2) t) t

/-- R331: stored words whose four bytes are all written are good again. -/
def mendWords (bad : List Nat) (a n : Nat) : List Nat := bad.filter (fun w => !(a ≤ w && w + 4 ≤ a + n))

/-- R109: the DIRTY bits of a window's words that a store writes. -/
def Window.touch (w : Window) (a n : Nat) : Window :=
  { w with dirty := (List.range n).foldl (fun d i => if w.covers (a + i) then insertNat ((a + i - w.lbase) / 4) d else d) w.dirty }

/-- A store of the team to its scratchpad; inside a command's ranges `gs` the stored value is undefined (R294). -/
def Team.storeLocal (t : Team) (gs : List Guarded) (a : Nat) (bs : List (Option Byte)) : Team :=
  let bs := if gs.isEmpty then bs else bs.map (fun _ => none)
  let t := (t.spoil gs).setLocal ((List.range' a bs.length).zip bs)
  { t with windows := t.windows.map (fun w => w.touch a bs.length), badLocal := mendWords t.badLocal a bs.length }

def Team.storeAcc (t : Team) (high : Bool) (a : Nat) (bs : List (Option Byte)) : Team :=
  let gs := t.guards .acc high a bs.length
  let bs := if gs.isEmpty then bs else bs.map (fun _ => none)
  let t := (t.spoil gs).setAcc high ((List.range' a bs.length).zip bs)
  { t with badAcc := t.badAcc.filter (fun w => w.1 != high || !(a ≤ w.2 && w.2 + 4 ≤ a + bs.length)) }

/-- R111: which of a pair-placed team's two allocations a core's groups reach. -/
def Env.high (e : Env) (t : Team) : Bool :=
  match t.place with
  | .core _ => false
  | .pair _ => e.core % 2 == 1

/-- R331: an uncorrectable word of a local range. -/
def Team.badWord (t : Team) (a n : Nat) : Option Nat := t.badLocal.find? (fun w => w < a + n && a < w + 4)

/-- R330, R331, R335: a scratchpad word that an access reads is uncorrectable. -/
def checkLocalWords (e : Env) (size : Nat) (eas : List (Nat × W64)) : Prog Unit :=
  letI := Prog.monad
  do
    let t ← e.getTeam
    let bad := eas.filterMap (fun a => (t.badWord a.2.toNat size).map (fun w => (a.1, w)))
    match bad with
    | [] => pure ()
    | (_, w) :: _ => badShared e 1 (maskOf ((e.spread bad).map (·.1))) (BitVec.ofNat 64 w)

/-! ### Joining the stream (R175, R179, R182) -/

/-- The order of the access that follows the fence of an access at `.sc` (R182). -/
def plainOrder (k : OpKind) (o : Order) : Order :=
  if o != .sc then o
  else match k with
    | .load => .acq
    | .store | .red _ | .ored => .rel
    | _ => .ar

/-- R182: an access at `.sc` is a `fence.sc` and the access. -/
def scFence (e : Env) (scope : Scope) : Prog Unit :=
  letI := Prog.monad
  do
    let id ← Prog.fresh
    let o : MemOp := { id, split := e.split, pc := e.pc, sup := e.sup, kind := .fence, ty := .i32, order := .sc, scope, g := e.g
                       dest := none, accs := [], mask := e.visited }
    e.modGroup (fun g => { g with stream := g.stream ++ [o] })

/-- The operation of the running instruction joins its split's issue stream. A `cas` that is an access at `.sc` on one of
its paths only makes its fence a part of that path (R177). -/
def joinStream (e : Env) (kind : OpKind) (ty : Ty) (order : Order) (scope : Scope) (dest : Option Res) (accs : List Access)
    (hint : BitVec 3 := 0) (spans : List (Nat × Nat) := []) : Prog Nat :=
  letI := Prog.monad
  do
    let failSc := match kind with
      | .cas f => f == .sc
      | _ => order == .sc
    let half := failSc != (order == .sc)
    Prog.when (order == .sc && failSc) (scFence e scope)
    let id ← Prog.fresh
    let plain := match kind with
      | .cas f => .cas (plainOrder .load f)
      | k => k
    let o : MemOp := { id, split := e.split, pc := e.pc, sup := e.sup, kind := if half then kind else plain, ty
                       order := if half then order else plainOrder kind order, scope, g := e.g
                       dest, accs, mask := e.visited, hint, spans }
    e.modGroup (fun g => { g with stream := g.stream ++ [o] })
    pure id

/-- Accesses of global addresses. -/
def globalAccs (l : List (Nat × W64 × Nat × Bool)) (size : Nat) (data cmp : Nat → W64) : List Access :=
  l.map (fun r => { lane := r.1, va := r.2.1, glob := true, loc := r.2.2.1, size, data := data r.1, cmp := cmp r.1, wr := r.2.2.2 })

/-- R109: a local place may be written. -/
def Team.localWr (t : Team) (a : Nat) : Bool :=
  match t.windowAt a with
  | some (_, w) => w.mode != 1
  | none => true

/-- Accesses of local addresses. -/
def localAccs (l : List (Nat × W64)) (size : Nat) (data cmp : Nat → W64) : List Access :=
  l.map (fun r => { lane := r.1, va := r.2, glob := false, loc := r.2.toNat, size, data := data r.1, cmp := cmp r.1 })

/-- The bytes that accesses touch. -/
def placesOf (l : List Access) : List (Nat × Nat) := l.map (fun a => (a.loc, a.size))

end Sys2Proof.Machine
end

