-- ==== Sys2Proof/Machine/LoadStore.lean ====
section
/-! DEFINITION. The meanings of classes 6 and 7 (R145, R152 to R158): loads and stores of global, local, constant and
accumulator memory, and `pfg`. Loads and stores of the ordering machine join the issue stream; the events of Ordering
perform them. -/
namespace Sys2Proof.Machine

/-! ### Global and local loads and stores (R153, R154, R156) -/

def zeroData (_ : Nat) : W64 := 0

/-- A global load. -/
def globalLoad (e : Env) (h : Head) (ty : Ty) (r : Res) (o : Order) (sc : Scope) (hint : BitVec 3) (a b : Src) (sh : Shape) : Prog Unit :=
  letI := Prog.monad
  if !e.active then retire e
  else do
    let rows ← operands e h.lits sh
    let eas := effAddrs h a b rows
    checkAlign e (tyBytes ty) eas
    let pas ← checkGlobal e .read eas
    let accs := globalAccs pas (tyBytes ty) zeroData zeroData
    e.modGroup (fun g => g.noteLoads .global (placesOf accs))
    let _ ← joinStream e .load ty o sc (some r) accs hint
    retire e

def execLdg (h : Head) (ty : Ty) (r : Res) (o : Order) (sc : Scope) (rc : Bool) (hint : BitVec 3) (a b : Src) (s : State) :
    Host.Outcome State Fault Refusal :=
  let i : Instr := .ldg h ty r o sc rc hint a b
  (instruction i h (fun e => globalLoad e h ty r o sc hint a b (Instr.shape i))).run s

/-- A local load. -/
def localLoad (e : Env) (h : Head) (ty : Ty) (r : Res) (o : Order) (sc : Scope) (a b : Src) (sh : Shape) : Prog Unit :=
  letI := Prog.monad
  if !e.active then retire e
  else do
    let rows ← operands e h.lits sh
    let eas := effAddrs h a b rows
    checkAlign e (tyBytes ty) eas
    checkLocal e (tyBytes ty) false eas
    checkLocalWords e (tyBytes ty) eas
    let accs := localAccs eas (tyBytes ty) zeroData zeroData
    e.modGroup (fun g => g.noteLoads .scratch (placesOf accs))
    let _ ← joinStream e .load ty o sc (some r) accs
    retire e

def execLdl (h : Head) (ty : Ty) (r : Res) (o : Order) (sc : Scope) (a b : Src) (s : State) : Host.Outcome State Fault Refusal :=
  let i : Instr := .ldl h ty r o sc a b
  (instruction i h (fun e => localLoad e h ty r o sc a b (Instr.shape i))).run s

/-- A global store; the data operand follows the address terms. -/
def globalStore (e : Env) (h : Head) (ty : Ty) (o : Order) (sc : Scope) (hint : BitVec 3) (a b : Src) (sh : Shape) : Prog Unit :=
  letI := Prog.monad
  if !e.active then retire e
  else do
    let rows ← operands e h.lits sh
    let eas := effAddrs h a b rows
    checkAlign e (tyBytes ty) eas
    let pas ← checkGlobal e .write eas
    let accs := globalAccs pas (tyBytes ty) (rowAt rows 2) zeroData
    e.modGroup (fun g => g.noteStores .global (placesOf accs))
    let _ ← joinStream e .store ty o sc none accs hint
    retire e

def execStg (h : Head) (ty : Ty) (d : BitVec 8) (o : Order) (sc : Scope) (hint : BitVec 3) (a b : Src) (s : State) :
    Host.Outcome State Fault Refusal :=
  let i : Instr := .stg h ty d o sc hint a b
  (instruction i h (fun e => globalStore e h ty o sc hint a b (Instr.shape i))).run s

/-- A local store. -/
def localStore (e : Env) (h : Head) (ty : Ty) (o : Order) (sc : Scope) (a b : Src) (sh : Shape) : Prog Unit :=
  letI := Prog.monad
  if !e.active then retire e
  else do
    let rows ← operands e h.lits sh
    let eas := effAddrs h a b rows
    checkAlign e (tyBytes ty) eas
    checkLocal e (tyBytes ty) true eas
    let accs := localAccs eas (tyBytes ty) (rowAt rows 2) zeroData
    e.modGroup (fun g => g.noteStores .scratch (placesOf accs))
    let _ ← joinStream e .store ty o sc none accs
    retire e

def execStl (h : Head) (ty : Ty) (d : BitVec 8) (o : Order) (sc : Scope) (a b : Src) (s : State) :
    Host.Outcome State Fault Refusal :=
  let i : Instr := .stl h ty d o sc a b
  (instruction i h (fun e => localStore e h ty o sc a b (Instr.shape i))).run s

/-! ### `pfg` (R124, R125, R155) -/

/-- R155: the 128-byte line that holds a byte is asked for: in the core's L1, or with `.nl1` in the last-level cache alone.
A line outside the partition's ranges, and one that is there already, is not. -/
def prefetchLine (core : Option Nat) (key : SlotKey) (pa : Nat) : Prog Unit :=
  .read (fun s =>
    if !(inHbm pa && (s.dev.part (key / 16)).owns pa 1) then .pure ()
    else match core with
      | some c => if s.dev.l1Has c pa then .pure () else prefetchL1 key c pa
      | none => if s.dev.llcHas (s.mem.homeUnit pa) pa then .pure () else prefetchLlc key pa)

def execPfg (h : Head) (hint : BitVec 3) (a b : Src) (s : State) : Host.Outcome State Fault Refusal :=
  let i : Instr := .pfg h hint a b
  letI := Prog.monad
  (instruction i h (fun e =>
    if !e.active then retire e
    else do
      let rows ← operands e h.lits (Instr.shape i)
      Prog.each (effAddrs h a b rows) (fun x => do
        let r ← translate e.core e.die e.key e.sup .read x.2
        match r with
        | .ok (pa, _) => prefetchLine (if hint = 3 then none else some e.core) e.key (pa / 128 * 128)
        | .error _ => pure ())
      retire e)).run s

/-! ### `ldk` (R157) -/

/-- The checks of `ldk` in the order of R145. -/
def windowRank : Cause → Nat → Nat
  | .align, _ => 0
  | .prot, 10 => 1
  | .prot, 12 => 3
  | .poison, _ => 4
  | _, _ => 2

def execLdk (h : Head) (ty : Ty) (r : Res) (win : BitVec 3) (b : Src) (s : State) : Host.Outcome State Fault Refusal :=
  let i : Instr := .ldk h ty r win b
  letI := Prog.monad
  (instruction i h (fun e =>
    if !e.active then retire e
    else do
      let rows ← operands e h.lits (Instr.shape i)
      let l ← getLaunch e.launch
      let vals ← Prog.collect rows (fun row => do
        let off := (row.2.getD 0 0 + disp h (.imm 0) b).toNat % 2 ^ 32
        let v ← readWindow e l false win.toNat off ty.is64
        pure (row.1, v))
      let fails := vals.filterMap (fun v => match v.2 with
        | .error (c, d, va) => some (v.1, va, c, d)
        | .ok _ => none)
      let oks := vals.filterMap (fun v => match v.2 with
        | .ok (x, pa) => some (v.1, x, pa)
        | .error _ => none)
      match (List.range 5).find? (fun k => fails.any (fun f => windowRank f.2.2.1 f.2.2.2 == k)) with
      | some k =>
        let mine := fails.filter (fun f => windowRank f.2.2.1 f.2.2.2 == k)
        let at_ := mine.map (fun f => (f.1, f.2.1))
        if k = 2 then translationTrap e mine
        else if k = 4 then
          let fva : Tab W64 := e.spread at_
          consumed e 3 ((mine.head?.map (fun f => f.2.2.2)).getD 5) 0 .poison 0 (maskOf (fva.map (·.1))) 0 fva
        else addressTrap e (if k = 0 then .align else .prot) (if k = 0 then 0 else if k = 1 then 10 else 12) at_
      | none => do
        e.modGroup (fun g => (g.noteLoads .global (oks.map (fun o => (o.2.2, tyBytes ty)))).putResults h.g ty r
          (oks.map (fun o => (o.1, o.2.1))))
        retire e)).run s

/-! ### `lda` and `sta` (R111, R112, R158) -/

/-- Checks 4 and 5 of R145 for accumulator addresses. -/
def checkAcc (e : Env) (size : Nat) (eas : List (Nat × W64)) : Prog Unit :=
  letI := Prog.monad
  do
    checkAlign e size eas
    let l ← getLaunch e.launch
    let bad := eas.filter (fun a => l.desc.accSize < a.2.toNat + size)
    let t ← e.getTeam
    if !bad.isEmpty then addressTrap e .prot 10 bad
    -- R298: the split that issued an accz waits for it
    else if eas.any (fun a => (t.guards .acc (e.high t) a.2.toNat size).any (fun g => g.waits == some (e.gidx, e.split))) then
      notYet e .none
    else pure ()

def execLda (h : Head) (ty : Ty) (r : Res) (a b : Src) (s : State) : Host.Outcome State Fault Refusal :=
  let i : Instr := .lda h ty r a b
  let n := tyBytes ty
  letI := Prog.monad
  (instruction i h (fun e =>
    if !e.active then retire e
    else do
      let rows ← operands e h.lits (Instr.shape i)
      let eas := effAddrs h a b rows
      checkAcc e n eas
      awaitClock e
      let t ← e.getTeam
      let high := e.high t
      let bad := eas.filterMap (fun x =>
        (t.badAcc.find? (fun w => w.1 == high && w.2 < x.2.toNat + n && x.2.toNat < w.2 + 4)).map (fun w => (x.1, w.2)))
      match bad with
      | (_, w) :: _ => badShared e 2 (maskOf ((e.spread bad).map (·.1))) (BitVec.ofNat 64 w)
      | [] => do
        let vals ← Prog.collect eas (fun x => do
          let held := (t.guards .acc high x.2.toNat n).any (·.write)
          let v ← settleBytes (if held then List.replicate n none else t.accBytes high x.2.toNat n)
          pure (x.1, v))
        e.modGroup (fun g => (g.noteLoads .acc (eas.map (fun x => (x.2.toNat, n)))).putResults h.g ty r vals)
        retire e)).run s

def execSta (h : Head) (ty : Ty) (d : BitVec 8) (a b : Src) (s : State) : Host.Outcome State Fault Refusal :=
  let i : Instr := .sta h ty d a b
  let n := tyBytes ty
  letI := Prog.monad
  (instruction i h (fun e =>
    if !e.active then retire e
    else do
      let rows ← operands e h.lits (Instr.shape i)
      let eas := effAddrs h a b rows
      checkAcc e n eas
      e.modGroup (fun g => g.noteStores .acc (eas.map (fun x => (x.2.toNat, n))))
      let t0 ← e.getTeam
      let high := e.high t0
      -- ascending lanes: the highest lane's byte remains (R147)
      modTeam e.team (fun t => eas.foldl (fun t x =>
        t.storeAcc high x.2.toNat ((bytesOf n (rowAt rows 2 x.1).toNat).map some)) t)
      retire e)).run s

end Sys2Proof.Machine
end

