-- ==== Sys2Proof/Machine/Atomic.lean ====
section
/-! DEFINITION. The meanings of class 8 (R145, R151, R159 to R169): atomics, reductions, ordered reductions, fences and
barriers join the issue stream; the events of Ordering perform them at their homes. -/
namespace Sys2Proof.Machine

/-- The checks of an atomic form on its place (R145, R152): a scratchpad address under `.sp`, else a global one. -/
def atomicAccs (e : Env) (sp : Bool) (need : Need) (align size : Nat) (eas : List (Nat × W64)) (data cmp : Nat → W64) :
    Prog (List Access) :=
  letI := Prog.monad
  do
    checkAlign e align eas
    if sp then do
      -- R161: a `cas` that fails needs no write permission
      checkLocal e size (need != .cas) eas
      checkLocalWords e size eas
      let t ← e.getTeam
      pure ((localAccs eas size data cmp).map (fun a => { a with wr := t.localWr a.loc }))
    else do
      let pas ← checkGlobal e need eas
      pure (globalAccs pas size data cmp)

/-- An atomic form: its region closes (R253), its operation joins the stream. -/
def atomicForm (e : Env) (h : Head) (sh : Shape) (a b : Src) (sp : Bool) (need : Need) (align size : Nat) (kind : OpKind) (ty : Ty)
    (o : Order) (sc : Scope) (dest : Option Res) (waits : Bool) : Prog Unit :=
  letI := Prog.monad
  if !e.active then retire e
  else do
    let rows ← operands e h.lits sh
    let accs ← atomicAccs e sp need align size (effAddrs h a b rows) (rowAt rows 2) (rowAt rows 3)
    e.modGroup Group.closeRegion
    let id ← joinStream e kind ty o sc dest accs
    if waits then retireWaiting e (.op id) else retire e

def execAtm (h : Head) (ty : Ty) (r : Res) (o : Order) (sc : Scope) (sp : Bool) (a b : Src) (op : AtmOp) (data : Src) (s : State) :
    Host.Outcome State Fault Refusal :=
  let i : Instr := .atm h ty r o sc sp a b op data
  (instruction i h (fun e =>
    atomicForm e h (Instr.shape i) a b sp .both (tyBytes ty) (tyBytes ty) (.atm op) ty o sc (some r) false)).run s

def execCas (h : Head) (ty : Ty) (r : Res) (o : Order) (sc : Scope) (sp : Bool) (a b data cmp : Src) (fail : Order) (s : State) :
    Host.Outcome State Fault Refusal :=
  let i : Instr := .cas h ty r o sc sp a b data cmp fail
  (instruction i h (fun e =>
    atomicForm e h (Instr.shape i) a b sp .cas (tyBytes ty) (tyBytes ty) (.cas fail) ty o sc (some r) false)).run s

def execRed (h : Head) (ty : Ty) (o : Order) (sc : Scope) (sp : Bool) (a b : Src) (op : AtmOp) (data : Src) (s : State) :
    Host.Outcome State Fault Refusal :=
  let i : Instr := .red h ty o sc sp a b op data
  (instruction i h (fun e =>
    atomicForm e h (Instr.shape i) a b sp .both (tyBytes ty) (tyBytes ty) (.red op) ty o sc none false)).run s

/-- R162 to R164: the set is 16 bytes; the split waits for an answer to each thread. -/
def execOred (h : Head) (ty : Ty) (o : Order) (sc : Scope) (sp : Bool) (a b data index : Src) (s : State) :
    Host.Outcome State Fault Refusal :=
  let i : Instr := .ored h ty o sc sp a b data index
  (instruction i h (fun e => atomicForm e h (Instr.shape i) a b sp .both 16 16 .ored ty o sc none true)).run s

/-- R166. -/
def execFence (h : Head) (o : Order) (sc : Scope) (s : State) : Host.Outcome State Fault Refusal :=
  letI := Prog.monad
  (instruction (.fence h o sc) h (fun e =>
    if !e.active then retire e
    else do
      fallCheck e
      e.modGroup Group.closeRegion
      if o = .sc then scFence e sc
      else do
        let _ ← joinStream e .fence .i32 o sc none []
        pure ()
      retire e)).run s

/-- A barrier form on a local word (R105, R167 to R169). -/
def barrierForm (e : Env) (h : Head) (sh : Shape) (a b : Src) (store : Bool) (kind : OpKind) (o : Order) (sc : Scope) (waits : Bool) :
    Prog Unit :=
  letI := Prog.monad
  if !e.active then retire e
  else do
    let rows ← operands e h.lits sh
    let eas := effAddrs h a b rows
    checkAlign e 8 eas
    checkLocal e 8 store eas
    checkLocalWords e 8 eas
    e.modGroup Group.closeRegion
    let id ← joinStream e kind .n64 o sc none (localAccs eas 8 zeroData (rowAt rows 2))
    if waits then retireWaiting e (.op id) else retire e

def execArrive (h : Head) (o : Order) (sc : Scope) (a b : Src) (s : State) : Host.Outcome State Fault Refusal :=
  let i : Instr := .arrive h o sc a b
  (instruction i h (fun e => barrierForm e h (Instr.shape i) a b true .arrive o sc false)).run s

def execWaitb (h : Head) (d : BitVec 8) (o : Order) (sc : Scope) (a b : Src) (s : State) : Host.Outcome State Fault Refusal :=
  let i : Instr := .waitb h d o sc a b
  (instruction i h (fun e => barrierForm e h (Instr.shape i) a b false .waitb o sc true)).run s

def execArw (h : Head) (o : Order) (sc : Scope) (a b : Src) (s : State) : Host.Outcome State Fault Refusal :=
  let i : Instr := .arw h o sc a b
  (instruction i h (fun e => barrierForm e h (Instr.shape i) a b true .arw o sc true)).run s

end Sys2Proof.Machine
end

