-- ==== Sys2Proof/Machine/ForestTable.lean ====
section
/-! DEFINITION. Forest descriptors (R307, R316), and what becomes of a forest that software stores into while an instruction
on it is in flight (R317); stores that no group's own instruction makes. -/
namespace Sys2Proof.Machine

/-! ### Descriptors (R307, R316) -/

structure Forest where
  parent : W64
  size : W64
  dust : W64
  n : Nat
  dlimit : Nat
  dptr : Nat
  ccount : Nat
  lclass : Nat
  nmark : Nat
  rest : Nat
  deriving DecidableEq, Repr

/-- The descriptor of sixteen words. -/
def Forest.ofWords (w : Nat → W64) : Forest :=
  { parent := w 0, size := w 1, dust := w 2, n := lo32 (w 3), dlimit := hi32 (w 3), dptr := lo32 (w 4), ccount := hi32 (w 4)
    lclass := lo32 (w 5), nmark := fld (w 5) 32 8
    rest := fld (w 5) 40 24 + (w 6).toNat + (w 7).toNat + (w 12).toNat + (w 13).toNat + (w 14).toNat + (w 15).toNat }

/-- The descriptor at a place, as a die sees it. -/
def forestOf (m : MemSys) (die pa : Nat) : Forest := Forest.ofWords (fun i => m.word die (pa + 8 * i) 8)

def forestMark (m : MemSys) (die pa k : Nat) : Nat := (m.word die (pa + 64 + 4 * k) 4).toNat

/-- R316: the checks of a descriptor; `freset` does not look at the D fields. -/
def Forest.bad (f : Forest) (reset : Bool) : Bool :=
  f.parent.toNat % 4 != 0 || f.size.toNat % 4 != 0 || f.dust.toNat % 8 != 0 || f.n == 0 || decide (2 ^ 31 < f.n) || f.rest != 0
    || (!reset && (decide (8 < f.nmark) || decide (f.dlimit < f.dptr)))

def w32 (n : Nat) : W32 := BitVec.ofNat 32 n

def Group.modOp (g : Group) (id : Nat) (f : MemOp → MemOp) : Group :=
  { g with stream := g.stream.map (fun o => if o.id = id then f o else o) }

/-! ### Other operations in flight (R317, R327) -/

/-- Forest instructions in flight on a descriptor, by team, group and operation. -/
def forestsAt (s : State) (pa : Nat) : List (Nat × Nat × Nat) :=
  s.teams.flatMap (fun t => t.groups.flatMap (fun g => (g.stream.filter (fun o => (match o.kind with
    | .forest _ d => d == pa
    | _ => false) && o.accs.any Access.waiting)).map (fun o => (t.uid, g.gidx, o.id))))

def doomOps (l : List (Nat × Nat × Nat)) : Prog Unit :=
  Prog.each l (fun p => modGroup p.1 p.2.1 (fun g => g.modOp p.2.2 (fun o => { o with accs := o.accs.map (fun a => { a with undef := true }) })))

/-- Undefined words over a virtual range of a slot, where it is mapped. -/
def loseVirtual (die : Nat) (key : SlotKey) (va : W64) (len : Nat) : Prog Unit :=
  letI := Prog.monad
  Prog.each (List.range ((len + 3) / 4)) (fun i => do
    let s ← Prog.get
    match translateFresh s key true .write (va + BitVec.ofNat 64 (4 * i)) with
    | .ok (pa, _) =>
      if inPeer pa then pure ()
      else do
        let u ← Prog.undef
        commitWord die pa (min 4 (len - 4 * i)) u
    | .error _ => pure ())

/-- The forest is undefined from now on: its arrays, its dust sheet and its D fields. -/
def loseForest (die : Nat) (key : SlotKey) (pa : Nat) : Prog Unit :=
  letI := Prog.monad
  do
    let s ← Prog.get
    let f := forestOf s.mem die pa
    loseVirtual die key f.parent (4 * f.n)
    loseVirtual die key f.size (4 * f.n)
    loseVirtual die key f.dust (16 * f.dlimit)
    Prog.each ([32, 36, 40] ++ (List.range 8).map (fun k => 64 + 4 * k)) (fun o => do
      let u ← Prog.undef
      commitWord die (pa + o) 4 u)
    let u ← Prog.undef
    commitWord die (pa + 44) 1 u

/-- A virtual range of a slot, as its tables stand, shares a byte with a physical one. -/
def virtualMeets (s : State) (key : SlotKey) (lo len pa n : Nat) : Bool :=
  0 < len && (List.range' (lo / 65536) ((lo + len - 1) / 65536 + 1 - lo / 65536)).any (fun page =>
    match translateFresh s key true .none (BitVec.ofNat 64 (page * 65536)) with
    | .ok (p, _) => p + (lo - page * 65536) < pa + n && pa < p + min 65536 (lo + len - page * 65536)
    | .error _ => false)

/-- R317: a store into a forest of a slot: its descriptor or its arrays. -/
def forestHit (s : State) (key : SlotKey) (d pa n : Nat) : Bool :=
  let f := forestOf s.mem (s.mem.homeDie d) d
  (d < pa + n && pa < d + 128) || virtualMeets s key f.parent.toNat (4 * f.n) pa n || virtualMeets s key f.size.toNat (4 * f.n) pa n
    || virtualMeets s key f.dust.toNat (16 * f.dlimit) pa n

/-- The slots and descriptors of the forest instructions and `relabel` commands in flight. -/
def forestsInFlight (s : State) : List (SlotKey × Nat) :=
  let ofOps := s.teams.flatMap (fun t => match s.launch? t.launch with
    | none => []
    | some l => t.groups.flatMap (fun g => g.stream.filterMap (fun o => match o.kind with
        | .forest _ d => if o.accs.any Access.waiting then some (l.cmd.slot, d) else none
        | _ => none)))
  let ofCmds := s.dev.cmds.filterMap (fun c => match c.kind with
    | .relabel d _ _ => if !c.ended then some (c.slot, d) else none
    | _ => none)
  (ofOps ++ ofCmds).foldl (fun l d => if l.contains d then l else l ++ [d]) []

/-- Every destination piece of a `relabel`, undefined. -/
def relabelPieces (rows : Nat) (ty : Ty) (ctl : List W64) : List (Nat × List (Option Byte) × Bool) :=
  let n := if ty = .bf16 then 2 else 4
  let stride := hi32 (ctl.getD 2 0)
  let len := fld (ctl.getD 3 0) 0 24
  (List.range rows).flatMap (fun i => (List.range len).map (fun e => (stride * i + n * e, List.replicate n none, false)))

/-- What a `relabel` command on a forest whose contents are lost still has to write: all of its destination, undefined. -/
def Cmd.spoilRelabel (c : Cmd) (d : Nat) : Cmd :=
  match c.kind with
  | .relabel x ty ctl => if x = d && c.engine.isSome then { c with held := relabelPieces c.roots.length ty ctl, finished := false } else c
  | _ => c
/-- It works on the forest. -/
def Cmd.relabels (c : Cmd) (d : Nat) : Bool :=
  match c.kind with
  | .relabel x _ _ => x == d && !c.ended
  | _ => false

/-- R317: a store of software into forests that are in use: their contents and the results of what is in flight are
undefined. -/
def spoilForests (die pa n : Nat) : Prog Unit :=
  .read (fun s => Prog.each ((forestsInFlight s).filter (fun d => forestHit s d.1 d.2 pa n)) (fun d =>
    Prog.bind (doomOps (forestsAt s d.2)) (fun _ =>
    Prog.bind (Prog.each (s.dev.cmds.filter (fun c => c.relabels d.2)) (fun c =>
      Prog.bind (modAnyTeam c.team (fun t => { t with spoiled := insertNat c.id t.spoiled })) (fun _ =>
      Prog.modDev (fun x => x.setCmd (c.spoilRelabel d.2))))) (fun _ =>
    loseForest die d.1 d.2))))

/-- A store that is no group's own instruction: by an engine, a map unit, the host or another module. -/
def commitStore (die pa : Nat) (bytes : List Byte) : Prog Unit :=
  letI := Prog.monad
  do
    commitPlain die ((List.range' pa bytes.length).zip bytes)
    spoilSets die pa bytes.length
    spoilForests die pa bytes.length

end Sys2Proof.Machine
end

