-- ==== Sys2Proof/Machine/Control.lean ====
section
/-! DEFINITION. The meanings of class 0 without `tevict` (R241 to R262, R192, R139): transfers, exits, reconvergence, traps,
signatures, regions and system registers. -/
namespace Sys2Proof.Machine

/-! ### Transfers (R39, R40, R241 to R243, R250) -/

/-- Distinct addresses in order of first use. -/
def distinct (l : List W64) : List W64 := l.foldl (fun acc x => if acc.contains x then acc else acc ++ [x]) []

/-- R63, R88, R242: the targets of the threads that transfer; `stay` are threads that go to the next start. Where targets
fail and the staying threads would fall into the slice area, the spec does not say whether one report covers both: DESIGN
CHOICE, the transferring threads alone are reported (log entry 88). -/
def checkTargets (e : Env) (targets : List (Nat × W64)) (stay : Mask) : Prog Unit :=
  letI := Prog.monad
  do
    let rs ← Prog.collect (distinct (targets.map (·.2))) (fun x => do
      let r ← checkTarget e.core e.launch e.key e.sup x
      pure (x, r))
    let found := fun (x : W64) => ((rs.find? (fun r => r.1 == x)).map (·.2)).getD (.ok none)
    let fails := targets.filterMap (fun t => match found t.2 with
      | .error (c, d) => some (t.1, t.2, c, d)
      | .ok _ => none)
    if !fails.isEmpty then translationTrap { e with g := false } fails
    else
      let bad := targets.filterMap (fun t => match found t.2 with
        | .ok (some k) => some (t.1, t.2, k)
        | _ => none)
      match bad with
      | (_, x, k) :: _ => trap e .badtarget k (maskOf (bad.map (·.1))) x
      | [] => if e.falls && stay != 0 then fallTrap e stay else pure ()

/-- R40: the split may divide into so many parts now; the split named by SPLIT_OVERFLOW divides in any case. -/
def mayDivide (e : Env) (parts : Nat) : Prog Unit :=
  letI := Prog.monad
  do
    let g ← e.group
    if parts ≤ g.freeNumbers.length + 1 || (g.split e.split).wait == .number then pure () else notYet e .number

/-- R39: the threads of the split by next PC, ascending. -/
def Env.sets (e : Env) (targets : List (Nat × W64)) : List NextSet :=
  (lanesOf e.w e.mask).foldl (fun acc t => match targets.find? (fun p => p.1 == t) with
    | some (_, x) => addLane t x true acc
    | none => addLane t e.next false acc) []

/-- The group once its split has transferred; `post` is the form's own write. -/
def Env.transferred (e : Env) (targets : List (Nat × W64)) (post : Group → Group) (g : Group) : Group :=
  (post (g.modSplit e.split (fun x => x.sign e.head e.bare))).divide e.split (e.sets targets)

/-- R39, R250: threads leave for their targets or the next start. -/
def transfer (e : Env) (targets : List (Nat × W64)) (post : Group → Group := id) : Prog Unit :=
  letI := Prog.monad
  do
    let goes := maskOf (targets.map (·.1))
    checkTargets e targets (e.mask &&& ~~~goes)
    mayDivide e (e.sets targets).length
    started e
    e.modGroup (e.transferred targets post)
    Prog.act (.cur none)
    settle e.team e.gidx

/-- Reading L of R66. -/
def label (e : Env) (f : BitVec 20) : W64 := e.pc + (f.signExtend 64 <<< 2)

/-- Every visited thread goes to one place. -/
def together (e : Env) (x : W64) : List (Nat × W64) := (lanesOf e.w e.visited).map (fun t => (t, x))

/-- Each visited thread goes to its own place, or with G = 1 all to one. -/
def apart (e : Env) (f : List W64 → W64) (rows : List (Nat × List W64)) : List (Nat × W64) :=
  if e.g then together e (f ((rows.head?.map (·.2)).getD [])) else rows.map (fun r => (r.1, f r.2))

/-- What a transfer form does when no thread is visited: every thread goes to the next start. -/
def noTransfer (e : Env) : Prog Unit := if e.falls then fallTrap e e.mask else retire e

def execBra (h : Head) (f : BitVec 20) (s : State) : Host.Outcome State Fault Refusal :=
  (instruction (.bra h f) h (fun e => if !e.active then noTransfer e else transfer e (together e (label e f)))).run s

/-- The target of `jmp`. -/
def jumpTarget (xs : List W64) : W64 := xs.getD 0 0 + sext32 ((xs.getD 1 0).setWidth 32)

def execJmp (h : Head) (a b : Src) (s : State) : Host.Outcome State Fault Refusal :=
  letI := Prog.monad
  (instruction (.jmp h a b) h (fun e =>
    if !e.active then noTransfer e
    else do
      let rows ← operands e h.lits (Instr.shape (.jmp h a b))
      transfer e (apart e jumpTarget rows))).run s

/-- R243: the link PC + 8. -/
def writeLink (e : Env) (d : BitVec 8) (g : Group) : Group :=
  if e.g then g.putS d.toNat (e.pc + 8) else (lanesOf e.w e.visited).foldl (fun g t => g.putV d.toNat t true (e.pc + 8)) g

def execCall (h : Head) (d : BitVec 8) (f : BitVec 20) (s : State) : Host.Outcome State Fault Refusal :=
  letI := Prog.monad
  (instruction (.call h d f) h (fun e =>
    if !e.active then noTransfer e
    else do
      let _ ← operands e h.lits (Instr.shape (.call h d f))
      transfer e (together e (label e f)) (writeLink e d))).run s

def execRet (h : Head) (a : Src) (s : State) : Host.Outcome State Fault Refusal :=
  letI := Prog.monad
  (instruction (.ret h a) h (fun e =>
    if !e.active then noTransfer e
    else do
      let rows ← operands e h.lits (Instr.shape (.ret h a))
      transfer e (apart e (fun xs => xs.getD 0 0) rows))).run s

/-! ### `exit`, `rejoin` (R244, R245) -/

/-- R61: a filler executes as nothing; no signature, no chain and no cost take part. -/
def execFiller (s : State) : Host.Outcome State Fault Refusal :=
  letI := Prog.monad
  (do
    let st ← Prog.get
    match st.cur with
    | none => .fault .noIssuer
    | some c =>
      if (st.group? c.team c.gidx).isNone then .fault .noIssuer
      else do
        modGroup c.team c.gidx (fun g => g.modSplit c.split (fun x => { x with pc := x.pc + 4 }))
        Prog.act (.cur none)
        settle c.team c.gidx : Prog Unit).run s

/-- R247. -/
def execNop (h : Head) (s : State) : Host.Outcome State Fault Refusal :=
  (instruction (.nop h) h (fun e => Prog.bind (fallCheck e) (fun _ => retire e))).run s

/-- R244: the group once the visited threads have exited. -/
def Env.exits (e : Env) (g : Group) : Group :=
  (g.modSplit e.split (fun x => { x.sign e.head e.bare with pc := e.next, wait := .none, fresh := false, skip := none })).exitThreads e.visited

def execExit (h : Head) (s : State) : Host.Outcome State Fault Refusal :=
  letI := Prog.monad
  (instruction (.exit h) h (fun e =>
    let stay := e.mask &&& ~~~e.visited
    if e.falls && stay != 0 then fallTrap e stay
    else if !e.active then retire e
    else do
      started e
      e.modGroup e.exits
      Prog.act (.cur none)
      afterExit e.team e.gidx)).run s

/-- The lanes that `rejoin` names. -/
def rejoinMask (w : Nat) (xs : List W64) : Mask := ((xs.getD 1 0) ++ (xs.getD 0 0) : BitVec 128) &&& fullMask w

/-- R245: every lane that is named has come, or exited: the visited threads go on. -/
def Env.passes (e : Env) (g : Group) : Group :=
  g.modSplit e.split (fun x => ({ x.sign e.head e.bare with pc := e.next, wait := .none, fresh := false } : Split).remask)
/-- R245: the visited threads wait, and the rest of the split goes on. -/
def Env.parts (e : Env) (g : Group) : Group :=
  if e.v = e.mask then g.modSplit e.split (fun x => { x with wait := .rejoin })
  else
    let x := g.split e.split
    let rest : Split := { x.sign e.head e.bare with pc := e.next, mask := e.mask &&& ~~~e.v, wait := .none, fresh := false }
    let stay : Split := { x with mask := e.v, wait := .rejoin, fresh := false }
    (g.setSplit e.split stay.remask).place [rest.remask]

/-- The named lanes have all come. -/
def Env.gathered (e : Env) (g : Group) (named : Mask) : Bool := named &&& ~~~(e.v ||| g.exited) == 0

def rejoinNow (e : Env) (named : Mask) : Prog Unit :=
  letI := Prog.monad
  do
    let g ← e.group
    Prog.when (!e.gathered g named && e.v != e.mask) (mayDivide e 2)
    started e
    e.modGroup (if e.gathered g named then e.passes else e.parts)
    Prog.act (.cur none)
    settle e.team e.gidx

def execRejoin (h : Head) (a b : Src) (s : State) : Host.Outcome State Fault Refusal :=
  letI := Prog.monad
  (instruction (.rejoin h a b) h (fun e =>
    if !e.active then retire e
    else do
      let rows ← operands e h.lits (Instr.shape (.rejoin h a b))
      rejoinNow e (rejoinMask e.w ((rows.head?.map (·.2)).getD [])))).run s

/-! ### Traps that software raises, and the return from a handler (R256, R260) -/

/-- `trap` and `sysc`: the instruction is executed and the trap resumes after it. -/
def softwareTrap (e : Env) (c : Cause) (n : BitVec 20) : Prog Unit :=
  letI := Prog.monad
  if !e.active then noTransfer e
  else do
    e.modSplit (fun x => x.sign e.head e.bare)
    trap e c 0 e.visited (n.setWidth 64) [] (some e.next)

def execTrap (h : Head) (n : BitVec 20) (s : State) : Host.Outcome State Fault Refusal :=
  (instruction (.trap h n) h (fun e => softwareTrap e .trapn n)).run s

def execSysc (h : Head) (n : BitVec 20) (s : State) : Host.Outcome State Fault Refusal :=
  (instruction (.sysc h n) h (fun e => softwareTrap e .sysc n)).run s

def execBkpt (h : Head) (n : BitVec 20) (s : State) : Host.Outcome State Fault Refusal :=
  (instruction (.bkpt h n) h (fun e =>
    if !e.active then noTransfer e else trap e .bkpt 0 e.visited (n.setWidth 64))).run s

def execEret (h : Head) (s : State) : Host.Outcome State Fault Refusal :=
  letI := Prog.monad
  (instruction (.eret h) h (fun e =>
    if !e.active then noTransfer e
    else do
      let g ← e.group
      let m := (g.handler.map (·.mask)).getD 0
      if g.unexited m &&& ~~~e.mask != 0 then do
        notYet e .gather
      else do
        started e
        Prog.act (.cur none)
        endHandler e.team e.gidx e.split)).run s

def execEretExit (h : Head) (s : State) : Host.Outcome State Fault Refusal :=
  letI := Prog.monad
  (instruction (.eretExit h) h (fun e =>
    if !e.active then noTransfer e
    else do
      started e
      e.modGroup (fun g => { g.exitThreads (fullMask g.width) with handler := none })
      Prog.act (.cur none))).run s

/-! ### Signatures and regions (R251, R252, R332, R336) -/

def Split.fold (x : Split) : BitVec 16 := x.acc.extractLsb' 16 16 ^^^ x.acc.extractLsb' 0 16

def execSigchk (h : Head) (sig : BitVec 16) (s : State) : Host.Outcome State Fault Refusal :=
  letI := Prog.monad
  (instruction (.sigchk h sig) h (fun e =>
    if !e.active then retireUncounted e
    else do
      fallCheck e
      let g ← e.group
      let f := (g.split e.split).fold
      if f = sig then retireUncounted e (fun x => ({ x with acc := 0 } : Split).remask)
      else if g.mayRollback e.mask then rollBack e 5 9
      else consumed e 5 9 0 .sigmis 0 e.visited ((f ++ sig : BitVec 32).setWidth 64) [])).run s

/-- R252, R332: a region opens at a PC for a split. -/
def Group.openRegion (g : Group) (pc : W64) (x : Split) (retry : Nat) : Group :=
  { g with rgnpc := (pc &&& 0x01FFFFFFFFFFFFFC#64) ||| 1#64
           region := { acc := x.acc, mask := x.mask, frm := g.frmNow, dphase := g.dphaseNow, retry, blocks := [] } }

/-- The region that `rgn` opens; a split that a rollback made and that opens the region again keeps RETRY. -/
def Env.marks (e : Env) (g : Group) : Group :=
  let x := g.split e.split
  let same := x.fresh && (g.rgnpc &&& 0x01FFFFFFFFFFFFFC#64) == (e.pc &&& 0x01FFFFFFFFFFFFFC#64)
  g.openRegion e.pc x (if same then g.region.retry else 0)

def execRgn (h : Head) (s : State) : Host.Outcome State Fault Refusal :=
  letI := Prog.monad
  (instruction (.rgn h) h (fun e =>
    if !e.active then retire e
    else do
      fallCheck e
      e.modGroup e.marks
      retire e)).run s

/-! ### System registers (R191, R192, R261) -/

/-- R278: LEASE of a team, from the pairs' engines. -/
def leaseOf (d : Dev) (t : Team) : BitVec 16 :=
  let p := d.pair (match t.place with
    | .core n => pairOf n
    | .pair n => n)
  let one (l : Lease) (held : Nat) (shift : Nat) : Nat := if l.team == some t.uid then l.count * 2 ^ shift + 2 ^ held else 0
  BitVec.ofNat 16 (one p.lease0 14 0 + one p.lease1 15 7)

/-- The bits of TAUX that the layout of the trap being handled reserves (R207, R248, R324): a write does not set them
(R192) and a read gives zero (R2). The trap's cause and detail are those in TCAUSE (log entry 87). -/
def tauxReserved (tcause : W64) : W64 :=
  let cause := fld tcause 0 8
  let detail := fld tcause 8 8
  if cause = Cause.code .idxrange then 0xFFFFFFFFF0000000#64
  else if cause = Cause.code .regen || (cause = Cause.code .illop && 0x80 ≤ detail) then 0xFFFFFFFF00F80000#64
  else if cause = Cause.code .dustfull then 0x00000000FFFFF0C0#64
  else 0

/-- The value that `srd` reads in a lane. In a node launch, whose command's NTEAM R299 ignores, the spec does not say what
NTEAM reads: DESIGN CHOICE, the command's NTEAM (log entry 89). -/
def sysRegValue (r : SysReg) (s : State) (e : Env) (t : Team) (l : Launch) (g : Group) (lane : Nat) : W64 :=
  match r with
  | .lane => BitVec.ofNat 64 lane
  | .gidx => BitVec.ofNat 64 e.gidx
  | .team => BitVec.ofNat 64 t.number
  | .nteam => BitVec.ofNat 64 l.cmd.nteam
  | .vcore => BitVec.ofNat 64 (t.number % 1024)
  | .width => BitVec.ofNat 64 e.w
  | .split => BitVec.ofNat 64 e.split
  | .core => BitVec.ofNat 64 e.core
  | .die => BitVec.ofNat 64 e.die
  | .part => BitVec.ofNat 64 l.part
  | .frm => g.frmNow.setWidth 64
  | .fstat => g.fstat.setWidth 64
  | .dphase => g.dphaseNow.setWidth 64
  | .sigacc => (match g.handler with
    | some hd => if e.sup then hd.saved else (g.split e.split).acc
    | none => (g.split e.split).acc).setWidth 64
  | .rgnpc => g.rgnpc
  | .pwr => g.pwr.setWidth 64
  | .lease => (leaseOf s.dev t).setWidth 64
  | .mpcount => BitVec.ofNat 64 g.mpcount
  | .fva => Tab.get 0 g.fva lane
  | .mapst => (Tab.get 0 g.mapst lane).setWidth 64
  | .pgwatch => 0
  | .tcause => g.tcause
  | .epc => g.epc
  | .tmask => boolW (g.tmask.getLsbD lane)
  | .taux => g.taux &&& ~~~(tauxReserved g.tcause)

def execSrd (h : Head) (ty : Ty) (r : Res) (n : SysReg) (s : State) : Host.Outcome State Fault Refusal :=
  letI := Prog.monad
  (instruction (.srd h ty r n) h (fun e =>
    if !e.active then retire e
    else do
      let _ ← operands e h.lits (Instr.shape (.srd h ty r n))
      let st ← Prog.get
      let g ← e.group
      let t ← e.getTeam
      let l ← getLaunch e.launch
      e.modGroup (fun g' => g'.putResults h.g ty r (e.lanes.map (fun k => (k, sysRegValue n st e t l g k))))
      retire e)).run s

/-- What `swr` writes: the value of the lowest visited thread. -/
def sysRegWrite (r : SysReg) (x : W64) (g : Group) : Group :=
  match r with
  | .frm => { g with frm := x.setWidth 2 }
  | .fstat => { g with fstat := x.setWidth 5 }
  | .dphase => { g with dphase := x.setWidth 32, issued := g.issued.map (fun p => { p with wrote := true }) }
  | .sigacc => { g with handler := g.handler.map (fun hd => { hd with saved := x.setWidth 32 }) }
  | .tcause => { g with tcause := (x &&& 0xFFFF#64) ||| (g.tcause &&& 0x30000#64) }
  | .epc => { g with epc := x }
  | .taux => { g with taux := x &&& ~~~(tauxReserved g.tcause) }
  | _ => g

/-- R192. What TY 0 leaves in bits [63:32] of a 64-bit register the spec does not say: DESIGN CHOICE, zeros (log entry 90). -/
def execSwr (h : Head) (ty : Ty) (a : Src) (n : SysReg) (s : State) : Host.Outcome State Fault Refusal :=
  letI := Prog.monad
  (instruction (.swr h ty a n) h (fun e =>
    if !e.active then retire e
    else do
      let rows ← operands e h.lits (Instr.shape (.swr h ty a n))
      let x := ((rows.head?.map (·.2)).getD []).getD 0 0
      e.modGroup (sysRegWrite n (if ty.is64 then x else x &&& 0xFFFFFFFF#64))
      retire e)).run s

/-- R252: a write of RGNPC opens a region or closes it. -/
def rgnpcWrite (n : Nat) (x : W64) (g : Group) : Group :=
  if x.getLsbD 0 then g.openRegion x (g.split n) 0 else { g with rgnpc := x &&& 0x01FFFFFFFFFFFFFC#64 }

def execSwrRgnpc (h : Head) (ty : Ty) (a : Src) (s : State) : Host.Outcome State Fault Refusal :=
  letI := Prog.monad
  (instruction (.swrRgnpc h ty a) h (fun e =>
    if !e.active then retire e
    else do
      let rows ← operands e h.lits (Instr.shape (.swrRgnpc h ty a))
      let x := ((rows.head?.map (·.2)).getD []).getD 0 0
      e.modGroup (rgnpcWrite e.split (if ty.is64 then x else x &&& 0xFFFFFFFF#64))
      retire e)).run s

/-- R139: PGWATCH. -/
def armWatches (e : Env) (rows : List (Nat × List W64)) : Prog Unit :=
  letI := Prog.monad
  do
    let s ← Prog.get
    let g ← e.group
    let part := s.dev.part (e.key / 16)
    let vals := rows.map (fun r => (r.1, (r.2.getD 0 0).toNat))
    let bad := vals.filter (fun v => v.2 % 8 != 0 || !(inHbm v.2 && part.owns v.2 8))
    if !bad.isEmpty then trap e .prot 0x18 (maskOf (bad.map (·.1)))
    else
      let missing := vals.filter (fun v => !pteV (s.mem.newestWord v.2))
      if 32 < g.watch.length + missing.length then trap e .prot 0x08 e.visited
      else do
        e.modGroup (fun g =>
          let watch := g.watch ++ missing.map (·.2)
          { g with watch, mpcount := watch.length })
        Prog.modDev (fun d => let x := d.slot e.key; d.setSlot e.key { x with mparm := x.mparm + BitVec.ofNat 64 missing.length })

def execSwrPgwatch (h : Head) (ty : Ty) (a : Src) (s : State) : Host.Outcome State Fault Refusal :=
  letI := Prog.monad
  (instruction (.swrPgwatch h ty a) h (fun e =>
    if !e.active then retire e
    else do
      let rows ← operands e h.lits (Instr.shape (.swrPgwatch h ty a))
      armWatches e (rows.map (fun r => (r.1, r.2.map (fun x => if ty.is64 then x else x &&& 0xFFFFFFFF#64))))
      retire e)).run s

end Sys2Proof.Machine
end

