-- ==== Sys2Proof/Machine/Transl.lean ====
section
/-! DEFINITION. The meanings of class 9 (R108 to R110, R136, R138, R141, R142, R170 to R173): page tables, translation
caches, cache maintenance and scratchpad windows. -/
namespace Sys2Proof.Machine

/-! ### The latest values (R138, R170: one indivisible step at the entry's home bank) -/

/-- The issuer name of writes of maintenance forms, apart from those of their splits. -/
def maintenance (split : Nat) : Nat := split + 8

/-! ### `pgmap` and `pgunmap` (R170, R171) -/

/-- The bytes that a leaf of a level maps. -/
def pageBytes (level : Nat) : Nat := 2 ^ levelShift level
/-- The bytes of the table that a non-leaf entry of a level names. -/
def nextTable (level : Nat) : Nat := if level ≤ 1 then 2048 else 65536

/-- What `pgmap` finds: a status, or the entry's address and the change of the frame map. -/
inductive MapStep where
  | status (x : Nat)
  | install (at_ : Nat) (frames : List Nat) (reserve : List (Nat × Nat))
  deriving DecidableEq, Repr

/-- R170, for one thread. -/
def pgmapOne (s : State) (key : SlotKey) (va b : W64) (c : W32) : MapStep :=
  let part := s.dev.part (key / 16)
  if !canonical va then .status 5
  else match (walkRoot s.mem.newestWord part (s.dev.slot key).ptroot va).end_ with
    | .leaf _ _ _ => .status 1
    | .bad | .range => .status 5
    | .invalid level _ at_ =>
      if !pteV b || pteBad level b then .status 2
      else
        let a := pteAddr b
        if !(inHbm a && part.owns a (if pteLeaf b then pageBytes level else nextTable level)) then .status 5
        else if !pteLeaf b then (if c = 0 then .install at_ [] [] else .status 3)
        else if c = 0 then .install at_ [] []
        else if !legalPlacement c then .status 3
        else
          let frames := List.range' (a / 65536) (pageBytes level / 65536)
          if frames.all (fun f => s.mem.frameWord f == c) then .install at_ [] []
          else match s.mem.rereserve frames (fun f => some (s.mem.frameWord f)) (fun _ => some c) with
            | none => .status 4
            | some r => .install at_ (frames.filter (fun f => s.mem.frameWord f != c)) r

/-- The status of a thread's `pgmap` or `pgunmap`. -/
def setMapst (e : Env) (lane x : Nat) : Prog Unit :=
  e.modGroup (fun g => { g with mapst := (e.threads lane).foldl (fun m t => Tab.set 0 m t (BitVec.ofNat 8 x)) g.mapst })

/-- A re-stripe that is moving a frame which gets another word: that word stands in the place of its old one. -/
def Moving.reword (v : Moving) (f : Nat) (c : W32) : Moving :=
  if v.pa ≤ 65536 * f && 65536 * f < v.pa + v.bytes then { v with old := setNth v.old (f - v.pa / 65536) c } else v

/-- Writes of the frame map; the frames' contents are undefined afterwards (R136). For a frame that an `rstr` is moving the
spec gives no outcome: DESIGN CHOICE, the new word takes the place of the old one, above the cursor and in the reservations,
and the re-stripe goes on to its own word (log entry 103). -/
def replaceFrames (frames : List Nat) (c : W32) (reserve : List (Nat × Nat)) : Prog Unit :=
  letI := Prog.monad
  do
    Prog.each reserve (fun r => Prog.act (.mem (.reserve r.1 r.2)))
    let s ← Prog.get
    Prog.when (!s.mem.moving.isEmpty) (Prog.act (.mem (.moving (s.mem.moving.map (fun v => frames.foldl (fun v f => v.reword f c) v)))))
    Prog.each frames (fun f => do
      let s ← Prog.get
      Prog.act (.mem (.frame f c))
      Prog.act (.mem (.scramble (65536 * f) (65536 * (f + 1)) s.undefs))
      Prog.act .undef)

/-- The split waits until the form's own writes are applied everywhere. -/
def retireSync (e : Env) (before : Nat) (lo : W64) (len : Nat) : Prog Unit := retireWaiting e (.sync before lo len)

def execPgmap (h : Head) (a b c : Src) (s : State) : Host.Outcome State Fault Refusal :=
  let i : Instr := .pgmap h a b c
  letI := Prog.monad
  (instruction i h (fun e =>
    if !e.active then retire e
    else do
      let rows ← operands e h.lits (Instr.shape i)
      e.modGroup Group.closeRegion
      Prog.each rows (fun r => do
        let s ← Prog.get
        let pw : W32 := (r.2.getD 2 0).setWidth 32
        match pgmapOne s e.key (r.2.getD 0 0) (r.2.getD 1 0) pw with
        | .status x => setMapst e r.1 x
        | .install at_ frames res => do
          Prog.when (!frames.isEmpty) (replaceFrames frames pw res)
          commitCells e.die (cellsAt at_ 8 (r.2.getD 1 0)) e.team e.gidx (maintenance e.split)
          setMapst e r.1 0)
      retireSync e 0 0 0)).run s

/-! ### Translation caches (R142) -/

/-- The 64-bit virtual address of a cached entry's range. -/
def Tlb.base (c : Tlb) : Nat :=
  let lo := c.prefix_ * 2 ^ levelShift c.level
  if lo < 2 ^ 56 then lo else lo + 2 ^ 64 - 2 ^ 57
/-- A cached entry's range meets `len` bytes from `lo` (0: the whole space), modulo 2^64. -/
def Tlb.meets (c : Tlb) (lo : W64) (len : Nat) : Bool :=
  let size := 2 ^ levelShift c.level
  len = 0 || (c.base < lo.toNat + len && lo.toNat < c.base + size) || c.base + 2 ^ 64 < lo.toNat + len

/-- R142: the entries of a slot's address space in a range leave every translation cache. -/
def Dev.dropTlb (d : Dev) (key : SlotKey) (lo : W64) (len : Nat) : Dev :=
  { d with tlb := d.tlb.filter (fun c => !(c.slot == key && c.meets lo len)) }

/-- R171, for one thread: the status, and the entry's address and the page's base where it is done. An A without a valid
leaf answers 0x06 whatever B is: R171 gives no order between 0x06 and 0x02 (DESIGN CHOICE, log entry 86). -/
def pgunmapOne (s : State) (key : SlotKey) (va b : W64) : Nat × Option (Nat × W64 × Nat) :=
  if !canonical va then (5, none)
  else match (walkRoot s.mem.newestWord (s.dev.part (key / 16)) (s.dev.slot key).ptroot va).end_ with
    | .bad | .range => (5, none)
    | .invalid _ _ _ => (6, none)
    | .leaf level _ at_ =>
      if pteV b then (2, none)
      else (0, some (at_, va &&& ~~~(BitVec.ofNat 64 (pageBytes level - 1)), pageBytes level))

def execPgunmap (h : Head) (a b : Src) (s : State) : Host.Outcome State Fault Refusal :=
  let i : Instr := .pgunmap h a b
  letI := Prog.monad
  (instruction i h (fun e =>
    if !e.active then retire e
    else do
      let rows ← operands e h.lits (Instr.shape i)
      e.modGroup Group.closeRegion
      Prog.each rows (fun r => do
        let s ← Prog.get
        let x := pgunmapOne s e.key (r.2.getD 0 0) (r.2.getD 1 0)
        (match x.2 with
          | none => pure ()
          | some (at_, base, n) => do
            commitCells e.die (cellsAt at_ 8 (r.2.getD 1 0)) e.team e.gidx (maintenance e.split)
            Prog.modDev (fun d => d.dropTlb e.key base n))
        setMapst e r.1 x.1)
      retireSync e 0 0 0)).run s

/-! ### Windows (R109, R110, R173) -/

def Team.core0 (t : Team) : Nat :=
  match t.place with
  | .core n => n
  | .pair n => 2 * n

/-- The cores of a team. -/
def Team.cores (t : Team) : List Nat :=
  match t.place with
  | .core n => [n]
  | .pair n => [2 * n, 2 * n + 1]

/-- The entry of a map unit's cache that decides most of the walk for an address: the one of the lowest level. -/
def deepest (l : List Tlb) : Option Tlb :=
  l.foldl (fun best c => match best with
    | none => some c
    | some b => if c.level < b.level then some c else some b) none

/-- The walk that the cache of a map unit of the team's cores still gives for an address, or else the walk from the root
(R110). -/
def oldWalk (s : State) (core : Nat) (cores : List Nat) (key : SlotKey) (va : W64) : Except (Cause × Nat) (Nat × Bool) :=
  if !canonical va then .error (.prot, 5)
  else
    let mine := s.dev.tlb.filter (fun c => (cores.map mapUnit).contains c.agent && c.slot == key && c.prefix_ == levelPrefix c.level va)
    walkCheck (s.dev.part (key / 16)) false .write va (match deepest mine with
      | some c => walkCached (fun a => s.mem.word (dieOf core) a 8) (s.dev.part (key / 16)) va c
      | none => rootWalk s (dieOf core) key va)

/-- R109: a window's dirty words are written back and clean. A word that no longer translates is dropped. `old` keeps to
cached translations (R110). -/
def writeBackWindow (u : Nat) (key : SlotKey) (k : Nat) (old : Bool) : Prog Unit :=
  letI := Prog.monad
  do
    let t ← getTeam u
    let w := t.windows.getD k {}
    let core := t.core0
    Prog.each w.dirty (fun j => do
      let t ← getTeam u
      let va := w.vbase + BitVec.ofNat 64 (4 * j)
      let s ← Prog.get
      let r ← (if old then pure (oldWalk s core t.cores key va) else translate (mapUnit core) (dieOf core) key false .write va)
      match r with
      | .ok (pa, _) => do
        let x ← settleBytes (t.localBytes (w.lbase + 4 * j) 4)
        Prog.when (!inPeer pa) (do
          touchHome key pa true
          commitStore (dieOf core) pa (bytesOf 4 x.toNat))
      | .error _ => pure ())
    modTeam u (fun t => t.setWindow k { t.windows.getD k {} with dirty := [] })

/-- The windows of a team that are set, by number. -/
def Team.setWindows (t : Team) : List (Nat × Window) :=
  ((List.range t.windows.length).zip t.windows).filter (fun p => p.2.mode != 0)

def writeBackAll (u : Nat) (key : SlotKey) : Prog Unit :=
  letI := Prog.monad
  do
    let t ← getTeam u
    Prog.each t.setWindows (fun p => writeBackWindow u key p.1 false)

/-- A window's global range meets a virtual range, modulo 2^64; nothing meets an empty one. -/
def Window.meets (w : Window) (lo : W64) (len : Nat) : Bool :=
  w.mode != 0 && 0 < len && ((w.vbase.toNat < lo.toNat + len && lo.toNat < w.vbase.toNat + w.len) || w.vbase.toNat + 2 ^ 64 < lo.toNat + len)

/-- The windows of a slot's resident teams whose global range meets a range. -/
def windowsIn (s : State) (key : SlotKey) (lo : W64) (len : Nat) (whole : Bool) : List (Nat × Nat) :=
  (s.teams.filter (fun t => ((s.launch? t.launch).map (fun l => l.cmd.slot)) == some key)).flatMap (fun t =>
    (t.setWindows.filter (fun p => whole || p.2.meets lo len)).map (fun p => (t.uid, p.1)))

/-- R108: a new entry of window k is legal. -/
def windowOk (t : Team) (localSize k : Nat) (vbase : W64) (lbase len : Nat) : Bool :=
  lbase % 4096 == 0 && len != 0 && len % 4096 == 0 && lbase + len ≤ localSize && vbase.toNat % 4096 == 0 && canonical vbase
    && t.setWindows.all (fun p => p.1 == k || lbase + len ≤ p.2.lbase || p.2.lbase + p.2.len ≤ lbase)

/-- R173: accesses of a split to the scratchpad that are still to be performed, under the entry as it stands. -/
def Group.localPending (g : Group) (split : Nat) : Bool :=
  g.stream.any (fun o => o.split == split && o.accs.any (fun a => !a.glob && a.waiting))

def execScwin (h : Head) (a b : Src) (win mode : BitVec 2) (s : State) : Host.Outcome State Fault Refusal :=
  let i : Instr := .scwin h a b win mode
  letI := Prog.monad
  (instruction i h (fun e =>
    if !e.active then retire e
    else do
      let rows ← operands e h.lits (Instr.shape i)
      let g ← e.group
      Prog.when (g.localPending e.split) (notYet e .none)
      e.modGroup Group.closeRegion
      let xs := (rows.head?.map (·.2)).getD []
      let k := win.toNat
      writeBackWindow e.team e.key k false
      modTeam e.team (fun t => t.setWindow k {})
      let t ← e.getTeam
      let l ← getLaunch e.launch
      let vbase := xs.getD 0 0
      let lbase := fld (xs.getD 1 0) 0 32
      let len := fld (xs.getD 1 0) 32 32
      if mode = 0 then retire e
      else if windowOk t l.desc.localSize k vbase lbase len then do
        modTeam e.team (fun t => t.setWindow k { lbase, len, vbase, mode := mode.toNat })
        retire e
      else trap e .prot 0x0D e.visited)).run s

/-! ### `tlbinv`, `clean`, `invl` (R141, R142, R172) -/

/-- R172: the ranges of the visited threads. -/
def rangesOf (h : Head) (a b : Src) (rows : Rows) : List (W64 × Nat) :=
  (effAddrs h a b rows).map (fun x => (x.2 &&& ~~~0xFFFF#64, (rowAt rows 2 x.1).toNat))

def roundUp (len : Nat) : Nat := (len + 65535) / 65536 * 65536

def execTlbinv (h : Head) (d : BitVec 8) (a b : Src) (s : State) : Host.Outcome State Fault Refusal :=
  let i : Instr := .tlbinv h d a b
  letI := Prog.monad
  (instruction i h (fun e =>
    if !e.active then retire e
    else do
      let rows ← operands e h.lits (Instr.shape i)
      e.modGroup Group.closeRegion
      Prog.each (rangesOf h a b rows) (fun r => Prog.modDev (fun d => d.dropTlb e.key r.1 (roundUp r.2)))
      retire e)).run s

/-- R110: windows in the range are written back through the old translation, then filled again at need. -/
def syncWindows (e : Env) (lo : W64) (len : Nat) : Prog Unit :=
  letI := Prog.monad
  do
    let s ← Prog.get
    Prog.each (windowsIn s e.key lo len (len == 0)) (fun p => do
      writeBackWindow p.1 e.key p.2 true
      modTeam p.1 (fun t => t.setWindow p.2 { t.windows.getD p.2 {} with valid := [] }))

/-- The range that holds every one of some ranges; the whole space where one of them is it. -/
def hullRange (l : List (W64 × Nat)) : W64 × Nat :=
  if l.any (fun r => r.2 == 0 || 2 ^ 64 < r.1.toNat + r.2) then (0, 0)
  else
    let lo := l.foldl (fun m r => min m r.1.toNat) (2 ^ 64)
    let hi := l.foldl (fun m r => max m (r.1.toNat + r.2)) 0
    (BitVec.ofNat 64 lo, hi - lo)

/-- R141. With several threads' ranges the wait covers their hull. -/
def execTlbinvSync (h : Head) (d : BitVec 8) (a b : Src) (s : State) : Host.Outcome State Fault Refusal :=
  let i : Instr := .tlbinvSync h d a b
  letI := Prog.monad
  (instruction i h (fun e =>
    if !e.active then retire e
    else do
      let rows ← operands e h.lits (Instr.shape i)
      e.modGroup Group.closeRegion
      let ranges := (rangesOf h a b rows).map (fun r => (r.1, roundUp r.2))
      Prog.each ranges (fun r => do
        syncWindows e r.1 r.2
        Prog.modDev (fun d => d.dropTlb e.key r.1 r.2))
      let now ← Prog.look (·.nextUid)
      let r := hullRange ranges
      retireSync e now r.1 r.2)).run s

/-- A physical byte lies in a virtual range, as the slot's tables stand. -/
def rangeHolds (s : State) (key : SlotKey) (lo : W64) (len pa : Nat) : Bool :=
  (List.range ((len + 65535) / 65536)).any (fun i =>
    match translateFresh s key true .none (lo + BitVec.ofNat 64 (65536 * i)) with
    | .ok (p, _) => p ≤ pa && pa < p + min 65536 (len - 65536 * i)
    | .error _ => false)

/-- R172: dirty sectors of a range are clean; no value depends on it. -/
def Dev.cleanRange (d : Dev) (holds : Nat → Bool) : Dev := d.cleanSectors (fun i => holds (32 * i))

def execClean (h : Head) (d : BitVec 8) (a b : Src) (s : State) : Host.Outcome State Fault Refusal :=
  let i : Instr := .clean h d a b
  letI := Prog.monad
  (instruction i h (fun e =>
    if !e.active then retire e
    else do
      let rows ← operands e h.lits (Instr.shape i)
      e.modGroup Group.closeRegion
      Prog.each (rangesOf h a b rows) (fun r => do
        let s ← Prog.get
        Prog.each (windowsIn s e.key r.1 r.2 false) (fun p => writeBackWindow p.1 e.key p.2 false)
        let s ← Prog.get
        Prog.modDev (fun d => d.cleanRange (rangeHolds s e.key r.1 r.2)))
      retire e)).run s

/-- R110: a window is dropped without write-back; the local contents of its filled blocks are undefined. -/
def dropWindow (u k : Nat) : Prog Unit :=
  modTeam u (fun t =>
    let w := t.windows.getD k {}
    let cells := w.valid.flatMap (fun b => (List.range' (w.lbase + 512 * b) 512).map (fun a => (a, none)))
    (t.setLocal cells).setWindow k { w with valid := [], dirty := [] })

/-- R172, R115: copies of a range leave every cache; words of code and constants in it are current again. -/
def Dev.invalidateRange (d : Dev) (key : SlotKey) (lo : W64) (len : Nat) (holds : Nat → Bool) : Dev :=
  { (d.cleanRange holds).dropSectors (fun i => holds (32 * i)) with
    code := d.code.filter (fun c => !(c.slot == key && 128 * c.line < lo.toNat + len && lo.toNat < 128 * c.line + 128))
    launches := d.launches.map (fun l =>
      if l.part == key / 16 then { l with stale := l.stale.filter (fun w => !holds (4 * w)) } else l) }

def execInvl (h : Head) (d : BitVec 8) (a b : Src) (s : State) : Host.Outcome State Fault Refusal :=
  let i : Instr := .invl h d a b
  letI := Prog.monad
  (instruction i h (fun e =>
    if !e.active then retire e
    else do
      let rows ← operands e h.lits (Instr.shape i)
      e.modGroup Group.closeRegion
      Prog.each (rangesOf h a b rows) (fun r => do
        let s ← Prog.get
        Prog.each (windowsIn s e.key r.1 r.2 false) (fun p => dropWindow p.1 p.2)
        let s ← Prog.get
        Prog.modDev (fun d => d.invalidateRange e.key r.1 r.2 (rangeHolds s e.key r.1 r.2)))
      retire e)).run s

end Sys2Proof.Machine
end

