-- ==== Sys2Proof/Machine/Engine.lean ====
section
/-! DEFINITION. The meanings of classes 10 and 11 (R282 to R301): engine commands are checked and placed, futures read,
graph records appended, launches queued. The events of EngineRun carry the commands out. -/
namespace Sys2Proof.Machine

def natW (n : Nat) : W64 := BitVec.ofNat 64 n

/-! ### Checks (R282) -/

/-- How an operand check of an engine form fails: cause, detail, and the address for FVA. -/
abbrev Checked (α : Type) := Except (Cause × Nat × Option W64) α

def need (ok : Bool) (c : Cause) (d : Nat) : Checked Unit := if ok then .ok () else .error (c, d, none)
/-- R255: the same of an address, which FVA then names. -/
def needAt (ok : Bool) (c : Cause) (d : Nat) (va : W64) : Checked Unit := if ok then .ok () else .error (c, d, some va)

def engineTrap {α : Type} (e : Env) (x : Cause × Nat × Option W64) : Prog α :=
  trap e x.1 x.2.1 e.visited 0 (match x.2.2 with
    | some va => (lanesOf e.w e.visited).map (fun t => (t, va))
    | none => [])

def demand {α : Type} (e : Env) (x : Checked α) : Prog α :=
  match x with
  | .ok a => .pure a
  | .error f => engineTrap e f

/-- An address of an engine operand translated at issue (R284, R300). -/
def demandPa (e : Env) (need : Need) (va : W64) : Prog Nat :=
  letI := Prog.monad
  do
    let r ← translate e.core e.die e.key e.sup need va
    match r with
    | .ok (pa, _) => pure pa
    | .error (c, d) => engineTrap e (c, d, some va)

/-- The words of 8 bytes at an address that an instruction reads at issue, as relaxed loads at `.dev` of its split (R316,
R325): each from the split's own store that is still in its buffer, else from the die's view; the instruction waits while
one of them is not to be seen yet. -/
def ownWords (e : Env) (va : W64) (pa n : Nat) : Prog (List W64) :=
  letI := Prog.monad
  do
    let s ← Prog.get
    let g ← e.group
    let t ← e.getTeam
    let fs := g.stream.filter (fun o => o.split == e.split)
    let accs : List Access := (List.range n).map (fun k =>
      { lane := lowestLane e.w e.visited, va := va + BitVec.ofNat 64 (8 * k), glob := true, loc := pa + 8 * k, size := 8 })
    let read := accs.filter (fun a => loadFrom s t g fs a == .view)
    Prog.when (accs.any (fun a => loadFrom s t g fs a == .blocked) || read.any (fun a => earlyHeld s e.team g e.split .dev a .rlx)) (notYet e .none)
    Prog.when (!s.dev.early.isEmpty) (Prog.each read (fun a => .read (fun s =>
      Prog.modDev (fun d => { d with early := noteSeen s e.team g e.split .dev a .rlx }))))
    let bad ← Prog.collect read (fun a => consume e.key a.loc 8)
    if bad.any id then
      consumed e 3 (poisonSource pa) (BitVec.ofNat 64 pa) .poison 0 e.visited 0 ((lanesOf e.w e.visited).map (fun t => (t, va)))
    else do
      e.modGroup (fun g => g.passCasOf (fs.map (·.id)))
      let s ← Prog.get
      let writing (a : Access) : Bool := t.guarded.any (fun x => x.live && x.space == .global && x.write && x.meets a.va.toNat 8)
      Prog.collect accs (fun a => match loadFrom s t g fs a with
        | .store x => pure x
        -- R184, R294: what an engine command is writing is undefined to its team
        | _ => if writing a then Prog.undef else pure (s.mem.word e.die a.loc 8))

/-- The operands of the lowest thread that the form is performed for. -/
def firstRow (rows : Rows) : List W64 := (rows.head?.map (·.2)).getD []

/-! ### Tile-task records (R289 to R298) -/

/-- The fields of a record. `op` is 0 matrix product, 1 `scacc`, 2 `bqnt`, 3 `bunp`, 4 `accz`. -/
structure TileRec where
  op : Nat
  ty : Ty
  m : Nat
  defer : Bool
  a : W64
  b : W64
  deriving DecidableEq, Repr

def TileRec.word0 (r : TileRec) : W64 :=
  BitVec.ofNat 64 (r.op + 16 * (Ty.code r.ty).toNat + 256 * r.m + (if r.defer then 4096 else 0))

/-- R289: a header that is well formed. -/
def TileRec.ofWord0 (w a b : W64) : Option TileRec :=
  let op := fld w 0 4
  let code := fld w 4 4
  let m := fld w 8 4
  let ty := Ty.ofCode (BitVec.ofNat 4 code)
  let tyOk := match op with
    | 0 => code = 4 || code = 5 || code = 6 || code = 7 || code = 12
    | 4 => code = 0 || code = 4 || code = 5 || code = 12
    | _ => code = 12
  let mOk := if code = 12 then decide (2 ≤ m && m ≤ 8) else m == 0
  if op ≤ 4 && tyOk && mOk && (op = 0 || !w.getLsbD 12) && fld w 13 51 = 0 then some ⟨op, ty, m, w.getLsbD 12, a, b⟩ else none

/-- A range of local or accumulator memory that a record reads or writes. -/
structure Span where
  space : Space
  lo : Nat
  len : Nat
  write : Bool
  deriving DecidableEq, Repr

/-- M = N, K and the element bytes of an ordinary product. -/
def tileDims (ty : Ty) : Nat × Nat × Nat :=
  match ty with
  | .f64 => (32, 16, 8)
  | .f32 => (32, 32, 4)
  | .bfp => (64, 64, 0)
  | _ => (64, 32, 2)

/-- Bytes of the accumulator tile of a product. -/
def productBytes (ty : Ty) : Nat :=
  match ty with
  | .f64 => 8192
  | .f32 => 4096
  | .bfp => 32768
  | _ => 16384

/-- Bytes of an A tile or of B in scratchpad. -/
def operandBytes (r : TileRec) : Nat := if r.ty = .bfp then 128 * (4 * r.m + 1) else 4096

/-- R298: the tile of `accz`. -/
def zeroTile (ty : Ty) : Nat :=
  match ty with
  | .f32 => 4096
  | .f64 => 8192
  | _ => 16384


/-- The fields of the B operand (R291). -/
def bSrc (b : W64) : Bool := b.getLsbD 0
def bDir (b : W64) : Bool := b.getLsbD 1
def bStr (b : W64) : Nat := fld b 2 1
def bReg (b : W64) : Nat := fld b 8 8
def bGroup (b : W64) : Nat := fld b 16 7
def bSe (b : W64) : Nat := fld b 24 6
def bLoc (b : W64) : Nat := fld b 32 20
def bStrip (b : W64) : Nat := fld b 52 11 * 128

/-- The ranges that a record names, in the order in which they are checked. -/
def TileRec.spans (r : TileRec) : List Span :=
  match r.op with
  | 0 =>
    [⟨.scratch, hi32 r.a, operandBytes r, false⟩] ++ (if bSrc r.b then [⟨.scratch, bLoc r.b, operandBytes r, false⟩] else [])
      ++ [⟨.acc, lo32 r.a, productBytes r.ty, true⟩] ++ (if r.ty = .bfp then [⟨.acc, bStrip r.b, 256, true⟩] else [])
  | 1 => [⟨.acc, lo32 r.a, 16384 * fld r.b 32 4, false⟩, ⟨.acc, lo32 r.b, 128 * fld r.b 32 4, false⟩, ⟨.acc, hi32 r.a, 16384, true⟩]
  | 2 => [⟨.scratch, lo32 r.a, 16384, false⟩, ⟨.scratch, lo32 r.b, 128 * (4 * r.m + 1), true⟩]
  | 3 => [⟨.scratch, lo32 r.a, 128 * (4 * r.m + 1), false⟩, ⟨.acc, lo32 r.b, 16384, true⟩]
  | _ => [⟨.acc, lo32 r.a, lo32 r.b * zeroTile r.ty, true⟩]

/-- Registers of one quarter of B on the register path (R291). -/
def quarterRegs (r : TileRec) (w : Nat) : Nat := ((if r.ty = .bfp then 128 * r.m else 1024) + 4 * w - 1) / (4 * w)

/-- The vector registers that B names, with their groups. -/
def TileRec.vectors (r : TileRec) (w : Nat) : List (Nat × Nat) :=
  if r.op ≠ 0 || bSrc r.b then []
  else (List.range 4).flatMap (fun q => (List.range (quarterRegs r w)).map (fun i =>
    (bGroup r.b + q * bStr r.b, bReg r.b + (1 - bStr r.b) * q * quarterRegs r w + i)))

/-- The s registers that hold the exponents of B. -/
def TileRec.scalars (r : TileRec) : List (Nat × Nat) :=
  if r.op ≠ 0 || bSrc r.b || r.ty ≠ .bfp then []
  else (List.range 4).flatMap (fun q => (List.range 4).map (fun i =>
    (bGroup r.b + q * bStr r.b, bSe r.b + 4 * q * (1 - bStr r.b) + i)))

/-- R291: the register path at issue. BG is bounded on either path. A register of another group may not be bound. -/
def TileRec.regsOk (r : TileRec) (d : Desc) (t : Team) (gi : Nat) : Bool :=
  bGroup r.b + 3 * bStr r.b < d.threads / d.width
    && (r.vectors d.width).all (fun x => x.2 < d.regs && (x.1 == gi || !(t.groups.any (fun g => g.gidx == x.1 && g.bound x.2))))
    && r.scalars.all (fun x => x.2 < 63)

/-- The PROT 0x11 checks, the alignments and the ranges of a record (R290 to R298). -/
def TileRec.check (r : TileRec) (d : Desc) (t : Team) (gi : Nat) : Checked Unit := do
  match r.op with
  | 0 => do
    need (r.b &&& 0x80000000C08000F8#64 == 0 && !(r.ty == .bfp && bDir r.b) && (r.ty == .bfp || bStrip r.b == 0)
      && r.regsOk d t gi) .prot 17
    need (hi32 r.a % 128 == 0 && (!bSrc r.b || bLoc r.b % 4 == 0) && lo32 r.a % min 16384 (productBytes r.ty) == 0) .align 0
  | 1 => do
    need (fld r.b 36 28 == 0 && 1 ≤ fld r.b 32 4) .prot 17
    need (lo32 r.a % 16384 == 0 && hi32 r.a % 16384 == 0 && lo32 r.b % 128 == 0) .align 0
  | 2 => do
    need (fld r.a 33 31 == 0 && hi32 r.b == 0) .prot 17
    need (lo32 r.a % 4 == 0) .align 0
  | 3 => do
    need (hi32 r.a == 0 && hi32 r.b == 0) .prot 17
    need (lo32 r.b % 4 == 0) .align 0
  | _ => do
    need (hi32 r.a == 0 && hi32 r.b == 0 && 1 ≤ lo32 r.b && lo32 r.b ≤ 16) .prot 17
    need (lo32 r.a % zeroTile r.ty == 0) .align 0
  need (r.spans.all (fun s => s.lo + s.len ≤ (if s.space = .scratch then d.localSize else d.accSize))) .prot 10

/-! ### Reading B from registers (R291, R294) -/

def Team.group? (t : Team) (gi : Nat) : Option Group := t.groups.find? (fun g => g.gidx == gi)

/-- R294: of each register that a record names, its group, its number and how often it has been written under EPIN. -/
def TileRec.pinCounts (r : TileRec) (t : Team) (w : Nat) : List (Nat × Nat × Nat) :=
  (r.vectors w).map (fun x => (x.1, x.2, ((t.group? x.1).map (fun g => Tab.get 0 g.epinBad x.2)).getD 0))

/-- Byte o of quarter q; a value that nothing defined is undefined. For an `mxfnc`, `pins` holds the counts at its issue: a
register written since is undefined (R294). -/
def TileRec.quarterByte (r : TileRec) (t : Team) (pins : Option (List (Nat × Nat × Nat))) (w q o : Nat) : Option Byte :=
  let gi := bGroup r.b + q * bStr r.b
  let reg := bReg r.b + (1 - bStr r.b) * q * quarterRegs r w + o / (4 * w)
  match t.group? gi with
  | none => none
  | some g =>
    if (match pins with
        | some l => !l.contains (gi, reg, Tab.get 0 g.epinBad reg)
        | none => false) || g.badV.contains (laneKey reg (o % (4 * w) / 4)) then none
    else (g.vreg reg (o % (4 * w) / 4)).map (fun x => x.extractLsb' (8 * (o % 4)) 8)

def Team.width (t : Team) : Nat := (t.groups.head?.map (·.width)).getD 16

/-- R331: named registers with an uncorrectable word. -/
def TileRec.badVectors (r : TileRec) (t : Team) : List Nat :=
  ((r.vectors t.width).filter (fun x => match t.group? x.1 with
    | some g => (List.range t.width).any (fun l => g.badV.contains (laneKey x.2 l))
    | none => false)).map (·.2)

/-- Exponent byte j of quarter q. -/
def TileRec.quarterExp (r : TileRec) (t : Team) (q j : Nat) : Option Byte :=
  let gi := bGroup r.b + q * bStr r.b
  (t.group? gi).map (fun g => (g.sreg (bSe r.b + 4 * q * (1 - bStr r.b) + j / 8)).extractLsb' (8 * (j % 8)) 8)

/-- The B operand read from registers, in the layout of the scratchpad path. -/
def TileRec.readRegs (r : TileRec) (t : Team) (pins : Option (List (Nat × Nat × Nat))) (w : Nat) : List (Option Byte) :=
  if r.ty = .bfp then
    (List.range 64).flatMap (fun c => (List.range 2).flatMap (fun j =>
      (List.range (4 * r.m)).map (fun i => r.quarterByte t pins w (c / 16) ((c % 16 * 2 + j) * 4 * r.m + i))
        ++ [r.quarterExp t (c / 16) (c % 16 + 16 * j)]))
  else (List.range 4).flatMap (fun q => (List.range 1024).map (fun o => r.quarterByte t pins w q o))

/-! ### Placing a command (R193, R276, R281, R282, R284, R294) -/

def copyDepth : Nat := 32
def tileDepth : Nat := 64

/-- The queue has room; else the form does not start (R276, R282). -/
def awaitQueue (e : Env) (q : QueueName) (full : Bool) : Prog Unit := if full then notYet e (.queue q) else .pure ()

/-- R276: an instruction uses its core's engine port in this cycle. -/
def Dev.usePort (d : Dev) (core : Nat) : Dev := let x := d.core core; d.setCore core { x with port := x.cycle.toNat + 1 }
def usePort (core : Nat) : Prog Unit := Prog.modDev (fun d => d.usePort core)

def Dev.copyFull (d : Dev) (core : Nat) : Bool := copyDepth ≤ (Tab.get [] d.copyQ core).length
def Dev.tileFull (d : Dev) (core : Nat) : Bool := tileDepth ≤ (d.pair (pairOf core)).queue.length

/-- A command of the running form. It joins its queue behind what the split's earlier operations owe a release at `.dev`
(R184). -/
def Env.cmd (e : Env) (s : State) (kind : CmdKind) (id : Nat) : Cmd :=
  let g := s.group? e.team e.gidx
  { id, kind, part := e.key / 16, slot := e.key, team := e.team, gidx := e.gidx, core := e.core, pair := pairOf e.core
    launch := e.launch, sup := e.sup, frm := (g.map Group.frmNow).getD 0, dphase := (g.map Group.phaseNow).getD 0
    after := (g.map (fun g => joinWaits s g e.split)).getD [] }

/-- A handle completes: the splits that wait for it go on (R281). -/
def Group.finishHandle (g : Group) (n : Nat) (v : W64) : Group :=
  (g.setHandle n (.complete v)).wake (fun x =>
    if x.wait == .handle n || x.wait == .fwait n || x.wait == .yld n then { x with wait := .none } else x)

/-- R193: the handle is pending, or complete at once. No register observes an earlier command any more. -/
def pendHandle (e : Env) (hn : Nat) (x : Handle) : Prog Unit :=
  letI := Prog.monad
  do
    modTeam e.team (fun t => { t with guarded := t.guarded.map (fun g =>
      if g.holder == some (e.gidx, hn) then { g with holder := none } else g) })
    e.modGroup (fun g => match x with
      | .complete v => g.finishHandle hn v
      | x => g.setHandle hn x)

/-- The ranges that the team must not touch (R294); `after` are the operations that come before the command. -/
def guardSpans (e : Env) (id : Nat) (spans : List Span) (holder waits : Option (Nat × Nat)) (tile : Bool) (after : List Nat) : Prog Unit :=
  modTeam e.team (fun t => { t with guarded := t.guarded ++ spans.map (fun x =>
    { cmd := id, space := x.space, high := x.space == .acc && e.high t, lo := x.lo, len := x.len, write := x.write, holder, waits, tile, after }) })

/-- R276: the queues with one more command. -/
def Dev.queued (d : Dev) (c : Cmd) (tile : Bool) : Dev :=
  let d := { d with cmds := d.cmds ++ [c] }
  if tile then
    let p := d.pair c.pair
    let x := d.core c.core
    (d.setPair c.pair { p with queue := p.queue ++ [c.id] }).setCore c.core { x with tport := x.cycle.toNat + 1 }
  else { d with copyQ := Tab.set [] d.copyQ c.core (Tab.get [] d.copyQ c.core ++ [c.id]) }

/-- A record that EPIN registers belong to. -/
def Dev.pinned (d : Dev) (id : Nat) (pins : List (Nat × Nat × Nat)) : Dev :=
  match d.cmd? id with
  | some c => d.setCmd { c with pins }
  | none => d

/-- Adds a command to its queue. -/
def addCmd (tile : Bool) (c : Cmd) : Prog Unit := Prog.modDev (fun d => d.queued c tile)

/-- Places a command; the region closes (R253). -/
def placeCmd (e : Env) (tile : Bool) (hn : Option Nat) (kind : CmdKind) (spans : List Span) (waits : Bool := false) : Prog Nat :=
  letI := Prog.monad
  do
    let s ← Prog.get
    let id ← Prog.fresh
    e.modGroup Group.closeRegion
    match hn with
    | some n => pendHandle e n (.pending id)
    | none => pure ()
    usePort e.core
    addCmd tile (e.cmd s kind id)
    guardSpans e id spans (hn.map (fun n => (e.gidx, n))) (if waits then some (e.gidx, e.split) else none) tile (e.cmd s kind id).after
    pure id

/-! ### `cpy` and `rstr` (R284 to R286) -/

/-- R17, R282: the partition's share of the port of a peer window. -/
def Dev.share (d : Dev) (part pa : Nat) : Nat := (d.part part).shares.getD (peerPort pa) 0

/-- The first byte of a range of `cpy`. -/
def checkCopyEnd (e : Env) (konst : Nat) (need_ : Need) (loc : Bool) (a : W64) (len : Nat) : Prog Unit :=
  letI := Prog.monad
  if len = 0 then .pure ()
  else if loc then (if konst < a.toNat + len then engineTrap e (.prot, 10, none) else .pure ())
  else do
    let pa ← demandPa e need_ a
    let s ← Prog.get
    if inPeer pa && s.dev.share (e.key / 16) pa = 0 then engineTrap e (.prot, 18, none) else pure ()

/-- A command that is complete as soon as it has passed the engine port (R282, R284, R286). -/
def doneAtOnce (e : Env) (hn : Nat) (result : W64) : Prog Unit :=
  letI := Prog.monad
  do
    e.modGroup Group.closeRegion
    usePort e.core
    pendHandle e hn (.complete result)
    retire e

def execCpy (h : Head) (d : BitVec 4) (a b c : Src) (s : State) : Host.Outcome State Fault Refusal :=
  let i : Instr := .cpy h d a b c
  letI := Prog.monad
  (instruction i h (fun e =>
    if !e.active then retire e
    else do
      let rows ← operands e h.lits (Instr.shape i)
      let xs := firstRow rows
      let dst := xs.getD 0 0
      let src := xs.getD 1 0
      let ctl := xs.getD 2 0
      let len := fld ctl 0 28
      let dl := ctl.getLsbD 28
      let sl := ctl.getLsbD 29
      let _ ← demand e (do
        need (fld ctl 30 2 == 0) .prot 17
        needAt (dst.toNat % 4 == 0) .align 0 dst
        needAt (src.toNat % 4 == 0) .align 0 src
        need (len % 4 == 0) .align 0)
      let l ← getLaunch e.launch
      checkCopyEnd e l.desc.localSize .write dl dst len
      checkCopyEnd e l.desc.localSize .read sl src len
      let s ← Prog.get
      awaitQueue e (.copy e.core) (s.dev.copyFull e.core)
      if len = 0 then doneAtOnce e d.toNat 0
      else do
        let _ ← placeCmd e false (some d.toNat) (.cpy dst src len dl sl) []
        retire e)).run s

/-- The frames of the page that a walk ends at, from its first: physical address and count. -/
def pageFrames (va : W64) (w : Walk) : Option (Nat × Nat) :=
  match w.end_ with
  | .leaf level e _ =>
    let size := pageBytes level
    some (leafPa level e va / size * size, size / 65536)
  | _ => none

/-- R286: the refusals that hold before storage is asked for. -/
def rstrRefusals (m : MemSys) (pa frames : Nat) (pw : W32) : List Nat :=
  let bytes := 65536 * frames
  (if legalPlacement pw then [] else [1])
    ++ (if m.moving.any (fun v => v.pa < pa + bytes && pa < v.pa + v.bytes) then [3] else [])
    ++ (if inHbm pa then [] else [4])

def rstrResult (code : Nat) : W64 := BitVec.ofNat 64 (7 + 256 * code)

def execRstr (h : Head) (d : BitVec 4) (a b : Src) (c : BitVec 10) (s : State) : Host.Outcome State Fault Refusal :=
  let i : Instr := .rstr h d a b c
  letI := Prog.monad
  (instruction i h (fun e =>
    if !e.active then retire e
    else do
      let rows ← operands e h.lits (Instr.shape i)
      let xs := firstRow rows
      let va := xs.getD 0 0
      let pw : W32 := (xs.getD 1 0).setWidth 32
      let _ ← demand e (need (hi32 (xs.getD 1 0) == 0 && c == 0) .prot 17)
      let _ ← demandPa e .none va
      let w ← chooseWalk e.core e.die e.key e.sup .none va
      match pageFrames va w with
      | none => engineTrap e (.pgfault, 2, some va)
      | some (pa, frames) => do
        let s ← Prog.get
        let codes := rstrRefusals s.mem pa frames pw
        let fs := List.range' (pa / 65536) frames
        awaitQueue e (.copy e.core) (s.dev.copyFull e.core)
        if !codes.isEmpty then do
          -- the spec orders no refusal before another
          let k ← Prog.choose codes.length
          doneAtOnce e d.toNat (rstrResult (codes.getD k 1))
        else match s.mem.rereserve fs (fun _ => none) (fun _ => some pw) with
          | none => doneAtOnce e d.toNat (rstrResult 2)
          | some next => do
            let id ← placeCmd e false (some d.toNat) (.rstr pa frames pw) []
            Prog.each next (fun u => Prog.act (.mem (.reserve u.1 u.2)))
            Prog.act (.mem (.moving (s.mem.moving ++
              [{ cmd := id, pa, bytes := 65536 * frames, cursor := 0, old := fs.map s.mem.frameWord, pw }])))
            retire e)).run s

/-! ### Completion and cancellation (R193, R283, R287) -/

/-- R283: the result word of a command. -/
def Cmd.result (c : Cmd) : W64 := BitVec.ofNat 64 (c.status + 256 * c.detail) ||| (c.addr &&& ~~~0xFFFF#64)

/-- A split of the group waits for an entry of the queue. -/
def Group.queuesFor (g : Group) (q : QueueName) : Bool := (g.splits ++ g.overflow).any (fun x => x.wait == .queue q)

/-- Splits that wait for an entry of the queue try again (R281). -/
def Group.wakeQueue (q : QueueName) (g : Group) : Group :=
  if g.queuesFor q then g.wake (fun x => if x.wait == .queue q then { x with wait := .none } else x) else g

/-- An entry of a queue is free: every split that waits for one, of a resident or a saved team, tries again. -/
def wakeQueues (q : QueueName) : Prog Unit :=
  .read (fun s =>
    if (s.teams ++ s.saved).any (fun t => t.groups.any (fun g => g.queuesFor q)) then
      let f (t : Team) : Team := { t with groups := t.groups.map (Group.wakeQueue q) }
      .eff (.teams (s.teams.map f) (s.saved.map f)) (.pure ())
    else .pure ())

/-- The handles of a group that wait for a command. -/
def Group.handlesOf (g : Group) (cmd : Nat) : List Nat := (List.range 16).filter (fun n => g.handle n == .pending cmd)

/-- The registers that an `mxfnc` still holds, of all its team's unfinished ones but one (R209). -/
def pinsElsewhere (d : Dev) (c : Cmd) (w gi r : Nat) : Bool :=
  d.cmds.any (fun x => x.id != c.id && x.team == c.team && !x.finished && (match x.kind with
    | .tile w0 a b _ => (match TileRec.ofWord0 w0 a b with
      | some y => y.defer && (y.vectors w).contains (gi, r)
      | none => false)
    | _ => false))

/-- R209: EPIN clears. -/
def Group.clearEpin (g : Group) (r : Nat) : Group :=
  { g.setWord r (g.word r &&& ~~~4#64) with epinBad := Tab.set 0 g.epinBad r 0 }

def Team.clearPins (t : Team) (d : Dev) (c : Cmd) : Team :=
  match c.kind with
  | .tile w0 a b _ =>
    match TileRec.ofWord0 w0 a b with
    | some r =>
      if !r.defer then t
      else { t with groups := t.groups.map (fun g =>
        (r.vectors g.width).foldl (fun g x => if x.1 = g.gidx && !pinsElsewhere d c g.width x.1 x.2 then g.clearEpin x.2 else g) g) }
    | none => t
  | _ => t

/-! ### Records in their queue (R184, R277, R278) -/

/-- R184: the command has joined its queue: what its release waits for is done. -/
def Cmd.joined (c : Cmd) (s : State) : Bool :=
  match (s.anyTeam? c.team).bind (fun t => t.group? c.gidx) with
  | none => true
  | some g => g.stream.all (fun o => !(c.after.contains o.id && holdsBack s.mem (dieOf g.core) o joinLater))

def Cmd.tileRec (c : Cmd) : Option TileRec :=
  match c.kind with
  | .tile w0 a b _ => TileRec.ofWord0 w0 a b
  | _ => none

/-- Accumulator allocations of a team. -/
def Team.accCopies (t : Team) : Nat :=
  match t.place with
  | .core _ => 1
  | .pair _ => 2

/-- R111: the accumulator allocation that a command's core reaches: of a pair-placed team, one of two. -/
def Cmd.high (c : Cmd) (s : State) : Bool := c.core % 2 == 1 && ((s.anyTeam? c.team).map (fun t => t.accCopies == 2)).getD false

/-- R277: two records conflict. -/
def conflict (s : State) (a b : Cmd) : Bool :=
  match a.tileRec, b.tileRec with
  | some x, some y => a.team == b.team && x.spans.any (fun p => y.spans.any (fun q =>
      p.space == q.space && (p.space == .scratch || a.high s == b.high s) && p.lo < q.lo + q.len && q.lo < p.lo + p.len && (p.write || q.write)))
  | _, _ => false

/-- The records of a pair in submission order. -/
def Dev.records (d : Dev) (pair : Nat) : List Cmd := (d.pair pair).queue.filterMap d.cmd?

/-- R277: records that have joined, and that no earlier incomplete record of their team conflicts with. A team that has been
resumed elsewhere may have earlier ones in the queue of another pair. -/
def State.readyRecords (s : State) (pair : Nat) : List Cmd :=
  (s.dev.records pair).filter (fun c => !c.started && c.joined s
    && s.dev.cmds.all (fun x => !(x.id < c.id) || x.finished || !conflict s x c))

def Pair.lease (p : Pair) (k : Nat) : Lease := if k = 0 then p.lease0 else p.lease1
def Pair.setLease (p : Pair) (k : Nat) (l : Lease) : Pair := if k = 0 then { p with lease0 := l } else { p with lease1 := l }

def Dev.engineBusy (d : Dev) (pair k : Nat) : Bool := (d.records pair).any (fun c => c.engine == some k && c.started && !c.finished)

/-- R278: an idle engine whose lease team has no ready record is free. -/
def State.idleLease (s : State) (pair k : Nat) : Bool :=
  match ((s.dev.pair pair).lease k).team with
  | none => false
  | some u => !s.dev.engineBusy pair k && !(s.readyRecords pair).any (fun c => c.team == u)

/-- R278: leases of a pair that are over end. -/
def dropIdleLeases (pair : Nat) : Prog Unit :=
  Prog.each [0, 1] (fun k => .read (fun s =>
    if s.idleLease pair k then Prog.modDev (fun d => d.setPair pair ((d.pair pair).setLease k {})) else .pure ()))

/-- The end of a command in its team: EPIN, guarded ranges, FSTAT (R97), the handle. -/
def Team.finishCmd (t : Team) (d : Dev) (c : Cmd) : Team :=
  let t := t.clearPins d c
  { t with
    guarded := t.guarded.map (fun g => if g.cmd == c.id then
      { g with done := true, waits := none, tile := g.tile && c.status != 1, live := g.live && g.waits.isNone } else g)
    groups := t.groups.map (fun g =>
      if g.gidx == c.gidx then
        let g := if c.status = 0 then { g with fstat := g.fstat ||| c.flags } else g
        (g.handlesOf c.id).foldl (fun g n => g.finishHandle n c.result) g
      else g) }

/-- Observations that happen when the waits of a handle end: `fwait` returns, `yld` resumes (R184). -/
def Team.wakeObserves (before t : Team) : Team :=
  before.groups.foldl (fun t g => (g.splits ++ g.overflow).foldl (fun t x => match x.wait with
    | .fwait n | .yld n => if (match (t.group? g.gidx).map (fun g => g.handle n) with
        | some (.complete _) => true
        | _ => false) then t.observe g.gidx n else t
    | _ => t) t) t

/-- A command is done and gone. Its team is resident or saved, or has been killed. -/
def finishCmd (c : Cmd) : Prog Unit :=
  letI := Prog.monad
  do
    let s ← Prog.get
    let f (t : Team) : Team := if t.uid == c.team then (Team.wakeObserves t (t.finishCmd s.dev c)) else t
    Prog.act (.teams (s.teams.map f) (s.saved.map f))
    Prog.modDev (fun d =>
      let p := d.pair c.pair
      let d := if p.queue.contains c.id then d.setPair c.pair { p with queue := removeNat c.id p.queue } else d
      { d with cmds := d.cmds.filter (fun x => x.id != c.id)
               copyQ := d.copyQ.map (fun q => (q.1, removeNat c.id q.2)) |>.filter (fun q => !q.2.isEmpty) })
    Prog.when (s.mgmt.signQ.any (fun r => r.cmd == c.id)) (Prog.modMgmt (fun m => { m with signQ := m.signQ.filter (fun r => r.cmd != c.id) }))
    Prog.when ((s.dev.pair c.pair).queue.contains c.id) (Prog.bind (wakeQueues (.tile c.pair)) (fun _ => dropIdleLeases c.pair))
    Prog.when ((Tab.get [] s.dev.copyQ c.core).contains c.id) (wakeQueues (.copy c.core))
    Prog.when (s.mgmt.signQ.any (fun r => r.cmd == c.id)) (wakeQueues .signing)
    match s.team? c.team with
    | some t => match t.group? c.gidx with
      | some _ => settle c.team c.gidx
      | none => pure ()
    | none => pure ()

/-- The command that a pending handle names. -/
def pendingCmd (s : State) (u gi hn : Nat) : Option Cmd :=
  match s.group? u gi with
  | none => none
  | some g => match g.handle hn with
    | .pending c => s.dev.cmd? c
    | _ => none

def execFwait (h : Head) (hn : BitVec 4) (s : State) : Host.Outcome State Fault Refusal :=
  letI := Prog.monad
  (instruction (.fwait h hn) h (fun e =>
    if !e.active then retire e
    else do
      fallCheck e
      e.modGroup Group.closeRegion
      let s ← Prog.get
      match pendingCmd s e.team e.gidx hn.toNat with
      | some _ => retireWaiting e (.fwait hn.toNat)
      | none => do
        observe e.team e.gidx hn.toNat
        retire e)).run s

def execFtest (h : Head) (d : BitVec 3) (hn : BitVec 4) (s : State) : Host.Outcome State Fault Refusal :=
  letI := Prog.monad
  (instruction (.ftest h d hn) h (fun e =>
    if !e.active then retire e
    else do
      fallCheck e
      e.modGroup Group.closeRegion
      let s ← Prog.get
      let done := (pendingCmd s e.team e.gidx hn.toNat).isNone
      Prog.when done (observe e.team e.gidx hn.toNat)
      e.modGroup (fun g => e.lanes.foldl (fun g t => g.putPred h.g d t done) g)
      retire e)).run s

def execFcancel (h : Head) (hn : BitVec 4) (s : State) : Host.Outcome State Fault Refusal :=
  letI := Prog.monad
  (instruction (.fcancel h hn) h (fun e =>
    if !e.active then retire e
    else do
      fallCheck e
      e.modGroup Group.closeRegion
      let s ← Prog.get
      match pendingCmd s e.team e.gidx hn.toNat with
      | some c =>
        if c.started then retire e
        else do
          match s.mem.moving.find? (fun v => v.cmd == c.id) with
          | some v => releaseMove v true
          | none => pure ()
          finishCmd { c with status := 1 }
          retire e
      | none => retire e)).run s

/-! ### `yld` (R288) -/

/-- R288: the visited threads stand at `x`, waiting there while the handle is pending; the others go to the next start. -/
def Env.yields (e : Env) (x : W64) (hn : Nat) (pending : Bool) (g : Group) : Group :=
  let away (y : Split) : Split :=
    { y with pc := x, mask := e.visited, acc := 0, fresh := false, chain := none, skip := none
             wait := if pending then .yld hn else .none }
  let g := g.modSplit e.split (fun y => y.sign e.head e.bare)
  let y := g.split e.split
  let rest := e.mask &&& ~~~e.visited
  if rest = 0 then g.setSplit e.split (away y)
  else
    let stay : Split := { y with pc := e.next, mask := rest, wait := .none, fresh := false, chain := none, skip := none }
    (g.setSplit e.split stay.remask).place [(away y).remask]

def execYld (h : Head) (hn : BitVec 4) (f : BitVec 20) (s : State) : Host.Outcome State Fault Refusal :=
  letI := Prog.monad
  (instruction (.yld h hn f) h (fun e =>
    if !e.active then noTransfer e
    else do
      let x := label e f
      let rest := e.mask &&& ~~~e.visited
      checkTargets e (together e x) rest
      let st ← Prog.get
      let pending := (pendingCmd st e.team e.gidx hn.toNat).isSome
      mayDivide e (if rest = 0 then 1 else 2)
      started e
      e.modGroup Group.closeRegion
      Prog.when (!pending) (observe e.team e.gidx hn.toNat)
      e.modGroup (e.yields x hn.toNat pending)
      Prog.act (.cur none)
      settle e.team e.gidx)).run s

/-! ### Class 11 and `tsub` (R289 to R298) -/

/-- The bytes of a local range as the values that an access reads. -/
def localWords (u a n : Nat) : Prog (List W64) :=
  letI := Prog.monad
  do
    let t ← getTeam u
    Prog.collect (List.range n) (fun i => settleBytes (t.localBytes (a + 8 * i) 8))

/-- R204, R282: a demoted register of the issuing group that a record names is regenerated. -/
def promoteRegister (e : Env) (r : Nat) : Prog Unit :=
  Prog.bind e.group (fun g => if r < e.regs && g.demoted r then regenerate repairDepth e r else .pure ())

/-- R330, R331: a register of the issuing group that a record names is made whole. -/
def wholeRegister (e : Env) (r : Nat) : Prog Unit :=
  letI := Prog.monad
  do
    let g ← e.group
    if (List.range g.width).any (fun t => g.badV.contains (laneKey r t)) then
      (if g.bound r then do
        regenerate repairDepth e r
        e.event 0 0 (BitVec.ofNat 64 r)
      else badOperand e e.visited (BitVec.ofNat 64 r))
    else pure ()

/-- The named registers of one group. -/
def TileRec.ownVectors (r : TileRec) (gi w : Nat) : List Nat := ((r.vectors w).filter (fun x => x.1 == gi)).map (·.2)
def TileRec.ownScalars (r : TileRec) (gi : Nat) : List Nat := (r.scalars.filter (fun x => x.1 == gi)).map (·.2)

/-- R176: a named register of the issuing group waits for a result. -/
def TileRec.waitsFor (r : TileRec) (t : Team) (gi w : Nat) : Bool :=
  match t.group? gi with
  | some g => (r.ownVectors gi w).any ((dueOf g.stream).regs (fullMask w)).contains || (r.ownScalars gi).any (dueOf g.stream).s.contains
  | none => false

/-- R209: EPIN of every register that an `mxfnc` names. -/
def Team.setEpin (t : Team) (r : TileRec) (w : Nat) : Team :=
  { t with groups := t.groups.map (fun g => (r.ownVectors g.gidx w).foldl (fun g x => g.setWord x (g.word x ||| 4)) g) }

/-- A record is checked, its registers read or held, and it joins the tile-task queue. -/
def submit (e : Env) (r : TileRec) (hn : Option Nat) : Prog Unit :=
  letI := Prog.monad
  do
    let l ← getLaunch e.launch
    let t ← e.getTeam
    if r.waitsFor t e.gidx e.w then notYet e .none
    else do
      Prog.each (r.ownVectors e.gidx e.w) (promoteRegister e)
      let t ← e.getTeam
      let _ ← demand e (r.check l.desc t e.gidx)
      Prog.each (r.ownVectors e.gidx e.w) (wholeRegister e)
      let s ← Prog.get
      awaitQueue e (.tile (pairOf e.core)) (s.dev.tileFull e.core)
      let t ← e.getTeam
      -- what is still bad lies in other groups, whose named registers are not bound
      (match r.badVectors t with
        | x :: _ => if r.defer then pure () else badOperand e e.visited (natW x)
        | [] => pure ())
      let regs := if r.op = 0 && !bSrc r.b && !r.defer then some (r.readRegs t none e.w) else none
      let id ← placeCmd e true hn (.tile r.word0 r.a r.b regs) r.spans (r.op == 4)
      Prog.when r.defer (do
        modTeam e.team (fun t => t.setEpin r e.w)
        Prog.modDev (fun d => d.pinned id (r.pinCounts t e.w)))
      -- R98, R296: one phase for each command
      Prog.when (r.op == 2) (e.modGroup (fun g => g.takePhase e.split))
      retire e

/-- A form of class 11. -/
def tileForm (i : Instr) (h : Head) (hn : Option Nat) (mk : W64 → W64 → TileRec) : Prog Unit :=
  letI := Prog.monad
  instruction i h (fun e =>
    if !e.active then retire e
    else do
      let rows ← operands e h.lits (Instr.shape i)
      let xs := firstRow rows
      submit e (mk (xs.getD 0 0) (xs.getD 1 0)) hn)

def execMma (h : Head) (ty : Ty) (d : BitVec 4) (a b : Src) (m : BitVec 4) (s : State) : Host.Outcome State Fault Refusal :=
  (tileForm (.mma h ty d a b m) h (some d.toNat) (⟨0, ty, m.toNat, false, ·, ·⟩)).run s
def execMxfnc (h : Head) (ty : Ty) (d : BitVec 4) (a b : Src) (m : BitVec 4) (s : State) : Host.Outcome State Fault Refusal :=
  (tileForm (.mxfnc h ty d a b m) h (some d.toNat) (⟨0, ty, m.toNat, true, ·, ·⟩)).run s
def execScacc (h : Head) (d : BitVec 4) (a b : Src) (m : BitVec 4) (s : State) : Host.Outcome State Fault Refusal :=
  (tileForm (.scacc h d a b m) h (some d.toNat) (⟨1, .bfp, m.toNat, false, ·, ·⟩)).run s
def execBqnt (h : Head) (d : BitVec 4) (a b : Src) (m : BitVec 4) (s : State) : Host.Outcome State Fault Refusal :=
  (tileForm (.bqnt h d a b m) h (some d.toNat) (⟨2, .bfp, m.toNat, false, ·, ·⟩)).run s
def execBunp (h : Head) (d : BitVec 4) (a b : Src) (m : BitVec 4) (s : State) : Host.Outcome State Fault Refusal :=
  (tileForm (.bunp h d a b m) h (some d.toNat) (⟨3, .bfp, m.toNat, false, ·, ·⟩)).run s

/-- R298: no future. -/
def execAccz (h : Head) (ty : Ty) (a b : Src) (m : BitVec 4) (s : State) : Host.Outcome State Fault Refusal :=
  (tileForm (.accz h ty a b m) h none (⟨4, ty, m.toNat, false, ·, ·⟩)).run s

def execTsub (h : Head) (d : BitVec 4) (a : Src) (s : State) : Host.Outcome State Fault Refusal :=
  let i : Instr := .tsub h d a
  letI := Prog.monad
  (instruction i h (fun e =>
    if !e.active then retire e
    else do
      let rows ← operands e h.lits (Instr.shape i)
      let x := (firstRow rows).getD 0 0
      let l ← getLaunch e.launch
      let _ ← demand e (do
        need (hi32 x == 0) .prot 17
        needAt (x.toNat % 64 == 0) .align 0 x
        needAt (x.toNat + 64 ≤ l.desc.localSize) .prot 10 x)
      fillWindows e [(lowestLane e.w e.visited, x)]
      checkLocalWords e 64 [(lowestLane e.w e.visited, x)]
      -- the split's own earlier stores to the record come first (R177)
      let g ← e.group
      if (g.stream.filter (fun o => o.split == e.split)).any (fun o => o.accs.any (fun b =>
          b.waiting && o.kind.writes && !b.glob && b.loc < x.toNat + 64 && x.toNat < b.loc + b.size)) then notYet e .none
      else do
        let ws ← localWords e.team x.toNat 8
        match TileRec.ofWord0 (ws.getD 0 0) (ws.getD 1 0) (ws.getD 2 0) with
        | some r => if (ws.drop 3).all (· == 0) then submit e r (some d.toNat) else engineTrap e (.prot, 17, none)
        | none => engineTrap e (.prot, 17, none))).run s

/-! ### Graph nodes (R51, R299, R300) -/

/-- A node descriptor as its 64 bytes give it. -/
structure Node where
  ring : W64
  cap : Nat
  rsize : Nat
  coal : Nat
  tail : Nat
  formed : Nat
  head : Nat
  prod : Nat
  state : Nat
  rest : Nat
  deriving DecidableEq, Repr

def nodeOf (m : MemSys) (pa : Nat) : Node :=
  let w (i : Nat) : W64 := m.newestWord (pa + 8 * i)
  { ring := w 0, cap := fld (w 1) 0 32, rsize := fld (w 1) 32 16, coal := fld (w 1) 48 16, tail := (w 2).toNat, formed := (w 3).toNat
    head := (w 4).toNat, prod := fld (w 5) 0 16, state := fld (w 5) 16 8
    rest := fld (w 5) 24 40 + (w 6).toNat + (w 7).toNat }

def Node.flushed (n : Node) : Bool := n.state % 2 == 1

/-- R299: malformed, beside what the node's own kernel descriptor says. -/
def Node.bad (n : Node) (d : Option Desc) : Bool :=
  !(canonical n.ring && n.ring.toNat % 64 == 0 && 1 ≤ n.cap && n.cap ≤ 2 ^ 20 && 2 ^ Nat.log2 n.cap == n.cap && n.coal ≤ n.cap
    && 8 ≤ n.rsize && n.rsize ≤ 1024 && n.rsize % 8 == 0 && n.rest == 0)
  || (match d with
    | some k => k.rsize != n.rsize || k.coal != n.coal
    | none => false)

/-- The kernel descriptor of the active launch of a slot that runs a node. -/
def Dev.nodeDesc (d : Dev) (key : SlotKey) (va : W64) : Option Desc :=
  (d.launches.find? (fun l => l.cmd.slot == key && l.desc.node && l.cmd.args == va)).map (·.desc)

/-- Stores of the device at a node's home. -/
def setNodeWord (m : MemSys) (pa i n : Nat) (x : W64) : Prog Unit := commitWord (m.homeDie pa) (pa + i) n x

/-- R299: the node is flushed; the records that are left form a final batch. -/
def flushNode (pa : Nat) : Prog Unit :=
  letI := Prog.monad
  do
    let s ← Prog.get
    let n := nodeOf s.mem pa
    if n.flushed then pure ()
    else do
      setNodeWord s.mem pa 42 1 1
      Prog.when (n.formed < n.tail) (setNodeWord s.mem pa 24 8 (BitVec.ofNat 64 n.tail))

/-- The checks of `emit` at issue. -/
def nodeAccess (e : Env) (vas : List (Nat × W64)) : Prog (List (Nat × W64 × Nat × Bool)) :=
  letI := Prog.monad
  do
    checkAlign e 64 vas
    checkGlobal e .both vas

def execEmit (h : Head) (a b : Src) (s : State) : Host.Outcome State Fault Refusal :=
  let i : Instr := .emit h a b
  letI := Prog.monad
  (instruction i h (fun e =>
    if !e.active then retire e
    else do
      let rows ← operands e h.lits (Instr.shape i)
      let recs := rows.map (fun r => (r.1, (r.2.getD 1 0) &&& 0xFFFFFFFF#64))
      checkAlign e 8 recs
      checkLocal e 8 false recs
      let pas ← nodeAccess e (rows.map (fun r => (r.1, r.2.getD 0 0)))
      e.modGroup Group.closeRegion
      usePort e.core
      let id ← joinStream e .emit .n64 .rel .dev none
        (globalAccs pas 64 (fun t => ((recs.find? (fun r => r.1 == t)).map (·.2)).getD 0) zeroData)
      retireWaiting e (.op id))).run s

def execEmitFlush (h : Head) (a : Src) (s : State) : Host.Outcome State Fault Refusal :=
  let i : Instr := .emitFlush h a
  letI := Prog.monad
  (instruction i h (fun e =>
    if !e.active then retire e
    else do
      let rows ← operands e h.lits (Instr.shape i)
      let va := (firstRow rows).getD 0 0
      let _ ← demand e (needAt (va.toNat % 64 == 0) .align 0 va)
      let pa ← demandPa e .both va
      if inPeer pa then engineTrap e (.prot, 12, some va)
      else do
        eccRead e.key pa 64
        let s ← Prog.get
        let g ← e.group
        if !engineMayJoin s g e.split then notYet e .none
        else if (nodeOf s.mem pa).bad (s.dev.nodeDesc e.key va) then engineTrap e (.prot, 19, none)
        else do
          e.modGroup Group.closeRegion
          usePort e.core
          flushNode pa
          retire e)).run s

/-! ### The launch port (R24, R25, R53, R301) -/

/-- R24: a well-formed command. -/
def commandOk (ws : List W64) : Bool :=
  let w (i : Nat) : W64 := ws.getD i 0
  fld (w 0) 57 7 == 0 && (w 0).toNat % 64 == 0 && fld (w 1) 0 32 != 0 && fld (w 1) 32 2 != 3 && fld (w 1) 34 30 == 0
    && fld (w 2) 57 7 == 0 && fld (w 3) 57 7 == 0 && ((fld (w 1) 32 2 == 0) == (w 3 == 0))
    && fld (w 4) 57 7 == 0 && (w 4).toNat % 8 == 0 && w 4 != 0 && fld (w 5) 32 32 == 0 && w 6 == 0 && w 7 == 0

/-- R25: DONE is well formed. -/
def doneOk (ws : List W64) : Bool :=
  let w := ws.getD 4 0
  fld w 57 7 == 0 && w.toNat % 8 == 0 && w != 0

/-- The fields of a command. Of a 57-bit address with bit 56 set the spec does not say that the field stands for the canonical
address; DESIGN CHOICE: the field is extended with zeros, and such an address fails as not canonical (log entry 105). -/
def commandOf (key : SlotKey) (ws : List W64) : LaunchCmd :=
  let w (i : Nat) : W64 := ws.getD i 0
  { slot := key, kdesc := w 0, nteam := fld (w 1) 0 32, mode := fld (w 1) 32 2, args := w 2, olog := w 3, done := w 4
    seq := (w 5).setWidth 32 }

def queueDepth : Nat := 256

/-- Steps 2 to 4 of R25: the status of queuing. -/
def portDecide (key : SlotKey) (prio : Nat) (ws : List W64) : Prog Nat :=
  letI := Prog.monad
  do
    let s ← Prog.get
    let p := s.dev.part (key / 16)
    let root := (s.dev.slot key).ptroot.getLsbD 0
    let c := commandOf key ws
    if !root || !commandOk ws then do
      Prog.when (root && doneOk ws) (writeRecord key c.done c.seq 1)
      pure 1
    else if queueDepth ≤ (p.queues.getD prio []).length then do
      writeRecord key c.done c.seq 2
      pure 2
    else do
      Prog.modDev (fun d =>
        let d := d.setPart (key / 16) { p with queues := setNth p.queues prio (p.queues.getD prio [] ++ [c]) }
        let x := d.slot key
        d.setSlot key { x with accepted := x.accepted + 1 })
      pure 0

/-- R178: a release at `.sys` may happen: everything before it is performed, and its stores are applied everywhere. -/
def releasedSys (s : State) (g : Group) (u split : Nat) : Bool :=
  engineMayJoin s g split && appliedEverywhere s.mem u g.gidx split

def execLnch (h : Head) (d : BitVec 4) (a : Src) (prio : BitVec 2) (s : State) : Host.Outcome State Fault Refusal :=
  let i : Instr := .lnch h d a prio
  letI := Prog.monad
  (instruction i h (fun e =>
    if !e.active then retire e
    else do
      let rows ← operands e h.lits (Instr.shape i)
      let va := (firstRow rows).getD 0 0
      let _ ← demand e (needAt (va.toNat % 64 == 0) .align 0 va)
      let pa ← demandPa e .read va
      if inPeer pa then engineTrap e (.prot, 12, some va)
      else do
        let st ← Prog.get
        let g ← e.group
        Prog.when (!releasedSys st g e.team e.split) (notYet e .none)
        let bad ← consume e.key pa 64
        if bad then
          consumed e 3 (poisonSource pa) (BitVec.ofNat 64 pa) .poison 0 e.visited 0
            ((lanesOf e.w e.visited).map (fun t => (t, va)))
        else do
          e.modGroup Group.closeRegion
          let st ← Prog.get
          let ws := (List.range 8).map (fun k => st.mem.word e.die (pa + 8 * k) 8)
          let r ← portDecide e.key prio.toNat ws
          pendHandle e d.toNat (.complete (BitVec.ofNat 64 r))
          retire e)).run s

end Sys2Proof.Machine
end

