-- ==== Sys2Proof/Machine/Context.lean ====
section
/-! DEFINITION. Eviction and resumption of teams (R57, R58, R188, R194, R345 to R350), placement entries (R271), and
`tevict` (R262). -/
namespace Sys2Proof.Machine

/-! ### Latch chains -/

/-- R73, R75: the split stands between members of a latch chain; fillers are none. -/
def midChain (s : State) (l : Launch) (g : Group) (x : Split) : Bool :=
  x.live && (match x.chain with
    | some (_, n) => n < 4 && (match (peekPast s l x.sup g.core fillerRun x.pc).2 with
      | some i => Instr.chainable i && Instr.readsLatch i
      | none => false)
    | none => false)

/-! ### The frame (R345 to R347) -/

def up4k (n : Nat) : Nat := (n + 4095) / 4096 * 4096

/-- Bytes of a group record. -/
def groupRecord (d : Desc) : Nat := up4k (0x2000 + 8 * d.regs + 32 * d.width + 4 * d.regs * d.width)
/-- Bytes of a team frame. -/
def frameBytes (t : Team) (d : Desc) : Nat :=
  4096 + up4k d.localSize + t.accCopies * up4k d.accSize + t.groups.length * groupRecord d

/-- A part of a group record: its offset and bytes, what is written (`none`: an undefined value), and how it is restored. -/
structure Part8 where
  off : Nat
  n : Nat
  get : Group → Option W64
  put : W64 → Group → Group

def maskPart (off : Nat) (get : Group → Mask) (put : Mask → Group → Group) : List Part8 :=
  [⟨off, 8, fun g => some ((get g).setWidth 64), fun x g => put ((get g &&& ~~~0xFFFFFFFFFFFFFFFF#128) ||| x.setWidth 128) g⟩,
   ⟨off + 8, 8, fun g => some ((get g >>> 64).setWidth 64), fun x g =>
     put ((get g &&& 0xFFFFFFFFFFFFFFFF#128) ||| (x.setWidth 128 <<< 64)) g⟩]

/-- Flags of a split entry (R347). -/
def splitFlags (x : Split) : Nat :=
  (if x.live then 1 else 0) + (if x.trap.isSome then 2 else 0)
    + (if x.sup then 4 else 0) + (if x.wait = .rejoin then 8 else 0)

def splitParts (k : Nat) : List Part8 :=
  let o := 64 * k
  [⟨o, 8, fun g => some (g.split k).pc, fun x g => g.modSplit k (fun y => { y with pc := x })⟩]
  ++ maskPart (o + 8) (fun g => (g.split k).mask) (fun m g => g.modSplit k (fun y => { y with mask := m }))
  ++ maskPart (o + 24) (fun g => (g.split k).emask) (fun m g => g.modSplit k (fun y => { y with emask := m }))
  ++ [⟨o + 40, 4, fun g => some ((g.split k).acc.setWidth 64), fun x g => g.modSplit k (fun y => { y with acc := x.setWidth 32 })⟩,
      ⟨o + 44, 4, fun g => some (natW (splitFlags (g.split k))), fun x g => g.modSplit k (fun y =>
        { y with live := x.getLsbD 0, trap := if x.getLsbD 1 then y.trap else none, sup := x.getLsbD 2
                 wait := if x.getLsbD 3 then .rejoin else if y.wait = .rejoin then .none else y.wait })⟩]
  ++ maskPart (o + 48) (fun g => match g.handler with
      | some hd => if hd.split = k then hd.held else 0
      | none => 0) (fun m g => match g.handler with
      | some hd => if hd.split = k then { g with handler := some { hd with held := m } } else g
      | none => g)

/-- R197: the mask entries in use. -/
def Group.usedMasks (g : Group) : List Nat := (g.recipe.filter (fun x => wordBnd x.2)).map (fun x => wordMidx x.2)

/-- R196: a state word holds an illegal value; `valid` says of a slice that its table entry is valid. The frame does not say
which mask entries are in use: DEDUCED, those that the group's bindings named when it was saved (log entry 105). -/
def badWord (valid : Nat → Bool) (used : List Nat) (x : W64) : Bool :=
  (wordDem x && !wordBnd x) || (wordBnd x && (!valid (wordSlice x) || !used.contains (wordMidx x))) || 256 < wordPinc x || fld x 52 12 != 0

/-- R196: a restored state word that holds an illegal value is cleared, but for PINC, and its register is undefined. -/
def Group.restoreWord (valid : Nat → Bool) (used : List Nat) (r : Nat) (g : Group) : Group :=
  if badWord valid used (g.word r) then { g.setWord r (g.word r &&& 0xFF8000#64) with v := g.v.filter (fun e => e.1 / 128 != r) } else g

def handleState : Handle → Nat
  | .empty => 0
  | .pending _ => 1
  | .complete _ => 2

def handleParts (n : Nat) : List Part8 :=
  [⟨0x400 + 16 * n, 8, fun g => some (natW (handleState (g.handle n))), fun x g =>
     match x.toNat, g.handle n with
     | 0, _ => g.setHandle n .empty
     | 2, .complete _ => g
     | 2, _ => g.setHandle n (.complete 0)
     | _, _ => g⟩,
   ⟨0x408 + 16 * n, 8, fun g => some (match g.handle n with
     | .empty => 0
     | .pending c => natW c
     | .complete v => v), fun x g => match g.handle n with
     | .complete _ => g.setHandle n (.complete x)
     | _ => g⟩]

def spaceCode : Space → Nat
  | .global => 0
  | .scratch => 1
  | .acc => 2

def blockWord (b : Space × Nat) : W64 := natW (2 ^ 63 + spaceCode b.1 * 2 ^ 61 + b.2)
def wordBlock (x : W64) : Space × Nat :=
  (if fld x 61 2 = 0 then .global else if fld x 61 2 = 1 then .scratch else .acc, fld x 0 61)

/-- Lists whose entries stand at a stride; 0 is no entry. -/
def listParts {α : Type} (off n : Nat) (get : Group → List α) (put : List α → Group → Group) (enc : α → W64) (dec : W64 → α) :
    List Part8 :=
  (List.range n).map (fun i => ⟨off + 8 * i, 8, fun g => some (((get g)[i]?.map enc).getD 0), fun x g =>
    if x = 0 then put ((get g).take i) g
    else if i < (get g).length then put (setNth (get g) i (dec x)) g else put (get g ++ [dec x]) g⟩)

/-- A state word's own parts but the tables that depend on the kernel's registers. -/
def groupParts : List Part8 :=
  (List.range 4).flatMap splitParts
  ++ (List.range 63).map (fun i => ⟨0x100 + 8 * i, 8, fun g => some (g.sreg i), fun x g => g.putS i x⟩)
  ++ [⟨0x300, 8, fun g => some (g.frm.setWidth 64), fun x g => { g with frm := x.setWidth 2 }⟩,
      ⟨0x308, 8, fun g => some (g.fstat.setWidth 64), fun x g => { g with fstat := x.setWidth 5 }⟩,
      ⟨0x310, 8, fun g => some (g.dphase.setWidth 64), fun x g => { g with dphase := x.setWidth 32 }⟩,
      ⟨0x318, 8, fun g => some (g.pwr.setWidth 64), fun x g => { g with pwr := x.setWidth 3 }⟩,
      ⟨0x328, 8, fun g => some (natW g.mpcount), fun x g => { g with mpcount := fld x 0 6 }⟩,
      ⟨0x330, 8, fun g => some g.rgnpc, fun x g => { g with rgnpc := x &&& 0x1FFFFFFFFFFFFFD#64 }⟩,
      ⟨0x338, 8, fun g => some (g.q.setWidth 64 &&& 0x7F#64), fun x g => { g with q := x.setWidth 8 &&& 0x7F#8 }⟩,
      ⟨0x340, 8, fun g => some g.tcause, fun x g => { g with tcause := x &&& 0x3FFFF#64 }⟩,
      ⟨0x348, 8, fun g => some g.epc, fun x g => { g with epc := x }⟩,
      ⟨0x350, 8, fun g => some g.taux, fun x g => { g with taux := x &&& ~~~(tauxReserved g.tcause) }⟩,
      ⟨0x358, 8, fun g => some ((g.handler.map (fun hd => hd.saved.setWidth 64)).getD 0), fun x g =>
        { g with handler := g.handler.map (fun hd => { hd with saved := x.setWidth 32 }) }⟩,
      ⟨0x380, 8, fun g => some (g.region.acc.setWidth 64), fun x g => { g with region := { g.region with acc := x.setWidth 32 } }⟩]
  ++ maskPart 0x388 (fun g => g.region.mask) (fun m g => { g with region := { g.region with mask := m } })
  ++ [⟨0x398, 8, fun g => some (g.region.frm.setWidth 64), fun x g => { g with region := { g.region with frm := x.setWidth 2 } }⟩,
      ⟨0x3A0, 8, fun g => some (g.region.dphase.setWidth 64), fun x g => { g with region := { g.region with dphase := x.setWidth 32 } }⟩,
      ⟨0x3A8, 8, fun g => some (natW g.region.retry), fun x g => { g with region := { g.region with retry := fld x 0 2 } }⟩]
  ++ (List.range 16).flatMap handleParts
  ++ listParts 0x500 32 (fun g => g.watch) (fun l g => { g with watch := l }) (fun a => natW (a + 1)) (fun x => x.toNat - 1)
  ++ (List.range 16).flatMap (fun k => maskPart (0x600 + 16 * k) (fun g => Tab.get 0 g.masks k)
      (fun m g => { g with masks := Tab.set 0 g.masks k m }))
  ++ (List.range 63).map (fun i => ⟨0x700 + 2 * i, 2, fun g => some (natW (Tab.get 0 g.spin i)), fun x g =>
      { g with spin := Tab.set 0 g.spin i (fld x 0 9) }⟩)
  ++ listParts 0x800 64 (fun g => g.region.blocks) (fun l g => { g with region := { g.region with blocks := l } }) blockWord wordBlock

/-- Overflow entry k, the oldest first: PC, MASK, accumulator, and flags with bit 0 set (R40). -/
def overflowParts (k : Nat) : List Part8 :=
  let at_ (g : Group) : Split := g.overflow.getD (g.overflow.length - 1 - k) {}
  let set (f : Split → Split) (g : Group) : Group :=
    if k < g.overflow.length then { g with overflow := setNth g.overflow (g.overflow.length - 1 - k) (f (at_ g)) } else g
  let o := 0x1000 + 32 * k
  [⟨o, 8, fun g => some (at_ g).pc, fun x => set (fun y => { y with pc := x })⟩]
  ++ maskPart (o + 8) (fun g => (at_ g).mask) (fun m => set (fun y => { y with mask := m, emask := m }))
  ++ [⟨o + 24, 4, fun g => some ((at_ g).acc.setWidth 64), fun x => set (fun y => { y with acc := x.setWidth 32 })⟩,
      ⟨o + 28, 4, fun g => some (if (at_ g).live then 1 else 0), fun x => set (fun y => { y with live := x.getLsbD 0 })⟩]

/-- The parts that depend on `.regs` and W. -/
def registerParts (d : Desc) : List Part8 :=
  (List.range d.regs).map (fun r => ⟨0x2000 + 8 * r, 8, fun g => some (g.word r), fun x g => g.setWord r x⟩)
  ++ (List.range d.width).flatMap (fun t =>
      let o := 0x2000 + 8 * d.regs + 32 * t
      [⟨o, 8, fun g => some (natW ((List.range 7).foldl (fun a k => a + (if g.pred k t then 2 ^ k else 0)) 0
            + 256 * (Tab.get 0 g.mapst t).toNat + (if g.tmask.getLsbD t then 65536 else 0))),
         fun x g => { (List.range 7).foldl (fun g k => { g with p := Tab.set false g.p (laneKey k t) (x.getLsbD k) }) g with
           mapst := Tab.set 0 g.mapst t (x.extractLsb' 8 8)
           tmask := if x.getLsbD 16 then g.tmask ||| maskOf [t] else g.tmask &&& ~~~maskOf [t] }⟩,
       ⟨o + 8, 8, fun g => some (natW ((List.range 4).foldl (fun a k => a + (g.xreg k t).toNat * 2 ^ (16 * k)) 0)),
         fun x g => (List.range 4).foldl (fun g k => g.putX k t (x.extractLsb' (16 * k) 16)) g⟩,
       ⟨o + 16, 8, fun g => some (Tab.get 0 g.fva t), fun x g => { g with fva := Tab.set 0 g.fva t x }⟩])
  ++ (List.range d.regs).flatMap (fun r => (List.range d.width).map (fun t =>
      ⟨0x2000 + 8 * d.regs + 32 * d.width + 4 * r * d.width + 4 * t, 4, fun g => (g.vreg r t).map (fun x => x.setWidth 64),
       fun x g => if g.demoted r then g else { g with v := Tab.set none g.v (laneKey r t) (some (x.setWidth 32)) }⟩))

/-- A demoted register's space is not written (R347). -/
def Group.writes (g : Group) (d : Desc) (p : Part8) : Bool :=
  let base := 0x2000 + 8 * d.regs + 32 * d.width
  !(base ≤ p.off && g.demoted ((p.off - base) / (4 * d.width)))

/-- Words of the header: TEAM and dequeue number, the sizes, the pair flag; the windows without their bits. -/
def headerWords (t : Team) (l : Launch) : List (Nat × W64) :=
  [(0, natW (t.number + l.deq % 2 ^ 32 * 2 ^ 32)), (8, natW (t.groups.length + l.desc.localSize * 2 ^ 32)),
   (16, natW (l.desc.accSize + (t.accCopies - 1) * 2 ^ 32))]
  ++ ((List.range 4).zip t.windows).flatMap (fun p =>
      [(0x100 + 32 * p.1, natW p.2.lbase), (0x108 + 32 * p.1, natW p.2.len), (0x110 + 32 * p.1, p.2.vbase), (0x118 + 32 * p.1, natW p.2.mode)])

/-- Where the images start. -/
def spadOff : Nat := 4096
def accOff (d : Desc) (high : Bool) : Nat := 4096 + up4k d.localSize + (if high then up4k d.accSize else 0)
def recordOff (t : Team) (d : Desc) (k : Nat) : Nat := 4096 + up4k d.localSize + t.accCopies * up4k d.accSize + k * groupRecord d

def frameBase (s : State) (key : SlotKey) (l : Launch) (f : Nat) : W64 :=
  (s.dev.slot key).save + natW (4096 + f * l.fsize)

/-! ### Reading and writing the save area at supervisor level -/

/-- One access of the porter to the save area. -/
def saveAt (s : State) (key : SlotKey) (need_ : Need) (va : W64) : Except (Cause × Nat) Nat :=
  match translateFresh s key true need_ va with
  | .ok (pa, _) => if inPeer pa then .error (.prot, 12) else .ok pa
  | .error x => .error x

/-- Stores up to 8 bytes of a frame, as a relaxed store of a die. -/
def saveBytes (key : SlotKey) (die : Nat) (va : W64) (bs : List Byte) : Prog Unit :=
  .read (fun s => match saveAt s key .write va with
    | .ok pa => commitPlain die ((List.range' pa bs.length).zip bs)
    | .error _ => .pure ())

/-- Every page of the frame takes the write. -/
def frameWritable (s : State) (key : SlotKey) (base : W64) (bytes : Nat) : Bool :=
  (List.range ((bytes + 4095) / 4096)).all (fun i => match saveAt s key .write (base + natW (4096 * i)) with
    | .ok _ => true
    | .error _ => false)

/-- R348: the lowest clear BUSY bit, as the last writes left them. -/
def clearFrame (s : State) (key : SlotKey) (l : Launch) : Option Nat :=
  (List.range l.nframe).find? (fun f => match saveAt s key .read ((s.dev.slot key).save + natW (64 + f / 8)) with
    | .ok pa => !(s.mem.newest pa).getLsbD (f % 8)
    | .error _ => false)

/-- R348: the frame that an eviction of the team would write, if it can be saved. -/
def frameFor (s : State) (t : Team) (l : Launch) : Option Nat :=
  let key := l.cmd.slot
  let f := match t.frame with
    | some f => some f
    | none => (clearFrame s key l).filter (fun f => (busyByte s key f).isSome)
  match f with
  | none => none
  | some f =>
    let n := frameBytes t l.desc
    if n ≤ l.fsize && frameWritable s key (frameBase s key l f) n then some f else none

def writeImage (key : SlotKey) (die : Nat) (base : W64) (n : Nat) (get : Nat → Option Byte) : Prog Unit :=
  letI := Prog.monad
  Prog.each (List.range (n / 8)) (fun i => do
    let x ← settleBytes ((List.range 8).map (fun k => get (8 * i + k)))
    saveBytes key die (base + natW (8 * i)) (bytesOf 8 x.toNat))

def writeGroup (key : SlotKey) (die : Nat) (base : W64) (d : Desc) (g : Group) : Prog Unit :=
  letI := Prog.monad
  Prog.each ((groupParts ++ (List.range g.overflow.length).flatMap overflowParts ++ registerParts d).filter (g.writes d)) (fun p => do
    let x ← (match p.get g with
      | some x => pure x
      | none => Prog.undef)
    saveBytes key die (base + natW p.off) (bytesOf p.n x.toNat))

/-- R347: LEASE as every group record of a team holds it. -/
def leaseOff : Nat := 0x320

/-- R40, R347: the overflow list of a group stands in the frame that its team holds. -/
def storeOverflow (u gi : Nat) : Prog Unit :=
  letI := Prog.monad
  do
    let t ← getTeam u
    let g ← getGroup u gi
    let l ← getLaunch t.launch
    let s ← Prog.get
    (match t.frame with
      | none => pure ()
      | some f => do
        let base := frameBase s l.cmd.slot l f + natW (recordOff t l.desc gi)
        Prog.each ((List.range g.overflow.length).flatMap overflowParts) (fun p =>
          saveBytes l.cmd.slot (dieOf g.core) (base + natW p.off) (bytesOf p.n ((p.get g).getD 0).toNat))
        -- no entry follows the last
        Prog.when (g.overflow.length < 124)
          (saveBytes l.cmd.slot (dieOf g.core) (base + natW (0x1000 + 32 * g.overflow.length + 28)) (bytesOf 4 0)))
    Machine.modGroup u gi (fun g => { g with listed := true })

/-- R346: the whole frame. -/
def writeFrame (t : Team) (l : Launch) (f : Nat) : Prog Unit :=
  letI := Prog.monad
  do
    let s ← Prog.get
    let key := l.cmd.slot
    let die := dieOf t.core0
    let base := frameBase s key l f
    Prog.each (headerWords t l) (fun w => saveBytes key die (base + natW w.1) (bytesOf 8 w.2.toNat))
    writeImage key die (base + natW spadOff) l.desc.localSize t.localByte
    Prog.each (List.range t.accCopies) (fun k =>
      writeImage key die (base + natW (accOff l.desc (k == 1))) l.desc.accSize (Tab.get none (t.accOf (k == 1))))
    Prog.each ((List.range t.groups.length).zip t.groups) (fun p => do
      saveBytes key die (base + natW (recordOff t l.desc p.1 + leaseOff)) (bytesOf 8 (leaseOf s.dev t).toNat)
      writeGroup key die (base + natW (recordOff t l.desc p.1)) l.desc p.2)

/-! ### Eviction (R57, R348) -/

/-- R348: the operation does not hold an eviction back: its loads are performed, its stores committed, its atomics
answered. Waits, refused contributions and appends that have not been made go on after resumption. -/
def MemOp.savable (o : MemOp) : Bool :=
  match o.kind with
  | .waitb | .emit => true
  | .arw => o.accs.all (fun a => a.st != .waiting)
  | .ored => o.accs.all (fun a => a.st != .waiting && a.st != .applied)
  | .fence => false
  | _ => o.accs.all (fun a => match a.st with
    | .done | .failed _ _ => true
    | _ => false)

/-- A group that stands where it can be pre-empted (R57). -/
def Group.quiet (g : Group) (s : State) (l : Launch) : Bool :=
  g.stream.all MemOp.savable && g.rolling.isNone && (g.splits ++ g.overflow).all (fun x => !midChain s l g x && (match x.wait with
    | .sync .. => false
    | _ => true))

/-- R348: the team may be evicted now; `own` says that its own `tevict` asks. -/
def Team.quiet (t : Team) (s : State) (l : Launch) (own : Bool) : Bool :=
  (own || !(match s.cur with | some c => c.team == t.uid | none => false)) && t.groups.all (fun g => g.quiet s l)

/-- R271: descending priority, then ascending dequeue number; a team enters behind its launch's entries. -/
def launchKey (d : Dev) (id : Nat) : Nat × Nat :=
  match d.launches.find? (fun l => l.id == id) with
  | some l => (3 - l.prio, l.deq)
  | none => (4, 0)

def keyLe (a b : Nat × Nat) : Bool := a.1 < b.1 || (a.1 == b.1 && a.2 ≤ b.2)

def insertEntry (d : Dev) (e : Entry) : List Entry → List Entry
  | [] => [e]
  | x :: t =>
    let ahead := x.launch == e.launch && e.ahead
    if keyLe (launchKey d x.launch) (launchKey d e.launch) && !ahead then x :: insertEntry d e t else e :: x :: t

/-- Pointwise maximum of two clocks. -/
def joinClock (a b : List Nat) : List Nat := (a.zip b).map (fun p => max p.1 p.2)

/-- R206, R349: a die has stored to the frame of a saved team: no die reads the frame before it has applied what this one had
committed. -/
def frameStored (u die : Nat) : Prog Unit :=
  .read (fun s => .eff (.teams s.teams (s.saved.map (fun t => if t.uid == u then
    { t with clock := some (match t.clock with
        | some c => joinClock c (s.mem.views.getD die {}).clock
        | none => (s.mem.views.getD die {}).clock) } else t))) (.pure ()))

/-- Steps 3 to 5 of R348 for a team that can be saved in frame f. -/
def saveTeam (u f : Nat) : Prog Unit :=
  letI := Prog.monad
  do
    let t0 ← getTeam u
    let l ← getLaunch t0.launch
    writeBackAll u l.cmd.slot
    Prog.when t0.frame.isNone (setBusy l.cmd.slot f true)
    let t ← getTeam u
    writeFrame t l f
    let s ← Prog.get
    let saved : Team := { t with frame := some f, leaving := false, windows := t.windows.map (fun w => { w with valid := [], dirty := [] }), lease := leaseOf s.dev t
                                 clock := some (s.mem.views.getD (dieOf t.core0) {}).clock
                                 groups := t.groups.map (fun g => { g with latch := [], listed := true, issued := none }) }
    Prog.act (.teams (s.teams.filter (fun x => x.uid != u)) (s.saved ++ [saved]))
    Prog.modDev (fun d =>
      let d := d.endLease u
      let p := d.part l.part
      d.setPart l.part { p with placement := insertEntry d { uid := u, launch := l.id, team := t.number, resumed := true } p.placement })

/-- Evicts a team if it stands at its boundaries and can be saved; answers whether it did. -/
def evictTeam (u : Nat) : Prog Bool :=
  letI := Prog.monad
  do
    let s ← Prog.get
    match s.team? u with
    | none => pure false
    | some t => match s.launch? t.launch with
      | none => pure false
      | some l =>
        if !t.quiet s l false then pure false
        else match frameFor s t l with
          | none => pure false
          | some f => do
            saveTeam u f
            pure true

/-- R262. -/
def execTevict (h : Head) (a : Src) (s : State) : Host.Outcome State Fault Refusal :=
  let i : Instr := .tevict h a
  letI := Prog.monad
  (instruction i h (fun e =>
    if !e.active then retire e
    else do
      let rows ← operands e h.lits (Instr.shape i)
      let n := lo32 ((firstRow rows).getD 0 0)
      let st ← Prog.get
      match st.teams.find? (fun t => t.launch == e.launch && t.number == n) with
      | none => retire e
      | some t => do
        let l ← getLaunch e.launch
        let own := t.uid == e.team
        if (frameFor st t l).isNone then retire e
        else if !t.quiet st l own then notYet e (.evict t.uid)
        else do
          retire e
          let st ← Prog.get
          match frameFor st t l with
          | some f => saveTeam t.uid f
          | none => pure ())).run s

/-! ### Resumption (R188, R194, R349) -/

/-- Bytes of a frame as a die sees them, with poison. -/
def readSave (s : State) (key : SlotKey) (die : Nat) (va : W64) (n : Nat) : Except (Cause × Nat) (W64 × Bool) :=
  match saveAt s key .read va with
  | .ok pa => .ok (s.mem.word die pa n, s.mem.poisoned pa n)
  | .error e => .error e

def frameReads (s : State) (key : SlotKey) (die : Nat) (l : List (W64 × Nat)) : Option (List W64) :=
  l.mapM (fun p => match readSave s key die p.1 p.2 with
    | .ok (x, bad) => if bad then none else some x
    | .error _ => none)

/-- An image of local memory from a frame. -/
def readImage (s : State) (key : SlotKey) (die : Nat) (base : W64) (n : Nat) : Option LocalBytes :=
  match frameReads s key die ((List.range (n / 8)).map (fun i => (base + natW (8 * i), 8))) with
  | none => none
  | some ws => some (((List.range ws.length).zip ws).flatMap (fun (p : Nat × W64) =>
      (cellsAt (8 * p.1) 8 p.2).map (fun (c : Nat × Byte) => (c.1, some c.2))))

/-- R196, R306: the recipe table entry of a slice is valid, as far as it can be read. -/
def entryValid (s : State) (key : SlotKey) (die : Nat) (d : Desc) (k : Nat) : Bool :=
  k < d.nrcp && (match (List.range 4).mapM (fun i => match translateFresh s key false .read (d.rtab + natW (32 * k + 8 * i)) with
      | .ok (pa, _) => some (s.mem.word die pa 8)
      | .error _ => none) with
    | some ws => (sliceEntry d k ws).valid
    | none => true)

/-- A group from its record. -/
def readGroup (s : State) (key : SlotKey) (die : Nat) (base : W64) (d : Desc) (g : Group) : Option Group :=
  let parts := (groupParts ++ (List.range g.overflow.length).flatMap overflowParts ++ registerParts d).filter (g.writes d)
  match frameReads s key die (parts.map (fun x => (base + natW x.off, x.n))) with
  | none => none
  | some ws => some ((List.range d.regs).foldl (fun x r => x.restoreWord (entryValid s key die d) g.usedMasks r)
      ((parts.zip ws).foldl (fun g (x : Part8 × W64) => x.1.put x.2 g) g))

/-- A window as a header holds it, which has no bits. The blocks that commands filled and the words that they wrote since the
team was saved are kept (log entry 105). -/
def headerWindow (hs : List W64) (k : Nat) (w : Window) : Window :=
  { lbase := (hs.getD (3 + 4 * k) 0).toNat, len := (hs.getD (4 + 4 * k) 0).toNat, vbase := hs.getD (5 + 4 * k) 0
    mode := fld (hs.getD (6 + 4 * k) 0) 0 2, valid := w.valid, dirty := w.dirty }

/-- R349: the team as its frame gives it: `none` where the frame is malformed, does not translate or is poisoned. The
header's first words must be the team's own. -/
def restoreTeam (s : State) (t : Team) (l : Launch) (f die : Nat) : Option Team :=
  let key := l.cmd.slot
  let base := frameBase s key l f
  let hw := headerWords t l
  match frameReads s key die (hw.map (fun w => (base + natW w.1, 8))), readImage s key die (base + natW spadOff) l.desc.localSize,
      readImage s key die (base + natW (accOff l.desc false)) l.desc.accSize,
      (if t.accCopies = 2 then readImage s key die (base + natW (accOff l.desc true)) l.desc.accSize else some []),
      ((List.range t.groups.length).zip t.groups).mapM (fun (p : Nat × Group) =>
        readGroup s key die (base + natW (recordOff t l.desc p.1)) l.desc p.2) with
  | some hs, some sp, some lo, some hi, some gs =>
    if hs.take 3 = (hw.map (·.2)).take 3 then
      let lease := match frameReads s key die [(base + natW (recordOff t l.desc 0 + leaseOff), 8)] with
        | some (x :: _) => x.setWidth 16
        | _ => t.lease
      some { t with groups := gs, lease, spad := sp, accLow := lo, accHigh := hi, windows := (List.range 4).map (fun k => headerWindow hs k (t.windows.getD k {})) }
    else none
  | _, _, _, _, _ => none

end Sys2Proof.Machine
end

