-- ==== Sys2Proof/Machine/EngineRun.lean ====
section
/-! DEFINITION. How engine commands run: the events ENGINE, HANDLE_COMPLETE, COPY_START, TILE_RECORD_START,
TILE_RECORD_COMPLETE and RSTR_BLOCK_MOVE (R143, R184, R277 to R279, R283 to R298). -/
namespace Sys2Proof.Machine

/-! ### Local memory of a team that may have been evicted (R58) -/

def setCmd (c : Cmd) : Prog Unit := Prog.modDev (fun d => d.setCmd c)

/-- An uncorrectable word that a command consumes (R331, R338). -/
def cmdUpset (c : Cmd) (src addr : Nat) : Prog Unit :=
  raiseEvent { cls := 1, src, slot := some c.slot, part := none, unit_ := coreUnit c.core, addr := natW addr }

/-- Bytes that a command reads from its team's local or accumulator memory. Words found uncorrectable are reported and
their bytes undefined. -/
def engineLocal (c : Cmd) (sp : Space) (high : Bool) (a n : Nat) : Prog (List (Option Byte)) :=
  letI := Prog.monad
  do
    let s ← Prog.get
    match s.anyTeam? c.team with
    | none => pure (List.replicate n none)
    | some t =>
      let bad : List Nat := if sp = .scratch then t.badLocal else (t.badAcc.filter (fun w => w.1 == high)).map (·.2)
      let hit := bad.filter (fun w => w < a + n && a < w + 4)
      Prog.each hit (fun w => cmdUpset c (if sp = .scratch then 1 else 2) w)
      pure ((List.range' a n).map (fun x =>
        if hit.any (fun w => w ≤ x && x < w + 4) then none
        else if sp = .scratch then t.localByte x else Tab.get none (t.accOf high) x))

/-- Undefined bytes take fresh values. -/
def settleAll (l : List (Option Byte)) : Prog (List Byte) :=
  letI := Prog.monad
  Prog.collect l (fun b => match b with
    | some x => pure x
    | none => do
      let u ← Prog.undef
      pure (u.setWidth 8))

/-- The image in the frame of an evicted team takes bytes (R58). -/
def frameLocal (c : Cmd) (sp : Space) (high : Bool) (a : Nat) (bs : List (Option Byte)) : Prog Unit :=
  letI := Prog.monad
  do
    let s ← Prog.get
    match s.saved.find? (fun t => t.uid == c.team), s.launch? c.launch with
    | some t, some l => match t.frame with
      | some f => do
        let off := (if sp = .acc then accOff l.desc high else spadOff) + a
        let xs ← settleAll bs
        Prog.each ((List.range xs.length).zip xs) (fun p =>
          saveBytes c.slot (dieOf c.core) (frameBase s c.slot l f + natW (off + p.1)) [p.2])
        frameStored c.team (dieOf c.core)
      | none => pure ()
    | _, _ => pure ()

/-- Writes of a command to its team's memory; the frame of an evicted team takes them too. -/
def engineStore (c : Cmd) (sp : Space) (high : Bool) (a : Nat) (bs : List (Option Byte)) : Prog Unit :=
  letI := Prog.monad
  do
    modAnyTeam c.team (fun t =>
      match sp with
      | .acc => { t.setAcc high ((List.range' a bs.length).zip bs) with
          badAcc := t.badAcc.filter (fun w => w.1 != high || !(a ≤ w.2 && w.2 + 4 ≤ a + bs.length)) }
      | _ => { t.setLocal ((List.range' a bs.length).zip bs) with
          windows := t.windows.map (fun w => w.touch a bs.length), badLocal := mendWords t.badLocal a bs.length })
    frameLocal c sp high a bs

/-- What a local access of a command meets in a window (R109). -/
inductive WindowStep where
  | ready
  | failed (c : Cause) (d : Nat) (va : W64)

/-- The blocks of windows that a local range needs are filled; a store to a read-only window fails. -/
def engineWindow (c : Cmd) (store : Bool) (a n : Nat) : Prog WindowStep :=
  letI := Prog.monad
  do
    let s ← Prog.get
    match s.anyTeam? c.team with
    | none => pure .ready
    | some t =>
      if store && (List.range' a n).any (fun x => match t.windowAt x with
          | some (_, w) => w.mode == 1
          | none => false) then pure (.failed .prot 11 (natW a))
      else do
        let need := t.missingBlocks a n
        let r ← fillBlocks c.core c.slot c.sup t.uid need
        match r with
        | some (cause, d, va) => pure (.failed cause d va)
        | none => do
          let s ← Prog.get
          Prog.each need (fun b =>
            let lo := b.2.1.lbase + 512 * b.2.2
            frameLocal c .scratch false lo (((s.anyTeam? c.team).map (fun t => t.localBytes lo 512)).getD []))
          pure .ready

/-- A command ends with a failure (R283); one whose status is settled otherwise (R327) just ends. -/
def Cmd.fail (c : Cmd) (cause : Cause) (d : Nat) (va : W64) : Cmd :=
  if c.status = 0 || c.status = 4 then
    { c with status := if cause = .pgfault then 5 else 6, detail := d, addr := va }
  else { c with finished := true }
/-- STATUS 2 and 3 name no address. -/
def Cmd.stop (c : Cmd) (status : Nat) : Cmd := if c.status = 0 || c.status = 4 then { c with status, addr := 0 } else c

/-! ### `cpy` (R284, R285) -/

/-- R284: the naturally aligned 8-byte pieces of a range of a copy, of which the first and the last may be halves. -/
def copyPieces (base : W64) (len : Nat) : Nat := (base.toNat % 8 + len + 7) / 8
/-- Piece i: its offset in the range, and its bytes. -/
def copyPiece (base : W64) (len i : Nat) : Nat × Nat :=
  let lo := 8 * i - base.toNat % 8
  (lo, min len (8 * (i + 1) - base.toNat % 8) - lo)
/-- The piece that holds the byte at an offset. -/
def pieceAt (base : W64) (off : Nat) : Nat := (base.toNat % 8 + off) / 8
/-- The offsets of the words of a piece. -/
def pieceWords (p : Nat × Nat) : List Nat := (List.range (p.2 / 4)).map (fun k => p.1 + 4 * k)

def remaining (l : List (Nat × Nat)) : Nat := (l.map (fun p => p.2 - p.1)).foldl (· + ·) 0

/-- Takes the k-th number out of a list of intervals. -/
def takeNth : Nat → List (Nat × Nat) → Nat × List (Nat × Nat)
  | _, [] => (0, [])
  | k, (lo, hi) :: t =>
    if k < hi - lo then
      (lo + k, (if k = 0 then [] else [(lo, lo + k)]) ++ (if lo + k + 1 = hi then [] else [(lo + k + 1, hi)]) ++ t)
    else let r := takeNth (k - (hi - lo)) t; (r.1, (lo, hi) :: r.2)

/-- The answer of a peer port (R27, R285, R341): `none` when it serves the transfer. The other module's decision is not
this device's. -/
def peerStatus (pa : Nat) : Prog (Option Nat) :=
  letI := Prog.monad
  do
    let s ← Prog.get
    let p := peerPort pa
    if s.dev.down.contains (.peer p) then pure (some 3)
    else do
      let k ← Prog.choose 2
      pure (if k = 0 then none else some 2)

/-- The agent number of a copy engine (R130). -/
def copyAgent (core : Nat) : Nat := 512 + core

/-- R177, R178: an open early release has written a byte of a range: nobody sees it yet. -/
def State.earlyOpen (s : State) (team : Nat) (glob : Bool) (lo n : Nat) : Bool :=
  s.dev.early.any (fun e => e.glob == glob && (glob || e.team == team) && lo < e.loc + e.size && e.loc < lo + n && !e.lax && e.open_ s)

/-- What an access of a command to global memory meets. -/
inductive EnginePlace where
  | at_ (pa : Nat)
  | peer (pa : Nat)
  | ended (c : Cmd)
  /-- A byte is not to be seen yet (R177). -/
  | wait

/-- `n` bytes of a command at a virtual address. -/
def enginePlace (c : Cmd) (need_ : Need) (va : W64) (n : Nat) : Prog EnginePlace :=
  letI := Prog.monad
  do
    let r ← translate (copyAgent c.core) (dieOf c.core) c.slot c.sup need_ va
    match r with
    | .error (cause, d) => pure (.ended (c.fail cause d va))
    | .ok (pa, _) =>
      if inPeer pa then pure (.peer pa)
      else do
        let s ← Prog.get
        pure (if s.earlyOpen c.team true pa n then .wait else .at_ pa)

/-- The same for `cpy`, which alone reaches peer windows (R20). Of a later page that turns out to be a peer window of a port
where the partition's share is 0 the spec does not say what happens, since R284 checks the first byte alone: DESIGN CHOICE,
the transfer goes on (log entry 105). -/
def copyPlace (c : Cmd) (need_ : Need) (va : W64) (n : Nat) : Prog EnginePlace :=
  letI := Prog.monad
  do
    let p ← enginePlace c need_ va n
    match p with
    | .peer pa => do
      let st ← peerStatus pa
      pure (match st with
        | some st => .ended (c.stop st)
        | none => .peer pa)
    | x => pure x

/-- Bytes that a cpy reads, and whether they are poisoned; or how the command ends, `none` where the read cannot be made
yet. -/
def copyRead (c : Cmd) (sl : Bool) (va : W64) (n : Nat) : Prog (Except (Option Cmd) (List (Option Byte) × Bool)) :=
  letI := Prog.monad
  if sl then do
    let w ← engineWindow c false va.toNat n
    let s ← Prog.get
    match w with
    | .failed cause d a => pure (.error (some (c.fail cause d a)))
    | .ready =>
      if s.earlyOpen c.team false va.toNat n then pure (.error none)
      else do
        let bs ← engineLocal c .scratch false va.toNat n
        pure (.ok (bs, false))
  else do
    let p ← copyPlace c .read va n
    match p with
    | .ended x => pure (.error (some x))
    | .wait => pure (.error none)
    | .peer _ => pure (.ok (List.replicate n none, false))
    | .at_ pa => do
      touchHome c.slot pa false
      let bad ← consume c.slot pa n
      let s ← Prog.get
      pure (.ok ((s.mem.bytes (dieOf c.core) pa n).map some, bad))

/-- R120: a destination sector that the command writes whole, with no poisoned byte, once its last piece is written. -/
def sectorDone (c : Cmd) (dst src : W64) (len : Nat) (va : W64) : Bool :=
  let lo := va.toNat / 32 * 32
  dst.toNat ≤ lo && lo + 32 ≤ dst.toNat + len && !c.roots.contains (va.toNat / 32)
    && (List.range 8).all (fun k =>
      let off := lo - dst.toNat + 4 * k
      !c.held.any (fun h => h.1 == off) && !c.left.any (fun p => p.1 ≤ pieceAt src off && pieceAt src off < p.2))

/-- One write of a piece, whose words come with their offsets and poison: the command as it goes on, `none` where the write
cannot be made yet. -/
def copyWrite (c : Cmd) (dl : Bool) (dst src : W64) (len off : Nat) (words : List (Nat × List (Option Byte) × Bool)) : Prog (Option Cmd) :=
  letI := Prog.monad
  let va := dst + natW off
  let bs := words.flatMap (fun h => h.2.1)
  let poison := words.find? (fun h => h.2.2)
  if dl then do
    let w ← engineWindow c true va.toNat bs.length
    let s ← Prog.get
    match w with
    | .failed cause d a => pure (some (c.fail cause d a))
    | .ready =>
      if s.earlyOpen c.team false va.toNat bs.length then pure none
      else do
        engineStore c .scratch false va.toNat (words.flatMap (fun h => if h.2.2 then h.2.1.map (fun _ => none) else h.2.1))
        pure (some (match poison with
          | some h => if c.status = 0 then { c with status := 4, addr := src + natW h.1 } else c
          | none => c))
  else do
    let p ← copyPlace c .write va bs.length
    match p with
    | .ended x => pure (some x)
    | .wait => pure none
    | .peer _ => pure (some c)
    | .at_ pa => do
      let xs ← settleAll bs
      touchHome c.slot pa true
      commitStore (dieOf c.core) pa xs
      if poison.isSome then do
        Prog.act (.mem (.poison (pa / 32) true))
        pure (some { c with roots := insertNat (va.toNat / 32) c.roots })
      else do
        let s ← Prog.get
        Prog.when (sectorDone c dst src len va && s.mem.poison.contains (pa / 32)) (Prog.act (.mem (.poison (pa / 32) false)))
        pure (some c)

/-- Overlapped destination bytes are undefined (R284). -/
def overlapBytes (dst src : W64) (len off : Nat) (dl sl : Bool) (bs : List (Option Byte)) : List (Option Byte) :=
  ((List.range bs.length).zip bs).map (fun p =>
    let a := (dst + natW (off + p.1)).toNat
    if dl == sl && src.toNat ≤ a && a < src.toNat + len then none else p.2)

/-- Pieces of the destination whose words have all been read. -/
def Cmd.writable (c : Cmd) (dst : W64) (len : Nat) : List Nat :=
  (c.held.foldl (fun l h => insertNat (pieceAt dst h.1) l) []).filter (fun j =>
    (pieceWords (copyPiece dst len j)).all (fun o => c.held.any (fun h => h.1 == o)))

/-- Words read join those that wait to be written. -/
def Cmd.hold (c : Cmd) (off : Nat) (bs : List (Option Byte)) (bad : Bool) : Cmd :=
  { c with held := c.held ++ (pieceWords (off, bs.length)).map (fun o => (o, (bs.drop (o - off)).take 4, bad)) }

/-- One access of a copy: a read of a piece of the source or a write of a piece of the destination, any of those that can be
made. -/
def copyStep (c : Cmd) (dst src : W64) (len : Nat) (dl sl : Bool) : Prog Unit :=
  letI := Prog.monad
  do
    let reads := remaining c.left
    let writes := c.writable dst len
    let k ← Prog.choose (reads + writes.length)
    if k < reads then do
      let t := takeNth k c.left
      let p := copyPiece src len t.1
      let r ← copyRead c sl (src + natW p.1) p.2
      match r with
      | .error none => pure ()
      | .error (some x) => setCmd { x with left := t.2 }
      | .ok (bs, bad) => setCmd (({ c with left := t.2 } : Cmd).hold p.1 (overlapBytes dst src len p.1 dl sl bs) bad)
    else match writes[k - reads]? with
      | none => pure ()
      | some j => do
        let p := copyPiece dst len j
        let words := (pieceWords p).filterMap (fun o => c.held.find? (fun h => h.1 == o))
        let c1 : Cmd := { c with held := c.held.filter (fun h => !(pieceWords p).contains h.1) }
        let r ← copyWrite c1 dl dst src len p.1 words
        match r with
        | some x => setCmd x
        | none => pure ()

/-- One write of a relabelled element (R326). -/
def relabelWrite (c : Cmd) (ctl : List W64) : Prog Unit :=
  letI := Prog.monad
  do
    let k ← Prog.choose c.held.length
    match c.held[k]? with
    | none => pure ()
    | some (off, bs, _) => do
      let c1 : Cmd := { c with held := c.held.eraseIdx k }
      let w := ctl.getD 1 0
      let base := w &&& 0x1FFFFFFFFFFFFFF#64
      let s ← Prog.get
      let lost := ((s.anyTeam? c.team).map (fun t => t.spoiled.contains c.id)).getD false
      let bs := if lost then bs.map (fun _ => none) else bs
      if w.getLsbD 57 then do
        engineStore c .acc (c.high s) (base.toNat + off) bs
        setCmd c1
      else do
        let p ← enginePlace c1 .write (base + natW off) bs.length
        match p with
        | .ended x => setCmd x
        | .wait => pure ()
        | .peer _ => setCmd (c1.fail .prot 12 (base + natW off))
        | .at_ pa => do
          let xs ← settleAll bs
          touchHome c.slot pa true
          commitStore (dieOf c.core) pa xs
          setCmd c1

/-- R184: an engine command performs a pending read or commits a pending write. -/
def execEngine (cmd : Nat) (s : State) : Host.Outcome State Fault Refusal :=
  (Prog.read (fun s => match s.dev.cmd? cmd with
    | none => .pure ()
    | some c =>
      if !c.started || c.finished then .pure ()
      else match c.kind with
        | .cpy dst src len dl sl =>
          if c.left.isEmpty && c.held.isEmpty then .pure () else Prog.bind (spendFor c.slot) (fun _ => copyStep c dst src len dl sl)
        | .relabel _ _ ctl =>
          if c.engine.isNone || c.held.isEmpty then .pure () else Prog.bind (spendFor c.slot) (fun _ => relabelWrite c ctl)
        | _ => .pure ())).run s

/-- R279: the oldest command that has not started, once it has joined (R184), while fewer than 4 run. -/
def execCopyStart (core : Nat) (s : State) : Host.Outcome State Fault Refusal :=
  (Prog.read (fun s =>
    let q := (Tab.get [] s.dev.copyQ core).filterMap s.dev.cmd?
    if 4 ≤ (q.filter (fun c => c.started)).length then .pure ()
    else match q.find? (fun c => !c.started) with
      | none => .pure ()
      | some c => Prog.when (c.joined s) <| setCmd { c with started := true, left := (match c.kind with
          | .cpy _ src len _ _ => [(0, copyPieces src len)]
          | _ => []) })).run s

/-- R209: the state words of the registers that an `mxfnc` of an evicted team named, in the frame. -/
def storeWords (c : Cmd) (t : Team) (l : Launch) (f : Nat) : Prog Unit :=
  match c.tileRec with
  | none => .pure ()
  | some r =>
    if !r.defer then .pure ()
    else .read (fun s => Prog.each (r.vectors t.width) (fun x => match t.group? x.1 with
      | some g => saveBytes c.slot (dieOf c.core) (frameBase s c.slot l f + natW (recordOff t l.desc x.1 + 0x2000 + 8 * x.2))
          (bytesOf 8 (g.word x.2).toNat)
      | none => .pure ()))

/-- R193: the handle takes the result word; the frame of an evicted team takes it too (R58), and EPIN (R209). -/
def execHandleComplete (cmd : Nat) (s : State) : Host.Outcome State Fault Refusal :=
  letI := Prog.monad
  (Prog.read (fun s => match s.dev.cmd? cmd with
    | none => .pure ()
    | some c =>
      if !c.ended then .pure ()
      else do
        let before := (s.saved.find? (fun t => t.uid == c.team)).bind (fun t => t.group? c.gidx)
        let hs := (before.map (fun g => g.handlesOf c.id)).getD []
        finishCmd c
        let s ← Prog.get
        match s.saved.find? (fun t => t.uid == c.team), s.launch? c.launch with
        | some t, some l => match t.frame, t.group? c.gidx with
          | some f, some g =>
            let base := frameBase s c.slot l f + natW (recordOff t l.desc c.gidx)
            Prog.each (hs.flatMap handleParts ++ groupParts.filter (fun p => p.off == 0x308)) (fun p =>
              saveBytes c.slot (dieOf c.core) (base + natW p.off) (bytesOf p.n ((p.get g).getD 0).toNat))
            storeWords c t l f
            frameStored c.team (dieOf c.core)
          | _, _ => pure ()
        | _, _ => pure ())).run s

/-! ### Tile-task records (R277, R278) -/

/-- R278: the record that engine k starts next. -/
def State.nextRecord (s : State) (pair k : Nat) : Option Cmd :=
  match ((s.dev.pair pair).lease k).team with
  | none => (s.readyRecords pair).head?
  | some u => (s.readyRecords pair).find? (fun c => c.team == u)

/-- R278: the lease after a record of a team has started; it ends at 64. -/
def Dev.extendLease (d : Dev) (pair k : Nat) (c : Cmd) (others : Bool) : Dev :=
  let p := d.pair pair
  let l := p.lease k
  let p := if l.team.isNone then { p with lgrant := p.lgrant + 1 } else p
  let n := if l.team.isNone then 1 else l.count + 1
  if n = 64 then
    d.setPair pair ({ p with lpass := if others then p.lpass + 1 else p.lpass }.setLease k {})
  else d.setPair pair (p.setLease k ⟨some c.team, n⟩)

/-- The window blocks that a record's scratchpad ranges need. -/
def recordWindows (c : Cmd) : List Span → Prog WindowStep
  | [] => .pure .ready
  | p :: t =>
    if p.space = .scratch then
      Prog.bind (engineWindow c p.write p.lo p.len) (fun r => match r with
        | .ready => recordWindows c t
        | x => .pure x)
    else recordWindows c t

/-- R278, R294: an engine starts a ready record; an `mxfnc` reads its registers now. -/
def execTileRecordStart (pair engine : Nat) (s : State) : Host.Outcome State Fault Refusal :=
  letI := Prog.monad
  (Prog.read (fun s =>
    if 2 ≤ engine || s.dev.engineBusy pair engine then .pure ()
    else Prog.bind (dropIdleLeases pair) (fun _ => .read (fun s =>
      match s.nextRecord pair engine with
      | none => .pure ()
      | some c => match c.tileRec with
        | none => .pure ()
        | some r => do
          spendFor c.slot
          let w ← recordWindows c r.spans
          match w with
          | .failed cause x va => do
            setCmd { c.fail cause x va with started := true, engine := some engine, finished := true }
            let s ← Prog.get
            Prog.modDev (fun d => d.extendLease pair engine c ((s.readyRecords pair).any (fun x => x.team != c.team)))
            dropIdleLeases pair
          | .ready => do
            let t := s.anyTeam? c.team
            Prog.when r.defer (Prog.each ((t.map (fun t => r.badVectors t)).getD []) (fun x => cmdUpset c 0 x))
            let regs := match c.kind with
              | .tile _ _ _ (some x) => some x
              | _ => if r.op = 0 && !bSrc r.b then
                  t.map (fun t => r.readRegs t (some c.pins) t.width)
                else none
            Prog.modDev (fun d => d.setCmd { c with started := true, engine := some engine, kind := .tile r.word0 r.a r.b regs })
            let s ← Prog.get
            Prog.modDev (fun d => d.extendLease pair engine c ((s.readyRecords pair).any (fun x => x.team != c.team)))
            -- the other engine may have lost the last ready record of its team
            dropIdleLeases pair)))).run s

/-! ### The results of a record (R292 to R298) -/

def leAt (a : Array Byte) (off n : Nat) : Nat := leNat ((List.range n).map (fun i => a.getD (off + i) 0))

/-- R292: one output of an ordinary product. -/
def productCell (fa : Fmt) (k : Nat) (x y : Nat → Fl) (c : Nat) : Flagged Nat :=
  (List.range k).foldl (fun d i =>
    let r := fmaVal fa .rne (x i) (y i) (fa.unpack d.val)
    ⟨r.val, d.flags ||| r.flags⟩) ⟨c, 0⟩

/-- R292: the accumulator tile as bytes, and the flags. -/
def productTile (ty : Ty) (dir : Bool) (a b c : Array Byte) : List Byte × Flags :=
  let dims := tileDims ty
  let n := dims.1
  let k := dims.2.1
  let s := dims.2.2
  let fa := if ty = .f64 then fmtF64 else fmtF32
  let ab := if ty = .f64 then 8 else 4
  let ea (i j : Nat) : Fl := ty.fmt.unpack (leAt a ((if dir then j * n + i else i * k + j) * s) s)
  let eb (j col : Nat) : Fl := ty.fmt.unpack (leAt b ((col * k + j) * s) s)
  let cells := (List.range n).flatMap (fun i => (List.range n).map (fun col =>
    productCell fa k (ea i) (fun j => eb j col) (leAt c ((i * n + col) * ab) ab)))
  (cells.flatMap (fun r => bytesOf ab r.val), cells.foldl (fun f r => f ||| r.flags) 0)

/-- Block i of a row of BFP-m blocks: exponent and mantissas. -/
def blockAt (m : Nat) (x : Array Byte) (i : Nat) : Nat × List Int :=
  blockParts m ((List.range (4 * m + 1)).map (fun k => x.getD (i * (4 * m + 1) + k) 0))

def int32Bytes (x : Int) : List Byte := bytesOf 4 (x % (2 ^ 32 : Int)).toNat

/-- R293: the two partial blocks, and the two exponent strips. -/
def bfpTile (m : Nat) (a b : Array Byte) : List Byte × List Byte :=
  let rows := ((List.range 128).map (blockAt m a)).toArray
  let cols := ((List.range 128).map (blockAt m b)).toArray
  let row (i j : Nat) : Nat × List Int := rows.getD (2 * i + j) (0, [])
  let col (c j : Nat) : Nat × List Int := cols.getD (2 * c + j) (0, [])
  ((List.range 2).flatMap (fun j => (List.range 64).flatMap (fun i => (List.range 64).flatMap (fun c =>
      int32Bytes (((row i j).2.zip (col c j).2).foldl (fun p x => p + x.1 * x.2) 0)))),
   (List.range 2).flatMap (fun j => (List.range 64).map (fun i => (BitVec.ofNat 8 (row i j).1 : Byte))
      ++ (List.range 64).map (fun c => (BitVec.ofNat 8 (col c j).1 : Byte))))

/-- R295: one element. -/
def scaleCell (m nb : Nat) (part strips : Array Byte) (i c acc : Nat) : Flagged Nat :=
  (List.range nb).foldl (fun d j =>
    let ea := (strips.getD (128 * j + i) 0).toNat
    let eb := (strips.getD (128 * j + 64 + c) 0).toNat
    let p : Int := ((BitVec.ofNat 32 (leAt part (16384 * j + 256 * i + 4 * c) 4) : W32)).toInt
    if ea = 255 || eb = 255 then ⟨fmtF32.nan, d.flags ||| flagNV⟩
    else
      let a := fmtF32.unpack d.val
      let r := viaNan fmtF32 [a] <| addVal fmtF32 .rne a (.fin (p < 0) p.natAbs ((ea : Int) + eb - 254 - 2 * (m - 1 : Nat)))
      ⟨r.val, d.flags ||| r.flags⟩) ⟨acc, 0⟩

def scaleTile (m nb : Nat) (part strips acc : Array Byte) : List Byte × Flags :=
  let cells := (List.range 64).flatMap (fun i => (List.range 64).map (fun c =>
    scaleCell m nb part strips i c (leAt acc (256 * i + 4 * c) 4)))
  (cells.flatMap (fun r => bytesOf 4 r.val), cells.foldl (fun f r => f ||| r.flags) 0)

/-- R296: 128 blocks from 4096 values. -/
def quantizeTile (m : Nat) (q : QMode) (x : Array Byte) : List Byte × Flags :=
  let blocks := (List.range 128).map (fun b => quantize ((List.range 32).map (fun i => fmtF32.unpack (leAt x (128 * b + 4 * i) 4))) m q)
  (blocks.flatMap (fun r => blockBytes m r.1 r.2.1), blocks.foldl (fun f r => f ||| r.2.2) 0)

/-- R297: 4096 values from 128 blocks. -/
def unquantizeTile (m : Nat) (x : Array Byte) : List Byte × Flags :=
  let blocks := (List.range 128).map (fun b => blockF32 m ((List.range (4 * m + 1)).map (fun k => x.getD (b * (4 * m + 1) + k) 0)))
  (blocks.flatMap (fun r => r.1.flatMap (bytesOf 4)), blocks.foldl (fun f r => f ||| r.2) 0)

def Span.overlaps (a b : Span) : Bool := a.space == b.space && a.lo < b.lo + b.len && b.lo < a.lo + a.len

/-- What a record writes: a range and its bytes; and the flags it raises. `ins` are the bytes of its ranges in order, and
of B read from registers. -/
def TileRec.results (r : TileRec) (frm : BitVec 2) (phase : W32) (ins : List (Array Byte)) (regs : Array Byte) :
    List (Span × List (Option Byte)) × Flags :=
  let x (k : Nat) : Array Byte := ins.getD k #[]
  let sp (k : Nat) : Span := r.spans.getD k ⟨.acc, 0, 0, false⟩
  let b := if bSrc r.b then x 1 else regs
  let dest := if bSrc r.b then 2 else 1
  match r.op with
  | 0 =>
    if r.ty = .bfp then
      let t := bfpTile r.m (x 0) b
      -- block after block, its strip behind its sums
      ((List.range 2).flatMap (fun j =>
        [(({ sp dest with lo := (sp dest).lo + 16384 * j, len := 16384 } : Span), ((t.1.drop (16384 * j)).take 16384).map some),
         (({ sp (dest + 1) with lo := (sp (dest + 1)).lo + 128 * j, len := 128 } : Span), ((t.2.drop (128 * j)).take 128).map some)]), 0)
    else let t := productTile r.ty (bDir r.b) (x 0) b (x dest); ([(sp dest, t.1.map some)], t.2)
  | 1 =>
    let t := scaleTile r.m (fld r.b 32 4) (x 0) (x 1) (x 2)
    -- an element reads its own word of each block before it is written; the elements have no order to read the strips in
    let keep := !(sp 2).overlaps (sp 1)
    ([(sp 2, t.1.map (fun y => if keep then some y else none))], t.2)
  | 2 =>
    let t := quantizeTile r.m (if r.a.getLsbD 32 then .stoch phase.toNat else .mode (Round.ofFrm frm)) (x 0)
    let keep := !(sp 0).overlaps (sp 1)
    ([(sp 1, t.1.map (fun y => if keep then some y else none))], t.2)
  | 3 => let t := unquantizeTile r.m (x 0); ([(sp 1, t.1.map some)], t.2)
  | _ => ([(sp 0, List.replicate (sp 0).len (some 0))], 0)

/-- R292 to R298: a record is computed as a whole; what the team has spoiled is undefined (R294). -/
def execTileRecordComplete (pair cmd : Nat) (s : State) : Host.Outcome State Fault Refusal :=
  letI := Prog.monad
  (Prog.read (fun s => match s.dev.cmd? cmd with
    | none => .pure ()
    | some c => match c.tileRec with
      | none => .pure ()
      | some r =>
        if !c.started || c.finished || c.pair != pair || r.spans.any (fun p => p.space == .scratch && s.earlyOpen c.team false p.lo p.len) then .pure ()
        else do
          let high := c.high s
          spendFor c.slot
          let ins ← Prog.collect r.spans (fun p =>
            if r.op = 4 then pure [] else engineLocal c p.space high p.lo p.len)
          let ins ← Prog.collect ins settleAll
          let regs ← settleAll (match c.kind with
            | .tile _ _ _ (some x) => x
            | _ => [])
          let s ← Prog.get
          -- an uncorrectable word may have ended the context
          if (s.dev.cmd? cmd).isNone then pure ()
          else do
            let out := r.results c.frm c.dphase (ins.map List.toArray) regs.toArray
            let spoiled := ((s.anyTeam? c.team).map (fun t => t.spoiled.contains c.id)).getD false
            Prog.each out.1 (fun p => engineStore c p.1.space high p.1.lo (if spoiled then p.2.map (fun _ => none) else p.2))
            Prog.modDev (fun d => d.setCmd { c with finished := true, flags := out.2 })
            dropIdleLeases pair)).run s

/-! ### Re-striping (R143, R144) -/

/-- A held contribution moves with its block. -/
def Held.migrate (h : Held) (lo hi slice : Nat) : Held :=
  if lo ≤ h.set_ && h.set_ < hi then { h with slice, migrated := true } else h

/-- Entries of a slice's migration area (R143). -/
def migrationArea : Nat := 64

/-- The migration area of a slice has room for the entries that move there with a block; `unit_` gives the home unit of a set
once the block has moved (R135). Of an area that is full the spec does not say what happens: DESIGN CHOICE, the block waits
until the entries fit (log entry 105). -/
def MemSys.migrationFits (m : MemSys) (lo : Nat) (unit_ : Nat → Nat) : Bool :=
  let inBlock (h : Held) : Bool := lo ≤ h.set_ && h.set_ < lo + 512
  (m.ored.filter inBlock).all (fun h => let slice := unit_ h.set_
    (m.ored.filter (fun x => if inBlock x then unit_ x.set_ == slice else x.migrated && x.slice == slice)).length ≤ migrationArea)

/-- One block, once the migration areas of its new slices have room: copies recalled, its directory entry gone, held
reductions moved; past the last block the new word governs the frames and the old storage is free. Every byte stays one
location. -/
def execRstrBlockMove (cmd : Nat) (s : State) : Host.Outcome State Fault Refusal :=
  letI := Prog.monad
  (Prog.read (fun s => match s.dev.cmd? cmd, s.mem.moving.find? (fun v => v.cmd == cmd) with
    | some c, some v =>
      let lo := v.pa + 512 * v.cursor
      let v2 : Moving := { v with cursor := v.cursor + 1 }
      let moved : MemSys := { s.mem with moving := s.mem.moving.map (fun x => if x.cmd = cmd then v2 else x) }
      if !c.started || c.finished || !s.mem.migrationFits lo moved.homeUnit then .pure ()
      else do
        Prog.modDev (fun d => (((d.spend c.slot).dropDir lo).cleanSectors (fun i => i / 16 == lo / 512)).dropSectors (fun i => i / 16 == lo / 512))
        Prog.act (.mem (.moving moved.moving))
        Prog.act (.mem (.ored (s.mem.ored.map (fun h => h.migrate lo (lo + 512) (moved.homeUnit h.set_)))))
        if 512 * v2.cursor < v.bytes then pure ()
        else do
          Prog.each (List.range' (v.pa / 65536) (v.bytes / 65536)) (fun f => Prog.act (.mem (.frame f v.pw)))
          releaseMove v false
          setCmd { c with finished := true }
    | _, _ => .pure ())).run s

end Sys2Proof.Machine
end

