-- ==== Sys2Proof/Machine/Trace.lean ====
section
/-! DEFINITION. Trace and replay (R54, R279, R280, R312 to R314): what an order-sensitive choice waits for, what it logs, and
how the log is drained. -/
namespace Sys2Proof.Machine

/-- Who makes an order-sensitive choice at a site. -/
structure Choice where
  launch : Nat
  die : Nat
  kind : Nat
  site : Nat
  team : Nat
  gidx : Nat
  lane : Nat
  opn : Nat
  deriving DecidableEq, Repr

/-- What the launch's mode says of a choice. -/
inductive Gate where
  | free
  | log
  | wait
  | forced (e : LogEntry)
  | diverged
  deriving DecidableEq, Repr

/-- The next ORD of a site is kept apart for dispatch slots. -/
def siteKey (kind site : Nat) : Nat := 2 * site + (if kind = 1 then 1 else 0)
def Launch.nextOrd (l : Launch) (kind site : Nat) : Nat := Tab.get 0 l.ords (siteKey kind site)

/-- Entries of a site that are still to come. -/
def Launch.remaining (l : Launch) (kind site : Nat) : List LogEntry :=
  l.replay.filter (fun e => siteKey e.kind e.site == siteKey kind site && l.nextOrd kind site ≤ e.ord)

def logDepth : Nat := 512

def Choice.matches (c : Choice) (e : LogEntry) : Bool :=
  e.kind == c.kind && e.team == c.team && e.gidx == c.gidx && e.lane == c.lane && e.opn == c.opn % 2 ^ 18

/-- R314: a requester of an entry has exited, and nothing of it is left in its group's stream. An instruction with G = 1 has
LANE 0 and is its whole group's. -/
def exitedRequester (s : State) (l : Launch) (e : LogEntry) : Bool :=
  e.kind != 1 && (e.team < l.endedTo || l.ended.contains e.team ||
    (s.teams ++ s.saved).any (fun t => t.launch == l.id && t.number == e.team && t.groups.any (fun g =>
      g.gidx == e.gidx && (if e.lane = 0 then fullMask g.width &&& ~~~g.exited == 0 else g.exited.getLsbD e.lane) && !g.stream.any (fun o => o.accs.any (fun a => a.lane == e.lane && a.undone)))))

/-- R314: the entry that a site takes next can never come. -/
def nextGone (s : State) (l : Launch) (c : Choice) : Bool :=
  match (l.remaining c.kind c.site).find? (fun e => e.ord == l.nextOrd c.kind c.site) with
  | some e => exitedRequester s l e
  | none => true

/-- R279, R280, R314. -/
def gateOf (s : State) (c : Choice) : Gate :=
  match s.launch? c.launch with
  | none => .free
  | some l =>
    match l.cmd.mode with
    | 1 => if logDepth ≤ (Tab.get [] s.dev.logQ c.die).length then .wait else .log
    | 2 => match (l.remaining c.kind c.site).find? c.matches with
      | none => .diverged
      | some e => if e.ord = l.nextOrd c.kind c.site then .forced e else if c.kind != 1 && nextGone s l c then .diverged else .wait
    | _ => .free

/-- A byte or word of an order log, at supervisor level. -/
def logWrite (l : Launch) (die : Nat) (va : W64) (bs : List Byte) : Prog Unit := saveBytes l.cmd.slot die va bs

/-- The flags byte of an order log: bits are set. -/
def logFlag (l : Launch) (die : Nat) (bits : Byte) : Prog Unit :=
  .read (fun s => match saveAt s l.cmd.slot .write (l.cmd.olog + 4) with
    | .ok pa => commitPlain die [(pa, s.mem.byte die pa ||| bits)]
    | .error _ => .pure ())

/-- R314: DIV, and the launch is killed. -/
def diverge (launch die : Nat) : Prog Unit :=
  .read (fun s => match s.launch? launch with
    | none => .pure ()
    | some l =>
      Prog.bind (logFlag l die 2) (fun _ => Prog.bind (sendMsix l.part) (fun _ => endLaunch l 3)))

/-- The choice takes effect with a value: it is logged, or its entry is used up. -/
def accept (c : Choice) (g : Gate) (value : W64) : Prog Unit :=
  .read (fun s => match s.launch? c.launch with
    | none => .pure ()
    | some l =>
      let ord := l.nextOrd c.kind c.site
      let l2 : Launch := { l with ords := Tab.set 0 l.ords (siteKey c.kind c.site) (ord + 1) }
      match g with
      | .log => Prog.modDev (fun d => { (d.setLaunch l2) with
          logQ := Tab.set [] d.logQ c.die (Tab.get [] d.logQ c.die ++
            [(c.launch, ⟨c.kind, c.site, c.team, c.gidx, c.lane, c.opn % 2 ^ 18, value, ord⟩)]) })
      | .forced _ => Prog.modDev (fun d => d.setLaunch l2)
      | _ => .pure ())

/-- R314: some site's remaining entries all name requesters that have exited. -/
def replayStuck (s : State) (l : Launch) : Bool :=
  l.cmd.mode == 2 && l.replay.any (fun e => e.kind != 1 &&
    (let r := l.remaining e.kind e.site; !r.isEmpty && r.all (exitedRequester s l)))

/-- The words of an entry (R312). -/
def LogEntry.words (e : LogEntry) : List W64 :=
  [natW (e.kind + e.site % 2 ^ 57 * 16), natW (e.team + e.gidx * 2 ^ 32 + e.lane * 2 ^ 39 + e.opn * 2 ^ 46), e.value, natW (e.ord % 2 ^ 32)]

/-- An entry from its words; reserved bits are ignored (R2). -/
def LogEntry.ofWords (ws : List W64) : LogEntry :=
  let w (i : Nat) : W64 := ws.getD i 0
  ⟨fld (w 0) 0 4, fld (w 0) 4 57, lo32 (w 1), fld (w 1) 32 7, fld (w 1) 39 7, fld (w 1) 46 18, w 2, lo32 (w 3)⟩

/-- A word of a log's header as a die reads it. -/
def logHeader (s : State) (l : Launch) (die off n : Nat) : Nat :=
  match saveAt s l.cmd.slot .read (l.cmd.olog + natW off) with
  | .ok pa => (s.mem.word die pa n).toNat
  | .error _ => 0

/-- R279, R312: one accepted entry goes to the region of its die, or is dropped where the region is full. A replay that cannot
go on is found out (R314). -/
def execOrderLogDrain (die : Nat) (s : State) : Host.Outcome State Fault Refusal :=
  letI := Prog.monad
  (Prog.read (fun s => match s.dev.launches.find? (replayStuck s) with
    | some l => diverge l.id die
    | none => match Tab.get [] s.dev.logQ die with
    | [] => .pure ()
    | (id, e) :: rest => do
      Prog.modDev (fun d => { d with logQ := Tab.set [] d.logQ die rest })
      match s.launch? id with
      | none => pure ()
      | some l => do
        let size := logHeader s l die 0 4
        let used := logHeader s l die (8 + 4 * die) 4
        if l.overflowed.contains die then pure ()
        else if size < used + 32 then do
          logFlag l die 1
          Prog.modDev (fun d => d.setLaunch { l with overflowed := insertNat die l.overflowed })
        else do
          let base := l.cmd.olog + natW (0x1000 + die * size + used)
          Prog.each ((List.range 4).zip e.words) (fun p => logWrite l die (base + natW (8 * p.1)) (bytesOf 8 p.2.toNat))
          logWrite l die (l.cmd.olog + natW (8 + 4 * die)) (bytesOf 4 (used + 32)))).run s

end Sys2Proof.Machine
end

