-- ==== Sys2Proof/Machine/Ordering.lean ====
section
/-! DEFINITION. The moves of the ordering machine on the operations of issue streams (R145 to R149, R159 to R169, R177 to
R183): loads, commits, atomics, arrivals, ordered reductions, fences, waits, window fills, and the traps that are found
after an instruction has gone on (R148, R149). -/
namespace Sys2Proof.Machine

/-! ### Finding and changing an access -/

/-- An access of an operation of a resident group. -/
structure Spot where
  team : Team
  g : Group
  launch : Launch
  op : MemOp
  acc : Access

def spotOf (s : State) (r : GRef) (op lane : Nat) : Option Spot :=
  match s.team? r.team, s.group? r.team r.gidx with
  | some t, some g => match s.launch? t.launch, g.op? op with
    | some l, some o => (o.accs.find? (fun a => a.lane == lane)).map (fun a => ⟨t, g, l, o, a⟩)
    | _, _ => none
  | _, _ => none

def Spot.die (x : Spot) : Nat := dieOf x.g.core
def Spot.key (x : Spot) : SlotKey := x.launch.cmd.slot

def MemOp.setAccess (o : MemOp) (lane : Nat) (f : Access → Access) : MemOp :=
  { o with accs := o.accs.map (fun a => if a.lane = lane then f a else a) }


/-- Performed once for all its threads. -/
def MemOp.whole (o : MemOp) : Bool :=
  o.g || (match o.kind with
    | .forest (.fcount _) _ | .forest .fsnap _ | .forest .fundo _ | .forest .freset _ => true
    | _ => false)

/-- The threads that an access stands for. -/
def MemOp.threadsOf (o : MemOp) (a : Access) : Mask := if o.whole then o.mask else maskOf [a.lane]

def MemOp.over (o : MemOp) : Bool := o.accs.all (fun a => match a.st with
  | .done | .failed _ _ => true
  | _ => false)
def MemOp.fails (o : MemOp) : List (Access × Cause × Nat) := o.accs.filterMap (fun a => match a.st with
  | .failed c d => some (a, c, d)
  | _ => none)

/-! ### Waits that end -/

/-- No walk of the tables as they stand would translate an address so. -/
def outdated (s : State) (key : SlotKey) (va : W64) (pa : Nat) : Bool :=
  match (walkRoot s.mem.newestWord (s.dev.part (key / 16)) (s.dev.slot key).ptroot va).end_ with
  | .leaf level e _ => leafPa level e va != pa
  | _ => true

/-- R141: a command of the slot works on what it translated at its issue, and that was before an operation, or by an entry that
has changed since. An `rstr` names its frames alone. -/
def Cmd.onOld (c : Cmd) (s : State) (key : SlotKey) (before : Nat) : Bool :=
  c.slot == key && !c.finished && (match c.kind with
    | .rstr .. => true
    | .relabel d _ ctl => c.id < before || outdated s key (ctl.getD 4 0) d
    | _ => false)

/-- An access of a slot lies in the range of a `tlbinv.sync`; a range of length 0 is the whole space. -/
def Access.inRange (a : Access) (lo : W64) (len : Nat) : Bool := a.glob && (len == 0 || a.within [(lo.toNat, len)])

/-- R141, R170: nothing that a form of class 9 waits for is left: its own writes, and for a `tlbinv.sync` every committed
write and the split's earlier stores, are applied everywhere, so that a later walk of any agent sees the tables as they stand;
every access of the slot in the range that was issued before it, or that an old entry translated since, is performed; and no
command works on what it translated before. -/
def syncDone (s : State) (key : SlotKey) (team : Nat) (g : Group) (split before : Nat) (lo : W64) (len : Nat) : Bool :=
  appliedEverywhere s.mem team g.gidx (maintenance split)
    && (before == 0 || (s.mem.views.all (fun v => v.queue.isEmpty)
      && g.stream.all (fun o => !(o.split == split && o.id < before && o.kind == .store && o.pendingAny))
      && s.teams.all (fun t => (((s.launch? t.launch).map (fun l => l.cmd.slot != key)).getD true)
        || t.groups.all (fun h => h.stream.all (fun o => o.accs.all (fun a =>
            !(a.waiting && a.inRange lo len && (o.id < before || outdated s key a.va a.loc))))))
      && s.dev.cmds.all (fun c => !c.onOld s key before)))

/-- The split's wait is over. -/
def waitOver (s : State) (key : SlotKey) (team : Nat) (g : Group) (n : Nat) (x : Split) : Bool :=
  match x.wait with
  | .op id => (g.op? id).isNone
  | .fwait h | .yld h => (match g.handle h with
    | .pending _ => false
    | _ => true)
  | .sync before lo len => syncDone s key team g n before lo len
  | .pages => g.mpcount == 0
  | _ => false

/-- R141: the end of a `tlbinv.sync`: entries that were filled from the old tables since it began leave the caches, and
windows of the range fill again. -/
def endSync (key : SlotKey) (before : Nat) (lo : W64) (len : Nat) : Prog Unit :=
  letI := Prog.monad
  Prog.when (before != 0) (do
    Prog.modDev (fun d => d.dropTlb key lo len)
    let s ← Prog.get
    Prog.each (windowsIn s key lo len (len == 0)) (fun p =>
      modTeam p.1 (fun t => t.setWindow p.2 { t.windows.getD p.2 {} with valid := [] })))

/-- Every wait of a group's splits is looked at again. -/
def lookAgain (u gi : Nat) : Prog Unit :=
  letI := Prog.monad
  do
    let s ← Prog.get
    match s.team? u, s.group? u gi with
    | some t, some g => match s.launch? t.launch with
      | none => pure ()
      | some l => do
        let woke := (List.range 4).filter (fun n => waitOver s l.cmd.slot u g n (g.split n))
        Prog.each woke (fun n => match (g.split n).wait with
          | .fwait h | .yld h => observe u gi h
          | .sync before lo len => endSync l.cmd.slot before lo len
          | _ => .pure ())
        Prog.when (!woke.isEmpty) (modGroup u gi (fun g => woke.foldl (fun g n => g.modSplit n (fun x => { x with wait := .none })) (g.wake id)))
        settle u gi
    | _, _ => pure ()

/-- R182: a `fence.sc`, or a `cas` that may behave as one, whose turn has come takes its place at once. -/
def Group.scTurn (g : Group) : Option MemOp :=
  g.stream.find? (fun o => ((o.kind == .fence && o.order == .sc) || o.halfSc) && o.snap.isNone && o.pendingAny
    && (g.before o.split o.id).all (fun f => !f.openAny))

def pokeFences (u gi : Nat) : Prog Unit :=
  .read (fun s => match s.group? u gi with
    | none => .pure ()
    | some g => match g.scTurn with
      | some o => Prog.due (.complete ⟨u, gi⟩ o.id)
      | none => .pure ())

/-! ### The end of an operation (R148, R149, R160, R176) -/

/-- R72: a result that arrives after its instruction. A latch chain that runs meanwhile reads what its own members wrote
(R74). -/
def Group.putLate (g : Group) (o : MemOp) (lane : Nat) (x : W64) : Group :=
  match o.dest with
  | none => g
  | some r =>
    if o.g || !g.splits.any (fun y => y.chain.isSome) then g.putResult o.g o.ty r lane x
    else if r.nwb then g
    else g.putV r.d.toNat lane o.ty.is64 x

def Access.finished (a : Access) : Bool := a.st == .done

/-- The results of a load; an undefined one is fresh. -/
def putLoads (u gi : Nat) (o : MemOp) : Prog Unit :=
  letI := Prog.monad
  Prog.each (o.accs.filter Access.finished) (fun a => do
    let x ← (if a.undef then Prog.undef else pure a.old)
    modGroup u gi (fun g => g.putLate o a.lane (extend o.ty x)))

/-- The threads that failed. -/
def MemOp.failing (o : MemOp) : Mask := o.fails.foldl (fun m f => m ||| o.threadsOf f.1) 0

/-- Where the failing threads stand: the split numbers that hold some of them. -/
def Group.failSplits (g : Group) (o : MemOp) : List (Nat × Mask) :=
  let failing := o.failing &&& ~~~g.exited
  let l := ((List.range 4).filterMap (fun n =>
    let m := (g.split n).mask &&& failing
    if (g.split n).live && m != 0 then some (n, m) else none))
  -- what is performed once executes again once
  if o.whole then (l.take 1).map (fun p => (p.1, failing)) else l

/-- R149: no destination of a load that fails is written: the load's threads that have left its failing splits execute it
again as well, where their own splits stand. -/
def Split.again (x : Split) (o : MemOp) : Split :=
  { x with pc := o.pc, wait := .none, skip := some (o.pc, x.mask &&& ~~~o.mask), resume := some (o.pc, x.pc, x.wait) }

/-- A split of such threads. -/
def Split.bystander (x : Split) (o : MemOp) : Bool :=
  o.kind == .load && !o.whole && x.live && x.mask &&& o.mask != 0 && x.mask &&& o.failing == 0

def Group.again (g : Group) (o : MemOp) : Group :=
  let f (x : Split) : Split := if x.bystander o then x.again o else x
  { g with splits := g.splits.map f, overflow := g.overflow.map f, listed := g.listed && !g.overflow.any (fun x => x.bystander o) }

/-- A trap that is found late can be taken: the splits that hold its threads run at user level, between chains. -/
def Group.failReady (g : Group) (s : State) (l : Launch) (o : MemOp) : Bool :=
  let held := (g.failSplits o).foldl (fun m p => m ||| (g.split p.1).mask) (0 : Mask)
  let idle (x : Split) : Bool :=
    !x.sup && x.trap.isNone && x.resume.isNone && x.skip.isNone && !midChain s l g x && x.mask &&& g.rollMask == 0
  (if o.whole then o.failing &&& ~~~g.exited == 0 || !(g.failSplits o).isEmpty else o.failing &&& ~~~g.exited &&& ~~~held == 0) && (g.failSplits o).all (fun p => idle (g.split p.1))
    && (g.splits ++ g.overflow).all (fun x => !x.bystander o || idle x)
    && !(o.kind == .load && !o.whole && (g.handler.map (fun h => h.held &&& o.mask != 0)).getD false)

/-- R148, R149: the trap of one split. -/
def MemOp.trapRec (o : MemOp) (x : Split) (m : Mask) : TrapRec :=
  let mine := o.fails.filter (fun f => o.threadsOf f.1 &&& m != 0)
  let first := (mine.head?.map (fun f => f.2)).getD (.prot, 0)
  let back : Wait := match x.wait with
    | .op id => if id = o.id then .none else x.wait
    | .retry id _ => if id = o.id then .none else x.wait
    | w => w
  let forest := match o.kind with
    | .forest _ _ => true
    | _ => false
  let addressed := mine.filter (fun f => f.2.1 != .ucerr && !(forest && (f.2.1 == .dustfull || f.1.va == 0)))
  { cause := first.1, detail := first.2, mask := m, epc := o.pc
    taux := if forest || first.1 == .ucerr then (mine.head?.map (fun f => f.1.old)).getD 0 else 0
    fva := addressed.flatMap (fun f => (lanesOf 128 (o.threadsOf f.1 &&& m)).map (fun t => (t, f.1.va)))
    again := some (if o.kind == .load then o.mask &&& x.mask else m), resume := some (x.pc, back) }

/-- An operation whose accesses have all ended leaves the stream; its failures are trapped. -/
def closeOp (u gi id : Nat) : Prog Unit :=
  letI := Prog.monad
  do
    let s ← Prog.get
    match s.team? u, s.group? u gi with
    | some t, some g => match s.launch? t.launch, g.op? id with
      | some l, some o =>
        if o.kind == .fence || !o.over then pure ()
        else if o.fails.isEmpty then do
          Prog.when (o.kind == .load) (Prog.bind (spendFor l.cmd.slot) (fun _ => putLoads u gi o))
          modGroup u gi (fun g => g.dropOp id)
          lookAgain u gi
          pokeFences u gi
        else if o.sup then do
          let f := (o.fails.head?.map (fun f => f.2)).getD (.prot, 0)
          handlerKill g.core l.cmd.slot f.1.code f.2
        else if !g.failReady s l o then pure ()
        else do
          let traps := (g.failSplits o).map (fun p => (p.1, o.trapRec (g.split p.1) p.2))
          modGroup u gi (fun g => (g.dropOp id).again o)
          lookAgain u gi
          Prog.each traps (fun p => raiseOn u gi p.1 p.2)
          pokeFences u gi
      | _, _ => pure ()
    | _, _ => pure ()

/-- One access changes; then whatever that brings to an end. -/
def moveOn (r : GRef) (op lane : Nat) (f : Access → Access) : Prog Unit :=
  letI := Prog.monad
  do
    modGroup r.team r.gidx (fun g => g.modOp op (fun o => o.setAccess lane f))
    closeOp r.team r.gidx op
    pokeFences r.team r.gidx

/-- R177, R360: an earlier `cas` that this move overtakes is bound to a path that is no acquire; the group pays for it. -/
def pass (x : Spot) : Prog Unit :=
  Prog.bind (spendFor x.key) (fun _ => modGroup x.team.uid x.g.gidx (fun g => g.passCas x.op.split x.op.id))

/-! ### Poison and guarded ranges -/

/-- A poisoned byte consumed at its home (R149): the event of the matrix. -/
def poisonEvent (x : Spot) : Prog Unit :=
  .read (fun s => raiseEvent { cls := 3, src := poisonSource x.acc.loc, slot := some x.key, part := none
                               unit_ := sliceUnit s.mem x.acc.loc, addr := natW x.acc.loc })

/-- R294, R327: the ranges of engine commands that an access of its team meets; global ranges are virtual. An access that a
command waits for comes before it. -/
def Spot.guards (x : Spot) : List Guarded :=
  (x.team.guards (if x.acc.glob then .global else .scratch) false (if x.acc.glob then x.acc.va.toNat else x.acc.loc) x.acc.size).filter
    (fun g => !g.after.contains x.op.id)

/-- R119, R149: n bytes at the access's place are consumed at their home; then one of two moves, unless what ECC found has
ended the context. -/
def consumeAt (r : GRef) (op lane : Nat) (x : Spot) (n : Nat) (poisoned good : Spot → Prog Unit) : Prog Unit :=
  letI := Prog.monad
  do
    let bad ← consume x.key x.acc.loc n
    let s ← Prog.get
    match spotOf s r op lane with
    | none => pure ()
    | some y => if bad then poisoned y else good y

def Access.performed (x : W64) (undef : Bool) (a : Access) : Access := { a with st := .done, old := x, undef }

/-- The uncorrectable word of the scratchpad that the access reads (R331). -/
def Spot.badWord (x : Spot) : Option Nat := if x.acc.glob then none else x.team.badWord x.acc.loc x.acc.size

/-- R330, R333, R335: a word of the scratchpad turns out uncorrectable after its instruction has gone on: the groups that may
roll back do; the consumer traps if it is none of them, but a reduction, which has completed. -/
def lateBadWord (r : GRef) (x : Spot) (w : Nat) : Prog Unit :=
  letI := Prog.monad
  let event (recovered : Bool) : Prog Unit :=
    raiseEvent { cls := 1, src := 1, slot := some x.key, part := none, unit_ := coreUnit x.g.core, addr := natW w, recovered }
  let dropped := moveOn r x.op.id x.acc.lane (Access.performed 0 true)
  do
    rollOthers x.team x.g.gidx
    if x.g.rolling.isSome && x.op.mask &&& ~~~x.g.exited &&& ~~~x.g.rollMask == 0 then dropped
    else if x.g.mayRollback x.op.mask then do
      event true
      rollGroup r.team r.gidx
      dropped
    else do
      Prog.when (x.op.fails.all (fun f => f.2.1 != .ucerr)) (event false)
      let s ← Prog.get
      Prog.when (spotOf s r x.op.id x.acc.lane).isSome (moveOn r x.op.id x.acc.lane (fun a => match x.op.kind with
        | .red _ | .ored => { a with st := .done }
        | _ => { a with st := .failed .ucerr 1, old := natW w }))

/-! ### Loads (R179, R154) -/

/-- The value of a load taken from its view or bank word. -/
def viewValue (x : Spot) : Prog (W64 × Bool) :=
  letI := Prog.monad
  do
    let s ← Prog.get
    if x.guards.any (·.write) then pure (0, true)
    else do
      let t ← getTeam x.team.uid
      let v ← settleBytes (bytesAt s t x.die x.acc)
      pure (v, false)

/-- The load is performed from its view or bank word. -/
def takeLoad (r : GRef) (x : Spot) : Prog Unit :=
  letI := Prog.monad
  do
    let v ← viewValue x
    noteEarly r.team x.g x.op x.acc x.op.order
    pass x
    moveOn r x.op.id x.acc.lane (Access.performed v.1 v.2)

/-- A load has consumed poison (R149); its event may end the context. -/
def poisonedLoad (r : GRef) (x : Spot) : Prog Unit :=
  letI := Prog.monad
  do
    poisonEvent x
    let s ← Prog.get
    Prog.when (spotOf s r x.op.id x.acc.lane).isSome (do
      pass x
      moveOn r x.op.id x.acc.lane (fun a => { a with st := .failed .poison 0 }))

def execPerformLoad (r : GRef) (op lane : Nat) (ecc : Ecc) (s : State) : Host.Outcome State Fault Refusal :=
  letI := Prog.monad
  (Prog.read (fun s => match spotOf s r op lane with
    | none => .pure ()
    | some x =>
      if !(x.op.kind == .load && x.acc.st == .waiting) then .pure ()
      else if !lanesInOrder x.op x.acc || earlyHeld s r.team x.g x.op.split x.op.scope x.acc x.op.order then .pure ()
      else match loadFrom s x.team x.g (x.g.before x.op.split op) x.acc with
        | .blocked => .pure ()
        | .store v => do
          noteEarly r.team x.g x.op x.acc x.op.order
          pass x
          moveOn r op lane (Access.performed v false)
        | .view =>
          if !x.acc.glob then (match x.badWord with
            | some w => lateBadWord r x w
            | none => takeLoad r x)
          else do
            Prog.when (inHbm x.acc.loc && ecc != .good && !s.mem.poisoned x.acc.loc x.acc.size) (Prog.act (.mem (.latent (x.acc.loc / 32) ecc)))
            consumeAt r op lane x x.acc.size (poisonedLoad r) (fun x => do
              touch x.g.core x.key x.op.sup x.acc.va x.acc.loc false x.op.hint
              takeLoad r x))).run s

/-! ### Writes -/

/-- A write of an access at its place: committed from the issuer's die, or in the bank word. A store goes through the
core's L1; a bank unit has taken the location from every L1 (R113, R160). -/
def writeAt (x : Spot) (n : Nat) (v : W64) : Prog Unit :=
  letI := Prog.monad
  if x.acc.glob then do
    Prog.when (x.op.kind == .store) (touch x.g.core x.key x.op.sup x.acc.va x.acc.loc true x.op.hint)
    Prog.when (!x.guards.isEmpty) (modTeam x.team.uid (fun t => t.spoil x.guards))
    let y ← (if x.guards.isEmpty then pure v else Prog.undef)
    commitCells x.die (cellsAt x.acc.loc n y) x.team.uid x.g.gidx x.op.split
    spoilForests x.die x.acc.loc n
    -- R327: what a command wrote is undefined
    Prog.each (x.team.guarded.filter (fun g => g.lost (x.guards.map (·.cmd)) && g.space == .global))
      (fun g => Prog.each g.pieces (fun p => loseVirtual x.die x.key (BitVec.ofNat 64 p.1) p.2))
  else modTeam x.team.uid (fun t => t.storeLocal x.guards x.acc.loc ((bytesOf n v.toNat).map some))

/-- R154: the sectors that the threads of one `stg` have written whole once the last of them commits. -/
def MemOp.wholeSectors (o : MemOp) (a : Access) : List Nat :=
  let others := o.accs.filter (fun b => b.glob && (b.lane == a.lane || b.st == .done))
  [a.loc / 32].filter (fun i => o.accs.all (fun b => !b.glob || b.loc / 32 != i || b.lane == a.lane || b.st == .done)
    && (List.range' (32 * i) 32).all (fun k => others.any (fun b => b.loc ≤ k && k < b.loc + b.size)))

/-- R120: sectors that have been written whole hold no poison. -/
def clearSectors (l : List Nat) : Prog Unit :=
  .read (fun s => Prog.each (l.filter (fun i => s.mem.poison.contains i || Tab.get .good s.mem.latent i != .good)) (fun i =>
    Prog.bind (Prog.act (.mem (.poison i false))) (fun _ => Prog.act (.mem (.latent i .good)))))

def execCommit (r : GRef) (op lane : Nat) (s : State) : Host.Outcome State Fault Refusal :=
  letI := Prog.monad
  (Prog.read (fun s => match spotOf s r op lane with
    | none => .pure ()
    | some x =>
      if !(x.op.kind == .store && x.acc.st == .waiting && mayPerformEarly s r.team x.g x.op x.acc x.op.order
          && !earlyHeld s r.team x.g x.op.split x.op.scope x.acc x.op.order) then .pure ()
      else do
        noteEarly r.team x.g x.op x.acc x.op.order
        writeAt x x.acc.size x.acc.data
        Prog.when x.acc.glob (Prog.bind (clearSectors (x.op.wholeSectors x.acc)) (fun _ => spoilSets x.die x.acc.loc x.acc.size))
        pass x
        moveOn r op lane (fun a => { a with st := .done }))).run s

/-- R180: a die applies a write whose causal predecessors it has applied. -/
def mayApply (v : View) (w : Arrival) : Bool :=
  ((List.range 8).all (fun k => if k = w.src then w.vc.getD k 0 == v.clock.getD k 0 + 1 else decide (w.vc.getD k 0 ≤ v.clock.getD k 0)))

def execApply (die k : Nat) (s : State) : Host.Outcome State Fault Refusal :=
  (Prog.read (fun s => match s.mem.views[die]? with
    | none => .pure ()
    | some v => match v.queue[k]? with
      | none => .pure ()
      | some w => if mayApply v w then Prog.act (.mem (.applyWrite die k)) else .pure ())).run s

/-! ### Requests (R165) -/

/-- The number of a target unit: a home slice, or the banks of a core's scratchpad. -/
def targetUnit (s : State) (x : Spot) : Nat :=
  if x.acc.glob then s.mem.homeUnit x.acc.loc
  else 1024 + (match x.team.place with
    | .core n => n
    | .pair p => 2 * p + x.acc.loc / 4096 % 2)

def pairKey (src target : Nat) : Nat := src * 65536 + target

/-- A request has been applied at its unit, and its reply is due. -/
def Access.replyDue (a : Access) : Bool := a.st == .applied || (a.st == .waiting && a.fs.more)

/-- Fewer than 256 requests of the source are outstanding at the target. -/
def mayRequest (s : State) (x : Spot) : Bool :=
  let target := targetUnit s x
  (((s.teams.flatMap (fun t => t.groups.flatMap (fun g => if g.core = x.g.core then
      g.stream.flatMap (fun o => (o.accs.filter Access.replyDue).map (fun a => ({ x with team := t, g, op := o, acc := a } : Spot)))
    else []))).filter (fun y => targetUnit s y == target)).length) < 256

/-- The target's kept answers: the last 256 of the source. -/
def keepAnswer (l : List (Nat × Nat × Nat × W64)) (src target seq : Nat) (v : W64) : List (Nat × Nat × Nat × W64) :=
  let mine := l.filter (fun a => a.1 == src && a.2.1 == target)
  let drop := if 256 ≤ mine.length then mine.head? else none
  (match drop with
    | some a => l.filter (· != a)
    | none => l) ++ [(src, target, seq, v)]

/-- The number of a source's request to a target; the answer is kept. -/
def answerTo (src target : Nat) (v : W64) : Prog Nat :=
  .read (fun s =>
    let k := pairKey src target
    let seq := Tab.get 0 s.dev.nextSeq k
    Prog.bind (Prog.modDev (fun d => { d with nextSeq := Tab.set 0 d.nextSeq k ((seq + 1) % 65536)
                                              answers := keepAnswer d.answers src target seq v })) (fun _ => .pure seq))

/-- An access's request. -/
def answered (x : Spot) (v : W64) : Prog Nat := .read (fun s => answerTo x.g.core (targetUnit s x) v)

/-! ### Atomics and arrivals (R147, R159 to R161, R167, R181) -/

/-- R105: the fields of a barrier word. -/
def barExpected (w : W64) : Nat := fld w 0 16
def barArrived (w : W64) : Nat := fld w 16 16
def barPhase (w : W64) : W64 := (w >>> 32).setWidth 32 |>.setWidth 64

/-- R167: `none` for PROT 0x0E. -/
def arriveWord (w : W64) : Option W64 :=
  let n := barArrived w + 1
  if barExpected w = 0 || barExpected w ≤ barArrived w then none
  else if n = barExpected w then some (natW (barExpected w + (barPhase w + 1).toNat % 2 ^ 32 * 2 ^ 32))
  else some (natW (barExpected w + n * 2 ^ 16 + (barPhase w).toNat * 2 ^ 32))

/-- R181: the access meets the latest value. -/
def Spot.latest (s : State) (x : Spot) : Bool := !x.acc.glob || s.mem.latest x.die x.acc.loc x.acc.size

/-- What an atomic move does: the order of its path, the new value if it writes, the answer, or a failure. -/
structure Act where
  order : Order
  write : Option W64 := none
  fail : Option (Cause × Nat) := none
  /-- The choice of R54 that it is: KIND and VALUE. -/
  choice : Option (Nat × W64) := none
  deriving DecidableEq, Repr

def actOf (o : MemOp) (a : Access) (old : W64) : Act :=
  match o.kind with
  | .atm op | .red op => { order := o.order, write := some (bankNew op o.ty old a.data), choice := some (2, 0) }
  | .cas fail =>
    if old = a.cmp &&& (if o.ty.is64 then BitVec.allOnes 64 else 0xFFFFFFFF#64) then
      (if a.wr then { order := o.order, write := some a.data, choice := some (3, 1) }
       else { order := o.order, fail := some (.prot, if a.glob then 2 else 11) })
    else { order := fail, choice := some (3, 0) }
  | .arrive | .arw =>
    -- R169: the acquire part of `arw` belongs to its wait
    let order : Order := if releases o.order then .rel else .rlx
    match arriveWord old with
    | some w => { order, write := some w }
    | none => { order, fail := some (.prot, 14) }
  | _ => { order := o.order }

def OpKind.isAtomic : OpKind → Bool
  | .atm _ | .red _ | .cas _ | .arrive | .arw => true
  | _ => false

/-- The choice that an access makes at its site: on the die of its home, or of the scratchpad bank, whose site is the local
address (log entry 50). -/
def Spot.choice (x : Spot) (m : MemSys) (kind : Nat) : Choice :=
  { launch := x.launch.id, die := if x.acc.glob then m.homeDie x.acc.loc else x.die, kind, site := x.acc.va.toNat % 2 ^ 57
    team := x.team.number, gidx := x.g.gidx, lane := x.acc.lane, opn := Tab.get 0 x.g.opn x.acc.lane }

/-- What a gate and a value come to: go on, wait, or diverge. -/
inductive Verdict where
  | go | wait | diverge
  deriving DecidableEq, Repr

def Gate.verdict (g : Gate) (value : W64) : Verdict :=
  match g with
  | .wait => .wait
  | .diverged => .diverge
  | .forced e => if e.value = value then .go else .diverge
  | _ => .go

/-- The choice has been made: it is logged or used up, and its requester's count goes on (R312). -/
def choose (x : Spot) (kind : Nat) (g : Gate) (v : W64) : Prog Unit :=
  letI := Prog.monad
  do
    let s ← Prog.get
    accept (x.choice s.mem kind) g v
    Prog.when (g != .free) (modGroup x.team.uid x.g.gidx (fun y => { y with
      opn := Tab.set 0 y.opn x.acc.lane (Tab.get 0 y.opn x.acc.lane + 1) }))


/-- R182: the sc order that a fence takes its place in: device-wide, or one die's. -/
def scOrderOf (sc : Scope) (die : Nat) : Option Nat := if sc == .dev || sc == .sys then none else some die

/-- R182: an operation that is done in the sc order overtakes every `cas` with an earlier place whose threads are still to be
performed: they may no longer take the path that is at `.sc`. -/
def overtake (order : Option Nat) (n : Nat) : Prog Unit :=
  .read (fun s =>
    let before (g : Group) (o : MemOp) : Bool := o.halfSc && o.pendingAny && scOrderOf o.scope (dieOf g.core) == order
      && ((o.snap.map (fun x => decide (x.2.1 < n))).getD false)
    let mark (t : Team) : Team := { t with groups := t.groups.map (fun g => { g with stream := g.stream.map (fun o =>
      if before g o then { o with accs := o.accs.map (fun a => if a.waiting then { a with late := true } else a) } else o) }) }
    if s.teams.any (fun t => t.groups.any (fun g => g.stream.any (before g))) then Prog.act (.teams (s.teams.map mark) s.saved) else .pure ())

/-- The move itself, once nothing holds it back. Its reply is due, of `red` too (R165). -/
def performAct (r : GRef) (x : Spot) (old : W64) (undef : Bool) (y : Act) : Prog Unit :=
  letI := Prog.monad
  match y.fail with
  | some (c, d) => do
    let seq ← answered x 0
    moveOn r x.op.id x.acc.lane (fun a => { a with st := .failed c d, seq })
  | none => do
    noteEarly r.team x.g x.op x.acc y.order
    Prog.when x.acc.glob (touchHome x.key x.acc.loc true)
    (match y.write with
      | some v => writeAt x x.acc.size v
      | none => pure ())
    pass x
    (match x.op.snap with
      | some (_, n, _) => Prog.when (x.op.halfSc && y.order == .sc) (overtake (scOrderOf x.op.scope x.die) n)
      | none => pure ())
    let seq ← answered x old
    moveOn r x.op.id x.acc.lane (fun a => { a with st := .applied, old := if x.op.kind == .arw then barPhase old else old, undef, seq })

/-- A poisoned target: nothing is applied (R149). -/
def poisonedTarget (r : GRef) (x : Spot) : Prog Unit :=
  letI := Prog.monad
  do
    poisonEvent x
    let s ← Prog.get
    Prog.when (spotOf s r x.op.id x.acc.lane).isSome (do
      let seq ← (if x.op.kind == .emit then pure 0 else answered x 0)
      moveOn r x.op.id x.acc.lane (fun a => { a with seq, st := match x.op.kind with
        | .red _ | .ored => .done
        | _ => .failed .poison 0 }))

/-- The old value that an atomic move meets; inside a guarded range it is undefined. -/
def oldValue (s : State) (x : Spot) : Prog (W64 × Bool) :=
  letI := Prog.monad
  if x.guards.any (·.write) then do
    let u ← Prog.undef
    pure (u &&& BitVec.ofNat 64 (2 ^ (8 * x.acc.size) - 1), true)
  else do
    let v ← settleBytes (bytesAt s x.team x.die x.acc)
    pure (v, false)

/-- R182: the conditions of an sc fence that has its place. -/
def scReady (s : State) (die : Nat) (o : MemOp) (x : List Nat × Nat × Nat) : Bool :=
  let wide := o.scope == .dev || o.scope == .sys
  (!wide || s.mem.views.all (fun v => covers v.clock x.1))
    && s.dev.scOpen.all (fun e => !(e.2 == scOrderOf o.scope die && e.1 < x.2.1))
    && (o.scope != .sys || x.2.2 ≤ s.dev.hostDone)

/-- R177, R182: what the order of the path that an atomic takes waits for. A `cas` that a later operation has overtaken takes
no path that is an acquire; one that is an access at `.sc` on this path behaves as a fence first. -/
def Spot.pathReady (x : Spot) (s : State) (order : Order) : Bool :=
  mayPerformEarly s x.team.uid x.g x.op x.acc order && !earlyHeld s x.team.uid x.g x.op.split x.op.scope x.acc order
    && !(x.acc.passed && acquires order)
    && !(x.op.halfSc && order == .sc && x.acc.late)
    && !(x.op.halfSc && order == .sc && !(match x.op.snap with
      | some p => scReady s x.die x.op p
      | none => false))

/-- An atomic, reduction, `cas` or arrival at its home. -/
def atomicMove (r : GRef) (x : Spot) : Prog Unit :=
  letI := Prog.monad
  do
    let s ← Prog.get
    let v ← oldValue s x
    let y := actOf x.op x.acc v.1
    if !x.pathReady s y.order then pure ()
    else match y.choice with
      | none => performAct r x v.1 false y
      | some (kind, value) =>
        let c := x.choice s.mem kind
        let gate := gateOf s c
        match gate.verdict value with
        | .wait => pure ()
        | .diverge => diverge x.launch.id c.die
        | .go => do
          choose x kind gate value
          performAct r x v.1 false y

/-! ### `emit` (R51, R52, R299, R300) -/

/-- The pieces of a ring slot: at most 8 bytes each, within 4 KiB units. -/
def slotPieces (ring : W64) (rsize k : Nat) : List W64 :=
  (List.range (rsize / 8)).map (fun i => ring + natW (rsize * k + 8 * i))

/-- An append at the node's home. The descriptor stands at the access; `data` is the record's local address. -/
def appendMove (r : GRef) (x : Spot) : Prog Unit :=
  letI := Prog.monad
  do
    let s ← Prog.get
    let pa := x.acc.loc
    let n := nodeOf s.mem pa
    let choice := x.choice s.mem 5
    let failed (c : Cause) (d : Nat) : Prog Unit := moveOn r x.op.id x.acc.lane (fun a => { a with st := .failed c d })
    if n.flushed || n.bad (s.dev.nodeDesc x.key x.acc.va) then failed .prot 19
    else if x.launch.desc.localSize < x.acc.data.toNat + n.rsize then failed .prot 10
    else if n.tail - n.head = n.cap || n.tail < n.head then
      Prog.when (!x.acc.full) (modGroup r.team r.gidx (fun g => g.modOp x.op.id (fun o => o.setAccess x.acc.lane (fun a => { a with full := true }))))
    else do
      let gate := gateOf s choice
      match gate.verdict 0 with
      | .wait => pure ()
      | .diverge => diverge x.launch.id choice.die
      | .go => do
        let rs ← Prog.collect (slotPieces n.ring n.rsize (n.tail % n.cap)) (fun va => do
          let p ← translate x.g.core x.die x.key x.op.sup .write va
          pure (match p with
            | .ok (a, _) => if inPeer a then (.error (.prot, 12) : Except (Cause × Nat) Nat) else .ok a
            | .error e => .error e))
        match (rs.filterMap (fun p => match p with
          | .error e => some e
          | .ok _ => none)).head? with
        | some (c, d) => failed c d
        | none => do
          let w ← fillBlocks x.g.core x.key x.op.sup r.team (x.team.missingBlocks x.acc.data.toNat n.rsize)
          match w with
          | some (c, d, _) => failed c d
          | none => match (((s.team? r.team).map (fun t => t.badWord x.acc.data.toNat n.rsize)).getD none) with
          | some w => lateBadWord r x w
          | none => do
            choose x 5 gate 0
            noteEarly r.team x.g x.op x.acc x.op.order
            Prog.each ((List.range rs.length).zip rs) (fun p => match p.2 with
              | .ok a => do
                let t ← getTeam x.team.uid
                let v ← settleBytes (t.localBytes (x.acc.data.toNat + 8 * p.1) 8)
                commitCells x.die (cellsAt a 8 v) x.team.uid x.g.gidx x.op.split
                spoilSets x.die a 8
                spoilForests x.die a 8
              | .error _ => .pure ())
            setNodeWord s.mem pa 16 8 (natW (n.tail + 1))
            Prog.when (max 1 n.coal ≤ n.tail + 1 - n.formed) (setNodeWord s.mem pa 24 8 (natW (n.formed + max 1 n.coal)))
            pass x
            moveOn r x.op.id x.acc.lane (fun a => { a with st := .done })

def execAtomic (r : GRef) (op lane : Nat) (s : State) : Host.Outcome State Fault Refusal :=
  (Prog.read (fun s => match spotOf s r op lane with
    | none => .pure ()
    | some x =>
      if x.acc.st != .waiting || !mayRequest s x then .pure ()
      else if x.op.kind == .emit then
        (if mayPerformEarly s r.team x.g x.op x.acc x.op.order && !earlyHeld s r.team x.g x.op.split x.op.scope x.acc x.op.order then
          consumeAt r op lane x x.acc.size (poisonedTarget r) (fun x => Prog.bind (touchHome x.key x.acc.loc true) (fun _ => appendMove r x))
         else .pure ())
      else if !x.op.kind.isAtomic || !x.latest s || !mayPerformEarly s r.team x.g x.op x.acc .rlx then .pure ()
      else if x.acc.glob then consumeAt r op lane x x.acc.size (poisonedTarget r) (atomicMove r)
      else match x.badWord with
        | some w => lateBadWord r x w
        | none => atomicMove r x)).run s

/-- R164: when only refused threads remain, the split waits for a freed entry or 1024 cycles. -/
def parkRetry (r : GRef) (op : Nat) : Prog Unit :=
  .read (fun s => match s.group? r.team r.gidx with
    | none => .pure ()
    | some g => match g.op? op with
      | none => .pure ()
      | some o =>
        if o.accs.any (fun a => a.st == .refused) && o.accs.all (fun a => a.st != .waiting && a.st != .applied) then
          modGroup r.team r.gidx (fun g => { g with splits := g.splits.map (fun x =>
            if x.wait = .op op then { x with wait := .retry op ((s.dev.core g.core).cycle.toNat + 1024) } else x) })
        else .pure ())

/-- R160, R164, R169: the reply. -/
def execAtomicReply (r : GRef) (op lane : Nat) (s : State) : Host.Outcome State Fault Refusal :=
  letI := Prog.monad
  (Prog.read (fun s => match spotOf s r op lane with
    | none => .pure ()
    | some x =>
      if !x.acc.replyDue then .pure ()
      -- R317: with the answer to a pass the next one begins
      else if x.acc.fs.more then moveOn r op lane (fun a => { a with fs := { a.fs with more := false } })
      else match x.op.kind with
        | .atm _ | .cas _ | .forest _ _ => do
          let v ← (if x.acc.undef then Prog.undef else pure x.acc.old)
          modGroup r.team r.gidx (fun g => (if x.op.g then [lane] else lanesOf 128 (x.op.threadsOf x.acc)).foldl
            (fun g t => g.putLate x.op t v) g)
          moveOn r op lane (fun a => { a with st := .done })
        | .arw => moveOn r op lane (fun a => { a with st := .arrived })
        | .ored => do
          moveOn r op lane (fun a => { a with st := .done })
          parkRetry r op
        | _ => moveOn r op lane (fun a => { a with st := .done }))).run s

/-- R165: a request whose reply was lost is sent again; the target answers from what it kept and applies nothing. -/
def execRequestResend (r : GRef) (op lane : Nat) (s : State) : Host.Outcome State Fault Refusal :=
  (Prog.read (fun s => match spotOf s r op lane with
    | none => .pure ()
    | some x =>
      if !x.acc.replyDue then .pure ()
      else match s.dev.answers.find? (fun a => a.1 == x.g.core && a.2.1 == targetUnit s x && a.2.2.1 == x.acc.seq) with
        | none => .pure ()
        | some a => modGroup r.team r.gidx (fun g => g.modOp op (fun o => o.setAccess lane (fun y => { y with
            old := if x.op.kind == .arw then barPhase a.2.2.2 else a.2.2.2 }))))).run s

/-! ### Ordered reductions (R162 to R164, R181) -/

/-- The fields of a set. -/
structure OredSet where
  value : W64
  next : Nat
  n : Nat
  op : Nat
  rest : Nat
  deriving DecidableEq, Repr

def oredSet (lo hi : W64) : OredSet :=
  { value := lo, next := lo32 hi, n := fld hi 32 24, op := fld hi 56 4, rest := fld hi 60 4 }

/-- R162: the operation of a well-formed CTL. -/
def OredSet.fold? (x : OredSet) (ty : Ty) : Option AtmOp :=
  if x.n = 0 || x.rest != 0 then none
  else match x.op with
    | 0 => some .add
    | 1 => some .min
    | 2 => some .max
    | 3 => if ty.isFlt then none else some .and
    | 4 => if ty.isFlt then none else some .or
    | 5 => if ty.isFlt then none else some .xor
    | _ => none

/-- The bytes of VALUE that a type uses. -/
def valueOf (ty : Ty) (v : W64) : W64 := if ty.is64 then v else v &&& 0xFFFFFFFF#64

/-- The cells that one application writes: VALUE and NEXT. -/
def oredCells (a : Nat) (ty : Ty) (v : W64) (next : Nat) : List (Nat × Byte) :=
  cellsAt a (tyBytes ty) v ++ cellsAt (a + 8) 4 (natW next)

def generalEntries : Nat := 63

/-- Held contributions of a unit's own buffer. -/
def bufferUse (m : MemSys) (unit_ : Nat) : Nat := (m.ored.filter (fun h => h.slice == unit_ && !h.migrated)).length

/-- A split of the group waits to send to a unit again. -/
def Group.retriesAt (g : Group) (m : MemSys) (unit_ : Nat) (x : Split) : Bool :=
  match x.wait with
  | .retry op _ => ((g.op? op).map (fun o => o.accs.any (fun a => a.st == .refused && a.glob && m.homeUnit a.loc == unit_))).getD false
  | _ => false

/-- R164: the unit reports a freed entry: splits that wait to send to it again may do so at once. -/
def reportFreed (unit_ : Nat) : Prog Unit :=
  .read (fun s =>
    let again (t : Team) : Team := { t with groups := t.groups.map (fun g => { g with splits := g.splits.map (fun x =>
      match x.wait with
      | .retry op _ => if g.retriesAt s.mem unit_ x then { x with wait := .retry op 0 } else x
      | _ => x) }) }
    if (s.teams ++ s.saved).any (fun t => t.groups.any (fun g => g.splits.any (g.retriesAt s.mem unit_))) then
      Prog.act (.teams (s.teams.map again) (s.saved.map again))
    else .pure ())

/-- The k-th held contribution, if its home die may apply it now. -/
inductive HeldStep where
  | wait
  | drop
  | apply (cells : List (Nat × Byte))

def heldStep (m : MemSys) (h : Held) : HeldStep :=
  let die := m.homeDie h.set_
  if !(covers (m.views.getD die {}).clock h.clock && m.latest die h.set_ 16) then .wait
  else
    let x := oredSet (m.word die h.set_ 8) (m.word die (h.set_ + 8) 8)
    match x.fold? h.ty with
    | none => .drop
    | some op =>
      if h.idx < x.next || x.n ≤ h.idx then .drop
      -- R162: software has stored to the set: no contribution need ever make it the next one
      else if x.next < h.idx then (if h.spoilt then .drop else .wait)
      else .apply (oredCells h.set_ h.ty (bankNew op h.ty (valueOf h.ty x.value) h.x) (x.next + 1))

/-- One held contribution is applied, or dropped where its set has become undefined (R162). -/
def applyHeld (k : Nat) : Prog Bool :=
  letI := Prog.monad
  do
    let s ← Prog.get
    match s.mem.ored[k]? with
    | none => pure false
    | some h =>
      let leave : Prog Bool := do
        let s ← Prog.get
        Prog.act (.mem (.ored (s.mem.ored.eraseIdx k)))
        reportFreed h.slice
        pure true
      let bad ← consume h.key h.set_ 16
      if bad then do
        raiseEvent { cls := 3, src := 5, slot := some h.key, part := none, unit_ := sliceUnit s.mem h.set_, addr := natW h.set_ }
        leave
      else match heldStep s.mem h with
        | .wait => pure false
        | .drop => leave
        | .apply cells => do
          touchHome h.key h.set_ true
          commitPlain (s.mem.homeDie h.set_) cells
          spoilForests (s.mem.homeDie h.set_) h.set_ 16
          leave

/-- R163: Drain, as far as the home die's clock allows (R181). -/
def drainSet (set_ : Nat) : Prog Unit :=
  Prog.loop 128 (.read (fun s =>
    match (List.range s.mem.ored.length).find? (fun k => match s.mem.ored[k]? with
      | some h => h.set_ == set_ && (match heldStep s.mem h with
        | .wait => false
        | _ => true)
      | none => false) with
    | some k => applyHeld k
    | none => .pure false))

def execOredHeldApply (k : Nat) (s : State) : Host.Outcome State Fault Refusal :=
  letI := Prog.monad
  (do
    let s ← Prog.get
    match s.mem.ored[k]? with
    | none => pure ()
    | some h => do
      let _ ← applyHeld k
      drainSet h.set_ : Prog Unit).run s

/-- R163: what a home unit answers. -/
inductive OredAnswer where
  | accepted | refused | invalid
  deriving DecidableEq, Repr

def OredAnswer.state : OredAnswer → AccState
  | .accepted => .applied
  | .refused => .refused
  | .invalid => .failed .prot 9
/-- The answer as the unit keeps it (R165). -/
def OredAnswer.code : OredAnswer → W64
  | .accepted => 0
  | .refused => 1
  | .invalid => 2

/-- R163: the arrival of a contribution at its home unit. -/
def oredMove (r : GRef) (op lane : Nat) (x : Spot) : Prog Unit :=
  letI := Prog.monad
  do
    let s ← Prog.get
    let lo ← settleBytes (bytesAt s x.team x.die { x.acc with size := 8 })
    let hi ← settleBytes (bytesAt s x.team x.die { x.acc with loc := x.acc.loc + 8, size := 8 })
    let w := oredSet lo hi
    let i := lo32 x.acc.cmp
    let slice := s.mem.homeUnit x.acc.loc
    let held := x.acc.glob && s.mem.ored.any (fun h => h.set_ == x.acc.loc && h.idx == i)
    let answer (y : OredAnswer) : Prog Unit := do
      Prog.when (y == .accepted) (pass x)
      let seq ← answered x y.code
      moveOn r op lane (fun a => { a with st := y.state, seq })
      parkRetry r op
    match w.fold? x.op.ty with
    | none => answer .invalid
    | some f =>
      if i < w.next || w.n ≤ i || held then answer .invalid
      else if i = w.next then do
        noteEarly r.team x.g x.op x.acc x.op.order
        let v := bankNew f x.op.ty (valueOf x.op.ty w.value) x.acc.data
        if x.acc.glob then do
          touchHome x.key x.acc.loc true
          commitCells x.die (oredCells x.acc.loc x.op.ty v (w.next + 1)) x.team.uid x.g.gidx x.op.split
          spoilForests x.die x.acc.loc 16
        else modTeam r.team (fun t => (t.storeLocal x.guards x.acc.loc ((bytesOf (tyBytes x.op.ty) v.toNat).map some)).storeLocal
          x.guards (x.acc.loc + 8) ((bytesOf 4 (w.next + 1)).map some))
        Prog.when x.acc.glob (drainSet x.acc.loc)
        answer .accepted
      else if x.acc.glob && bufferUse s.mem slice < generalEntries then do
        noteEarly r.team x.g x.op x.acc x.op.order
        Prog.act (.mem (.ored (s.mem.ored ++ [{ key := x.key, slice, set_ := x.acc.loc, ty := x.op.ty, idx := i, x := x.acc.data
                                                clock := (s.mem.views.getD x.die {}).clock }])))
        answer .accepted
      else answer .refused

def execOredArrive (r : GRef) (op lane : Nat) (s : State) : Host.Outcome State Fault Refusal :=
  letI := Prog.monad
  (Prog.read (fun s => match spotOf s r op lane with
    | none => .pure ()
    | some x =>
      if !(x.op.kind == .ored && x.acc.st == .waiting && mayRequest s x && x.latest s && x.pathReady s x.op.order) then .pure ()
      else if x.acc.glob then
        consumeAt r op lane x 16 (fun x => do
          poisonedTarget r x
          parkRetry r op) (oredMove r op lane)
      else match x.badWord with
        | some w => Prog.bind (lateBadWord r x w) (fun _ => parkRetry r op)
        | none => oredMove r op lane x)).run s

/-- R164: only the refused threads are sent again. -/
def execOredRetry (r : GRef) (op : Nat) (s : State) : Host.Outcome State Fault Refusal :=
  (Prog.read (fun s => match s.group? r.team r.gidx with
    | none => .pure ()
    | some g =>
      let due (x : Split) : Bool := match x.wait with
        | .retry id c => id == op && c ≤ (s.dev.core g.core).cycle.toNat
        | _ => false
      if !g.splits.any due then .pure ()
      else modGroup r.team r.gidx (fun g => (g.modOp op (fun o => { o with accs := o.accs.map (fun a =>
          if a.st = .refused then { a with st := .waiting } else a) })).wake (fun x => if due x then { x with wait := .op op } else x)))).run s

/-! ### COMPLETE (R168, R169, R182) -/

/-- What a fence waits for beside its place in the sc order. Its release may be done before what it should wait for, and
then binds only the acquirers that its scope covers (R178). -/
def fenceReady (s : State) (u : Nat) (g : Group) (o : MemOp) : Bool :=
  (g.before o.split o.id).all (fun f => !holdsBackAnyway f { access := none, fence := some o.order }) && !fenceHeld s u g o
    && (releaseWhole s u g o o.order || earlySafe s u g o none)

def endFence (u gi : Nat) (o : MemOp) : Prog Unit :=
  letI := Prog.monad
  do
    let s ← Prog.get
    let g ← getGroup u gi
    Prog.when (!releaseWhole s u g o o.order) (Prog.modDev (fun d => { d with early := d.early ++
      [{ team := u, gidx := gi, split := o.split, scope := o.scope, glob := true, loc := 0, size := 0, before := releaseWaits s g o o.order }] }))
    modGroup u gi (fun g => (g.passCas o.split o.id).dropOp o.id)
    (match o.snap with
      | some (_, n, _) => do
        Prog.modDev (fun d => { d with scOpen := d.scOpen.filter (fun e => e.1 != n) })
        overtake (scOrderOf o.scope (dieOf g.core)) n
      | none => pure ())
    lookAgain u gi
    pokeFences u gi

/-- R182: an operation takes its place in the sc order once every earlier operation of its split is done. -/
def takePlace (u gi : Nat) (g : Group) (o : MemOp) : Prog Unit :=
  letI := Prog.monad
  do
    let s ← Prog.get
    if o.snap.isSome || !o.pendingAny || (g.before o.split o.id).any MemOp.openAny then pure ()
    else do
      let n := s.dev.scNext
      let die := dieOf g.core
      let x : List Nat × Nat × Nat := ((s.mem.views.getD die {}).clock, n, s.dev.hostIn)
      modGroup u gi (fun g => g.modOp o.id (fun y => { y with snap := some x }))
      -- a `cas` holds up no fence: it may take its other path
      Prog.modDev (fun d => { d with scNext := n + 1, scOpen := if o.halfSc then d.scOpen else d.scOpen ++ [(n, scOrderOf o.scope die)] })

def completeFence (u gi : Nat) (g : Group) (o : MemOp) : Prog Unit :=
  letI := Prog.monad
  do
    let s ← Prog.get
    if o.order != .sc then (if fenceReady s u g o then endFence u gi o else pure ())
    else match o.snap with
      | some x => if scReady s (dieOf g.core) o x && !fenceHeld s u g o then endFence u gi o else pure ()
      | none => takePlace u gi g o

/-- R168: the accesses of a wait that nothing holds back and whose phase has changed; of a phase that is undefined any value
may be seen. -/
def endedWaits (s : State) (t : Team) (g : Group) (o : MemOp) : Prog (List Nat) :=
  letI := Prog.monad
  do
    let free := o.accs.filter (fun a =>
      (a.st == .arrived || (o.kind == .waitb && a.st == .waiting && (g.before o.split o.id).all (fun f => !holdsBack s.mem (dieOf g.core) f
        { access := none }))) && !earlyHeld s t.uid g o.split o.scope a o.order)
    let l ← Prog.collect free (fun a => do
      let phase ← settleBytes (t.localBytes (a.loc + 4) 4)
      pure (a.lane, phase != (if o.kind == .arw then a.old else a.cmp &&& 0xFFFFFFFF#64)))
    pure ((l.filter (·.2)).map (·.1))

def completeWait (u gi : Nat) (t : Team) (g : Group) (o : MemOp) : Prog Unit :=
  letI := Prog.monad
  do
    let s ← Prog.get
    let ls ← endedWaits s t g o
    if ls.isEmpty then pure ()
    else do
      Prog.each (o.accs.filter (fun a => ls.contains a.lane)) (fun a => noteEarly u g { o with kind := .waitb } a o.order)
      modGroup u gi (fun g => (g.passCas o.split o.id).modOp o.id (fun y => { y with
        accs := y.accs.map (fun a => if ls.contains a.lane then { a with st := .done } else a) }))
      closeOp u gi o.id
      pokeFences u gi

/-- COMPLETE with the name 0 looks at the group's waits again. -/
def execComplete (r : GRef) (op : Nat) (s : State) : Host.Outcome State Fault Refusal :=
  letI := Prog.monad
  (Prog.read (fun s => match s.team? r.team, s.group? r.team r.gidx with
    | some t, some g =>
      if op = 0 then lookAgain r.team r.gidx
      else match g.op? op with
        | none => .pure ()
        | some o => match o.kind with
          | .fence => completeFence r.team r.gidx g o
          | .waitb | .arw => do
            completeWait r.team r.gidx t g o
            closeOp r.team r.gidx op
          | _ => do
            Prog.when o.halfSc (takePlace r.team r.gidx g o)
            closeOp r.team r.gidx op
    | _, _ => .pure ())).run s

/-! ### WINDOW_FILL (R109) -/

/-- A fill block read ahead of need. A block whose translation fails stays invalid, and the access that needs it fills it at
its own level or takes the trap. -/
def execWindowFill (team win blk : Nat) (s : State) : Host.Outcome State Fault Refusal :=
  letI := Prog.monad
  (Prog.read (fun s => match s.team? team with
    | none => .pure ()
    | some t => match s.launch? t.launch, t.windows[win]? with
      | some l, some w =>
        if w.mode = 0 || w.len ≤ 512 * blk || w.valid.contains blk then .pure ()
        else if !clockOk s t (dieOf t.core0) then .pure ()
        else Prog.bind (fillBlock t.core0 l.cmd.slot false team win w blk) (fun _ => .pure ())
      | _, _ => .pure ())).run s

end Sys2Proof.Machine
end

