-- ==== Sys2Proof/Machine/Forest.lean ====
section
/-! DEFINITION. The equivalence engine (R307, R315 to R328): the forms of class 12, the steps of forest instructions, and
`relabel`. -/
namespace Sys2Proof.Machine

/-! ### Forms (R316, R318) -/

/-- Operand A of a form: the descriptor's address, its place, and what it holds (R316). -/
def forestOperand (e : Env) (f : W64) (reset : Bool) : Prog (W64 × Nat × Forest) :=
  letI := Prog.monad
  do
    let s ← Prog.get
    let fdt := (s.dev.slot e.key).fdt
    let va := fdt + natW (128 * lo32 f)
    if fdt = 0 || 64 ≤ lo32 f then engineTrap e (.prot, 20, none)
    else do
      let pa ← demandPa e .read va
      if inPeer pa then engineTrap e (.prot, 12, some va)
      else do
        let ws ← ownWords e va pa 16
        let d := Forest.ofWords (fun k => ws.getD k 0)
        if d.bad reset then engineTrap e (.prot, 20, none) else pure (va, pa, d)

/-- Where a thread's instruction starts. -/
def startState (f : ForestOp) (a b : W32) : ForestState :=
  match f with
  | .unite | .find | .csize => { phase := .rootA, a, b, y := a, rb := b }
  | _ => {}
def startAccess (f : ForestOp) (x : Access) : Access := { x with fs := startState f (x.data.setWidth 32) (x.cmp.setWidth 32) }

/-- R317: the virtual ranges that a forest instruction may touch beside its descriptor. -/
def Forest.spans (f : Forest) : List (Nat × Nat) :=
  [(f.parent.toNat, 4 * f.n), (f.size.toNat, 4 * f.n), (f.dust.toNat, 16 * f.dlimit)]

/-- A form that joins the issue stream, one access for each performance. Its steps are taken to touch all of the forest's
arrays (R177, R317). -/
def forestForm (i : Instr) (h : Head) (f : ForestOp) (dest : Option Res) (elems : List Nat) (whole waits : Bool) : Prog Unit :=
  letI := Prog.monad
  instruction i h (fun e =>
    if !e.active then retire e
    else do
      let rows ← operands e h.lits (Instr.shape i)
      let d ← forestOperand e ((firstRow rows).getD 0 0) (f == .freset)
      let bad := rows.filter (fun r => elems.any (fun k => d.2.2.n ≤ lo32 (r.2.getD k 0)))
      if !bad.isEmpty then trap e .prot 21 (maskOf ((e.spread (bad.map (fun r => (r.1, ())))).map (·.1)))
      else do
        e.modGroup Group.closeRegion
        let rows := if whole then rows.take 1 else rows
        let accs : List Access := rows.map (fun r => { lane := r.1, va := d.1, glob := true, loc := d.2.1, size := 128
                                                       data := natW (lo32 (r.2.getD 1 0)), cmp := natW (lo32 (r.2.getD 2 0)) })
        let id ← joinStream e (.forest f d.2.1) .n32 .rlx .dev dest (accs.map (startAccess f)) 0 d.2.2.spans
        if waits then retireWaiting e (.op id) else retire e)

def execUnite (h : Head) (r : Res) (a b c : Src) (s : State) : Host.Outcome State Fault Refusal :=
  (forestForm (.unite h r a b c) h .unite (some r) [1, 2] false false).run s
def execFind (h : Head) (r : Res) (a b : Src) (s : State) : Host.Outcome State Fault Refusal :=
  (forestForm (.find h r a b) h .find (some r) [1] false false).run s
def execCsize (h : Head) (r : Res) (a b : Src) (s : State) : Host.Outcome State Fault Refusal :=
  (forestForm (.csize h r a b) h .csize (some r) [1] false false).run s
def execFcount (h : Head) (r : Res) (a : Src) (sel : BitVec 2) (s : State) : Host.Outcome State Fault Refusal :=
  (forestForm (.fcount h r a sel) h (.fcount sel) (some r) [] true false).run s
def execFsnap (h : Head) (a : Src) (s : State) : Host.Outcome State Fault Refusal :=
  (forestForm (.fsnap h a) h .fsnap none [] true false).run s
def execFundo (h : Head) (a : Src) (s : State) : Host.Outcome State Fault Refusal :=
  (forestForm (.fundo h a) h .fundo none [] true false).run s
def execFreset (h : Head) (a : Src) (s : State) : Host.Outcome State Fault Refusal :=
  (forestForm (.freset h a) h .freset none [] true true).run s

/-! ### The engine's accesses (R316, R317) -/

/-- How a step ends early. -/
inductive FEnd where
  /-- A location is not at its latest value on the issuer's die. -/
  | wait
  /-- PARENT[y] > y (R319). -/
  | broken
  | fail (c : Cause) (d : Nat) (va : W64)
  /-- R324: with TAUX. -/
  | dust (d : Nat) (taux : W64)
  deriving DecidableEq, Repr

/-- A step's seat: who translates, where it reads, and the writes that it is going to make. -/
structure Seat where
  agent : Nat
  die : Nat
  key : SlotKey
  sup : Bool
  /-- The team, group and split whose instruction it is. -/
  own : Option (Nat × Nat × Nat) := none

abbrev Writes := List (Nat × W32)

def Writes.find (w : Writes) (pa : Nat) : Option W32 := (w.reverse.find? (fun x => x.1 == pa)).map (·.2)

/-- R177, R178, R181: the agent may read n bytes: they are at their latest values, and none of them was written by another
split's early release that is still to be seen by nobody. -/
def Seat.sees (x : Seat) (s : State) (pa n : Nat) : Bool :=
  s.mem.latest x.die pa n && !s.dev.early.any (fun e => e.glob && pa < e.loc + e.size && e.loc < pa + n && !e.lax && e.open_ s
    && (match x.own with
      | some o => e.foreign o.1 o.2.1 o.2.2
      | none => true))

/-- The place of a 32-bit word of an array. -/
def Seat.place (x : Seat) (va : W64) : Prog (Except FEnd Nat) :=
  letI := Prog.monad
  do
    let r ← translate x.agent x.die x.key x.sup .both va
    match r with
    | .error (c, d) => pure (.error (.fail c d va))
    | .ok (pa, _) =>
      if inPeer pa then pure (.error (.fail .prot 12 va))
      else do
        let bad ← consume x.key pa 4
        let s ← Prog.get
        pure (if bad then .error (.fail .poison 0 va) else if x.sees s pa 4 then .ok pa else .error .wait)

/-- A 32-bit word and its place, behind the step's own writes. -/
def Seat.word (x : Seat) (w : Writes) (va : W64) : Prog (Except FEnd (Nat × Nat)) :=
  letI := Prog.monad
  do
    let p ← x.place va
    let s ← Prog.get
    pure (match p with
      | .error e => .error e
      | .ok pa => .ok (pa, ((Writes.find w pa).map (fun v => v.toNat)).getD (s.mem.word x.die pa 4).toNat))

def ok? {α β : Type} (p : Prog (Except FEnd α)) (f : α → Prog (Except FEnd β)) : Prog (Except FEnd β) :=
  Prog.bind p (fun r => match r with
    | .error e => .pure (.error e)
    | .ok a => f a)

def Forest.parentAt (f : Forest) (i : Nat) : W64 := f.parent + natW (4 * i)
def Forest.sizeAt (f : Forest) (i : Nat) : W64 := f.size + natW (4 * i)

/-! ### Passes (R319) -/

/-- Up to `n` hops of a root pass from y: the root and its SIZE, or where the next pass starts. -/
def rootPass (x : Seat) (f : Forest) : Nat → Nat → Prog (Except FEnd (Sum (Nat × Nat) Nat))
  | 0, y => .pure (.ok (.inr y))
  | n + 1, y =>
    ok? (x.word [] (f.parentAt y)) (fun p =>
      if p.2 = y then ok? (x.word [] (f.sizeAt y)) (fun z => .pure (.ok (.inl (y, z.2))))
      else if y < p.2 then .pure (.error .broken)
      else rootPass x f n p.2)

/-- Up to `n` hops of a compression pass from y towards r: its writes, and where the next pass starts. -/
def compressPass (x : Seat) (f : Forest) (r : Nat) : Nat → Nat → Writes → Prog (Except FEnd (Writes × Option Nat))
  | 0, y, w => .pure (.ok (w, some y))
  | n + 1, y, w =>
    if y ≤ r then .pure (.ok (w, none))
    else ok? (x.word w (f.parentAt y)) (fun p =>
      if y < p.2 then .pure (.error .broken)
      else compressPass x f r n p.2 (if p.2 = r then w else w ++ [(p.1, w32 r)]))

def passHops : Nat := 256

/-! ### Steps -/

/-- What a step comes to. -/
inductive ForestMove where
  | next (fs : ForestState) (w : Writes)
  /-- The instruction's result, its writes, and whether the forest's classes changed. -/
  | done (v : W64) (w : Writes) (changes : Bool)
  deriving DecidableEq, Repr

/-- A seat of an issue stream's operation. -/
def Spot.seat (x : Spot) : Seat :=
  { agent := x.g.core, die := x.die, key := x.key, sup := x.op.sup, own := some (x.team.uid, x.g.gidx, x.op.split) }

/-- Writes of descriptor fields, at byte offsets. -/
def descWrites (pa : Nat) (l : List (Nat × Nat)) : Writes := l.map (fun p => (pa + p.1, w32 p.2))

/-- R324. -/
def dustTaux (f : Forest) (num : Nat) : W64 := natW (num + f.nmark * 256 + f.dptr * 2 ^ 32)

/-- LinkStep of R320: `none` for RETRY, else the word and the writes. -/
def linkStep (x : Seat) (f : Forest) (pa num ra rb : Nat) : Prog (Except FEnd (Option (Nat × Writes × Bool))) :=
  ok? (x.word [] (f.parentAt ra)) (fun pra => ok? (x.word [] (f.parentAt rb)) (fun prb =>
    if pra.2 != ra || prb.2 != rb then .pure (.ok none)
    else if ra = rb then .pure (.ok (some (2 ^ 31 + ra, [], false)))
    else if f.nmark != 0 && f.dptr = f.dlimit then .pure (.error (.dust 1 (dustTaux f num)))
    else
      let lo := min ra rb
      let hi := max ra rb
      ok? (x.word [] (f.sizeAt lo)) (fun slo => ok? (x.word [] (f.sizeAt hi)) (fun shi =>
        let size := (slo.2 + shi.2) % 2 ^ 32
        let link : Writes := [((if ra = hi then pra else prb).1, w32 lo), (slo.1, w32 size)]
          ++ descWrites pa [(36, f.ccount + 2 ^ 32 - 1), (40, max f.lclass size)]
        if f.nmark = 0 then .pure (.ok (some (lo, link, true)))
        else
          let at_ (j : Nat) : W64 := f.dust + natW (16 * f.dptr + 4 * j)
          ok? (x.place (at_ 0)) (fun d0 => ok? (x.place (at_ 1)) (fun d1 => ok? (x.place (at_ 2)) (fun d2 => ok? (x.place (at_ 3)) (fun d3 =>
            .pure (.ok (some (lo, [(d0, w32 hi), (d1, w32 lo), (d2, w32 slo.2), (d3, w32 f.lclass)] ++ link
              ++ descWrites pa [(32, f.dptr + 1)], true)))))))))))

/-- The entries that `fundo` reverses, newest first: PARENT and SIZE. The count and the last OLCLASS are kept. -/
def undoEntries (x : Seat) (f : Forest) : List Nat → Writes → Nat → Prog (Except FEnd (Writes × Nat))
  | [], w, lc => .pure (.ok (w, lc))
  | k :: t, w, _ =>
    let at_ (j : Nat) : W64 := f.dust + natW (16 * k + 4 * j)
    ok? (x.word w (at_ 0)) (fun c => ok? (x.word w (at_ 1)) (fun r => ok? (x.word w (at_ 2)) (fun o => ok? (x.word w (at_ 3)) (fun l =>
      ok? (x.place (f.parentAt c.2)) (fun pc => ok? (x.place (f.sizeAt r.2)) (fun pr =>
        undoEntries x f t (w ++ [(pc, w32 c.2), (pr, w32 o.2)]) l.2))))))

/-- PARENT and SIZE of every element as `freset` sets them. -/
def resetEntries (x : Seat) (f : Forest) : List Nat → Writes → Prog (Except FEnd Writes)
  | [], w => .pure (.ok w)
  | i :: t, w => ok? (x.place (f.parentAt i)) (fun p => ok? (x.place (f.sizeAt i)) (fun z =>
      resetEntries x f t (w ++ [(p, w32 i), (z, 1)])))

/-- One step of a forest instruction in one thread. -/
def forestMove (x : Seat) (m : MemSys) (pa num : Nat) (op : ForestOp) (fs : ForestState) : Prog (Except FEnd ForestMove) :=
  let f := forestOf m x.die pa
  let root (k : Nat × Nat → ForestMove) (again : Nat → ForestMove) : Prog (Except FEnd ForestMove) :=
    ok? (rootPass x f passHops fs.y.toNat) (fun r => .pure (.ok (match r with
      | .inl p => k p
      | .inr y => again y)))
  let compress (r : Nat) (done : Writes → ForestMove) : Prog (Except FEnd ForestMove) :=
    if f.nmark != 0 then .pure (.ok (done []))
    else ok? (compressPass x f r passHops fs.y.toNat []) (fun p => .pure (.ok (match p.2 with
      | none => done p.1
      | some y => .next { fs with y := w32 y } p.1)))
  match op, fs.phase with
  | .unite, .rootA => root (fun p => .next { fs with phase := .rootB, ra := w32 p.1, y := fs.rb } []) (fun y => .next { fs with y := w32 y } [])
  | .unite, .rootB => root (fun p => .next { fs with phase := .link, rb := w32 p.1 } []) (fun y => .next { fs with y := w32 y } [])
  | .unite, .link =>
    ok? (linkStep x f pa num fs.ra.toNat fs.rb.toNat) (fun l => .pure (.ok (match l with
      | none => .next { fs with phase := .rootA, y := fs.ra } []
      | some r => .next { fs with phase := .compressA, y := fs.a, w := w32 r.1 } r.2.1)))
  | .unite, .compressA =>
    compress (fs.w.toNat % 2 ^ 31) (fun w => .next { fs with phase := .compressB, y := fs.b } w)
  | .unite, .compressB => compress (fs.w.toNat % 2 ^ 31) (fun w => .done (natW fs.w.toNat) w false)
  | .find, .compressA => compress fs.ra.toNat (fun w => .done (natW fs.ra.toNat) w false)
  | .csize, .compressA => compress fs.ra.toNat (fun w => .done (natW fs.size.toNat) w false)
  | .find, _ | .csize, _ =>
    root (fun p => .next { fs with phase := .compressA, ra := w32 p.1, size := w32 p.2, y := fs.a } []) (fun y => .next { fs with y := w32 y } [])
  | .fcount sel, _ => .pure (.ok (.done (natW (match sel with
      | 0 => f.ccount
      | 1 => f.lclass
      | 2 => f.nmark
      | _ => f.dptr)) [] false))
  | .fsnap, _ =>
    if f.nmark = 8 then .pure (.error (.dust 2 (dustTaux f num)))
    else .pure (.ok (.done 0 (descWrites pa [(64 + 4 * f.nmark, f.dptr), (44, f.nmark + 1)]) false))
  | .fundo, _ =>
    if f.nmark = 0 then .pure (.error (.fail .prot 22 0))
    else
      let mark := forestMark m x.die pa (f.nmark - 1)
      ok? (undoEntries x f ((List.range' mark (f.dptr - mark)).reverse) [] f.lclass) (fun u =>
        .pure (.ok (.done 0 (u.1 ++ descWrites pa [(36, f.ccount + (f.dptr - mark)), (40, u.2), (32, mark)
          , (64 + 4 * (f.nmark - 1), 0), (44, f.nmark - 1)]) true)))
  | .freset, _ =>
    ok? (resetEntries x f (List.range f.n) []) (fun w =>
      .pure (.ok (.done 0 (w ++ descWrites pa ([(36, f.n), (40, 1), (32, 0), (44, 0)] ++ (List.range 8).map (fun k => (64 + 4 * k, 0)))) true)))
  | .unite, .single => .pure (.ok (.done 0 [] false))

/-! ### Concurrent `relabel` (R327) -/

/-- R327: a change of classes inside a `relabel`: its rows are undefined. -/
def markRelabels (pa : Nat) : Prog Unit :=
  .read (fun s =>
    let hit := s.dev.cmds.filter (fun c => c.started && 0 < c.cursor && c.status == 0 && (match c.kind with
      | .relabel d _ _ => d == pa
      | _ => false))
    Prog.each hit (fun c => match c.kind with
      | .relabel _ ty ctl =>
        let written := c.engine.isSome
        setCmd { c with status := 8, finished := false, held := if written then relabelPieces c.roots.length ty ctl else c.held }
      | _ => .pure ()))

/-! ### FOREST_STEP -/

/-- The accesses of this thread and of every later one fail (R318); the step's request is answered (R165). -/
def forestFail (r : GRef) (x : Spot) (c : Cause) (d : Nat) (va taux : W64) : Prog Unit :=
  letI := Prog.monad
  do
    let seq ← answered x 0
    modGroup r.team r.gidx (fun g => g.modOp x.op.id (fun o => { o with accs := o.accs.map (fun a =>
      if a.lane < x.acc.lane || !a.waiting then a
      else { a with st := .failed c d, va := if a.lane = x.acc.lane then va else 0, old := taux
                    seq := if a.lane = x.acc.lane then seq else a.seq }) }))
    closeOp r.team r.gidx x.op.id
    pokeFences r.team r.gidx

/-- The writes of a step, committed from the issuer's die. -/
def forestWrite (x : Spot) (w : Writes) : Prog Unit :=
  Prog.each w (fun p => Prog.bind (touchHome x.key p.1 true) (fun _ =>
    commitCells x.die (cellsAt p.1 (if p.1 = x.acc.loc + 44 then 1 else 4) (p.2.setWidth 64)) x.team.uid x.g.gidx x.op.split))

/-- A step that its gate lets through. -/
def forestApply (r : GRef) (x : Spot) (f : ForestOp) (mv : ForestMove) : Prog Unit :=
  letI := Prog.monad
  do
    noteEarly r.team x.g x.op x.acc .rlx
    pass x
    match mv with
    | .next fs w => do
      forestWrite x w
      -- a link changes the classes
      Prog.when (x.acc.fs.phase == .link && !w.isEmpty) (markRelabels x.acc.loc)
      let seq ← answered x 0
      moveOn r x.op.id x.acc.lane (fun a => { a with fs := { fs with more := true }, seq })
    | .done v w changes => do
      let s ← Prog.get
      let others := (forestsAt s x.acc.loc).filter (fun p => p != (r.team, r.gidx, x.op.id))
      forestWrite x w
      Prog.when (f == .freset && !others.isEmpty) (do
        doomOps others
        loseForest x.die x.key x.acc.loc)
      Prog.when changes (markRelabels x.acc.loc)
      let seq ← answered x v
      moveOn r x.op.id x.acc.lane (fun a => { a with st := .applied, old := v, seq })

def execForestStep (r : GRef) (op lane : Nat) (s : State) : Host.Outcome State Fault Refusal :=
  letI := Prog.monad
  (Prog.read (fun s => match spotOf s r op lane with
    | none => .pure ()
    | some x => match x.op.kind with
      | .forest f pa =>
        -- the threads are performed one at a time, and each pass once the one before it is answered (R317, R318)
        if !(x.acc.st == .waiting && !x.op.accs.any (fun b => b.fs.more) && mayRequest s x && mayPerformEarly s r.team x.g x.op x.acc .rlx) then .pure ()
        else if !x.seat.sees s pa 128 then .pure ()
        else consumeAt r op lane x 128 (fun x => do
          poisonEvent x
          let s ← Prog.get
          Prog.when (spotOf s r op lane).isSome (forestFail r x .poison 0 x.acc.va 0)) (fun x => do
          let s ← Prog.get
          let num := (x.acc.va - (s.dev.slot x.key).fdt).toNat / 128 % 64
          let res ← forestMove x.seat s.mem pa num f x.acc.fs
          let s ← Prog.get
          if (spotOf s r op lane).isNone then pure ()
          else match res with
          | .error .wait => pure ()
          | .error .broken => do
            pass x
            let seq ← answered x 0
            moveOn r op lane (fun a => { a with st := .applied, undef := true, seq })
          | .error (.fail c d va) => do
            Prog.when (c = .poison) (poisonEvent x)
            let s ← Prog.get
            Prog.when (spotOf s r op lane).isSome (forestFail r x c d va 0)
          | .error (.dust d taux) => forestFail r x .dustfull d 0 taux
          | .ok mv =>
            let word : Option W64 := match mv with
              | .next fs _ => if f = .unite && x.acc.fs.phase = .link && fs.phase = .compressA then some (natW fs.w.toNat) else none
              | .done .. => none
            match word with
            | none => forestApply r x f mv
            | some v =>
              let c := x.choice s.mem 4
              let gate := gateOf s c
              match gate.verdict v with
              | .wait => pure ()
              | .diverge => diverge x.launch.id c.die
              | .go => do
                choose x 4 gate v
                forestApply r x f mv)
      | _ => .pure ())).run s

/-! ### `relabel` (R325 to R327) -/

/-- Source bytes of one piece, and pieces in a row: elements, or blocks of 33 bytes for BFP8. -/
def relabelUnit (ty : Ty) (len : Nat) : Nat × Nat :=
  match ty with
  | .bfp => (33, len / 32)
  | .bf16 => (2, len)
  | _ => (4, len)
def relabelDest (ty : Ty) : Nat := if ty = .bf16 then 2 else 4

def ctlBase (w : W64) : W64 := w &&& 0x1FFFFFFFFFFFFFF#64
def ctlAcc (w : W64) : Bool := w.getLsbD 57

/-- Bytes from the first to past the last byte of a row set. -/
def rowsSpan (stride n rowBytes : Nat) : Nat := stride * (n - 1) + rowBytes

/-- Bytes of a source or destination row. -/
def relabelRow (ty : Ty) (ctl : List W64) (dst : Bool) : Nat :=
  let len := fld (ctl.getD 3 0) 0 24
  if dst then relabelDest ty * len else (relabelUnit ty len).1 * (relabelUnit ty len).2
/-- From one row to the next. -/
def relabelStride (ctl : List W64) (dst : Bool) : Nat := if dst then hi32 (ctl.getD 2 0) else lo32 (ctl.getD 2 0)

/-- The control block's checks (R325). -/
def relabelCheck (ty : Ty) (ws : List W64) (n accSize : Nat) : Checked (Span × Span) := do
  let w (i : Nat) : W64 := ws.getD i 0
  let len := fld (w 3) 0 24
  let sa := if ty = .bfp then 1 else if ty = .bf16 then 2 else 4
  let da := relabelDest ty
  need (fld (w 0) 58 6 == 0 && fld (w 1) 58 6 == 0 && fld (w 3) 26 38 == 0 && len != 0 && !(ty == .bfp && len % 32 != 0) && fld (w 3) 24 2 != 3) .prot 17
  needAt ((ctlBase (w 0)).toNat % sa == 0) .align 0 (ctlBase (w 0))
  needAt ((ctlBase (w 1)).toNat % da == 0) .align 0 (ctlBase (w 1))
  need (lo32 (w 2) % sa == 0 && hi32 (w 2) % da == 0) .align 0
  let u := relabelUnit ty len
  let src : Span := ⟨if ctlAcc (w 0) then .acc else .global, (ctlBase (w 0)).toNat, rowsSpan (lo32 (w 2)) n (u.1 * u.2), false⟩
  let dst : Span := ⟨if ctlAcc (w 1) then .acc else .global, (ctlBase (w 1)).toNat, rowsSpan (hi32 (w 2)) n (da * len), true⟩
  need ([src, dst].all (fun x => x.space != .acc || x.lo + x.len ≤ accSize)) .prot 10
  pure (src, dst)

/-- R184, R326: a `relabel` guards the rows of its ranges, not what lies between them. -/
def Team.guardRows (t : Team) (id : Nat) (ty : Ty) (ws : List W64) : Team :=
  { t with guarded := t.guarded.map (fun g => if g.cmd != id then g
      else { g with row := relabelRow ty ws g.write, stride := relabelStride ws g.write }) }

def execRelabel (h : Head) (ty : Ty) (d : BitVec 4) (a b : Src) (s : State) : Host.Outcome State Fault Refusal :=
  let i : Instr := .relabel h ty d a b
  letI := Prog.monad
  (instruction i h (fun e =>
    if !e.active then retire e
    else do
      let rows ← operands e h.lits (Instr.shape i)
      let xs := firstRow rows
      let f ← forestOperand e (xs.getD 0 0) false
      let va := xs.getD 1 0
      let _ ← demand e (needAt (va.toNat % 32 == 0) .align 0 va)
      let pa ← demandPa e .read va
      if inPeer pa then engineTrap e (.prot, 12, some va)
      else do
        let ws ← ownWords e va pa 4
        let s ← Prog.get
        let l ← getLaunch e.launch
        let sp ← demand e (relabelCheck ty ws f.2.2.n l.desc.accSize)
        awaitQueue e (.copy e.core) (s.dev.copyFull e.core)
        let id ← placeCmd e false (some d.toNat) (.relabel f.2.1 ty (ws ++ [f.1])) [sp.1, sp.2]
        modTeam e.team (fun t => t.guardRows id ty ws)
        retire e)).run s

/-- A piece of the source is read (R184): any that is left. -/
def relabelRead (c : Cmd) (ty : Ty) (ctl : List W64) : Prog Unit :=
  letI := Prog.monad
  do
    let k ← Prog.choose (remaining c.left)
    let t := takeNth k c.left
    let u := relabelUnit ty (fld (ctl.getD 3 0) 0 24)
    let off := lo32 (ctl.getD 2 0) * (t.1 / u.2) + u.1 * (t.1 % u.2)
    let base := ctlBase (ctl.getD 0 0)
    let took (bs : List (Option Byte)) : Prog Unit := setCmd { c with left := t.2, held := c.held ++ [(t.1, bs, false)] }
    if ctlAcc (ctl.getD 0 0) then do
      let s ← Prog.get
      let bs ← engineLocal c .acc (c.high s) (base.toNat + off) u.1
      let s ← Prog.get
      if (s.dev.cmd? c.id).isNone then pure () else took bs
    else do
      -- a block of 33 bytes may cross pages
      let rs ← Prog.collect (List.range u.1) (fun i => enginePlace c .read (base + natW (off + i)) 1)
      match rs.find? (fun r => match r with
          | .at_ _ => false
          | _ => true) with
      | some (.ended x) => setCmd { x with left := t.2 }
      | some (.peer _) => setCmd (c.fail .prot 12 (base + natW off))
      | some .wait => pure ()
      | _ => do
        let pas := rs.map (fun r => match r with
          | .at_ pa => pa
          | _ => 0)
        Prog.each (pas.foldl (fun l pa => insertNat (pa / 32) l) []) (fun i => do
          touchHome c.slot (32 * i) false
          eccRead c.slot (32 * i) 32)
        let s ← Prog.get
        match ((List.range pas.length).zip pas).find? (fun p => s.mem.poisoned p.2 1) with
        | some p => setCmd { c with left := t.2, held := c.held ++ [(t.1, List.replicate u.1 none, false)]
                                    status := if c.status = 0 then 4 else c.status
                                    addr := if c.status = 0 then base + natW (off + p.1) else c.addr }
        | none => took (pas.map (fun pa => some (s.mem.byte (dieOf c.core) pa)))

/-- The elements of a source piece in the destination format, and the flags of a BFP8 conversion (R103, R326). -/
def pieceElems (ty : Ty) (bs : List Byte) : List Nat × Flags :=
  match ty with
  | .bfp => blockF32 8 bs
  | _ => ([leNat bs], 0)

def relabelFmt (ty : Ty) : Fmt := if ty = .bf16 then Ty.fmt .bf16 else fmtF32

/-- The first contribution of a class (R91). -/
def canonElem (f : Fmt) (x : Nat) : Nat :=
  match f.unpack x with
  | .nan _ => f.nan
  | _ => x

def relabelOp (f : Fmt) (op x y : Nat) : Flagged Nat :=
  match op with
  | 0 => fAdd f .rne x y
  | 1 => fMinMax f false x y
  | _ => fMinMax f true x y

/-- The identity of an operation. -/
def relabelIdentity (f : Fmt) (op : Nat) : Nat :=
  match op with
  | 0 => 0
  | 1 => f.inf false
  | _ => f.inf true

/-- A row folded into its class's row. -/
def foldRow (f : Fmt) (op : Nat) (acc row : List Nat) : List Nat × Flags :=
  let rs := (acc.zip row).map (fun p => relabelOp f op p.1 p.2)
  (rs.map (·.val), rs.foldl (fun fl r => fl ||| r.flags) 0)

/-- R326: the rows of the classes. -/
def relabelRows (f : Fmt) (op : Nat) (roots : List Nat) (rows : List (List Nat)) : List (List Nat) × Flags :=
  let n := roots.length
  let acc := (List.range n).foldl (fun (st : Tab (List Nat) × Flags) i =>
    let row := rows.getD i []
    let r := roots.getD i i
    if r = i then (Tab.set [] st.1 i (row.map (canonElem f)), st.2)
    else
      let x := foldRow f op (Tab.get [] st.1 r) row
      (Tab.set [] st.1 r x.1, st.2 ||| x.2)) ([], 0)
  ((List.range n).map (fun i => if roots.getD i i = i then Tab.get [] acc.1 i
    else (rows.getD i []).map (fun _ => relabelIdentity f op)), acc.2)

/-- Two rows share a byte. -/
def rowsMeet (a b : Nat × Nat) : Bool := a.1 < b.1 + b.2 && b.1 < a.1 + a.2

/-- R327: destination rows that overlap each other or a source row. -/
def relabelOverlap (ty : Ty) (ctl : List W64) (n : Nat) : Bool :=
  let rows (dst : Bool) : List (Nat × Nat) := (List.range n).map (fun i =>
    ((ctlBase (ctl.getD (if dst then 1 else 0) 0)).toNat + relabelStride ctl dst * i, relabelRow ty ctl dst))
  (1 < n && relabelStride ctl true < relabelRow ty ctl true)
    || (ctlAcc (ctl.getD 0 0) == ctlAcc (ctl.getD 1 0) && (rows false).any (fun a => (rows true).any (rowsMeet a)))

/-- All pieces are read: the results are what is left to write. -/
def relabelCompute (c : Cmd) (ty : Ty) (ctl : List W64) (spoiled : Bool) : Prog Unit :=
  letI := Prog.monad
  do
    let len := fld (ctl.getD 3 0) 0 24
    let u := relabelUnit ty len
    let n := c.roots.length
    let raw ← Prog.collect (List.range (n * u.2)) (fun k => settleAll (((c.held.find? (fun h => h.1 == k)).map (fun h => h.2.1)).getD []))
    let elems := raw.map (pieceElems ty)
    let rows := (List.range n).map (fun i => ((elems.drop (i * u.2)).take u.2).flatMap (·.1))
    let res := relabelRows (relabelFmt ty) (fld (ctl.getD 3 0) 24 2) c.roots rows
    let lost := spoiled || c.status = 8 || relabelOverlap ty ctl n
    let k := relabelDest ty
    let stride := hi32 (ctl.getD 2 0)
    let out := ((List.range n).zip res.1).flatMap (fun (p : Nat × List Nat) =>
      ((List.range p.2.length).zip p.2).map (fun (q : Nat × Nat) =>
        (stride * p.1 + k * q.1, if lost then List.replicate k (none : Option Byte) else (bytesOf k q.2).map some, false)))
    setCmd { c with engine := some 0, held := out, flags := elems.foldl (fun f e => f ||| e.2) res.2 }

/-- A root pass that cannot read its forest: the command ends. -/
def Cmd.passFail (c : Cmd) (cause : Cause) (d : Nat) (va : W64) : Cmd :=
  if cause = .poison then (if c.status = 0 then { c with status := 4, addr := va, finished := true } else { c with finished := true })
  else c.fail cause d va

/-- A copy engine's seat. -/
def Cmd.seat (c : Cmd) : Seat := { agent := copyAgent c.core, die := dieOf c.core, key := c.slot, sup := c.sup }

/-- R165: a root pass of a command is a request to the home of the descriptor; its reply comes at once. -/
def passAnswered (c : Cmd) (pa : Nat) : Prog Unit :=
  .read (fun s => Prog.bind (answerTo (copyAgent c.core) (s.mem.homeUnit pa) 0) (fun _ => .pure ()))

/-- A root pass of the first loop. -/
def relabelPass (c : Cmd) (pa : Nat) (f : Forest) : Prog Unit :=
  letI := Prog.monad
  do
    let i := c.roots.length
    let r ← rootPass c.seat f passHops (if c.cursor = 0 then 0 else c.cursor - 1)
    match r with
    | .error .wait | .error (.dust _ _) => pure ()
    | .error .broken => do
      -- the destination rows are undefined
      passAnswered c pa
      modAnyTeam c.team (fun t => { t with spoiled := insertNat c.id t.spoiled })
      setCmd { c with roots := c.roots ++ [i], cursor := i + 2 }
    | .error (.fail cause d va) => do
      passAnswered c pa
      setCmd (c.passFail cause d va)
    | .ok (.inr y) => do
      passAnswered c pa
      setCmd { c with cursor := y + 1 }
    | .ok (.inl p) => do
      passAnswered c pa
      setCmd { c with roots := c.roots ++ [p.1], cursor := i + 2 }

/-- One root pass on the latest descriptor; after the last, the pieces of the source are to be read. -/
def relabelRoots (c : Cmd) (pa : Nat) (va : W64) (f : Forest) (perRow : Nat) : Prog Unit :=
  letI := Prog.monad
  do
    let s ← Prog.get
    if !c.seat.sees s pa 128 then pure ()
    else do
      let bad ← consume c.slot pa 128
      if bad then setCmd (c.passFail .poison 0 va)
      else relabelPass c pa f
      let s ← Prog.get
      match s.dev.cmd? c.id with
      | some c2 => if c2.roots.length = f.n && c2.roots.length != c.roots.length then setCmd { c2 with left := [(0, f.n * perRow)] } else pure ()
      | none => pure ()

/-- A started `relabel` goes on: a root pass, a read of a source piece, the fold; its writes are ENGINE's. -/
def execRelabelRun (cmd : Nat) (s : State) : Host.Outcome State Fault Refusal :=
  letI := Prog.monad
  (Prog.read (fun s => match s.dev.cmd? cmd with
    | none => .pure ()
    | some c => match c.kind with
      | .relabel pa ty ctl =>
        if !c.started || c.finished || c.ended then .pure ()
        else
          let f := forestOf s.mem (dieOf c.core) pa
          let u := relabelUnit ty (fld (ctl.getD 3 0) 0 24)
          if c.engine.isSome then (if c.held.isEmpty then setCmd { c with finished := true } else .pure ())
          else Prog.bind (spendFor c.slot) (fun _ =>
          if c.roots.length < f.n then relabelRoots c pa (ctl.getD 4 0) f u.2
          else if !c.left.isEmpty then relabelRead c ty ctl
          else relabelCompute c ty ctl (((s.anyTeam? c.team).map (fun t => t.spoiled.contains c.id)).getD false))
      | _ => .pure ())).run s

end Sys2Proof.Machine
end

