-- ==== Sys2Proof/Machine/Counters.lean ====
section
/-! DEFINITION. Class 14 (R355 to R366), and the events of time, power and energy: CORE_CYCLE, POWER_MODE_CHANGE,
REFILL_UPDATE, ENERGY_SEAL, SIGN_READING. -/
namespace Sys2Proof.Machine

/-! ### `cntrd` (R355, R363) -/

/-- The counter that a number names, for the core, cluster, pair, partition or slot of the reader. -/
def counterValue (d : Dev) (core : Nat) (key : SlotKey) (n : Counter) : W64 :=
  let c := d.core core
  let p := d.part (key / 16)
  let x := d.slot key
  match n with
  | .cycle => c.cycle
  | .epart => p.epart
  | .eslot => x.eslot
  | .allow => (d.cluster (clusterOf core)).allow.signExtend 64
  | .wheld => (d.cluster (clusterOf core)).wheld
  | .pf1 0 => c.pfi1
  | .pf1 1 => c.pfu1
  | .pf1 2 => c.pflt1
  | .pf1 _ => c.pfx1
  | .pfl 0 => p.pfil
  | .pfl 1 => p.pful
  | .pfl 2 => p.pfltl
  | .pfl _ => p.pfxl
  | .fetch => c.fetch
  | .fused => c.fused
  | .lgrant => (d.pair (pairOf core)).lgrant
  | .lpass => (d.pair (pairOf core)).lpass
  | .mparm => x.mparm
  | .mpwake => x.mpwake
  | .evt k => (Tab.get 0 p.evt k.toNat).setWidth 64

def execCntrd (h : Head) (r : Res) (n : Counter) (s : State) : Host.Outcome State Fault Refusal :=
  let i : Instr := .cntrd h r n
  letI := Prog.monad
  (instruction i h (fun e =>
    if !e.active then retire e
    else do
      let _ ← operands e h.lits (Instr.shape i)
      let s ← Prog.get
      let v := counterValue s.dev e.core e.key n
      e.modGroup (fun g => g.putResults h.g .n64 r (e.lanes.map (fun t => (t, v))))
      retire e)).run s

/-! ### `cntsn` (R364) -/

def signDepth : Nat := 64

/-- R365: a request joins the end of the queue, but stands before those that higher cores made in the same cycle. -/
def enqueueReading (r : SignReq) (l : List SignReq) : List SignReq :=
  let later (x : SignReq) : Bool := x.cycle == r.cycle && r.core < x.core
  l.filter (fun x => !later x) ++ r :: l.filter later

def execCntsn (h : Head) (d : BitVec 4) (a : Src) (sel : Bool) (s : State) : Host.Outcome State Fault Refusal :=
  let i : Instr := .cntsn h d a sel
  letI := Prog.monad
  (instruction i h (fun e =>
    if !e.active then retire e
    else do
      let rows ← operands e h.lits (Instr.shape i)
      let va := (firstRow rows).getD 0 0
      let _ ← demand e (needAt (va.toNat % 128 == 0) .align 0 va)
      let pa ← demandPa e .write va
      if inPeer pa then engineTrap e (.prot, 12, some va)
      else do
        let s ← Prog.get
        awaitQueue e .signing (signDepth ≤ s.mgmt.signQ.length)
        let id ← Prog.fresh
        e.modGroup Group.closeRegion
        pendHandle e d.toNat (.pending id)
        let s ← Prog.get
        let c := e.cmd s (.cntsn va sel) id
        Prog.modDev (fun d => { d with cmds := d.cmds ++ [c] })
        Prog.modMgmt (fun m => { m with signQ := enqueueReading ⟨id, e.core, (s.dev.core e.core).cycle⟩ m.signQ })
        retire e)).run s

/-- Bytes of a number, highest first. -/
def beBytes (n x : Nat) : List Byte := (bytesOf n x).reverse

/-- The signed body of a reading (R364). -/
def readingBody (v n : W64) (c : Cmd) (sel gap test : Bool) : List Byte :=
  bytesOf 8 v.toNat ++ bytesOf 8 n.toNat ++ bytesOf 16 Config.moduleId.toNat
    ++ [BitVec.ofNat 8 c.part, BitVec.ofNat 8 (c.slot % 16), if sel then 1 else 0, BitVec.ofNat 8 ((if gap then 1 else 0) + (if test then 2 else 0))]
    ++ List.replicate 28 0

/-- The key under which GAP is kept for a counter (R362). -/
def gapKey (part : Nat) (slot : SlotKey) (sel : Bool) : Nat := if sel then 16 + slot else part

/-- The value of the counter of a request, and the seal that the controller makes of it. -/
def sealReading (c : Cmd) (sel : Bool) (v : W64) (n : Nat) (m : Mgmt) : Mgmt :=
  let m := { m with rnum := n, sealedRnum := n, gap := removeNat (gapKey c.part c.slot sel) m.gap }
  if sel then { m with sealedSlot := Tab.set 0 m.sealedSlot c.slot v } else { m with sealedPart := Tab.set 0 m.sealedPart c.part v }

/-- The body and the signature of a reading. -/
def signedReading (v n : W64) (c : Cmd) (sel gap test : Bool) : List Byte :=
  let body := readingBody v n c sel gap test
  let e := Config.readingDigest body
  body ++ beBytes 64 (if test then Config.sm2TestSign e else Config.sm2Sign e).toNat

/-- The controller serves the oldest request, of an earlier cycle (R365), once it has joined its queue (R184). -/
def execSignReading (s : State) : Host.Outcome State Fault Refusal :=
  letI := Prog.monad
  (Prog.read (fun s => match s.mgmt.signQ with
    | [] => .pure ()
    | r :: rest => match s.dev.cmd? r.cmd with
      | none => Prog.modMgmt (fun m => { m with signQ := rest })
      | some c => match c.kind with
        | .cntsn va sel =>
          if !s.mgmt.alive || !c.joined s || r.cycle == (s.dev.core r.core).cycle then .pure ()
          else do
            let n := s.mgmt.rnum + 1
            let done : Cmd := { c with started := true, finished := true }
            if 4 ≤ s.mgmt.lifecycle then do
              Prog.modMgmt (fun m => { m with signQ := rest, rnum := n, sealedRnum := n })
              setCmd { done with status := 9 }
              wakeQueues .signing
            else do
              let p ← enginePlace done .write va 128
              let v := if sel then (s.dev.slot c.slot).eslot else (s.dev.part c.part).epart
              let served : Prog Unit := do
                Prog.modMgmt (fun m => { sealReading c sel v n m with signQ := rest })
                wakeQueues .signing
              match p with
              | .wait => pure ()
              | .ended x => do
                setCmd x
                served
              | .peer _ => do
                setCmd (done.fail .prot 12 va)
                served
              | .at_ pa => do
                commitStore (dieOf c.core) pa (signedReading v (natW n) c sel (s.mgmt.gap.contains (gapKey c.part c.slot sel)) (s.mgmt.lifecycle == 1))
                setCmd { done with addr := natW n <<< 16 }
                served
        | _ => .pure ())).run s

/-! ### `pwrset` and the power modes (R357 to R359, R366) -/

def execPwrset (h : Head) (c : BitVec 2) (s : State) : Host.Outcome State Fault Refusal :=
  letI := Prog.monad
  (instruction (.pwrset h c) h (fun e =>
    if !e.active then retire e
    else do
      fallCheck e
      let l ← getLaunch e.launch
      if l.desc.pmax < c.toNat then trap e .prot 23 e.visited
      else do
        e.modGroup (fun g => { g with pwr := c.setWidth 3 })
        retire e)).run s

/-- Groups bound to a lane group. -/
def boundGroups (s : State) (core quad lg : Nat) : List Group :=
  s.teams.flatMap (fun t => t.groups.filter (fun g => g.core == core && g.quad == quad && g.lg == lg && !g.over))

/-- R358: the mode that a lane group should have. -/
def wantsNear (s : State) (core quad lg : Nat) : Bool :=
  let gs := boundGroups s core quad lg
  let l := s.dev.lane (laneGroupKey core quad lg)
  let now := (s.dev.core core).cycle.toNat
  gs.all (fun g => 1 ≤ g.pwr.toNat) && gs.all (fun g => g.pwr.toNat == 2 || decide ((l.starts.filter (fun c => now < c + 256)).length ≤ 32))

/-- R75: the split whose latch chain a datapath, by its key, is inside. -/
def chainAt (s : State) (k : Nat) : Option (Nat × Nat × Nat) :=
  match (s.dev.lane k).chain with
  | none => none
  | some c => match s.team? c.1, s.group? c.1 c.2.1 with
    | some t, some g => match s.launch? t.launch with
      | some l => if midChain s l g (g.split c.2.2) then some c else none
      | none => none
    | _, _ => none

/-- A change of mode, when no latch chain is running; 16 cycles to enter, 64 to leave. -/
def execPowerModeChange (core quad lg : Nat) (s : State) : Host.Outcome State Fault Refusal :=
  (Prog.read (fun s =>
    let k := laneGroupKey core quad lg
    let l := s.dev.lane k
    if wantsNear s core quad lg != l.nominal || l.changing != 0 || (chainAt s k).isSome then .pure ()
    else Prog.modDev (fun d => d.setLane k { l with nominal := !l.nominal, changing := if l.nominal then 16 else 64 }))).run s

/-- R8: a cluster that the part has. -/
def Dev.hasCluster (d : Dev) (c : Nat) : Bool := d.enabled.getLsbD c

/-- R357: the settings that a cluster can have. -/
def allowanceOk (a : Allowance) : Bool := a.refill ≤ 255 && 1 ≤ a.amax && a.amax ≤ 2 ^ 20 && a.t1 < a.t2 && a.t2 < a.t3

/-- The settings of a cluster once the controller has written the listed ones and the REFILL that it computed. -/
def Dev.allowance (d : Dev) (refill : Nat) (l : List (Nat × Allowance)) (c : Nat) : Allowance :=
  { (match l.find? (fun e => e.1 == c) with
      | some e => e.2
      | none => (d.cluster c).settings) with refill := if (d.clusterPart c).isSome then refill else 0 }

/-- R357: the controller gives every assigned cluster the same REFILL, the others 0, and the listed clusters their AMAX
and thresholds; it writes no illegal setting (log entry 99). -/
def execRefillUpdate (refill : Nat) (settings : List (Nat × Allowance)) (s : State) : Host.Outcome State Fault Refusal :=
  (Prog.read (fun s =>
    if 255 < refill || !s.mgmt.alive || settings.any (fun e => !allowanceOk e.2) then .pure ()
    else Prog.modDev (fun d => (List.range 64).foldl (fun d c =>
      d.setCluster c { d.cluster c with settings := s.dev.allowance refill settings c }) d))).run s

def execEnergySeal (s : State) : Host.Outcome State Fault Refusal :=
  (Prog.read (fun s => if s.mgmt.alive then sealEnergy else .pure ())).run s

/-! ### CORE_CYCLE (R355, R357, R360) -/

/-- R357: the allowance at the end of a cycle. -/
def Cluster.cycle (x : Cluster) : Cluster :=
  let a : Int := x.allow.toInt - x.charges + x.settings.refill
  { x with allow := BitVec.ofInt 32 (min x.settings.amax a), charges := 0, heldNow := false, wheld := if x.heldNow then x.wheld + 1 else x.wheld }

/-- R275: a cluster holds its starts back for an instruction of one of its groups only while the group is there. -/
def Cluster.release (x : Cluster) (s : State) (c : Nat) : Cluster :=
  match x.starving with
  | none => x
  | some p => match s.group? p.1 p.2.1 with
    | some g => if (g.split p.2.2).live && clusterOf g.core == c then x else { x with starving := none }
    | none => { x with starving := none }

def LaneGroup.cycle (x : LaneGroup) : LaneGroup := { x with busy := x.busy - 1, changing := x.changing - 1 }

/-- Set bits of a cluster mask. -/
def clusterCount (m : BitVec 64) : Nat := ((List.range 64).filter (fun c => m.getLsbD c)).length

/-- R360: the energy of a cycle. Whoever has spent some pays an amount, a slot's payments are its partition's too, and each
partition pays its clusters' share of the static amount; the rest, and what nobody's partition spent, is the overhead. The
amounts are the implementation's (log entry 40). -/
def chargeEnergy (tick : Nat) (s : State) : Dev × W64 :=
  let spent := s.dev.spent
  let amount (k : Nat) : Nat := Config.energy (tick * 1024 + k)
  let paid (k : Nat) : Nat := if spent.contains k then amount k else 0
  let share (p : Part) : Nat := amount 513 * clusterCount p.clusters / max 1 (clusterCount s.dev.enabled)
  let slots := spent.filter (fun k => k < 256)
  let parts := (spent.filter (fun k => k < 512)).foldl (fun l k => insertNat (payerPart k) l) (s.dev.parts.map (·.1))
  let own (p : Nat) : Nat := ((slots.filter (fun k => k / 16 == p)).map amount).foldl (· + ·) 0 + paid (256 + p) + share (s.dev.part p)
  let d := slots.foldl (fun d k => let x := d.slot k; d.setSlot k { x with eslot := x.eslot + natW (amount k) }) s.dev
  let d := parts.foldl (fun d p => let x := d.part p; d.setPart p { x with epart := x.epart + natW (own p) }) d
  ({ d with spent := [] }, natW (paid 512 + amount 513 - (parts.map (fun p => share (s.dev.part p))).foldl (· + ·) 0))

def execCoreCycle (s : State) : Host.Outcome State Fault Refusal :=
  letI := Prog.monad
  (do
    let s ← Prog.get
    if !s.mgmt.powered then pure ()
    else do
    let cores := (List.range 256).filter (fun c => s.dev.hasCluster (clusterOf c))
    let r := chargeEnergy s.tick s
    Prog.act (.dev r.1)
    Prog.modMgmt (fun m => { m with eovh := m.eovh + r.2 })
    Prog.modDev (fun d =>
      let d := cores.foldl (fun d c => let x := d.core c; d.setCore c { x with cycle := x.cycle + 1 }) d
      let d := (List.range 64).foldl (fun d c => if d.hasCluster c then d.setCluster c ((d.cluster c).release s c).cycle else d) d
      { d with lanes := (d.lanes.map (fun e => (e.1, e.2.cycle))).filter (fun e => e.2 != {}) }) : Prog Unit).run s

end Sys2Proof.Machine
end

