-- ==== Sys2Proof/Machine/Recipe.lean ====
section
/-! DEFINITION. The meanings of class 13 (R199, R201, R202, R210): binding, dropping, materializing and demoting recipe
registers. -/
namespace Sys2Proof.Machine

/-- R202: a register takes recipe form; its values are its slice's from now on. -/
def Group.demote (g : Group) (r : Nat) : Group :=
  { g.setWord r (wordSetDem (g.word r) true) with
    v := g.v.filter (fun e => e.1 / 128 != r), badV := g.badV.filter (fun k => !(k < latchBase && k / 128 == r)) }

/-- R197: the entry for a binding mask: one in use that equals it, or the lowest free one. -/
def Group.maskEntry (g : Group) (m : Mask) : Option Nat :=
  let used := (g.recipe.filter (fun x => wordBnd x.2)).map (fun x => wordMidx x.2)
  match (List.range 16).find? (fun k => used.contains k && Tab.get 0 g.masks k == m) with
  | some k => some k
  | none => (List.range 16).find? (fun k => !used.contains k)

/-- R196, R199: the state word of a new binding; PINC and EPIN are kept. -/
def bindWord (old : W64) (k midx : Nat) (ins : List Nat) (frm : BitVec 2) : W64 :=
  wordPins old ||| BitVec.ofNat 64 (1 + k * 2 ^ 3 + midx * 2 ^ 11 + ins.length * 2 ^ 24 + ins.getD 0 0 * 2 ^ 26 + ins.getD 1 0 * 2 ^ 34
    + ins.getD 2 0 * 2 ^ 42 + frm.toNat * 2 ^ 50)

/-- R199: the binding itself. A thread outside the mask holds an undefined value from now on (R203). -/
def Group.bindReg (g : Group) (d k midx : Nat) (m : Mask) (n : SliceEntry) : Group :=
  let g := { g with v := g.v.filter (fun e => e.1 / 128 != d || m.getLsbD (e.1 % 128)), masks := Tab.set 0 g.masks midx m
                    umask := Tab.set 0 g.umask d n.umask }
  (g.setWord d (bindWord (g.word d) k midx n.ins g.frmNow)).countInputs n.ins n.umask true

/-- R201: the end of a binding by `rcp`, which leaves the register its value. -/
def endForRcp (e : Env) (d : Nat) : Prog Unit :=
  letI := Prog.monad
  do
    let g ← e.group
    Prog.when (g.demoted d) (regenerate repairDepth e d)
    e.modGroup (fun g => g.endBinding d)

def execRcp (h : Head) (d : BitVec 8) (k : BitVec 8) (s : State) : Host.Outcome State Fault Refusal :=
  let i : Instr := .rcp h d k
  letI := Prog.monad
  (instruction i h (fun e => do
    awaitOperands e (Instr.shape i)
    checkRefs e (Instr.shape i)
    Prog.when e.active (fallCheck e)
    let l ← getLaunch e.launch
    let va := l.desc.rtab + BitVec.ofNat 64 (32 * k.toNat)
    let fva : Tab W64 := (lanesOf e.w e.mask).map (fun t => (t, va))
    if l.desc.nrcp ≤ k.toNat then trap e .prot 0x10 e.mask
    else do
      let en ← readEntry e l k.toNat
      match en with
      | .error (c, x) => if c = .poison then consumed e 3 x 0 .poison 0 e.mask 0 fva else trap e c x e.mask 0 fva
      | .ok (n, _) =>
        if !n.valid then trap e .prot 0x10 e.mask
        else if !e.active then retire e
        else do
          Prog.each (n.ins.foldl (fun acc u => insertNat u acc) []) (fun u => do
            let g ← e.group
            Prog.when (g.demoted u) (regenerate repairDepth e u))
          endForRcp e d.toNat
          let g ← e.group
          match g.maskEntry e.v with
          | none => retire e
          | some m => do
            e.modGroup (fun g => g.bindReg d.toNat k.toNat m e.v n)
            retire e)).run s

/-- R210: the mould of the three forms. -/
def recipeForm (i : Instr) (h : Head) (f : Env → Prog Unit) : Prog Unit :=
  letI := Prog.monad
  instruction i h (fun e =>
    if !e.active then retire e
    else do
      awaitOperands e (Instr.shape i)
      checkRefs e (Instr.shape i)
      fallCheck e
      f e
      retire e)

def execRcpdrop (h : Head) (d : BitVec 8) (s : State) : Host.Outcome State Fault Refusal :=
  letI := Prog.monad
  (recipeForm (.rcpdrop h d) h (fun e => do
    obtainSegments e d.toNat
    e.modGroup (fun g => g.endBinding d.toNat))).run s

def execRcpmat (h : Head) (d : BitVec 8) (s : State) : Host.Outcome State Fault Refusal :=
  letI := Prog.monad
  (recipeForm (.rcpmat h d) h (fun e => do
    let g ← e.group
    Prog.when (g.demoted d.toNat) (regenerate repairDepth e d.toNat))).run s

def execRcpdem (h : Head) (d : BitVec 8) (s : State) : Host.Outcome State Fault Refusal :=
  letI := Prog.monad
  (recipeForm (.rcpdem h d) h (fun e =>
    e.modGroup (fun g =>
      if g.bound d.toNat && !g.pinned d.toNat && !g.demoted d.toNat then g.demote d.toNat else g))).run s

end Sys2Proof.Machine
end

