-- ==== Sys2Proof/Machine/Issue.lean ====
section
/-! DEFINITION. The scheduler's events (R37, R40, R41, R44, R45, R202, R246, R274, R275, R333): the choice of the next
start, merges, the overflow list, RJDL, rollback, demotion and instruction-cache fills. -/
namespace Sys2Proof.Machine

/-! ### What may start -/

/-- The datapath is a quadrant's uniform one. -/
def siteUniform : Site → Bool
  | .uniform _ _ => true
  | .lane _ _ _ => false
def siteCore : Site → Nat
  | .uniform c _ | .lane c _ _ => c
def siteQuad : Site → Nat
  | .uniform _ q | .lane _ q _ => q
/-- The key of the datapath in `Dev.lanes`. -/
def siteKeyOf : Site → Nat
  | .uniform c q => uniformKey c q
  | .lane c q l => laneGroupKey c q l
/-- R274: the groups bound to a datapath. -/
def siteBinds (x : Site) (g : Group) : Bool :=
  match x with
  | .uniform c q => g.core == c && g.quad == q
  | .lane c q l => g.core == c && g.quad == q && g.lg == l

/-- A split that could start an instruction on a datapath but for withholding. -/
structure Start where
  team : Nat
  gidx : Nat
  split : Nat
  pc : W64
  prio : Nat
  age : Nat
  wait : Nat
  cost : Nat
  /-- It needs the engine port, and enters a tile-task queue through it (R276, R277). -/
  port : Bool := false
  tile : Bool := false
  /-- It enters the signing queue (R365). -/
  signs : Bool := false
  deriving DecidableEq, Repr

/-- R277: forms that enter a tile-task queue. -/
def Instr.entersTile : Instr → Bool
  | .mma .. | .mxfnc .. | .scacc .. | .bqnt .. | .bunp .. | .accz .. | .tsub .. => true
  | _ => false
/-- R276: forms that need the engine port: to a copy queue, a tile-task queue or a bank unit. -/
def Instr.usesPort : Instr → Bool
  | .cpy .. | .rstr .. | .emit .. | .emitFlush .. | .relabel .. => true
  | i => Instr.entersTile i
/-- R98, R289: forms that take a phase; the record of a `tsub` may be one of `bqnt`. -/
def Instr.takesPhase : Instr → Bool
  | .cvts .. | .bqnt .. | .tsub .. => true
  | _ => false
/-- R365: forms that enter the signing queue. -/
def Instr.signs : Instr → Bool
  | .cntsn .. => true
  | _ => false

/-- The virtual line of 128 bytes that holds an address. -/
def codeLine (pc : W64) : Nat := pc.toNat / 128

/-- R44: the line of a PC is in the core's instruction cache. A PC that does not translate waits for nothing: its fetch
fails (R132). -/
def fetched (s : State) (l : Launch) (g : Group) (x : Split) : Bool :=
  s.dev.code.any (fun c => c.core == g.core && !c.const && c.slot == l.cmd.slot && c.line == codeLine x.pc)
    || (match translateFresh s l.cmd.slot x.sup .fetch (BitVec.ofNat 64 (x.pc.toNat / 32 * 32)) with
        | .ok (pa, _) => inPeer pa
        | .error _ => true)

/-- R333: the split's threads issue nothing while a rollback waits. -/
def Group.holds (g : Group) (x : Split) : Bool := x.mask &&& g.rollMask != 0

/-- R348: a `tevict` waits for the team. -/
def State.evicting (s : State) (u : Nat) : Bool :=
  s.teams.any (fun t => t.groups.any (fun g => g.splits.any (fun x => x.live && x.wait == .evict u)))
/-- R262, R348: the split waits at a `tevict` whose team has come to its boundaries, or is no longer resident. -/
def Split.evicts (x : Split) (s : State) : Bool :=
  x.live && x.trap.isNone && x.mask != 0 && (match x.wait with
    | .evict u => (match s.team? u with
      | none => true
      | some t => match s.launch? t.launch with
        | some l => t.quiet s l true
        | none => true)
    | _ => false)

/-- The threads that an instruction is performed for when it starts now. -/
def Group.startLanes (g : Group) (x : Split) (h : Head) : List Nat :=
  if h.g then (if g.guardQ h then [0] else []) else lanesOf g.width (g.guardMask h x.mask &&& ~~~x.skipped)

/-- What a split is to start. -/
inductive Ahead where
  /-- Its next instruction is for the other datapath, or waits for an operand or its line. -/
  | no
  /-- It reads a pending handle (R281). -/
  | handle (h : Nat)
  | start (cost : Nat) (i : Option Instr)
  deriving DecidableEq, Repr

/-- R274: what stands before a split on a datapath. Words that decode to nothing start on the lane group; a filler is no
instruction (R61). -/
def aheadOf (s : State) (l : Launch) (g : Group) (n : Nat) (uniform : Bool) : Ahead :=
  let x := g.split n
  if !(x.runnable || x.evicts s) || g.holds x then .no
  else match peekInstr s l x.sup g.core x.pc with
  | none => if !uniform && fetched s l g x then .start 0 none else .no
  | some .filler => .no
  | some i =>
    let h := (i.raw.map Raw.head).getD ⟨false, false, 7, .none⟩
    let lanes := g.startLanes x h
    if h.g != uniform || !fetched s l g x then .no
    else match (if lanes.isEmpty then none else (Instr.shape i).pendingHandle g) with
    | some k => .handle k
    | none =>
      if !lanes.isEmpty && (Instr.shape i).blocked h.g g lanes then .no
      else .start (Instr.cost i h.g (match x.chainNext x.pc i with
        | some (_, k) => 2 ≤ k
        | none => false)) (if lanes.isEmpty then none else some i)

/-- R57, R348: a team that leaves, or that a `tevict` waits for, starts nothing more but the members of a running latch chain; a
`tevict` of its own that waits may still be first. -/
def mayGoOn (s : State) (t : Team) (l : Launch) (g : Group) (x : Split) : Bool :=
  midChain s l g x || (!t.leaving && (!s.evicting t.uid || x.evicts s))

/-- Every split of the groups bound to a datapath, with its launch. -/
def siteSplits (x : Site) (s : State) : List (Team × Launch × Group × Nat) :=
  s.teams.flatMap (fun t => match s.launch? t.launch with
    | none => []
    | some l => (t.groups.filter (siteBinds x)).flatMap (fun g => ((List.range 4).filter (fun n => mayGoOn s t l g (g.split n))).map (fun n => (t, l, g, n))))

/-- R98, R274: in a cycle a split starts once, and one that has been found unable to start is tried no more; phases are
taken in ascending split number. -/
def Group.startsAgain (g : Group) (now n : Nat) (i : Option Instr) : Bool :=
  match g.issued with
  | none => true
  | some p => p.at_ != now
    || !(p.splits.contains n || p.tried.contains n || ((i.map Instr.takesPhase).getD false && p.took.any (fun m => n < m)))

/-- A split's start on a datapath in the present cycle. -/
def startOf (x : Site) (s : State) (t : Team) (l : Launch) (g : Group) (n : Nat) : Option Start :=
  match aheadOf s l g n (siteUniform x) with
  | .start cost i =>
    if g.startsAgain (s.dev.core g.core).cycle.toNat n i then
      some { team := t.uid, gidx := g.gidx, split := n, pc := (g.split n).pc, prio := l.prio, age := g.age, cost
             wait := if siteUniform x then g.waitU else g.wait
             port := (i.map Instr.usesPort).getD false, tile := (i.map Instr.entersTile).getD false
             signs := (i.map Instr.signs).getD false }
    else none
  | _ => none

def siteStarts (x : Site) (s : State) : List Start :=
  (siteSplits x s).filterMap (fun (p : Team × Launch × Group × Nat) => startOf x s p.1 p.2.1 p.2.2.1 p.2.2.2)

/-- R275: the least allowance for a cost class. -/
def Cluster.threshold (x : Cluster) (cost : Nat) : Nat := if cost = 1 then x.settings.t1 else if cost = 2 then x.settings.t2 else x.settings.t3

/-- R275: the start is withheld. -/
def Cluster.withholds (x : Cluster) (c : Start) : Bool :=
  c.cost != 0 && (x.allow.toInt < x.threshold c.cost || (match x.starving with
    | some p => (p.1, p.2.1) != (c.team, c.gidx)
    | none => false))

/-! ### The choice (R274) -/

/-- The order of the choice: less is chosen first. -/
def Start.before (aged : Bool) (a b : Start) : Bool :=
  let p (c : Start) : Nat := if aged then 0 else 3 - c.prio
  p a < p b || (p a == p b && (a.age < b.age || (a.age == b.age && a.pc.toNat < b.pc.toNat)))

/-- ChooseLaneGroup, among the starts that may be made. -/
def chooseStart (l : List Start) : Option Start :=
  let old := l.filter (fun c => 1024 ≤ c.wait)
  let aged := !old.isEmpty
  (if aged then old else l).foldl (fun best c => match best with
    | none => some c
    | some b => if c.before aged b then some c else some b) none

/-- R75: the split whose latch chain the datapath is inside. -/
def siteChain (x : Site) (s : State) : Option (Nat × Nat × Nat) := chainAt s (siteKeyOf x)

/-- The starts that R75 leaves to a datapath. -/
def siteOpen (x : Site) (s : State) : List Start :=
  match siteChain x s with
  | some c => (siteStarts x s).filter (fun a => (a.team, a.gidx, a.split) == c)
  | none => siteStarts x s

/-- R358: a lane group runs in the mode that it should have; until a chain that is running ends it stays as it is. -/
def siteModeOk (x : Site) (s : State) : Bool :=
  match x with
  | .uniform _ _ => true
  | .lane c q l => (s.dev.lane (siteKeyOf x)).nominal != wantsNear s c q l || (siteChain x s).isSome

/-- R37: the datapath may start an instruction in this cycle. -/
def siteFree (x : Site) (s : State) : Bool :=
  let d := s.dev.lane (siteKeyOf x)
  d.busy == 0 && d.changing == 0 && siteModeOk x s

/-- The starts that are not withheld (R275). -/
def siteReady (x : Site) (s : State) : List Start :=
  (siteOpen x s).filter (fun c => !(s.dev.cluster (clusterOf (siteCore x))).withholds c)

/-! ### The engine port (R276, R277) -/

/-- A core's datapaths. -/
def coreSites (core : Nat) : List Site :=
  (List.range 4).flatMap (fun q => [.uniform core q, .lane core q 0, .lane core q 1])

/-- R278: the team holds a lease on an engine of the pair. -/
def Pair.leases (p : Pair) (u : Nat) : Bool := p.lease0.team == some u || p.lease1.team == some u

/-- The port is used in this cycle. -/
def Dev.portUsed (d : Dev) (core : Nat) : Bool := (d.core core).port == (d.core core).cycle.toNat + 1

/-- R276: of the starts of a cycle that need the port, the one that gets it: of the one team that holds a lease, or else the
lowest AGE. Quadrants count AGE apart; of equal ones the first datapath's goes first (log entry 91). -/
def portWinner (s : State) (core : Nat) : Option Start :=
  let want := (coreSites core).filterMap (fun x => if siteFree x s then (chooseStart (siteReady x s)).filter (·.port) else none)
  let leased := want.filter (fun c => (s.dev.pair (pairOf core)).leases c.team)
  let oneTeam := match leased with
    | [] => false
    | c :: t => t.all (fun x => x.team == c.team)
  (if oneTeam then leased else want).foldl (fun best c => match best with
    | none => some c
    | some b => if c.age < b.age then some c else some b) none

/-- R277: of records that enter a pair's queue in one cycle the lower core's come first: the higher core's record follows one
that the lower core can start, and a record of the lower core does not follow the higher core's. -/
def tileTurn (s : State) (core : Nat) (c : Start) : Bool :=
  !c.tile || (if core % 2 = 0 then (s.dev.core (core + 1)).tport != (s.dev.core (core + 1)).cycle.toNat + 1
    else s.dev.portUsed (core - 1) || !((portWinner s (core - 1)).map (·.tile)).getD false)

/-- A start may use its core's port now. -/
def portFree (s : State) (core : Nat) (c : Start) : Bool :=
  !s.dev.portUsed core && portWinner s core == some c && tileTurn s core c

/-- R365: requests of one cycle enter the signing queue in the order of their cores: a request leaves the last places to
those of lower cores. -/
def signTurn (s : State) (core : Nat) (c : Start) : Bool :=
  !c.signs || signDepth ≤ s.mgmt.signQ.length
    || s.mgmt.signQ.length + ((List.range core).flatMap coreSites |>.filter (fun x =>
        siteFree x s && ((chooseStart (siteReady x s)).map (·.signs)).getD false)).length < signDepth

/-- What a datapath may start in this cycle. -/
def siteMay (x : Site) (s : State) : List Start :=
  (siteReady x s).filter (fun c => (!c.port || portFree s (siteCore x) c) && signTurn s (siteCore x) c)

/-- R275: a group is withheld in this cycle, once. -/
def Group.withheldAt (g : Group) (now : Nat) : Group :=
  if g.heldAt = now + 1 then g
  else { g with withheld := if g.heldAt = now then g.withheld + 1 else 1, heldAt := now + 1 }

/-- R275, R355: the starts of a core that are withheld in this cycle, whether or not their datapath is free. -/
def noteWithheld (core : Nat) (l : List Start) : Prog Unit :=
  letI := Prog.monad
  do
    let s ← Prog.get
    let cl := clusterOf core
    let held := l.filter (s.dev.cluster cl).withholds
    Prog.when (!held.isEmpty) (Prog.modDev (fun d => d.setCluster cl { d.cluster cl with heldNow := true }))
    Prog.each held (fun c => modGroup c.team c.gidx (fun g => g.withheldAt (s.dev.core core).cycle.toNat))

/-- R119, R120, R330, R331: a word of a store without a poison bit that ECC corrects, or finds uncorrectable; an HBM sector
whose stored data are wrong from now on; a sector of host memory that arrives poisoned over CXL. -/
def takeUpset (core : Nat) (x : Upset) : Prog Unit :=
  letI := Prog.monad
  let report (src u addr : Nat) : Prog Unit := .read (fun s =>
    raiseEvent { cls := 0, src, slot := ((s.team? u).bind (fun t => s.launch? t.launch)).map (fun l => l.cmd.slot), part := none
                 unit_ := coreUnit core, addr := natW addr })
  let word (src u addr : Nat) (e : Ecc) (bad : Prog Unit) : Prog Unit :=
    match e with
    | .good => .pure ()
    | .corrected => report src u addr
    | .uncorrectable => bad
  match x with
  | .none => .pure ()
  | .reg g r lane e => .read (fun s => Prog.when (s.group? g.team g.gidx).isSome
      (word 0 g.team r e (modGroup g.team g.gidx (fun y => { y with badV := insertNat (laneKey r lane) y.badV }))))
  | .latch g k lane e => .read (fun s => Prog.when (s.group? g.team g.gidx).isSome
      (word 0 g.team (256 + k) e (modGroup g.team g.gidx (fun y => { y with badV := insertNat (latchBase + laneKey k lane) y.badV }))))
  | .local u a e => .read (fun s => Prog.when (s.team? u).isSome
      (word 1 u (a / 4 * 4) e (modTeam u (fun t => { t with badLocal := insertNat (a / 4 * 4) t.badLocal }))))
  | .acc u high a e => .read (fun s => Prog.when (s.team? u).isSome
      (word 2 u (a / 4 * 4) e (modTeam u (fun t => { t with badAcc := if t.badAcc.contains (high, a / 4 * 4) then t.badAcc else (high, a / 4 * 4) :: t.badAcc }))))
  | .hbm sector e => Prog.when (inHbm (32 * sector) && e != .good) (Prog.act (.mem (.latent sector e)))
  | .hostPoison sector => Prog.when (inHost (32 * sector)) (Prog.act (.mem (.poison sector true)))

/-- R61: the fillers that stand before a split in its cache line. -/
def fillersAhead (s : State) (l : Launch) (g : Group) (x : Split) : Nat :=
  if !x.runnable || g.holds x || !fetched s l g x then 0
  else min (peekPast s l x.sup g.core 32 x.pc).1 (32 - x.pc.toNat % 128 / 4)

/-- R41: the split can run: it waits for nothing before its next instruction. -/
def Group.canRun (g : Group) (s : State) (l : Launch) (n : Nat) : Bool :=
  !g.holds (g.split n) && ([true, false].any (fun u => match aheadOf s l g n u with
      | .start _ _ => true
      | _ => false) || 0 < fillersAhead s l g (g.split n))

/-! ### Shared fetches (R45) -/

/-- The splits of a slot in a quadrant that are not stalled, with their fetch blocks. -/
def quadSplits (s : State) (core quad : Nat) (key : SlotKey) : List ((Nat × Nat × Nat) × Nat) :=
  s.teams.flatMap (fun t => match s.launch? t.launch with
    | none => []
    | some l => if l.cmd.slot != key then [] else
      (t.groups.filter (fun g => g.core == core && g.quad == quad)).flatMap (fun g =>
        ((List.range 4).filter (g.canRun s l)).map (fun n => ((t.uid, g.gidx, n), (g.split n).pc.toNat / 32))))

/-- R45: members that stall leave their sets. -/
def Dev.unfuse (d : Dev) (s : State) (core quad : Nat) : Dev :=
  { d with fuses := (d.fuses.map (fun f => if f.quad != core * 4 + quad then f
      else { f with members := f.members.filter (fun m => (quadSplits s core quad f.slot).any (fun p => p.1 == m)) })).filter (fun f => !f.members.isEmpty) }

/-- R45: the fetch of a start's block, one for all splits that stand there. A set that has been served together stays
fused. -/
def Dev.fetchBlock (d : Dev) (s : State) (core quad : Nat) (key : SlotKey) (c : Nat × Nat × Nat) (block : Nat) : Dev :=
  let q := core * 4 + quad
  let old := d.fuses.find? (fun f => f.quad == q && f.slot == key && f.members.contains c)
  if (old.map (fun f => f.block == block || f.prev == block)).getD false then d
  else
    let last := (old.map (·.block)).getD block
    let mates := (old.map (·.members)).getD []
    let near := quadSplits s core quad key
    let here := near.filter (fun p => p.1 != c && (p.2 == block || (p.2 == last && mates.contains p.1)))
    let members := c :: here.map (·.1)
    let rest := (d.fuses.map (fun f => { f with members := f.members.filter (fun m => !members.contains m) })).filter (fun f => !f.members.isEmpty)
    let x := d.core core
    { d.setCore core { x with fetch := x.fetch + 1, fused := if here.isEmpty then x.fused else x.fused + 1 } with
      fuses := { quad := q, slot := key, block, prev := last, members } :: rest }

/-- The chosen split's instruction is fetched, and runs in the next step, on the lane group or on the uniform datapath. -/
def beginStart (u gi n : Nat) (uni : Bool) : Prog Unit :=
  .read (fun s => match s.team? u, s.group? u gi with
    | some t, some g => match s.launch? t.launch with
      | some l =>
        Prog.bind (Prog.modDev (fun d => d.fetchBlock s g.core g.quad l.cmd.slot (u, gi, n) ((g.split n).pc.toNat / 32))) (fun _ =>
          Prog.bind (Prog.when (!uni) (dropLatches u g)) (fun _ => Prog.act (.cur (some ⟨u, gi, n⟩))))
      | none => .pure ()
    | _, _ => .pure ())

/-! ### ISSUE -/

/-- R61: splits at fillers go past them, and may meet others there (R41). -/
def skipFillers (site : Site) (s : State) : List (Nat × Nat × Nat × Nat) :=
  (siteSplits site s).filterMap (fun (p : Team × Launch × Group × Nat) =>
    match fillersAhead s p.2.1 p.2.2.1 (p.2.2.1.split p.2.2.2) with
    | 0 => none
    | k => some (p.1.uid, p.2.2.1.gidx, p.2.2.2, k))

/-- R189: a split that waits for segments tries again once its bank has them. -/
def Group.segmentsAgain (g : Group) (s : State) : Group :=
  let has (r : Nat) : Bool := bankUse s g.core g.quad (r % 8) + g.width / 16 ≤ bankSegments
  { g with splits := g.splits.map (fun x => match x.wait with
      | .segments r => if has r then { x with wait := .none } else x
      | _ => x) }

/-- R274: one datapath chooses what it starts; the instruction runs in the next step. Where a group's start with the lowest PC
is withheld (R275), R41 and R274 leave open whether one with a higher PC may be chosen: DESIGN CHOICE, it may (log entry
92). -/
def execIssue (site : Site) (upset : Upset) (s : State) : Host.Outcome State Fault Refusal :=
  letI := Prog.monad
  (do
    let s ← Prog.get
    if s.cur.isSome then pure ()
    else do
      takeUpset (siteCore site) upset
      let parks := (siteSplits site s).filterMap (fun (p : Team × Launch × Group × Nat) =>
        match aheadOf s p.2.1 p.2.2.1 p.2.2.2 (siteUniform site) with
        | .handle k => some (p.1.uid, p.2.2.1.gidx, p.2.2.2, k)
        | _ => none)
      Prog.each parks (fun (p : Nat × Nat × Nat × Nat) =>
        modGroup p.1 p.2.1 (fun g => g.modSplit p.2.2.1 (fun x => { x with wait := .handle p.2.2.2 })))
      let waits (x : Split) : Bool := match x.wait with
        | .segments _ => true
        | _ => false
      Prog.each ((siteSplits site s).filter (fun (p : Team × Launch × Group × Nat) => waits (p.2.2.1.split p.2.2.2)))
        (fun (p : Team × Launch × Group × Nat) => modGroup p.1.uid p.2.2.1.gidx (fun g => g.segmentsAgain s))
      let s ← Prog.get
      let moves := skipFillers site s
      Prog.each moves (fun (p : Nat × Nat × Nat × Nat) => do
        modGroup p.1 p.2.1 (fun g => g.modSplit p.2.2.1 (fun x => { x with pc := x.pc + BitVec.ofNat 64 (4 * p.2.2.2) }))
        settle p.1 p.2.1)
      if !moves.isEmpty then pure ()
      else do
        noteWithheld (siteCore site) (siteOpen site s)
        Prog.when (!s.dev.fuses.isEmpty) (Prog.modDev (fun d => d.unfuse s (siteCore site) (siteQuad site)))
        if !siteFree site s then pure ()
        else match chooseStart (siteMay site s) with
        | none => pure ()
        | some c => beginStart c.team c.gidx c.split (siteUniform site) : Prog Unit).run s

/-- The datapaths of a group. -/
def Group.sites (g : Group) : List Site := [.lane g.core g.quad g.lg, .uniform g.core g.quad]

/-- R275: the withheld start of a group with the lowest PC. -/
def withheldStart (s : State) (u : Nat) (g : Group) : Option Start :=
  let k := s.dev.cluster (clusterOf g.core)
  ((g.sites.flatMap (fun x => siteOpen x s)).filter (fun c => c.team == u && c.gidx == g.gidx && k.withholds c)).foldl (fun best c =>
    match best with
    | none => some c
    | some b => if c.pc.toNat < b.pc.toNat then some c else some b) none

/-- R275: a group has been withheld in 4096 consecutive cycles. -/
def execWithholdStarvation (cluster : Nat) (g : GRef) (s : State) : Host.Outcome State Fault Refusal :=
  (Prog.read (fun s => match s.group? g.team g.gidx with
    | none => .pure ()
    | some x =>
      let now := (s.dev.core x.core).cycle.toNat
      if clusterOf x.core == cluster && 4096 ≤ x.withheld && now ≤ x.heldAt && (s.dev.cluster cluster).starving.isNone then
        match withheldStart s g.team x with
        | some c => Prog.modDev (fun d => d.setCluster cluster { d.cluster cluster with starving := some (g.team, g.gidx, c.split) })
        | none => .pure ()
      else .pure ())).run s

/-! ### Merges and the overflow list (R40, R41) -/

/-- A split's number in the records of early releases. -/
def Early.retag (e : Early) (team gidx a b : Nat) : Early :=
  { e with split := if (e.team, e.gidx, e.split) == (team, gidx, b) then a else e.split
           seen := e.seen.map (fun x => if x == (team, gidx, b) then (team, gidx, a) else x) }

def execSplitMerge (g : GRef) (a b : Nat) (s : State) : Host.Outcome State Fault Refusal :=
  letI := Prog.monad
  (do
    let s ← Prog.get
    match s.group? g.team g.gidx with
    | none => pure ()
    | some x =>
      let other := if b < 4 then x.split b else x.overflow.getD (b - 4) {}
      if a < 4 && a < b && (x.split a).meets other then do
        Prog.when (b < 4) (Prog.act (.mem (.retag g.team g.gidx a b)))
        -- R178: what the merged split released and read stays its own
        Prog.when (b < 4 && !s.dev.early.isEmpty) (Prog.modDev (fun d => { d with early := d.early.map (fun e => e.retag g.team g.gidx a b) }))
        modGroup g.team g.gidx (fun x => x.mergeAt a b)
        settle g.team g.gidx
      else pure () : Prog Unit).run s

/-- R40: the waiting split with the lowest PC, when no split of the group can run. -/
def Group.lowestWaiting (g : Group) (s : State) (l : Launch) : Option Nat :=
  if (List.range 4).any (g.canRun s l) then none
  else ((List.range 4).filter (fun n => (g.split n).live && (g.split n).wait == .number && !g.holds (g.split n))).foldl (fun best n =>
    match best with
    | none => some n
    | some m => if (g.split n).pc.toNat < (g.split m).pc.toNat then some n else some m) none

/-- R40, R348: the frame that a team holds for its overflow entries: its own, or the lowest clear one, which it claims. -/
def claimFrame (u : Nat) : Prog Bool :=
  letI := Prog.monad
  do
    let t ← getTeam u
    if t.frame.isSome then pure true
    else do
      let l ← getLaunch t.launch
      let s ← Prog.get
      match (clearFrame s l.cmd.slot l).filter (fun f => (busyByte s l.cmd.slot f).isSome) with
      | none => pure false
      | some f => do
        setBusy l.cmd.slot f true
        modTeam u (fun t => { t with frame := some f })
        pure true

/-- R37, R40, R274, R275: a split that waits for a number competes on its group's datapaths as if it were runnable: its starts
there. -/
def overflowStarts (s : State) (t : Team) (l : Launch) (g : Group) (n : Nat) : List (Site × Start) :=
  let h := g.modSplit n (fun x => { x with wait := .none })
  g.sites.filterMap (fun x => match siteChain x s with
    | some c => if c == (t.uid, g.gidx, n) then (startOf x s t l h n).map (fun c => (x, c)) else none
    | none => (startOf x s t l h n).map (fun c => (x, c)))

/-- The one that is chosen in this cycle. -/
def overflowStart (s : State) (t : Team) (l : Launch) (g : Group) (n : Nat) : Option (Site × Start) :=
  (overflowStarts s t l g n).find? (fun p => siteFree p.1 s && !(s.dev.cluster (clusterOf g.core)).withholds p.2
    && chooseStart (siteMay p.1 s ++ [p.2]) == some p.2)

/-- R40: the newest overflow entry takes a free number; the list is written to the team's frame; or the split that waits for
a number executes its instruction. -/
def execSplitOverflow (g : GRef) (s : State) : Host.Outcome State Fault Refusal :=
  letI := Prog.monad
  (do
    let s ← Prog.get
    match s.team? g.team, s.group? g.team g.gidx with
    | some t, some x =>
      if !x.overflow.isEmpty && !x.freeNumbers.isEmpty then do
        modGroup g.team g.gidx Group.popOverflow
        settle g.team g.gidx
      else if !x.listed then do
        storeOverflow g.team g.gidx
        settle g.team g.gidx
      else if s.cur.isSome || t.leaving || s.evicting t.uid then pure ()
      else match s.launch? t.launch with
        | none => pure ()
        | some l => match x.lowestWaiting s l with
          | none => pure ()
          | some n => do
            noteWithheld x.core ((overflowStarts s t l x n).map (·.2))
            match overflowStart s t l x n with
            | none => pure ()
            | some p => do
              let ok ← claimFrame g.team
              Prog.when ok (beginStart g.team g.gidx n (siteUniform p.1))
    | _, _ => pure () : Prog Unit).run s

/-! ### RJDL (R246) -/

/-- The splits that wait at a `rejoin`, when every live split does and nothing of the group can go on. -/
def Group.deadlocked (g : Group) : Option (List Nat) :=
  let live := (List.range 4).filter (fun n => (g.split n).live)
  if !live.isEmpty && g.handler.isNone && g.rolling.isNone && g.mpcount == 0 && g.mergePair.isNone
      && (g.overflow.isEmpty || g.freeNumbers.isEmpty)
      && live.all (fun n => (g.split n).wait == .rejoin && (g.split n).trap.isNone) then some live
  else none

def rjdlTaux (live : List Nat) (overflow : Nat) : W64 := BitVec.ofNat 64 ((live.map (fun n => 2 ^ n)).foldl (· + ·) 0 + 256 * overflow)

def execRjdl (g : GRef) (s : State) : Host.Outcome State Fault Refusal :=
  (Prog.read (fun s => match s.group? g.team g.gidx with
    | none => .pure ()
    | some x => match x.deadlocked with
      | none => .pure ()
      | some live =>
        let n := live.headD 0
        let y := x.split n
        raiseOn g.team g.gidx n { cause := .rjdl, detail := 0, mask := y.mask, epc := y.pc, taux := rjdlTaux live x.overflow.length
                                  fva := [] })).run s

/-! ### Rollback (R333) -/

/-- R333: a pending trap without the threads of R. -/
def Split.dropTrap (x : Split) (r : Mask) : Split :=
  match x.trap with
  | none => x
  | some t => if t.mask &&& ~~~r = 0 then { x with trap := none } else { x with trap := some { t with mask := t.mask &&& ~~~r } }

/-- R332: RGNPC.PC as an address (R127). -/
def regionPc (rgnpc : W64) : W64 := ((rgnpc &&& 0x01FFFFFFFFFFFFFC#64).setWidth 57 : BitVec 57).signExtend 64

/-- The group without the threads of R, with the record's state; the record is what it was when the rollback began. -/
def Group.rolledBack (g : Group) (rec : Region × W64) (r : Mask) : Group :=
  let g := g.removeThreads r
  { g with splits := g.splits.map (fun x => x.dropTrap r), overflow := g.overflow.map (fun x => x.dropTrap r)
           frm := rec.1.frm, dphase := rec.1.dphase, region := { rec.1 with retry := rec.1.retry + 1, blocks := [] }, rgnpc := rec.2
           latch := [], rolling := none, issued := none, listed := g.listed && g.overflow.isEmpty }

/-- The split that starts the region again. -/
def newRegion (rec : Region × W64) (r : Mask) : Split :=
  { live := true, pc := regionPc rec.2, mask := r, emask := r, acc := rec.1.acc, fresh := true }

def execRollback (g : GRef) (s : State) : Host.Outcome State Fault Refusal :=
  letI := Prog.monad
  (do
    let s ← Prog.get
    match s.group? g.team g.gidx with
    | none => pure ()
    | some x => match x.rolling with
      | none => pure ()
      | some rec =>
        let r := x.rollMask
        if x.stream.any (fun o => o.mask &&& r != 0) then pure ()
        else if r = 0 then do
          modGroup g.team g.gidx (fun x => { x with rolling := none })
          settle g.team g.gidx
        else do
          let y := x.rolledBack rec r
          let ok ← (if y.freeNumbers.isEmpty then claimFrame g.team else pure true)
          Prog.when ok (do
            modGroup g.team g.gidx (fun x => (x.rolledBack rec r).place [newRegion rec r])
            let s ← Prog.get
            let near (h : Group) : Bool := h.core == x.core && h.quad == x.quad && h.lg == x.lg && !h.latch.isEmpty
            Prog.each (s.teams.flatMap (fun t => (t.groups.filter near).map (fun h => (t.uid, h.gidx)))) (fun (p : Nat × Nat) =>
              modGroup p.1 p.2 (fun h => { h with latch := [] }))
            settle g.team g.gidx) : Prog Unit).run s

/-! ### Instruction-cache fills (R44) -/

/-- R44: the line arrives for every slot that waits for it; the oldest line makes room. -/
def execFetchFill (core line : Nat) (s : State) : Host.Outcome State Fault Refusal :=
  (Prog.read (fun s =>
    let slots := (s.teams.filterMap (fun t => (s.launch? t.launch).bind (fun l =>
      if t.groups.any (fun g => g.core == core && g.splits.any (fun x => x.live && codeLine x.pc == line)) then some l.cmd.slot else none)))
    let new := (slots.foldl (fun acc k => insertNat k acc) []).filter (fun k =>
      !s.dev.code.any (fun c => c.core == core && !c.const && c.slot == k && c.line == line))
    if new.isEmpty then .pure ()
    else Prog.modDev (fun d => d.fillCode core false (new.map (fun k => { core, const := false, slot := k, line }))))).run s

end Sys2Proof.Machine
end

