-- ==== Sys2Proof/Machine/Porter.lean ====
section
/-! DEFINITION. The porter (R33, R46 to R59, R188, R189, R269 to R273, R304, R305, R312 to R314, R345 to R350): launches,
the placement queue, admission, eviction, resumption, and the end of teams and launches. -/
namespace Sys2Proof.Machine

/-! ### Reading a launch's descriptors at dequeue (R304, R312, R345) -/

/-- The porter's loads: through the slot's translation at supervisor level, from the view of a word's home die. -/
def porterWord (s : State) (key : SlotKey) (va : W64) : Option W64 :=
  match saveAt s key .read va with
  | .ok pa => if s.mem.poisoned pa 8 then none else some (s.mem.word (s.mem.homeDie pa) pa 8)
  | .error _ => none
def porterWords (s : State) (key : SlotKey) (va : W64) (n : Nat) : Option (List W64) :=
  (List.range n).mapM (fun i => porterWord s key (va + natW (8 * i)))

/-- R119: what ECC finds in a range that the porter reads. -/
def porterEcc (key : SlotKey) (va : W64) (n : Nat) : Prog Unit :=
  .read (fun s =>
    if s.mem.latent.isEmpty then .pure ()
    else Prog.each (List.range ((n + 31) / 32)) (fun i => .read (fun s => match saveAt s key .read (va + natW (32 * i)) with
      | .ok pa => eccRead key pa (min 32 (n - 32 * i))
      | .error _ => .pure ())))

/-- R304: the bits of each word that are not reserved. -/
def descMask (i : Nat) : W64 :=
  if i = 0 || i = 2 || i = 5 then 0x01FFFFFFFFFFFFFF
  else if i = 1 then 0x03F7FFFF0FFF3F03
  else if i = 3 then 0x00000FFF07FF01FF
  else if i = 4 then 0xF1FFFFFFFFFFFFFF
  else if i = 6 then 0xFFFF
  else if i = 7 then 0
  else if i % 2 = 0 then 0x01FFFFFFFFFFFFFF
  else 0x3FFFF

def descOf (ws : List W64) : Desc :=
  let w (i : Nat) : W64 := ws.getD i 0
  { entry := w 0, width := 16 * 2 ^ fld (w 1) 0 2, regs := 8 * fld (w 1) 8 6, threads := fld (w 1) 16 12
    localSize := 256 * fld (w 1) 32 13, accSize := 16384 * fld (w 1) 45 5, node := (w 1).getLsbD 50
    pdef := fld (w 1) 52 3, pmax := fld (w 1) 55 3, rtab := w 2, nrcp := fld (w 3) 0 9, rsize := fld (w 3) 16 11
    coal := fld (w 3) 32 12, succ := w 4 &&& 0x01FFFFFFFFFFFFFF#64, nsucc := fld (w 4) 60 4, sarea := w 5, salen := fld (w 6) 0 16
    cbase := (List.range 8).map (fun k => w (8 + 2 * k)), clen := (List.range 8).map (fun k => fld (w (9 + 2 * k)) 0 18) }

/-- Groups of a team, and how many of them a quadrant can hold by its rows and its slots (R46, R188). -/
def Desc.groups (d : Desc) : Nat := d.threads / d.width
/-- Segments of each bank that a group needs. -/
def Desc.perBank (d : Desc) : Nat := d.regs / 8 * (d.width / 16)
def Desc.perQuad (d : Desc) : Nat := min 24 (bankSegments / d.perBank)

/-- R46: the team needs more than one core holds. -/
def Desc.pair (d : Desc) : Bool := 4 * d.perQuad < d.groups || 0x80000 < d.localSize

/-- R33, R304: no field holds an illegal value, and the team fits a core pair. R304 says that reserved fields must be zero and
gives them no illegal values, which R2 would have ignored: DESIGN CHOICE, a reserved bit that is set is an illegal value (log
entry 106). -/
def descOk (ws : List W64) : Bool :=
  let d := descOf ws
  (List.range 24).all (fun i => ws.getD i 0 &&& ~~~(descMask i) == 0)
    && d.entry.toNat % 32 == 0 && 8 ≤ d.regs && d.regs ≤ 256 && d.width ≤ d.threads && d.threads ≤ 2048 && d.threads % d.width == 0
    && d.localSize ≤ 0x100000 && d.accSize ≤ 0x40000 && d.pmax ≤ 2 && d.pdef ≤ d.pmax
    && d.rtab.toNat % 32 == 0 && (d.nrcp == 0 || d.rtab != 0) && d.nrcp ≤ 256
    && (!d.node || (8 ≤ d.rsize && d.rsize ≤ 1024 && d.rsize % 8 == 0 && 1 ≤ d.coal && d.coal ≤ 2048))
    && (d.nsucc == 0 || d.succ.toNat % 8 == 0) && d.sarea.toNat % 32 == 0 && d.salen % 32 == 0 && d.salen ≤ 32768
    && (List.range 8).all (fun k => d.clen.getD k 0 ≤ 131072 && (d.clen.getD k 0 == 0 || (d.cbase.getD k 0).toNat % 4 == 0))
    && d.groups ≤ 8 * d.perQuad

/-- R345: FSIZE and NFRAME, where they are legal. -/
def frameHeader (s : State) (key : SlotKey) : Option (Nat × Nat) :=
  match porterWords s key (s.dev.slot key).save 2 with
  | some [a, b] =>
    let n := lo32 b
    if a != 0 && a.toNat % 4096 == 0 && 1 ≤ n && n ≤ 4096 then some (a.toNat, n) else none
  | _ => none

/-- The entries of one region of an order log. -/
def logRegion (s : State) (key : SlotKey) (base : W64) (used : Nat) : Option (List LogEntry) :=
  (List.range (used / 32)).mapM (fun i => (porterWords s key (base + natW (32 * i)) 4).map LogEntry.ofWords)

/-- R312, R314: what a launch replays; `none` where its log is refused. -/
def logAt (s : State) (c : LaunchCmd) : Option (List LogEntry) :=
  if c.mode = 0 then some []
  else if c.olog.toNat % 4096 != 0 then none
  else match porterWords s c.slot c.olog 5 with
  | some hs =>
    let w (i : Nat) : W64 := hs.getD i 0
    let size := lo32 (w 0)
    if size = 0 || size % 4096 != 0 then none
    else if c.mode = 1 then some []
    else
      let flags := fld (w 0) 32 8
      let used (d : Nat) : Nat := fld (w (1 + d / 2)) (32 * (d % 2)) 32
      if flags / 4 % 2 != 1 || flags % 2 != 0 || (List.range 8).any (fun d => size < used d || used d % 32 != 0) then none
      else match (List.range 8).mapM (fun d => logRegion s c.slot (c.olog + natW (0x1000 + d * size)) (used d)) with
        | some rs =>
          let all := rs.flatMap id
          if all.all (fun e => 1 ≤ e.kind && e.kind ≤ 5) then some all else none
        | none => none
  | none => none

/-- R299: the place of a node launch's descriptor, where it is well formed; 0 for other launches. -/
def nodeAt (s : State) (c : LaunchCmd) (d : Desc) : Option Nat :=
  if !d.node then some 0
  else if c.args.toNat % 64 != 0 then none
  else match saveAt s c.slot .both c.args with
    | .ok pa => if (nodeOf s.mem pa).bad (some d) then none else some pa
    | .error _ => none

/-- What a command becomes: the launch, and the node that it starts. -/
def launchOf (s : State) (part prio id : Nat) (c : LaunchCmd) : Option (Launch × Nat) :=
  let x := s.dev.slot c.slot
  if x.save.toNat % 4096 != 0 || x.fdt.toNat % 128 != 0 then none
  else match porterWords s c.slot c.kdesc 24, frameHeader s c.slot, logAt s c with
    | some ws, some f, some log =>
      if !descOk ws then none
      else (nodeAt s c (descOf ws)).map (fun pa =>
        ({ id, part, cmd := c, prio, deq := (s.dev.part part).nextDeq, desc := descOf ws, replay := log
           fsize := f.1, nframe := f.2 }, pa))
    | _, _, _ => none

/-- Active launches of a partition at once (R270). -/
def activeMax : Nat := 8

/-- Cores of a partition, ascending (R16, R313). -/
def coresOf (d : Dev) (p : Nat) : List Nat :=
  (List.range 256).filter (fun c => (d.part p).clusters.getLsbD (clusterOf c) && d.hasCluster (clusterOf c))

/-- R270. -/
def execLaunchDequeue (part : Nat) (s : State) : Host.Outcome State Fault Refusal :=
  letI := Prog.monad
  (do
    let s ← Prog.get
    let p := s.dev.part part
    let prio := ((List.range 4).reverse.find? (fun k => !(p.queues.getD k []).isEmpty)).getD 0
    if activeMax ≤ (s.dev.launches.filter (fun l => l.part == part)).length then pure ()
    else match p.queues.getD prio [] with
    | [] => pure ()
    | c :: rest => do
      let id ← Prog.fresh
      Prog.modDev (fun d => d.setPart part { p with queues := setNth p.queues prio rest, nextDeq := p.nextDeq + 1 })
      porterEcc c.slot c.kdesc 192
      porterEcc c.slot (s.dev.slot c.slot).save 16
      Prog.when (c.mode != 0) (porterEcc c.slot c.olog 40)
      Prog.when (c.mode == 2) (match porterWords s c.slot c.olog 5 with
        | some hs => Prog.each (List.range 8) (fun d => porterEcc c.slot (c.olog + natW (0x1000 + d * lo32 (hs.getD 0 0)))
            (min (lo32 (hs.getD 0 0)) (fld (hs.getD (1 + d / 2) 0) (32 * (d % 2)) 32)))
        | none => .pure ())
      let s ← Prog.get
      match launchOf s part prio id c with
      | none => writeRecord c.slot c.done c.seq 1
      | some (l, pa) => do
        -- R104, R115: the caches of code and constants are invalid at the start of a launch
        let cs := coresOf s.dev part
        Prog.modDev (fun d => { d with launches := d.launches ++ [{ l with deq := p.nextDeq }], code := d.code.filter (fun x => !cs.contains x.core) })
        let s ← Prog.get
        Prog.when (l.desc.node && (nodeOf s.mem pa).prod == 0) (flushNode pa) : Prog Unit).run s

/-! ### Selection (R48, R51, R271, R280) -/

/-- The node descriptor of a node launch. -/
def Launch.node? (l : Launch) (s : State) : Option (Nat × Node) :=
  if !l.desc.node then none
  else match saveAt s l.cmd.slot .both l.cmd.args with
    | .ok pa => some (pa, nodeOf s.mem pa)
    | .error _ => none

/-- Teams that a launch has so far: NTEAM, or the batches of its node. -/
def Launch.teamsNow (l : Launch) (s : State) : Nat :=
  if !l.desc.node then l.cmd.nteam
  else match l.node? s with
    | some (_, n) => if n.flushed then (n.formed + l.desc.coal - 1) / l.desc.coal else n.formed / l.desc.coal
    | none => 0

/-- The next team of a virtual-core list. -/
def Launch.next (l : Launch) (v : Nat) : Nat := (Tab.get none l.cursor v).getD v

/-- R273: none of the team's groups can run, and one waits after a REFUSED answer. -/
def Team.onRetry (t : Team) : Bool :=
  t.groups.all (fun g => !g.splits.any Split.runnable) && t.groups.any (fun g => g.splits.any (fun x => match x.wait with
    | .retry _ _ => true
    | _ => false))

def Launch.onRetry (l : Launch) (s : State) : Bool := s.teams.any (fun t => t.launch == l.id && t.onRetry)

/-- The lowest number of a list. -/
def least (l : List Nat) : Option Nat :=
  l.foldl (fun best n => match best with
    | some m => some (min m n)
    | none => some n) none

/-- The lowest team that no list has given out. -/
def Launch.leastNew (l : Launch) (s : State) : Option Nat :=
  least (((List.range 1024).map l.next).filter (fun t => t < l.teamsNow s))

/-- R280, R313: the trace entry that dispatches a team next on one of the places given. -/
def dispatchNext (s : State) (l : Launch) (team : Nat) (cores : List Nat) : Option LogEntry :=
  let all := coresOf s.dev l.part
  l.replay.find? (fun e => e.kind == 1 && e.team == team && e.ord == l.nextOrd 1 e.site
    && cores.contains (all.getD (e.site % max 1 all.length) 0))

/-- A launch's team that may be selected from list v now. -/
def Launch.offers (l : Launch) (s : State) (v : Nat) : Bool :=
  l.next v < l.teamsNow s && (l.cmd.mode != 2 || (dispatchNext s l (l.next v) (coresOf s.dev l.part)).isSome)

/-- New entries that the placement queue holds (R269). -/
def placementDepth : Nat := 64

/-- The porter selects from list `vcore` of a launch. -/
def execTeamSelect (part launch vcore : Nat) (s : State) : Host.Outcome State Fault Refusal :=
  letI := Prog.monad
  (do
    let s ← Prog.get
    match s.launch? launch with
    | none => pure ()
    | some l =>
      let p := s.dev.part part
      let served := s.dev.launches.all (fun m => m.part != part || m.id == l.id || keyLe (launchKey s.dev l.id) (launchKey s.dev m.id)
        || !(List.range 1024).any (m.offers s))
      if l.part != part || 1024 ≤ vcore || !served then pure ()
      else
        let new (ahead : Bool) : Prog Unit :=
          if placementDepth ≤ (p.placement.filter (fun e => !e.resumed)).length then .pure ()
          else Prog.modDev (fun d =>
            let p := d.part part
            let e : Entry := { uid := 0, launch := l.id, team := l.next vcore, resumed := false, ahead }
            let d := d.setPart part { p with placement := insertEntry d e p.placement }
            d.setLaunch { l with cursor := Tab.set none l.cursor vcore (some (l.next vcore + 1024)) })
        let replays := l.cmd.mode == 2
        if l.onRetry s then
          -- R271: the lowest team that waits goes ahead of the launch's other entries; first dispatches keep to a replayed trace
          let waits := p.placement.filter (fun e => e.launch == l.id && (e.resumed || !replays))
          let low := least ((if replays then none else l.leastNew s).toList ++ waits.map (·.team))
          match low with
          | none => Prog.when (replays && l.offers s vcore) (new false)
          | some t => match waits.find? (fun e => e.team == t) with
            | some e =>
              if !e.ahead && vcore == t % 1024 then Prog.modDev (fun d =>
                let p := d.part part
                let rest := p.placement.filter (fun x => !(x.launch == l.id && x.team == t))
                d.setPart part { p with placement := insertEntry d { e with ahead := true } rest })
              else Prog.when (replays && l.offers s vcore) (new false)
            | none => Prog.when (l.next vcore == t) (new true)
        else Prog.when (l.offers s vcore) (new false) : Prog Unit).run s

/-! ### Room (R46, R105, R111, R188) -/

/-- The cores of a place. -/
def placeCores : Place → List Nat
  | .core n => [n]
  | .pair n => [2 * n, 2 * n + 1]

/-- Scratchpad bytes that a team takes on a core; a pair shares 4 KiB tiles between its cores. -/
def Place.spad (pl : Place) (localSize core : Nat) : Nat :=
  if !(placeCores pl).contains core then 0
  else match pl with
    | .core _ => localSize
    | .pair _ => (localSize + 8191) / 8192 * 4096

/-- A team's use of a core: scratchpad, accumulator bytes. -/
def coreUse (s : State) (core : Nat) : Nat × Nat :=
  s.teams.foldl (fun u t =>
    let d := ((s.launch? t.launch).map (·.desc)).getD {}
    (u.1 + Place.spad t.place d.localSize core, u.2 + (if (placeCores t.place).contains core then d.accSize else 0))) (0, 0)

/-- A group's place, and its need of each bank. -/
structure Berth where
  core : Nat
  quad : Nat
  lg : Nat
  need : List Nat
  deriving DecidableEq, Repr

/-- R34, R269: groups bound to a lane group; a binding lasts until its group exits. -/
def seated (s : State) (core quad lg : Nat) : Nat :=
  (s.teams.map (fun t => (t.groups.filter (fun g => g.core == core && g.quad == quad && g.lg == lg && !g.over)).length)).foldl (· + ·) 0

/-- R46, R188: a group with these needs can be put into a lane group beside the seats already given. -/
def seatFree (s : State) (given : List Berth) (need : List Nat) (c q l : Nat) : Bool :=
  seated s c q l + (given.filter (fun x => x.core == c && x.quad == q && x.lg == l)).length < 12
    && (List.range 8).all (fun b =>
      bankUse s c q b + ((given.filter (fun x => x.core == c && x.quad == q)).map (fun x => x.need.getD b 0)).foldl (· + ·) 0
        + need.getD b 0 ≤ bankSegments)

/-- Where a group may go. -/
def seatsFor (s : State) (pl : Place) (given : List Berth) (need : List Nat) : List Berth :=
  (placeCores pl).flatMap (fun c => (List.range 4).flatMap (fun q => (List.range 2).filterMap (fun l =>
    if seatFree s given need c q l then some ⟨c, q, l, need⟩ else none)))

/-- Every group finds a seat in some packing; groups of equal needs at the first seat that is free. -/
def seatAll (s : State) (pl : Place) : List (List Nat) → List Berth → Bool
  | [], _ => true
  | need :: t, given =>
    let l := seatsFor s pl given need
    (if t.all (fun x => x == need) then l.take 1 else l).any (fun x => seatAll s pl t (given ++ [x]))

/-- The porter's choice of the seats (R46): any that leaves seats for the rest. -/
def chooseSeats (s : State) (pl : Place) : List (List Nat) → List Berth → Prog (Option (List Berth))
  | [], given => .pure (some given)
  | need :: t, given =>
    let l := (seatsFor s pl given need).filter (fun x => seatAll s pl t (given ++ [x]))
    (Prog.choose l.length).bind (fun k => match l[k]? with
      | some x => chooseSeats s pl t (given ++ [x])
      | none => .pure none)

/-- R188: the needs of a new team's groups. -/
def newNeeds (d : Desc) : List (List Nat) := List.replicate d.groups (List.replicate 8 d.perBank)
/-- The needs of a resumed team's groups; with the full footprint where R189 asks for it. -/
def savedNeeds (d : Desc) (t : Team) (full : Bool) : List (List Nat) :=
  t.groups.map (fun g => (List.range 8).map (fun b =>
    d.width / 16 * ((List.range d.regs).filter (fun r => r % 8 == b && (full || !g.demoted r))).length))

/-- The place is of the partition and of the kind that the team needs. -/
def placeOk (d : Dev) (part : Nat) (desc : Desc) (pl : Place) : Bool :=
  (match pl with
    | .core _ => !desc.pair
    | .pair _ => desc.pair) && (placeCores pl).all (fun c => c < 256 && (coresOf d part).contains c)

/-- Room for a team with these needs. -/
def roomAt (s : State) (l : Launch) (needs : List (List Nat)) (pl : Place) : Bool :=
  placeOk s.dev l.part l.desc pl
    && (placeCores pl).all (fun c =>
      let u := coreUse s c
      u.1 + Place.spad pl l.desc.localSize c ≤ 0x80000 && u.2 + l.desc.accSize ≤ 0x40000)
    && seatAll s pl needs []

/-- R49: the virtual core's binding allows the place; it may change while none of its teams is resident. -/
def bindingOk (s : State) (l : Launch) (team : Nat) (pl : Place) : Bool :=
  match Tab.get none l.binding (team % 1024) with
  | none => true
  | some b => b == pl || !s.teams.any (fun t => t.launch == l.id && t.number % 1024 == team % 1024)

/-- The needs of an entry's groups. -/
def entryNeeds (s : State) (l : Launch) (e : Entry) : List (List Nat) :=
  if e.resumed then match s.saved.find? (fun t => t.uid == e.uid) with
    | some t => savedNeeds l.desc t e.full
    | none => []
  else newNeeds l.desc

/-- R313: the choice that a first dispatch is in the dispatch trace. -/
def dispatchChoice (s : State) (l : Launch) (team : Nat) (pl : Place) : Choice :=
  let core := (placeCores pl).headD 0
  let site := match dispatchNext s l team (placeCores pl) with
    | some e => if l.cmd.mode = 2 then e.site else (coresOf s.dev l.part).idxOf core
    | none => (coresOf s.dev l.part).idxOf core
  { launch := l.id, die := dieOf core, kind := 1, site, team, gidx := 0, lane := 0, opn := 0 }

/-- R279, R280: the mode lets the entry be admitted at a place. -/
def dispatchGate (s : State) (l : Launch) (e : Entry) (pl : Place) : Gate :=
  if e.resumed then .free else gateOf s (dispatchChoice s l e.team pl)

/-- R280: a first dispatch of a replay keeps to the cores that its trace names. -/
def placeAllowed (s : State) (l : Launch) (e : Entry) (pl : Place) : Bool :=
  e.resumed || l.cmd.mode != 2 || (match dispatchGate s l e pl with
    | .wait | .diverged => false
    | _ => true)

/-- R272: an entry fits at a place. -/
def fitsAt (s : State) (l : Launch) (e : Entry) (pl : Place) : Bool :=
  bindingOk s l e.team pl && placeAllowed s l e pl && roomAt s l (entryNeeds s l e) pl

/-- R272, R279: an entry that may be admitted at a place. -/
def admits (s : State) (l : Launch) (e : Entry) (pl : Place) : Bool :=
  fitsAt s l e pl && (match dispatchGate s l e pl with
    | .wait | .diverged => false
    | _ => true)

/-- The places of a partition of the kind that a launch's teams need. -/
def placesOf_ (d : Dev) (l : Launch) : List Place :=
  if l.desc.pair then ((coresOf d l.part).filter (fun c => c % 2 == 0)).map (fun c => .pair (c / 2))
  else (coresOf d l.part).map .core

/-- The places that the porter tries for an entry. -/
def entryPlaces (s : State) (l : Launch) (e : Entry) : List Place :=
  match Tab.get none l.binding (e.team % 1024) with
  | some b => [b]
  | none => placesOf_ s.dev l

/-- An entry passes a test at one of its places. -/
def entryAny (s : State) (e : Entry) (p : State → Launch → Entry → Place → Bool) : Bool :=
  match s.launch? e.launch with
  | none => false
  | some l => (entryPlaces s l e).any (p s l e)
/-- R273: the entry has room, whether or not its dispatch can be logged now. -/
def entryFits (s : State) (e : Entry) : Bool := entryAny s e fitsAt

/-- R48: an earlier team of the same virtual core has still to be dispatched. -/
def Entry.precedes (x e : Entry) : Bool :=
  !x.resumed && !e.resumed && x.launch == e.launch && x.team % 1024 == e.team % 1024 && x.team < e.team

/-- R48, R272: the entry at an index of a partition's queue is the first that can be admitted. -/
def entryTurn (s : State) (part k : Nat) : Option (Entry × Launch) :=
  let q := (s.dev.part part).placement
  match q[k]? with
  | none => none
  | some e => match s.launch? e.launch with
    | none => none
    | some l => if (q.take k).any (fun x => entryAny s x admits || x.precedes e) then none else some (e, l)

/-! ### Admission and resumption (R187, R188, R272, R349) -/

/-- A group at its start (R187). -/
def newGroup (l : Launch) (gi : Nat) (x : Berth) : Group :=
  { gidx := gi, width := l.desc.width, s := Tab.set 0 [] 0 l.cmd.args
    splits := [{ live := true, pc := l.desc.entry, mask := fullMask l.desc.width, emask := fullMask l.desc.width }, {}, {}, {}]
    pwr := BitVec.ofNat 3 l.desc.pdef, core := x.core, quad := x.quad, lg := x.lg }

/-- A resumed group at its new place. -/
def Group.reseat (g : Group) (x : Berth) : Group :=
  { g with core := x.core, quad := x.quad, lg := x.lg, wait := 0, waitU := 0, withheld := 0, heldAt := 0, latch := [] }

def quadKey (core quad : Nat) : Nat := core * 4 + quad

/-- R272: AGE of each group from the counter of its quadrant. -/
def ageAll (d : Dev) : List Group → Dev × List Group
  | [] => (d, [])
  | g :: t =>
    let k := quadKey g.core g.quad
    let n := Tab.get 0 d.quads k
    let r := ageAll { d with quads := Tab.set 0 d.quads k ((n + 1) % 2 ^ 32) } t
    (r.1, { g with age := n } :: r.2)

/-- The team becomes resident and leaves the placement queue; its virtual core is bound. -/
def settleTeam (part k : Nat) (l : Launch) (t : Team) : Prog Unit :=
  letI := Prog.monad
  do
    let s ← Prog.get
    let r := ageAll s.dev t.groups
    let x : Team := { t with groups := r.2 }
    Prog.act (.teams (s.teams ++ [x]) (s.saved.filter (fun y => y.uid != t.uid)))
    Prog.modDev (fun d =>
      let d := { d with quads := r.1.quads }
      let p := d.part part
      let d := d.setPart part { p with placement := p.placement.eraseIdx k }
      match d.launches.find? (fun m => m.id == l.id) with
      | some m => d.setLaunch { m with binding := Tab.set none m.binding (t.number % 1024) (some t.place) }
      | none => d)

/-- A clock that covers every write committed so far. -/
def latestClock (m : MemSys) : List Nat := (List.range 8).map (fun d => (m.views.getD d {}).clock.getD d 0)

/-- R272: the entry at index `entry` of the placement queue is admitted for the first time. -/
def execTeamAdmit (part entry : Nat) (place : Place) (s : State) : Host.Outcome State Fault Refusal :=
  letI := Prog.monad
  (do
    let s ← Prog.get
    match entryTurn s part entry with
    | none => pure ()
    | some (e, l) =>
      if e.resumed || !admits s l e place then pure ()
      else do
        let seats ← chooseSeats s place (newNeeds l.desc) []
        match seats with
        | none => pure ()
        | some xs => do
          let uid ← Prog.fresh
          let c := dispatchChoice s l e.team place
          accept c (gateOf s c) 0
          settleTeam part entry l
            { uid, launch := l.id, number := e.team, place, groups := ((List.range xs.length).zip xs).map (fun (x : Nat × Berth) => newGroup l x.1 x.2)
              windows := List.replicate 4 {}, admitted := uid
              clock := if l.desc.node then some (latestClock s.mem) else none } : Prog Unit).run s

/-- R349: a context is killed because a frame cannot be read, or because a switch cannot save a team (R348). -/
def killContext (key : SlotKey) : Prog Unit :=
  letI := Prog.monad
  do
    sendMsix (key / 16)
    killSlot key

/-- R349: the entry at index `entry` of the placement queue is resumed. -/
def execTeamResume (part entry : Nat) (place : Place) (s : State) : Host.Outcome State Fault Refusal :=
  letI := Prog.monad
  (do
    let s ← Prog.get
    match entryTurn s part entry with
    | none => pure ()
    | some (e, l) => match s.saved.find? (fun t => t.uid == e.uid) with
      | none => pure ()
      | some t =>
        let die := dieOf ((placeCores place).headD 0)
        -- R50, R349: the die has applied every store that the frame holds
        if !e.resumed || !admits s l e place || !clockOk s t die then pure ()
        else do
          porterEcc l.cmd.slot (frameBase s l.cmd.slot l (t.frame.getD 0)) (frameBytes t l.desc)
          let s ← Prog.get
          match restoreTeam s t l (t.frame.getD 0) die with
          | none => killContext l.cmd.slot
          | some r => do
            let seats ← chooseSeats s place (savedNeeds l.desc r e.full) []
            match seats with
            | none => pure ()
            | some xs => do
              let keeps := r.groups.any (fun g => !g.overflow.isEmpty)
              let uid ← Prog.fresh
              settleTeam part entry l { r with
                place, admitted := uid, ticks := 0, frame := if keeps then r.frame else none
                groups := (r.groups.zip xs).map (fun (x : Group × Berth) => x.1.reseat x.2) }
              Prog.when (!keeps) (setBusy l.cmd.slot (t.frame.getD 0) false)
              wakeWatches ((r.groups.flatMap (·.watch)).map (fun a => a / 512)) : Prog Unit).run s

/-! ### Eviction (R58, R59, R189, R273, R348) -/

/-- R273: the order of teams. -/
def teamKeyLt (d : Dev) (a b : Nat × Nat) : Bool :=
  let x := launchKey d a.1
  let y := launchKey d b.1
  x.1 < y.1 || (x.1 == y.1 && (x.2 < y.2 || (x.2 == y.2 && a.2 < b.2)))

/-- R273: the teams that may make room for an entry. -/
def retryVictims (s : State) (l : Launch) (e : Entry) : List Team :=
  s.teams.filter (fun p => p.onRetry && teamKeyLt s.dev (e.launch, e.team) (p.launch, p.number)
    && (entryPlaces s l e).any (fun pl => (placeCores pl).any (fun c => (placeCores p.place).contains c) && bindingOk s l e.team pl
      && placeAllowed s l e pl)
    && (match s.launch? p.launch with
      | some m => (frameFor s p m).isSome
      | none => false))

/-- R273: the team has the greatest key of those that make room for an entry that is first of its launch and fits nowhere. -/
def retryVictim (s : State) (u : Nat) : Bool :=
  s.dev.parts.any (fun x => x.2.placement.any (fun e =>
    match s.launch? e.launch with
    | none => false
    | some l =>
      ((x.2.placement.find? (fun y => y.launch == e.launch)).map (fun y => y.team)) == some e.team && !entryFits s e
        && (let vs := retryVictims s l e
            match vs.find? (fun t => t.uid == u) with
            | some t => vs.all (fun v => !teamKeyLt s.dev (t.launch, t.number) (v.launch, v.number))
            | none => false)))

/-- The porter evicts a team that a time-slice switch or R273 names. -/
def execTeamEvict (team : Nat) (s : State) : Host.Outcome State Fault Refusal :=
  letI := Prog.monad
  (do
    let s ← Prog.get
    match s.team? team with
    | none => pure ()
    | some t => match s.launch? t.launch with
      | none => pure ()
      | some l =>
        if t.leaving then
          if !t.quiet s l false then pure ()
          else if (frameFor s t l).isNone then killContext l.cmd.slot
          else do
            let _ ← evictTeam team
            pure ()
        else if retryVictim s team then do
          let _ ← evictTeam team
          pure ()
        else pure () : Prog Unit).run s

/-- R59: the launch that makes room: of the lowest priority not above P that has a resident team, then the latest. -/
def sliceVictim (s : State) (part prio : Nat) : Option Launch :=
  (s.dev.launches.filter (fun l => l.part == part && l.prio ≤ prio && s.teams.any (fun t => t.launch == l.id))).foldl (fun best l =>
    match best with
    | none => some l
    | some b => if keyLe (launchKey s.dev b.id) (launchKey s.dev l.id) then some l else some b) none

/-- The highest launch priority among entries that have waited for room since the tick before. -/
def waitedPrio (s : State) (part : Nat) : Option Nat :=
  let ps := ((s.dev.part part).placement.filter (fun e => e.waitedTick && !entryFits s e)).filterMap (fun e => (s.launch? e.launch).map (·.prio))
  if ps.isEmpty then none else some (ps.foldl max 0)

/-- A tick of QUANT microseconds; a new QUANT takes effect. -/
def execTimeSliceTick (part : Nat) (s : State) : Host.Outcome State Fault Refusal :=
  letI := Prog.monad
  (do
    let s ← Prog.get
    let p := s.dev.part part
    Prog.modDev (fun d => d.setPart part { p with quantum := p.quantumNext })
    if p.quantumNext = 0 then pure ()
    else do
      let gone := match (waitedPrio s part).bind (sliceVictim s part) with
        | some l => (s.teams.filter (fun t => t.launch == l.id && 1 ≤ t.ticks)).map (·.uid)
        | none => []
      Prog.each gone (fun u => do
        modTeam u (fun t => { t with leaving := true })
        Prog.due (.teamEvict u))
      let mine (t : Team) : Bool := match s.launch? t.launch with
        | some l => l.part == part
        | none => false
      let now ← Prog.get
      Prog.act (.teams (now.teams.map (fun t => if mine t then { t with ticks := t.ticks + 1 } else t)) now.saved)
      Prog.modDev (fun d => d.setPart part { p with
        quantum := p.quantumNext, placement := p.placement.map (fun e => { e with waitedTick := !entryFits s e }) }) : Prog Unit).run s

/-- R202: a group's register that the governor could demote now. -/
def demotable (s : State) (l : Launch) (g : Group) (r : Nat) : Bool :=
  g.bound r && !g.demoted r && !g.pinned r && g.splits.all (fun y => !y.live || (y.atBoundary && !midChain s l g y))

/-- R189: a split of the group waits for segments of a bank. -/
def Group.wantsBank (g : Group) (bank : Nat) : Bool :=
  g.splits.any (fun x => match x.wait with
    | .segments r => r % 8 == bank
    | _ => false)

/-- R202: an admission or an instruction waits for segments of a bank of a quadrant. -/
def bankWanted (s : State) (core quad bank : Nat) : Bool :=
  s.teams.any (fun t => t.groups.any (fun g => g.core == core && g.quad == quad && g.wantsBank bank
      && bankSegments < bankUse s core quad bank + g.width / 16))
  || s.dev.parts.any (fun p => p.2.placement.any (fun e => match s.launch? e.launch with
      | none => false
      | some l => (entryPlaces s l e).any (fun pl => (placeCores pl).contains core && bindingOk s l e.team pl
          && !roomAt s l (entryNeeds s l e) pl
          && (entryNeeds s l e).any (fun n => bankSegments < bankUse s core quad bank + n.getD bank 0))))

/-- R202: the occupancy governor demotes a register of a bank that is wanted. -/
def execDemotion (g : GRef) (reg : Nat) (s : State) : Host.Outcome State Fault Refusal :=
  letI := Prog.monad
  (do
    let s ← Prog.get
    match s.team? g.team, s.group? g.team g.gidx with
    | some t, some x => match s.launch? t.launch with
      | none => pure ()
      | some l =>
        Prog.when (s.cur.isNone && demotable s l x reg && bankWanted s x.core x.quad (reg % 8))
          (modGroup g.team g.gidx (fun x => x.demote reg))
    | _, _ => pure () : Prog Unit).run s

/-- Nothing of a bank of a quadrant can be demoted. -/
def bankStuck (s : State) (core quad bank : Nat) : Bool :=
  s.teams.all (fun t => match s.launch? t.launch with
    | none => true
    | some l => t.groups.all (fun g => !(g.core == core && g.quad == quad
        && (List.range l.desc.regs).any (fun r => r % 8 == bank && demotable s l g r))))

/-- R189: the team that gives segments back to a group: the latest other team of the quadrant that can be saved, or the
group's own. -/
def segmentVictim (s : State) (u core quad : Nat) : Option Team :=
  let saveable (t : Team) : Bool := match s.launch? t.launch with
    | some l => (frameFor s t l).isSome
    | none => false
  let others := s.teams.filter (fun t => t.uid != u && saveable t && t.groups.any (fun g => g.core == core && g.quad == quad))
  match others.foldl (fun (best : Option Team) t => match best with
      | none => some t
      | some b => if b.admitted < t.admitted then some t else some b) none with
  | some t => some t
  | none => (s.team? u).filter saveable

def execSegmentRecoveryEvict (g : GRef) (reg : Nat) (s : State) : Host.Outcome State Fault Refusal :=
  letI := Prog.monad
  (do
    let s ← Prog.get
    match s.group? g.team g.gidx with
    | none => pure ()
    | some x =>
      if s.cur.isSome || !x.demoted reg || !x.splits.any (fun y => y.wait == .segments reg) || bankUse s x.core x.quad (reg % 8) + x.width / 16 ≤ bankSegments
          || !bankStuck s x.core x.quad (reg % 8) then pure ()
      else match segmentVictim s g.team x.core x.quad with
        | none => pure ()
        | some t => do
          let done ← evictTeam t.uid
          Prog.when (done && t.uid == g.team) (Prog.modDev (fun d => { d with parts := d.parts.map (fun (p : Nat × Part) =>
            (p.1, { p.2 with placement := p.2.placement.map (fun e => if e.uid == t.uid then { e with full := true } else e) })) })) :
    Prog Unit).run s

/-! ### The end of teams and launches (R25, R42, R109, R299, R305, R312) -/

/-- Moves the bound below which every team has ended. -/
def Launch.endUpTo : Nat → Launch → Launch
  | 0, l => l
  | n + 1, l => if l.ended.contains l.endedTo then Launch.endUpTo n { l with ended := removeNat l.endedTo l.ended, endedTo := l.endedTo + 1 } else l

def Launch.endTeam (l : Launch) (n : Nat) : Launch :=
  Launch.endUpTo (l.ended.length + 1) { l with ended := insertNat n l.ended }

/-- R281: appends to a node that found it full may be tried again. -/
def Group.appendAgain (g : Group) (pa : Nat) : Group :=
  let full (o : MemOp) : Bool := o.kind == .emit && o.accs.any (fun a => a.full && a.loc == pa)
  if !g.stream.any full then g
  else { g.wake id with stream := g.stream.map (fun o => if full o then
    { o with accs := o.accs.map (fun a => if a.loc = pa then { a with full := false } else a) } else o) }
def appendsAgain (pa : Nat) : Prog Unit :=
  .read (fun s =>
    let f (t : Team) : Team := { t with groups := t.groups.map (fun g => g.appendAgain pa) }
    if (s.teams ++ s.saved).any (fun t => f t != t) then Prog.act (.teams (s.teams.map f) (s.saved.map f)) else .pure ())

/-- R299: HEAD of a node counts the records of the batches whose teams, and all before them, have ended. -/
def freeRecords (l : Launch) : Prog Unit :=
  .read (fun s => match l.node? s with
    | none => .pure ()
    | some (pa, n) =>
      let k := min (l.endedTo * l.desc.coal) n.formed
      if n.head < k then Prog.bind (setNodeWord s.mem pa 32 8 (natW k)) (fun _ => appendsAgain pa) else .pure ())

/-- R42: a team's groups have all ended, and nothing of it is in progress. -/
def Team.ended (t : Team) (d : Dev) : Bool :=
  t.groups.all (fun g => g.over && g.stream.isEmpty) && !d.cmds.any (fun c => c.team == t.uid)

def execTeamEnd (team : Nat) (s : State) : Host.Outcome State Fault Refusal :=
  letI := Prog.monad
  (do
    let s ← Prog.get
    match s.team? team with
    | none => pure ()
    | some t => match s.launch? t.launch with
      | none => pure ()
      | some l =>
        if s.cur.isSome || !t.ended s.dev then pure ()
        else do
          writeBackAll team l.cmd.slot
          (match t.frame with
            | some f => setBusy l.cmd.slot f false
            | none => pure ())
          let s ← Prog.get
          Prog.act (.teams (s.teams.filter (fun x => x.uid != team)) s.saved)
          Prog.modDev (fun d => d.endLease team)
          let m ← getLaunch l.id
          Prog.modDev (fun d => d.setLaunch (m.endTeam t.number))
          freeRecords (m.endTeam t.number)
          let s ← Prog.get
          Prog.when (replayStuck s (m.endTeam t.number)) (diverge l.id (dieOf t.core0)) : Prog Unit).run s

/-- R305: PROD of a successor counts down; a node whose last producer has completed is flushed (R299). -/
def countDown (key : SlotKey) (va : W64) : Prog Unit :=
  letI := Prog.monad
  .read (fun s => match saveAt s key .both va with
    | .error _ => .pure ()
    | .ok pa =>
      let n := nodeOf s.mem pa
      if n.prod = 0 then .pure ()
      else do
        setNodeWord s.mem pa 40 2 (natW (n.prod - 1))
        Prog.when (n.prod == 1) (flushNode pa))

/-- Every team of the launch has ended, and nothing of it is left to write. -/
def Launch.over (l : Launch) (s : State) : Bool :=
  l.teamsNow s ≤ l.endedTo && (!l.desc.node || (match l.node? s with
      | some (_, n) => n.flushed
      | none => true))
    && !(s.teams ++ s.saved).any (fun t => t.launch == l.id) && !s.dev.cmds.any (fun c => c.launch == l.id)
    && !s.dev.logQ.any (fun q => q.2.any (fun e => e.1 == l.id))

/-- Every write is applied on every die. -/
def MemSys.settled (m : MemSys) : Bool := m.views.all (fun v => v.queue.isEmpty)

/-- R25: first the successors and the log's DONE, then the record and the end of the launch. -/
def execLaunchComplete (launch : Nat) (s : State) : Host.Outcome State Fault Refusal :=
  letI := Prog.monad
  (do
    let s ← Prog.get
    match s.launch? launch with
    | none => pure ()
    | some l =>
      if !l.over s || !s.mem.settled then pure ()
      else do
        Prog.when (!l.closing) (do
          porterEcc l.cmd.slot l.desc.succ (8 * l.desc.nsucc)
          Prog.each (List.range l.desc.nsucc) (fun i => .read (fun s =>
            match porterWord s l.cmd.slot (l.desc.succ + natW (8 * i)) with
            | some va => countDown l.cmd.slot va
            | none => .pure ()))
          Prog.when (l.cmd.mode == 1) (logFlag l (dieOf ((coresOf s.dev l.part).headD 0)) 4)
          let m ← getLaunch launch
          Prog.modDev (fun d => d.setLaunch { m with closing := true }))
        let s ← Prog.get
        Prog.when s.mem.settled (endLaunch l 0) : Prog Unit).run s

end Sys2Proof.Machine
end

