-- ==== Sys2Proof/Machine/Host.lean ====
section
/-! DEFINITION. What the host, the sideband, other modules and the caches do (R2, R8, R16 to R30, R59, R118, R119, R121 to R126, R136,
R175, R182, R185, R285, R303, R308, R309, R311, R362). -/
namespace Sys2Proof.Machine

/-! ### The launch port and the registers (R2, R23 to R25, R59, R303, R311) -/

def answer (r : HostReply) : Prog Unit := Prog.modDev (fun d => { d with reply := r })

/-- R30: the controller serves requests; in ENDED it answers status queries only. -/
def Mgmt.serves (m : Mgmt) : Bool := m.alive && m.lifecycle < 5
/-- R30: debug access is open. The spec does not say what it gives. -/
def Mgmt.debugOpen (m : Mgmt) : Bool := m.lifecycle == 4

/-- A slot of a partition exists. -/
def slotExists (part slot : Nat) : Bool := part < 16 && slot < 16
def slotKeyOf (part slot : Nat) : SlotKey := 16 * part + slot

/-- A command of the slot is queued or running (R25, R303). -/
def Dev.slotBusy (d : Dev) (key : SlotKey) : Bool :=
  d.launches.any (fun l => l.cmd.slot == key) || (d.part (key / 16)).queues.any (fun q => q.any (fun c => c.slot == key))

def countDropped (key : SlotKey) : Prog Unit := Prog.modDev (fun d => let x := d.slot key; d.setSlot key { x with dropped := x.dropped + 1 })

/-- R25. -/
def execLaunchCommand (part slot prio : Nat) (single : Bool) (words : List W64) (s : State) : Host.Outcome State Fault Refusal :=
  letI := Prog.monad
  (do
    let s ← Prog.get
    let key := slotKeyOf part slot
    if !slotExists part slot || 4 ≤ prio || !s.mgmt.alive then pure ()
    else if !single || words.length != 8 then do
      countDropped key
      answer .dropped
    else do
      let r ← portDecide key prio words
      if r = 0 then answer .accepted
      else do
        countDropped key
        answer .dropped : Prog Unit).run s

/-- R23, R25: reserved bits of PTROOT read as zero. -/
def execPtrootWrite (part slot : Nat) (value : W64) (s : State) : Host.Outcome State Fault Refusal :=
  (Prog.read (fun s =>
    let key := slotKeyOf part slot
    if !slotExists part slot || !s.mgmt.alive || s.dev.slotBusy key then .pure ()
    else Prog.modDev (fun d => let x := d.slot key; d.setSlot key { x with ptroot := value &&& 0x000FFFFFFFFF0001#64 }))).run s

/-- R59. -/
def execQuantumWrite (part : Nat) (value : W32) (s : State) : Host.Outcome State Fault Refusal :=
  (Prog.read (fun s =>
    if 16 ≤ part || !s.mgmt.serves then .pure ()
    else Prog.modDev (fun d => let p := d.part part; d.setPart part { p with quantumNext := value.setWidth 20 }))).run s

/-- R303. -/
def Slot.writeRecord (x : Slot) (offset : Nat) (value : W64) : Slot :=
  let v := value &&& 0x01FFFFFFFFFFFFFF#64
  if offset = 0 then { x with sventry := v } else if offset = 8 then { x with save := v }
  else if offset = 16 then { x with fdt := v } else x

def execContextRecordWrite (part slot offset : Nat) (value : W64) (s : State) : Host.Outcome State Fault Refusal :=
  (Prog.read (fun s =>
    let key := slotKeyOf part slot
    if !slotExists part slot || !s.mgmt.serves || s.dev.slotBusy key then .pure ()
    else Prog.modDev (fun d => d.setSlot key ((d.slot key).writeRecord offset value)))).run s

/-- R311: a field that would hold 5 to 7 stays as it was; the reserved bits stay zero. -/
def severityWord (old value : W32) : W32 :=
  BitVec.ofNat 32 (((List.range 10).map (fun k =>
    let f := field value.toNat (3 * k) 3
    (if f ≤ 4 then f else field old.toNat (3 * k) 3) * 2 ^ (3 * k))).foldl (· + ·) 0)

def execSeverityWrite (cls : Nat) (value : W32) (s : State) : Host.Outcome State Fault Refusal :=
  (Prog.read (fun s =>
    if 12 < cls || !s.mgmt.serves then .pure ()
    else Prog.modDev (fun d =>
      { d with severity := Tab.set (severityDefault cls) d.severity cls (severityWord (Tab.get (severityDefault cls) d.severity cls) value) }))).run s

/-- R2, R23: a register without a behaviour of its own, and an offset that no register has, ignore what is written. -/
def execRegisterWrite (_bar _offset : Nat) (_value : W64) (s : State) : Host.Outcome State Fault Refusal :=
  (Prog.pure () : Prog Unit).run s

/-! ### What the host reads of the registers (R8, R22, R23, R30, R59, R136, R303, R311, R337, R343, R352, R355) -/

/-- R23: FREE. -/
def Part.freeWord (p : Part) : W64 :=
  BitVec.ofNat 64 (((List.range 4).map (fun k => (256 - (p.queues.getD k []).length) * 2 ^ (16 * k))).foldl (· + ·) 0)

/-- R23: a launch-port register. CMD0 to CMD3 and what is not listed read zero. -/
def Dev.portWord (d : Dev) (offset : Nat) : W64 :=
  let part := offset / 0x10000
  let x := d.slot (slotKeyOf part (offset / 0x1000 % 16))
  match offset % 0x1000 with
  | 0x100 => (d.part part).freeWord
  | 0x108 => x.accepted
  | 0x110 => x.dropped
  | 0x118 => x.recfail
  | 0x120 => x.reclast
  | 0x200 => x.ptroot
  | _ => 0

/-- R59, R303, R311: a register of the mailbox whose place the spec gives; the others read zero. -/
def Dev.mailboxWord (d : Dev) (offset : Nat) : W64 :=
  if 0x200 ≤ offset && offset < 0x234 && offset % 4 = 0 then
    let c := (offset - 0x200) / 4
    (Tab.get (severityDefault c) d.severity c).setWidth 64
  else if 0x300 ≤ offset && offset < 0x340 && offset % 4 = 0 then (d.part ((offset - 0x300) / 4)).quantumNext.setWidth 64
  else if 0x4000 ≤ offset && offset < 0x8000 then
    let x := d.slot ((offset - 0x4000) / 0x40)
    match offset % 0x40 with
    | 0 => x.sventry
    | 8 => x.save
    | 16 => x.fdt
    | _ => 0
  else 0

/-- R136: the free storage of each stack. -/
def MemSys.free (m : MemSys) : List Nat := (List.range 16).map (fun k => stackUnits - Tab.get 0 m.reserved k)

/-- The answer to a query that takes no part in the host bridge queue, where there is one. R30 does not say which requests
count as status queries in ENDED: DESIGN CHOICE, that of the lifecycle alone (log entry 107). -/
def State.report (s : State) (q : HostAsk) : Option HostReply :=
  let served (r : HostReply) : Option HostReply := if s.mgmt.serves then some r else none
  match q with
  | .memory _ _ _ => none
  | .port offset => if s.mgmt.alive && offset < 0x100000 then some (.port (s.dev.portWord offset)) else none
  | .mailbox offset => if offset < 0x10000 then served (.port (s.dev.mailboxWord offset)) else none
  | .events part cls => served (.port ((Tab.get 0 (s.dev.part part).evt cls).setWidth 64))
  | .energy part => served (.port (s.dev.part part).epart)
  | .slotEnergy part slot => served (.port (s.dev.slot (16 * part + slot)).eslot)
  | .overhead => served (.port s.mgmt.eovh)
  | .allowance cluster => served (.allowance (s.dev.cluster cluster).settings)
  | .clusters => served (.enabled s.dev.enabled)
  | .storage => served (.storage s.mem.free)
  | .lifecycle => if s.mgmt.alive then some (.lifecycle s.mgmt.lifecycle s.mgmt.debugOpen) else none
  | .blackBox => served (.box s.dev.box)
  | .controllerLog => served (.box s.dev.ctrlLog)
  | .strays => served (.strays s.dev.hostLog)

/-! ### CXL.mem, CXL.cache and peers (R20 to R22, R26, R27, R116, R175, R182, R185, R285) -/

/-- The bytes lie in one partition's ranges of HBM. -/
def Dev.assigned (d : Dev) (pa n : Nat) : Bool := pa + n ≤ hbmEnd && d.parts.any (fun e => e.2.owns pa n)

/-- Each byte in the view of its home die. -/
def MemSys.homeBytes (m : MemSys) (pa n : Nat) : List Byte := (List.range' pa n).map (fun a => m.byte (m.homeDie a) a)

/-- A store from outside spoils the sets and the forests that it meets (R162, R317). -/
def spoilHome (pa n : Nat) : Prog Unit :=
  .read (fun s => Prog.bind (spoilSets (s.mem.homeDie pa) pa n) (fun _ => spoilForests (s.mem.homeDie pa) pa n))

/-- Commits bytes as agents of their home dies. -/
def commitHome (pa : Nat) (bytes : List Byte) : Prog Unit :=
  letI := Prog.monad
  do
    let s ← Prog.get
    let cells := (List.range' pa bytes.length).zip bytes
    Prog.each (List.range 8) (fun die =>
      let mine := cells.filter (fun c => s.mem.homeDie c.1 == die)
      Prog.when (!mine.isEmpty) (commitPlain die mine))
    spoilHome pa bytes.length

/-- An access from outside passes the home slices of its sectors (R117). It is charged to a partition with no slot: for a
peer's transfer the one bound to the port, else the owner of the address (R360). -/
def touchOutside (bound : Option Nat) (pa n : Nat) (write : Bool) : Prog Unit :=
  .read (fun s => Prog.each ((List.range' (pa / 32) ((pa + n + 31) / 32 - pa / 32))) (fun i =>
    touchHome (partPayer (match bound with
      | some p => some p
      | none => s.dev.owner (32 * i))) (32 * i) write))

/-- R119: what ECC finds when the host reads: a sector it cannot correct is poisoned. No instruction and no engine consumes
it, so nothing is reported but a correction (log entry 93). -/
def eccHost (pa n : Nat) : Prog Unit :=
  letI := Prog.monad
  .read (fun s =>
    if s.mem.eccGood pa n then .pure ()
    else do
      unbury pa n
      Prog.each (s.eccHits pa n) (fun e => do
        Prog.act (.mem (.latent e.1 .good))
        if e.2 == .uncorrectable then Prog.act (.mem (.poison e.1 true))
        else raiseEvent { cls := 0, src := 5, slot := none, part := s.dev.owner (32 * e.1), unit_ := sliceUnit s.mem (32 * e.1)
                          addr := natW (32 * e.1) }))

/-- R26: a completion record that the host reads with poison. -/
def poisonedRecords (pa n : Nat) : Prog Unit :=
  .read (fun s =>
    let hit := s.dev.badRecords.filter (fun r => r.1 < pa + n && pa < r.1 + 8)
    (Prog.modDev (fun d => { d with badRecords := d.badRecords.filter (fun r => !(r.1 < pa + n && pa < r.1 + 8)) })).bind (fun _ =>
      Prog.each hit (fun r => recordFailed r.2.1 r.2.2)))

/-- A request joins the host bridge queue (R175). -/
def hostArrives (r : HostReq) : Prog Unit :=
  Prog.modDev (fun d => { d with hostQ := d.hostQ ++ [r], hostIn := d.hostIn + 1 })

/-- The oldest request leaves the queue, performed (R182). -/
def hostPerformed : Prog Unit := Prog.modDev (fun d => { d with hostQ := d.hostQ.drop 1, hostDone := d.hostDone + 1 })

/-- R22: an access outside every range is logged. -/
def logStray (pa : Nat) (write : Bool) : Prog Unit :=
  Prog.modDev (fun d => { d.spend (partPayer none) with hostLog := d.hostLog ++ [(pa, write)] })

/-- R178, R185: no release at `.sys` that was performed early wrote the bytes and is still open. -/
def hostMayRead (s : State) (pa n : Nat) : Bool :=
  s.dev.early.all (fun e => !(e.scope == .sys && e.glob && e.loc < pa + n && pa < e.loc + e.size && e.open_ s))

/-- A host read, when its turn comes. -/
def hostReads (pa n : Nat) : Prog Unit :=
  letI := Prog.monad
  do
    let s ← Prog.get
    if !s.dev.assigned pa n then do
      hostPerformed
      logStray pa false
      answer (.readData [] true)
    else if hostMayRead s pa n then do
      hostPerformed
      eccHost pa n
      touchOutside none pa n false
      let s ← Prog.get
      let bad := s.mem.poisoned pa n
      answer (.readData (s.mem.homeBytes pa n) bad)
      Prog.when (bad && s.dev.badRecords.any (fun r => r.1 < pa + n && pa < r.1 + 8)) (poisonedRecords pa n)
    else pure ()

/-- The counts that the clock of every die must reach before writes of these dies are applied everywhere (R180). -/
def MemSys.counts (m : MemSys) (dies : List Nat) : List (Nat × Nat) := dies.map (fun d => (d, (m.views.getD d {}).clock.getD d 0))

/-- Every die has applied what the counts stand for. -/
def MemSys.reached (m : MemSys) (l : List (Nat × Nat)) : Bool := m.views.all (fun v => l.all (fun e => e.2 ≤ v.clock.getD e.1 0))

/-- R340: a dirty sector of a host line that turns out uncorrectable when it leaves its slice: it is written poisoned, and has
no owner. -/
def hostLineBad (sector : Nat) : Prog Unit :=
  letI := Prog.monad
  do
    let s ← Prog.get
    Prog.when (!s.mem.poison.contains sector) (do
      Prog.act (.mem (.poison sector true))
      raiseEvent { cls := 4, src := 4, slot := none, part := s.dev.owner (32 * sector), unit_ := sliceUnit s.mem (32 * sector)
                   addr := natW (32 * sector) })

/-- The dirty sectors of the host line that holds a byte. -/
def Dev.hostDirty (d : Dev) (pa : Nat) : List Nat :=
  ((llcNeed pa).map (fun i => pa / 512 * 16 + i)).filter (fun x =>
    d.llc.any (fun b => b.block == x / 16 && ((b.sec (x % 16)).map (·.dirty)).getD false))

/-- R21, R116, R185: a snoop of the host line that holds a byte. It leaves the line clean and no longer exclusive, or gone; its
data are current for everyone, but that a dirty sector may turn out uncorrectable (R340). -/
def snoopLine (pa : Nat) (invalidate : Bool) : Prog Unit :=
  letI := Prog.monad
  do
    let s ← Prog.get
    Prog.each (s.dev.hostDirty pa) (fun x => do
      let k ← Prog.choose 2
      Prog.when (k == 1) (hostLineBad x))
    Prog.modDev (fun d => Dev.modLlc d (fun b => b.block == pa / 512) (fun b =>
      (llcNeed pa).foldl (fun b i => b.setSec i (if invalidate then none else (b.sec i).map (fun x => { x with dirty := false, excl := false }))) b))

/-- R104, R185: the host writes its own memory, which its coherence makes current at once: the device's copies of the lines
are gone. -/
def hostOwnWrite (pa : Nat) (bytes : List Byte) : Prog Unit :=
  letI := Prog.monad
  do
    Prog.each (List.range' (pa / 64) ((pa + bytes.length + 63) / 64 - pa / 64)) (fun i => snoopLine (64 * i) true)
    let cells := (List.range' pa bytes.length).zip bytes
    Prog.act (.mem (.hostWrite cells))
    let s ← Prog.get
    Prog.each ((clearedSectors cells).filter (fun x => s.mem.poison.contains x)) (fun x => Prog.act (.mem (.poison x false)))
    Prog.modDev (fun d => d.noteStale (cells.map (·.1)))
    spoilHome pa bytes.length

/-- A host write, when its turn comes: its Cmp is due once the write is applied on every die (R185). -/
def hostWrites (pa : Nat) (bytes : List Byte) : Prog Unit :=
  letI := Prog.monad
  do
    hostPerformed
    let s ← Prog.get
    if !bytes.isEmpty && (List.range' pa bytes.length).all inHost then hostOwnWrite pa bytes
    else if !s.dev.assigned pa bytes.length then do
      logStray pa true
      answer .dropped
    else do
      touchOutside none pa bytes.length true
      commitHome pa bytes
      Prog.modDev (fun d =>
        let dies := ((List.range' pa bytes.length).map s.mem.homeDie).foldl (fun l k => insertNat k l) []
        { d with hostCmp := d.hostCmp ++ [(s.mem.counts dies).map (fun e => (e.1, e.2 + 1))], reply := .accepted })

/-- The first due Cmp whose write is applied on every die is returned. -/
def hostCompletes : Prog Unit :=
  .read (fun s => match s.dev.hostCmp.find? s.mem.reached with
    | some l => Prog.modDev (fun d => { d with hostCmp := d.hostCmp.erase l, reply := .cmp })
    | none => .pure ())

/-- A snoop, when its turn comes. -/
def hostSnoops (pa : Nat) (invalidate : Bool) : Prog Unit :=
  letI := Prog.monad
  do
    hostPerformed
    snoopLine pa invalidate
    answer .writeDone

/-- The oldest request of the queue is this one. -/
def Dev.hostTurn (d : Dev) (r : HostReq) : Bool := d.hostQ.head? == some r

/-- R185: a host read of device memory, by its move, or one of the host's other queries. -/
def execHostRead (q : HostAsk) (s : State) : Host.Outcome State Fault Refusal :=
  (Prog.read (fun s => match q with
    | .memory .arrive pa n => Prog.when s.mgmt.alive (hostArrives (.read pa n))
    | .memory .perform pa n => Prog.when (s.mgmt.alive && s.dev.hostTurn (.read pa n)) (hostReads pa n)
    | _ => match s.report q with
      | some r => answer r
      | none => .pure ())).run s

/-- R185: a host write, of device memory or of its own, by its move. -/
def execHostWrite (m : HostMove) (pa : Nat) (bytes : List Byte) (s : State) : Host.Outcome State Fault Refusal :=
  (Prog.read (fun s => match m with
    | .arrive => Prog.when s.mgmt.alive (hostArrives (.write pa bytes))
    | .perform => Prog.when (s.mgmt.alive && s.dev.hostTurn (.write pa bytes)) (hostWrites pa bytes)
    | .finish => Prog.when s.mgmt.alive hostCompletes)).run s

/-- R185: a snoop over CXL.cache, by its move. -/
def execCxlCacheSnoop (m : HostMove) (pa : Nat) (invalidate : Bool) (s : State) : Host.Outcome State Fault Refusal :=
  (Prog.read (fun s => match m with
    | .arrive => Prog.when (s.mgmt.alive && inHost pa) (hostArrives (.snoop pa invalidate))
    | .perform => Prog.when (s.mgmt.alive && s.dev.hostTurn (.snoop pa invalidate)) (hostSnoops pa invalidate)
    | .finish => .pure ())).run s

/-- The partition bound to a port (R27). -/
def Dev.portPart (d : Dev) (port : Nat) : Option Nat := (d.peers.find? (fun p => p.1 == port)).bind (·.2.2)

/-- R27, R285: the transfer is committed in the ranges of the partition bound to the port, or refused. -/
def execPeerInbound (port pa : Nat) (bytes : List Byte) (s : State) : Host.Outcome State Fault Refusal :=
  letI := Prog.monad
  (do
    let s ← Prog.get
    if 16 ≤ port || !s.mgmt.alive || s.dev.down.contains (.peer port) then pure ()
    else match s.dev.portPart port with
    | some p =>
      if pa + bytes.length ≤ hbmEnd && (s.dev.part p).owns pa bytes.length then do
        touchOutside (some p) pa bytes.length true
        commitHome pa bytes
        answer .accepted
      else answer .refused
    | none => answer .refused : Prog Unit).run s

/-- R27: the wiring map. -/
def execPeerWiring (port target : Nat) (boundPart : Option Nat) (s : State) : Host.Outcome State Fault Refusal :=
  (Prog.read (fun s =>
    if 16 ≤ port || !s.mgmt.serves then .pure ()
    else Prog.modDev (fun d => { d with peers := (port, target, boundPart) :: d.peers.filter (fun p => p.1 != port) }))).run s

/-! ### Partitions (R16 to R18, R126) -/

/-- What is left of an interval when others are taken out of it. -/
def outside : List (Nat × Nat) → Nat → Nat → List (Nat × Nat)
  | [], lo, hi => if lo < hi then [(lo, hi)] else []
  | (a, n) :: t, lo, hi =>
    if hi ≤ a || a + n ≤ lo then outside t lo hi
    else outside t lo (min hi a) ++ outside t (max lo (a + n)) hi

def mib16 : Nat := 0x1000000

/-- R17: ranges are legal and meet no other range. -/
def rangesOk (d : Dev) (part : Nat) (ranges : List (Nat × Nat)) : Bool :=
  let meets (a b : Nat × Nat) : Bool := a.1 < b.1 + b.2 && b.1 < a.1 + a.2
  ranges.length ≤ 8 && ranges.all (fun r => r.1 % mib16 == 0 && r.2 != 0 && r.2 % mib16 == 0 && r.1 + r.2 ≤ hbmEnd)
    && (List.range ranges.length).all (fun i => (List.range i).all (fun j => !meets (ranges.getD i (0, 0)) (ranges.getD j (0, 0))))
    && d.parts.all (fun e => e.1 == part || e.2.ranges.all (fun r => ranges.all (fun x => !meets r x)))

/-- R17: sixteenths of each port. -/
def sharesOk (d : Dev) (part : Nat) (shares : List Nat) : Bool :=
  shares.length == 16 && shares.all (· ≤ 16)
    && (List.range 16).all (fun k => shares.getD k 0 + ((d.parts.filter (fun e => e.1 != part)).map (fun e => e.2.shares.getD k 0)).foldl (· + ·) 0 ≤ 16)

/-- R8: the fuses of the part: a harvested one has exactly one disabled cluster on each compute die, a full one none. -/
def Dev.fusesOk (d : Dev) : Bool :=
  if d.harvested then (List.range 8).all (fun die => ((List.range' (8 * die) 8).filter (fun c => !d.enabled.getLsbD c)).length == 1)
  else d.enabled == BitVec.allOnes 64

/-- R8, R16. -/
def clustersOk (d : Dev) (part : Nat) (clusters : BitVec 64) : Bool :=
  clusters &&& ~~~d.enabled == 0 && d.parts.all (fun e => e.1 == part || e.2.clusters &&& clusters == 0)

/-- R18: no launch of the partition is queued or running. -/
def Dev.partIdle (d : Dev) (part : Nat) : Bool := !d.launches.any (fun l => l.part == part) && (d.part part).queues.all (·.isEmpty)

/-- A cluster joins a partition: its caches are invalid, their dirty data written back, and its counters are zero (R126,
R355). -/
def Dev.joinCluster (d : Dev) (c : Nat) : Dev :=
  let cores := List.range' (4 * c) 4
  let d := cores.foldl (fun d k => d.setCore k { cycle := (d.core k).cycle }) d
  let d := [2 * c, 2 * c + 1].foldl (fun d k => let p := d.pair k; d.setPair k { p with lgrant := 0, lpass := 0 }) d
  let d := d.setCluster c { d.cluster c with wheld := 0 }
  let d := d.dropL1 (fun l => cores.contains l.core)
  { d with code := d.code.filter (fun l => !cores.contains l.core), tlb := d.tlb.filter (fun l => !cores.contains (l.agent % 256))
           streams := d.streams.filter (fun e => !cores.contains e.1) }

/-- Bytes of a 32-byte register, highest first. -/
def bytes256 (x : BitVec 256) : List Byte := beBytes 32 x.toNat

/-- R28: MSMi := SM3(MSMi ‖ SM3(X)). -/
def Mgmt.extend (m : Mgmt) (i : Nat) (image : List Byte) : Mgmt :=
  { m with msm := setNth m.msm i (Config.sm3 (bytes256 (m.msm.getD i 0) ++ bytes256 (Config.sm3 image))) }

/-- A partition configuration as bytes (R28 gives no layout). -/
def configImage (part : Nat) (clusters : BitVec 64) (ranges : List (Nat × Nat)) (shares : List Nat) : List Byte :=
  bytesOf 8 part ++ bytesOf 8 clusters.toNat ++ ranges.flatMap (fun r => bytesOf 8 r.1 ++ bytesOf 8 r.2) ++ shares.flatMap (bytesOf 1)

/-- R136: the reservations of the stacks once ranges are removed and added, or nothing when a stack has too little. -/
def MemSys.reassign (m : MemSys) (removed fresh : List (Nat × Nat)) : Option (List (Nat × Nat)) :=
  let next := (List.range 16).map (fun st => (st, Tab.get 0 m.reserved st - m.heldUnits removed st + homeUnits fresh st))
  if next.all (fun e => e.2 ≤ stackUnits) then some next else none

/-- R136: the memory once the re-stripes that run in removed ranges have given up their new storage. -/
def MemSys.dropMoves (m : MemSys) (removed : List (Nat × Nat)) : MemSys :=
  (m.moving.filter (fun v => removed.any (fun r => r.1 < v.pa + v.bytes && v.pa < r.1 + r.2))).foldl (fun m v =>
    match m.rereserve (List.range' (v.pa / 65536) (v.bytes / 65536)) (fun _ => some v.pw) (fun _ => none) with
    | some next => { m with reserved := next.foldl (fun t u => Tab.set 0 t u.1 u.2) m.reserved }
    | none => m) m

/-- R136: the frames of removed ranges return to home placement. A re-stripe of a launch that is gone may still run there: it
is over. -/
def releaseRanges (removed : List (Nat × Nat)) : Prog Unit :=
  letI := Prog.monad
  let meets (a n : Nat) : Bool := removed.any (fun r => r.1 < a + n && a < r.1 + r.2)
  do
    let s ← Prog.get
    let moves := s.mem.moving.filter (fun v => meets v.pa v.bytes)
    Prog.each moves (fun v => releaseMove v true)
    Prog.when (!moves.isEmpty) (Prog.modDev (fun d => { d with cmds := d.cmds.filter (fun c => !moves.any (fun v => v.cmd == c.id)) }))
    Prog.each (s.mem.frameMap.filter (fun e => meets (65536 * e.1) 65536)) (fun e => Prog.act (.mem (.frame e.1 (homePlacement e.1))))

/-- R18. R17 and R18 give no outcome for a range of length zero or otherwise illegal, for shares that would sum above 16 or
for a cluster of another partition: such a request is refused too and changes nothing (DESIGN CHOICE, log entry 67). -/
def execPartitionConfigure (part : Nat) (clusters : BitVec 64) (ranges : List (Nat × Nat)) (shares : List Nat) (s : State) :
    Host.Outcome State Fault Refusal :=
  letI := Prog.monad
  (do
    let s ← Prog.get
    let d := s.dev
    let old := d.part part
    let fresh := ranges.flatMap (fun r => outside old.ranges r.1 (r.1 + r.2))
    let removed := (old.ranges.flatMap (fun r => outside ranges r.1 (r.1 + r.2))).map (fun r => (r.1, r.2 - r.1))
    if 16 ≤ part || !s.mgmt.serves then pure ()
    else if s.mgmt.lifecycle < 3 || !d.partIdle part || !clustersOk d part clusters || !rangesOk d part ranges || !sharesOk d part shares then
      answer .refused
    else match (s.mem.dropMoves removed).reassign removed (fresh.map (fun r => (r.1, r.2 - r.1))) with
    | none => answer .refused
    | some res => do
      let joined := (List.range 64).filter (fun c => clusters.getLsbD c && !old.clusters.getLsbD c)
      releaseRanges removed
      Prog.each res (fun u => Prog.act (.mem (.reserve u.1 u.2)))
      Prog.each fresh (fun r => Prog.act (.mem (.wipe r.1 r.2)))
      Prog.modDev (fun d =>
        let d := joined.foldl Dev.joinCluster d
        let d := d.dropSectors (fun i => fresh.any (fun r => r.1 ≤ 32 * i && 32 * i < r.2))
        let p := d.part part
        { d.setPart part { p with clusters, ranges, shares } with
          reply := .accepted, badRecords := d.badRecords.filter (fun r => !fresh.any (fun x => x.1 < r.1 + 8 && r.1 < x.2)) })
      Prog.modMgmt (fun m => m.extend 3 (configImage part clusters ranges shares)) : Prog Unit).run s

/-! ### Measurements, quotes, lifecycle (R28 to R30) -/

/-- MSM3 is extended only by the controller, when a configuration is applied. -/
def execMeasurementExtend (i : Nat) (image : List Byte) (s : State) : Host.Outcome State Fault Refusal :=
  (Prog.read (fun s =>
    if 8 ≤ i || i = 3 || !s.mgmt.serves then .pure ()
    else Prog.modMgmt (fun m => m.extend i image))).run s

/-- The signed fields of a quote, in order. -/
def quoteFields (m : Mgmt) (d : Dev) (nonce : BitVec 256) : List Byte :=
  m.msm.flatMap bytes256 ++ [BitVec.ofNat 8 m.lifecycle] ++ bytesOf 16 Config.moduleId.toNat ++ [if d.harvested then 1 else 0] ++ bytes256 nonce

/-- R29, R30: with the certificate chain of the key that signs. -/
def execAttestationQuote (nonce : BitVec 256) (s : State) : Host.Outcome State Fault Refusal :=
  (Prog.read (fun s =>
    if !s.mgmt.serves then .pure ()
    else if s.mgmt.lifecycle = 4 then answer .refused
    else
      let e := Config.sm3 (quoteFields s.mgmt s.dev nonce)
      answer (if s.mgmt.lifecycle = 1 then .quote (Config.sm2TestSign e) Config.testChain
        else .quote (Config.sm2Sign e) Config.identityChain))).run s

/-- R362: the energy counters are cleared. -/
def Dev.clearEnergy (d : Dev) : Dev :=
  { d with parts := d.parts.map (fun e => (e.1, { e.2 with epart := 0 })), slots := d.slots.map (fun e => (e.1, { e.2 with eslot := 0 })) }

/-- R30: the fuses advance; RETURNED clears the energy counters. -/
def execLifecycleAdvance (s : State) : Host.Outcome State Fault Refusal :=
  letI := Prog.monad
  (do
    let s ← Prog.get
    if !s.mgmt.serves then pure ()
    else do
      Prog.modMgmt (fun m => { m with lifecycle := m.lifecycle + 1 })
      Prog.when (s.mgmt.lifecycle == 3) (do
        Prog.modDev Dev.clearEnergy
        Prog.modMgmt (fun m => { m with eovh := 0, sealedPart := [], sealedSlot := [], sealedEovh := 0 })) : Prog Unit).run s

/-! ### The directory (R122, R123, R308, R309) -/

/-- A request is served at an entry. -/
def dirServed (core pa : Nat) (write : Bool) (k : Nat) : Prog Unit :=
  .read (fun s => Prog.modDev (fun d => ((d.dirPut s.mem core pa write k).snoop s.mem core pa write).spend (partPayer (d.corePart core))))

/-- R309: a recall is complete: the entry is free, and the request that waited for it is served. -/
def recallDone (k : Nat) : Prog Unit :=
  .read (fun s => Prog.bind (Prog.modDev (fun d => d.recallEntry k)) (fun _ => match (Tab.get {} s.dev.dir k).wants with
    | some r => dirServed r.1 r.2.1 r.2.2 k
    | none => .pure ()))

/-- A cross-die request at its junction. A recall that is in progress may complete first. A request for a block that is being
recalled, or that another request waits for, waits and comes again, and so does one that finds no way. -/
def execDirRequest (core pa : Nat) (write : Bool) (s : State) : Host.Outcome State Fault Refusal :=
  letI := Prog.monad
  (do
    let s ← Prog.get
    if !inHbm pa || 256 ≤ core || 2 ≤ s.dev.failed.length then pure ()
    else do
      let keys := s.dev.dirKeys pa
      let recalls := keys.filter (fun k => (Tab.get {} s.dev.dir k).recalling)
      let n ← Prog.choose (recalls.length + 1)
      Prog.when (n != 0) (recallDone (recalls.getD (n - 1) 0))
      let s ← Prog.get
      let entry (k : Nat) : DirEntry := Tab.get {} s.dev.dir k
      let busy (k : Nat) : Bool := (entry k).recalling && ((entry k).tag == dirTag pa || ((entry k).wants.map (fun r => r.2.1 / 512 == pa / 512)).getD false)
      let site := waitKey (s.dev.dirSite pa)
      if keys.any busy then pure ()
      else match s.dev.dirFind pa with
      | some k => dirServed core pa write k
      | none =>
        if dieOf core == s.mem.homeDie pa then pure ()
        else match keys.find? (fun k => (entry k).mode == 0) with
        | some k => dirServed core pa write k
        | none => match s.dev.lruKey keys with
          | some k => Prog.modDev (fun d =>
              { d with dir := Tab.set {} d.dir k { entry k with recalling := true, wants := some (core, pa, write) } })
          | none => Prog.when (Tab.get (0, 0) s.dev.dirWait site == (0, 0)) (Prog.modDev (fun d =>
              { d with dirWait := Tab.set (0, 0) d.dirWait site (d.now + 1, pa) })) : Prog Unit).run s

/-- R309, R338: one event after 4096 cycles of waiting, charged to the owner of the request's address. -/
def execDirOverflow (junction set : Nat) (s : State) : Host.Outcome State Fault Refusal :=
  letI := Prog.monad
  (do
    let s ← Prog.get
    let w := Tab.get (0, 0) s.dev.dirWait (waitKey (junction, set))
    if w.1 = 0 || 2 ^ 64 ≤ w.1 || s.dev.now + 1 < w.1 + 4096
        || !(List.range' (dirBase junction set) 16).all (fun k => (Tab.get {} s.dev.dir k).recalling) then pure ()
    else do
      Prog.modDev (fun d => { d with dirWait := Tab.set (0, 0) d.dirWait (waitKey (junction, set)) (2 ^ 64, w.2) })
      raiseEvent { cls := 8, src := 8, slot := none, part := s.dev.owner w.2, unit_ := unitCode (8 + junction) 68, addr := natW w.2 } :
    Prog Unit).run s

/-! ### Prefetch, skimmer, scrub (R118 to R121, R124, R125, R340) -/

/-- The stream's next addresses: a whole number of strides on. -/
def Stream.reaches (x : Stream) (at_ : Nat) : Bool :=
  x.stride != 0 && (at_ : Int) != x.last && ((at_ : Int) - x.last) % x.stride == 0 && 0 < ((at_ : Int) - x.last) * x.stride

/-- An L1's prefetcher follows its stream to a virtual address in the page of the last access (R124). -/
def prefetchCore (c va : Nat) : Prog Unit :=
  letI := Prog.monad
  do
    let s ← Prog.get
    match Tab.get none s.dev.streams c with
    | none => pure ()
    | some x =>
      let v : W64 := BitVec.ofNat 64 va
      if 256 ≤ c || !x.reaches va || !canonical v || s.dev.corePart c != some (x.slot / 16) then pure ()
      else do
        let w ← chooseWalk c (dieOf c) x.slot x.sup .read v
        match w.end_, walkCheck (s.dev.part (x.slot / 16)) x.sup .read v w with
        | .leaf level _ _, .ok (pa, _) =>
          Prog.when (x.last / pageBytes level == va / pageBytes level && inHbm pa && !s.dev.l1Has c pa) (prefetchL1 x.slot c pa)
        | _, _ => pure ()

/-- A slice's prefetcher follows its stream of physical addresses, in one frame: a page is at least one. -/
def prefetchSlice (pa part : Nat) : Prog Unit :=
  .read (fun s =>
    let unit := s.mem.homeUnit pa
    match Tab.get none s.dev.streams (256 + unit) with
    | none => .pure ()
    | some x =>
      Prog.when (x.slot / 16 == part && x.reaches pa && x.last / 65536 == pa / 65536 && inHbm pa
        && (s.dev.part part).owns (pa / 128 * 128) 128 && !s.dev.llcHas unit pa) (prefetchLlc x.slot pa))

/-- R124: a prefetch of a core's L1, at a virtual address, or of a last-level slice, at a physical one. One that would fail a
check is dropped. -/
def execPrefetch (core : Option Nat) (at_ part : Nat) (s : State) : Host.Outcome State Fault Refusal :=
  (match core with
    | some c => prefetchCore c at_
    | none => prefetchSlice at_ part).run s

/-- The unit code of a stack's controller (R351). -/
def controllerOf (m : MemSys) (pa : Nat) : Nat := let st := stackFor (m.placeWord pa) pa; unitCode (st / 2) (64 + st % 2)

/-- The core whose L1 holds a sector dirty. -/
def Dev.dirtyCore (d : Dev) (sector : Nat) : Option Nat := (d.l1.find? (fun l => l.line == sector / 4 && l.dirty (sector % 4))).map (·.core)
def Dev.dirtyLlc (d : Dev) (sector : Nat) : Bool := d.llc.any (fun b => b.block == sector / 16 && ((b.sec (sector % 16)).map (·.dirty)).getD false)

/-- The set of a host line's block in its slice is full: the line may be evicted (R118: no host line is written early). -/
def State.setFull (s : State) (sector : Nat) : Bool :=
  16 ≤ (s.dev.llc.filter (fun b => b.unit_ == s.mem.homeUnit (32 * sector) && llcSet b.block == llcSet (sector / 16))).length

/-- A dirty sector is written back; one that is uncorrectable becomes poisoned (R340). A sector of a host line is written back
where its line is evicted, which is told of where it is uncorrectable. -/
def execSkimmerWriteback (sector : Nat) (ue : Bool) (s : State) : Host.Outcome State Fault Refusal :=
  letI := Prog.monad
  (do
    let s ← Prog.get
    let pa := 32 * sector
    let llc := s.dev.dirtyLlc sector
    let l1 := s.dev.dirtyCore sector
    if inHost pa then Prog.when (ue && llc && s.setFull sector) (do
      hostLineBad sector
      Prog.modDev (fun d => d.dropSectors (fun i => i / 2 == sector / 2)))
    else if !inHbm pa || !(llc || l1.isSome) then pure ()
    else do
      Prog.modDev (fun d => (d.cleanSectors (fun i => i == sector)).spend (partPayer (d.owner pa)))
      Prog.when (ue && !s.mem.poison.contains sector) (do
        Prog.act (.mem (.poison sector true))
        raiseEvent { cls := 4, src := if llc then 4 else 3, slot := none, part := s.dev.owner pa
                     unit_ := if llc then sliceUnit s.mem pa else coreUnit (l1.getD 0), addr := natW pa }) : Prog Unit).run s

/-- What scrub finds: the event's finding, or an error that the sector already holds. -/
def MemSys.finding (m : MemSys) (sector : Nat) (ecc : Ecc) : Ecc :=
  match Tab.get .good m.latent sector, ecc with
  | .uncorrectable, _ | _, .uncorrectable => .uncorrectable
  | .corrected, _ | _, .corrected => .corrected
  | .good, .good => .good

/-- R119, R121: a sector that scrub reads. -/
def execPatrolScrub (sector : Nat) (ecc : Ecc) (s : State) : Host.Outcome State Fault Refusal :=
  letI := Prog.monad
  (do
    let s ← Prog.get
    let pa := 32 * sector
    let report (cls : Nat) : Prog Unit :=
      raiseEvent { cls, src := 5, slot := none, part := s.dev.owner pa, unit_ := controllerOf s.mem pa, addr := natW pa }
    if !inHbm pa then pure ()
    else match s.mem.finding sector ecc with
    | .good => pure ()
    | .corrected => do
      Prog.act (.mem (.latent sector .good))
      report 0
    | .uncorrectable => do
      Prog.act (.mem (.latent sector .good))
      -- R116: a valid copy keeps its own poison bit, and a dirty one takes the place of what is stored
      Prog.when (!s.mem.poison.contains sector && !s.mem.buried.contains sector) (do
        if !s.dev.cached sector then Prog.act (.mem (.poison sector true))
        else Prog.when (!(s.dev.dirtyLlc sector || (s.dev.dirtyCore sector).isSome)) (Prog.act (.mem (.bury sector true)))
        report 2) : Prog Unit).run s

/-- R30, R352: the host releases a frozen ring through the controller. -/
def execBlackBoxRelease (s : State) : Host.Outcome State Fault Refusal :=
  (Prog.read (fun s => Prog.when s.mgmt.serves (Prog.modDev (fun d => { d with boxFrozen := false })))).run s

end Sys2Proof.Machine
end

