-- ==== Sys2Proof/Machine/Faults.lean ====
section
/-! DEFINITION. Link, junction and control faults, temperature and power, resets and the loss of power (R28, R310, R337,
R341 to R344, R352, R362). -/
namespace Sys2Proof.Machine

/-! ### Links and junctions (R310, R341, R343) -/

/-- The unit code of a link's end on this module (R351), and the source of R311. -/
def linkUnit : Link → Nat
  | .boundary die junction => unitCode die (66 + junction)
  | .peer port => unitCode (8 + port / 8) (70 + port % 8)
  | .cxl => unitCode 8 69
def linkSource : Link → Nat
  | .cxl => 7
  | _ => 6
/-- The module has the link. -/
def linkExists : Link → Bool
  | .boundary die junction => die < 8 && junction < 2
  | .peer port => port < 16
  | .cxl => true

/-- A junction whose directory still works. -/
def Dev.junctionUp (d : Dev) (j : Nat) : Bool := j < 2 && !d.failed.contains j

/-- The link carries traffic. -/
def Dev.linkUp (d : Dev) (l : Link) : Bool :=
  linkExists l && !d.down.contains l && (match l with
    | .boundary _ j => d.junctionUp j
    | _ => true)

def execLinkReplay (l : Link) (s : State) : Host.Outcome State Fault Refusal :=
  (Prog.read (fun s =>
    if !s.dev.linkUp l || !s.mgmt.powered then .pure ()
    else raiseEvent { cls := 6, src := linkSource l, slot := none, part := none, unit_ := linkUnit l })).run s

/-- R310: copies of blocks that are homed on another die are recalled; the survivor starts with an empty directory. -/
def recallCross (m : MemSys) (d : Dev) : Dev :=
  { d.dropL1 (fun l => m.homeDie (128 * l.line) != dieOf l.core) with dir := [], dirWait := [] }

/-- R343. -/
def failJunction (j : Nat) : Prog Unit :=
  letI := Prog.monad
  do
    let s ← Prog.get
    if !s.dev.junctionUp j then pure ()
    else do
      Prog.modDev (fun d =>
        let d := recallCross s.mem { d with failed := insertNat j d.failed }
        let ports := (List.range' (8 * j) 8).map Link.peer
        let d := { d with down := ports.filter (fun p => !d.down.contains p) ++ d.down }
        if j = 1 then { d with box := [], boxStopped := true } else d)
      raiseEvent { cls := 9, src := 8, slot := none, part := none, unit_ := unitCode (8 + j) 68 }
      Prog.when (j == 0) (do
        Prog.each (List.range 16) resetPartition
        Prog.modMgmt (fun m => { m with alive := false }))

def execJunctionFail (j : Nat) (s : State) : Host.Outcome State Fault Refusal := (failJunction j).run s

def execLinkDown (l : Link) (s : State) : Host.Outcome State Fault Refusal :=
  letI := Prog.monad
  (do
    let s ← Prog.get
    if !s.dev.linkUp l || !s.mgmt.powered then pure ()
    else do
      Prog.modDev (fun d => { d with down := l :: d.down })
      raiseEvent { cls := 7, src := linkSource l, slot := none, part := none, unit_ := linkUnit l }
      match l with
      | .boundary _ j => failJunction j
      | .peer _ => pure ()
      | .cxl => Prog.each (List.range 16) resetPartition : Prog Unit).run s

/-! ### Control parity (R342) -/

/-- R342: probes of every die recall the copy of a block's owner, whoever that is. -/
def Dev.recallOwner (d : Dev) (pa : Nat) : Dev :=
  d.dropL1 (fun l => l.line / 4 == pa / 512 && l.secs.any (fun x => x == some .modified || x == some .owned || x == some .exclusive))

def execCtrlParity (site : ParitySite) (s : State) : Host.Outcome State Fault Refusal :=
  letI := Prog.monad
  (do
    let s ← Prog.get
    match site with
    | .directory j set way =>
      let k := dirBase j set + way
      let e := Tab.get {} s.dev.dir k
      if !s.dev.junctionUp j || 32768 ≤ set || 16 ≤ way || e.mode = 0 then pure ()
      else do
        Prog.modDev (fun d =>
          let d := d.recallOwner (dirAddr d j set e)
          { d with dir := Tab.set {} d.dir k { mode := 2, coarse := BitVec.allOnes 64, tag := e.tag, used := e.used } })
        raiseEvent { cls := 10, src := 8, slot := none, part := s.dev.owner (dirAddr s.dev j set e), unit_ := unitCode (8 + j) 68
                     addr := natW (dirAddr s.dev j set e) }
    | .core g => match s.team? g.team, s.group? g.team g.gidx with
      | some t, some x => match s.launch? t.launch with
        | some l => raiseEvent { cls := 10, src := 9, slot := some l.cmd.slot, part := none, unit_ := coreUnit x.core }
        | none => pure ()
      | _, _ => pure () : Prog Unit).run s

/-! ### Temperature and power (R344) -/

def execThermal (die : Nat) (s : State) : Host.Outcome State Fault Refusal :=
  (Prog.read (fun s =>
    if 10 ≤ die || !s.mgmt.powered then .pure ()
    else raiseEvent { cls := 11, src := 9, slot := none, part := none, unit_ := controllerUnit, detail := BitVec.ofNat 32 die })).run s

def execPower (die : Option Nat) (s : State) : Host.Outcome State Fault Refusal :=
  (Prog.read (fun s =>
    if !s.mgmt.powered then .pure ()
    else raiseEvent { cls := 12, src := 9, slot := none, part := none, unit_ := controllerUnit, detail := BitVec.ofNat 32 (die.getD 0) })).run s

/-! ### Resets (R28, R302, R337, R339, R355, R362) -/

/-- The counters that persist. -/
def restoreEnergy (m : Mgmt) (d : Dev) : Dev :=
  let d := m.sealedPart.foldl (fun d e => d.setPart e.1 { d.part e.1 with epart := e.2 }) d
  m.sealedSlot.foldl (fun d e => d.setSlot e.1 { d.slot e.1 with eslot := e.2 }) d

/-- The device after module reset: the fuses and the black box persist. -/
def Dev.afterReset (d : Dev) (m : Mgmt) : Dev :=
  restoreEnergy m { enabled := d.enabled, harvested := d.harvested, box := d.box, ctrlLog := d.ctrlLog, boxFrozen := d.boxFrozen }

/-- The controller after module reset. -/
def Mgmt.afterReset (m : Mgmt) : Mgmt :=
  { m with msm := List.replicate 8 0, signQ := [], eovh := m.sealedEovh, alive := true }

/-- Everything that does not persist takes its reset value. -/
def resetModule : Prog Unit :=
  letI := Prog.monad
  do
    Prog.act (.cur none)
    Prog.act (.teams [] [])
    Prog.act (.agenda [])
    Prog.act (.mem .reset)
    let s ← Prog.get
    Prog.act (.dev (s.dev.afterReset s.mgmt))
    Prog.modMgmt Mgmt.afterReset

/-- R352: the ring freezes. -/
def freezeBox : Prog Unit := Prog.modDev (fun d => { d with boxFrozen := true })

def execModuleReset (s : State) : Host.Outcome State Fault Refusal :=
  letI := Prog.monad
  (do
    let s ← Prog.get
    if !s.mgmt.powered then pure ()
    else do
      sealEnergy
      freezeBox
      resetModule : Prog Unit).run s

/-- R344: no host asks for this reset, so nothing is sealed first (R362). -/
def execCriticalTemperature (die : Nat) (s : State) : Host.Outcome State Fault Refusal :=
  letI := Prog.monad
  (do
    let s ← Prog.get
    if 10 ≤ die || !s.mgmt.powered then pure ()
    else do
      blackBox { unit_ := controllerUnit, cls := 11, src := 9, action := s.dev.action 11 9, recovered := false, seq := 0
                 cyc := BitVec.ofNat 64 s.tick, addr := 0, detail := BitVec.ofNat 32 die, part := none, ctx := none }
      freezeBox
      resetModule : Prog Unit).run s

/-- R362: what is not sealed is lost, and so is the black box (R352). -/
def execPowerLoss (s : State) : Host.Outcome State Fault Refusal :=
  letI := Prog.monad
  (do
    let s ← Prog.get
    if !s.mgmt.powered then pure ()
    else do
      resetModule
      Prog.modDev (fun d => { d with box := [], ctrlLog := [], boxFrozen := false })
      Prog.modMgmt (fun m => { m with alive := false, powered := false }) : Prog Unit).run s

/-- R362: the first reading of every counter carries GAP. -/
def execPowerOn (s : State) : Host.Outcome State Fault Refusal :=
  letI := Prog.monad
  (do
    let s ← Prog.get
    if s.mgmt.powered then pure ()
    else do
      Prog.modDev (fun d => restoreEnergy s.mgmt d)
      Prog.modMgmt (fun m => { m with alive := true, powered := true, eovh := m.sealedEovh, gap := List.range (16 + 256) }) : Prog Unit).run s

end Sys2Proof.Machine
end

