-- ==== Sys2Proof/Machine/Fetch.lean ====
section
/-! DEFINITION. The fetch of the issuing split's next instruction (R60 to R63, R84, R87, R115, R120, R132), and the state
in which a given word is fetched next. -/
namespace Sys2Proof.Machine

/-- Runs a program and goes on with its result; a program that ends early ends the step. -/
def Prog.thenRun {α : Type} : Prog α → State → (α → State → Host.Outcome State Fault Refusal) → Host.Outcome State Fault Refusal
  | .pure a, s, k => k a s
  | .halt, s, _ => .next s
  | .fault x, _, _ => .fault x
  | .refuse x, _, _ => .refused x
  | .read f, s, k => Prog.thenRun (f s) s k
  | .eff e p, s, k => Prog.thenRun p (e.apply s) k

/-- A row of the table that is an event, not an instruction. -/
def Instr.isEvent (i : Instr) : Bool := i.raw.isNone && i != .filler

/-- R73, R75, R87: the head of an instruction of classes 1 to 5 that reads a latch; an illegal one inside a running chain
makes the chain restart. -/
def latchHead (lo hi : W32) : Bool :=
  let r := Raw.ofHead lo hi .none
  let c := r.opc.toNat / 64
  !r.g && 1 ≤ c && c ≤ 5 && (Src.isLatch r.sa || Src.isLatch r.sb || Src.isLatch r.sc)

/-- The trap of a fetch: the split's whole mask. -/
def fetchTrap (c : Issuer) (x : Split) (cause : Cause) (detail : Nat) (epc taux : W64) (fva : Tab W64) : Prog Instr :=
  Prog.bind (Prog.act (.cur none)) (fun _ =>
    Prog.bind (raiseOn c.team c.gidx c.split ⟨cause, detail, x.mask, epc, taux, fva, none, none⟩) (fun _ => .halt))

/-- R120, R132, R337: poison in the words that are fetched. -/
def fetchPoison (c : Issuer) (g : Group) (x : Split) (l : Launch) (pa : Nat) : Prog Instr :=
  .read (fun s =>
    let src := poisonSource pa
    let a := s.dev.action 3 src
    Prog.bind (raiseEvent { cls := 3, src, slot := some l.cmd.slot, part := none, unit_ := coreUnit g.core
                            addr := natW pa }) (fun _ =>
      if 3 ≤ a then .eff (.cur none) .halt
      else fetchTrap c x .poison 0 x.pc 0 ((lanesOf g.width x.mask).map (fun t => (t, x.pc)))))

/-- The group and the launch of the issuing split. -/
def issuerOf (c : Issuer) : Prog (Group × Launch) :=
  .read (fun s => match s.group? c.team c.gidx, (s.team? c.team).bind (fun t => s.launch? t.launch) with
    | some g, some l => .pure (g, l)
    | _, _ => .fault .noIssuer)

/-- The issuing split's next instruction, or the trap that its fetch or its words raise. A split that a transfer or a return to
a filler has brought into the slice area has no last instruction whose address R88 could give EPC: DESIGN CHOICE, it is the
base of the area, where the split stands (log entry 108). -/
def fetchNext (c : Issuer) : Prog Instr :=
  letI := Prog.monad
  do
    let (g, l) ← issuerOf c
    let x := g.split c.split
    let every : Tab W64 := (lanesOf g.width x.mask).map (fun t => (t, x.pc))
    if !x.live then .fault .noIssuer
    else if l.desc.sarea.toNat ≤ x.pc.toNat && x.pc.toNat < l.desc.sarea.toNat + l.desc.salen then
      fetchTrap c x .badtarget 3 x.pc x.pc []
    else do
      let r ← translate g.core (dieOf g.core) l.cmd.slot x.sup .fetch (BitVec.ofNat 64 (x.pc.toNat / 32 * 32))
      match r with
      | .error f => fetchTrap c x f.1 f.2 x.pc 0 every
      | .ok (block, _) =>
        if inPeer block then fetchTrap c x .prot 12 x.pc 0 every
        else do
          let pa := block / 32 * 32 + x.pc.toNat % 32
          let bad ← consume l.cmd.slot (block / 32 * 32) 32
          if bad then fetchPoison c g x l (block / 32 * 32)
          else do
            let ws ← fetchWords g.core l.id pa
            match decode false ws with
            | .ok i => pure i
            | .error sub =>
              let first := match x.chain with
                | some (p, n) => if n < 4 && latchHead (ws.getD 0 0) (ws.getD 1 0) then p else x.pc
                | none => x.pc
              fetchTrap c x .illop sub first ((ws.getD 0 0).setWidth 64) []

/-! ### A word that is fetched next -/

/-- Where the placed instruction and the tables that map it stand. -/
def placedVa : W64 := 0x10000
def placedPa : Nat := 0x140000

/-- The words of an instruction, and the page-table entries that map them (R128, R129). -/
def placedCells (w : Nat) : List (Nat × Byte) :=
  cellsAt 0x100000 8 0x110001 ++ cellsAt 0x110000 8 0x120001 ++ cellsAt 0x120000 8 0x130001
    ++ cellsAt 0x130008 8 (BitVec.ofNat 64 (placedPa + 63)) ++ (List.range' placedPa 16).zip (bytesOf 16 w)

def placedLaunch (id : Nat) : Launch :=
  { id, part := 0, prio := 0, deq := 0
    cmd := { slot := 0, kdesc := 0, nteam := 1, mode := 0, args := 0, olog := 0, done := 0, seq := 0 }
    desc := { entry := placedVa, width := 16, regs := 8, threads := 16, localSize := 4096, accSize := 16384, pmax := 2 } }

def placedTeam (uid : Nat) : Team :=
  { uid, launch := uid, number := 0, place := .core 0, groups := [newGroup (placedLaunch uid) 0 ⟨0, 0, 0, []⟩]
    windows := List.replicate 4 {} }

/-- A partition, a context slot, a launch and a team whose only split stands at the placed words and issues next. -/
def placeWord (s : State) (w : Nat) : State :=
  let cells := placedCells w
  let put (v : View) : View := { v with mem := cells.foldl (fun m c => Tab.set 0 m c.1 c.2) v.mem }
  let d := s.dev.setPart 0 { s.dev.part 0 with clusters := 1, ranges := [(0, 0x1000000)] }
  let d := d.setSlot 0 { d.slot 0 with ptroot := 0x100001, sventry := placedVa }
  { s with
    mem := { s.mem with views := s.mem.views.map put, reserved := (List.range 16).map (fun k => (k, homeUnits [(0, 0x1000000)] k)) }
    teams := s.teams ++ [placedTeam s.nextUid]
    dev := { d with launches := d.launches ++ [placedLaunch s.nextUid] }
    cur := some ⟨s.nextUid, 0, 0⟩
    nextUid := s.nextUid + 1 }

end Sys2Proof.Machine
end

