-- ==== Sys2Proof/Machine/Float.lean ====
section
/-! DEFINITION. The meanings of class 3, floating arithmetic (R225 to R230): each is the shared
execution of R211 applied to the form's function of Alu. -/
namespace Sys2Proof.Machine

/-- R225. -/
def execFadd (h : Head) (ty : Ty) (r : Res) (a b : Src) (s : State) : Host.Outcome State Fault Refusal :=
  (compute (.fadd h ty r a b) h (compFadd ty r a b)).run s

/-- R225. -/
def execFsub (h : Head) (ty : Ty) (r : Res) (a b : Src) (s : State) : Host.Outcome State Fault Refusal :=
  (compute (.fsub h ty r a b) h (compFsub ty r a b)).run s

/-- R225. -/
def execFmul (h : Head) (ty : Ty) (r : Res) (a b : Src) (s : State) : Host.Outcome State Fault Refusal :=
  (compute (.fmul h ty r a b) h (compFmul ty r a b)).run s

/-- R226. -/
def execFma (h : Head) (ty : Ty) (r : Res) (a b c : Src) (s : State) : Host.Outcome State Fault Refusal :=
  (compute (.fma h ty r a b c) h (compFma ty r a b c)).run s

/-- R226. -/
def execFmaImmediate (h : Head) (ty : Ty) (r : Res) (a : Src) (f : BitVec 20) (s : State) : Host.Outcome State Fault Refusal :=
  (compute (.fmaImmediate h ty r a f) h (compFmaImmediate ty r a f)).run s

/-- R226. -/
def execFmaConstant (h : Head) (ty : Ty) (r : Res) (a : Src) (f : BitVec 20) (s : State) : Host.Outcome State Fault Refusal :=
  (compute (.fmaConstant h ty r a f) h (compFmaConstant ty r a f)).run s

/-- R227. -/
def execFmin (h : Head) (ty : Ty) (r : Res) (a b : Src) (s : State) : Host.Outcome State Fault Refusal :=
  (compute (.fmin h ty r a b) h (compFmin ty r a b)).run s

/-- R227. -/
def execFmax (h : Head) (ty : Ty) (r : Res) (a b : Src) (s : State) : Host.Outcome State Fault Refusal :=
  (compute (.fmax h ty r a b) h (compFmax ty r a b)).run s

/-- R227. -/
def execFabs (h : Head) (ty : Ty) (r : Res) (a : Src) (s : State) : Host.Outcome State Fault Refusal :=
  (compute (.fabs h ty r a) h (compFabs ty r a)).run s

/-- R227. -/
def execFneg (h : Head) (ty : Ty) (r : Res) (a : Src) (s : State) : Host.Outcome State Fault Refusal :=
  (compute (.fneg h ty r a) h (compFneg ty r a)).run s

/-- R228. -/
def execFcmp (h : Head) (ty : Ty) (d : BitVec 3) (cond : FCond) (a b : Src) (s : State) : Host.Outcome State Fault Refusal :=
  (compute (.fcmp h ty d cond a b) h (compFcmp ty d cond a b)).run s

/-- R229. -/
def execFclass (h : Head) (ty : Ty) (d : BitVec 3) (a b : Src) (s : State) : Host.Outcome State Fault Refusal :=
  (compute (.fclass h ty d a b) h (compFclass ty d a b)).run s

/-- R230. -/
def execFrnd (h : Head) (ty : Ty) (r : Res) (a : Src) (mode : RndMode) (s : State) : Host.Outcome State Fault Refusal :=
  (compute (.frnd h ty r a mode) h (compFrnd ty r a mode)).run s

/-- R225. -/
def execFdiv (h : Head) (ty : Ty) (r : Res) (a b : Src) (s : State) : Host.Outcome State Fault Refusal :=
  (compute (.fdiv h ty r a b) h (compFdiv ty r a b)).run s

/-- R225. -/
def execFsqrt (h : Head) (ty : Ty) (r : Res) (a : Src) (s : State) : Host.Outcome State Fault Refusal :=
  (compute (.fsqrt h ty r a) h (compFsqrt ty r a)).run s

end Sys2Proof.Machine
end

