-- ==== Sys2Proof/Machine/Int.lean ====
section
/-! DEFINITION. The meanings of class 1, integer arithmetic (R216 to R218): each is the shared execution of R211 applied to
the form's function of Alu. -/
namespace Sys2Proof.Machine

/-- R216. -/
def execAdd (h : Head) (ty : Ty) (r : Res) (a b : Src) (s : State) : Host.Outcome State Fault Refusal :=
  (compute (.add h ty r a b) h (compAdd ty r a b)).run s

/-- R216. -/
def execSub (h : Head) (ty : Ty) (r : Res) (a b : Src) (s : State) : Host.Outcome State Fault Refusal :=
  (compute (.sub h ty r a b) h (compSub ty r a b)).run s

/-- R216. -/
def execMul (h : Head) (ty : Ty) (r : Res) (a b : Src) (s : State) : Host.Outcome State Fault Refusal :=
  (compute (.mul h ty r a b) h (compMul ty r a b)).run s

/-- R216. -/
def execMulh (h : Head) (ty : Ty) (r : Res) (a b : Src) (s : State) : Host.Outcome State Fault Refusal :=
  (compute (.mulh h ty r a b) h (compMulh ty r a b)).run s

/-- R216. -/
def execMad (h : Head) (ty : Ty) (r : Res) (a b c : Src) (s : State) : Host.Outcome State Fault Refusal :=
  (compute (.mad h ty r a b c) h (compMad ty r a b c)).run s

/-- R218. -/
def execMadw (h : Head) (ty : Ty) (r : Res) (a b c : Src) (s : State) : Host.Outcome State Fault Refusal :=
  (compute (.madw h ty r a b c) h (compMadw ty r a b c)).run s

/-- R217. -/
def execDiv (h : Head) (ty : Ty) (r : Res) (a b : Src) (s : State) : Host.Outcome State Fault Refusal :=
  (compute (.div h ty r a b) h (compDiv ty r a b)).run s

/-- R217. -/
def execRem (h : Head) (ty : Ty) (r : Res) (a b : Src) (s : State) : Host.Outcome State Fault Refusal :=
  (compute (.rem h ty r a b) h (compRem ty r a b)).run s

/-- R216. -/
def execAbs (h : Head) (ty : Ty) (r : Res) (a : Src) (s : State) : Host.Outcome State Fault Refusal :=
  (compute (.abs h ty r a) h (compAbs ty r a)).run s

/-- R216. -/
def execNeg (h : Head) (ty : Ty) (r : Res) (a : Src) (s : State) : Host.Outcome State Fault Refusal :=
  (compute (.neg h ty r a) h (compNeg ty r a)).run s

/-- R216. -/
def execMin (h : Head) (ty : Ty) (r : Res) (a b : Src) (s : State) : Host.Outcome State Fault Refusal :=
  (compute (.min h ty r a b) h (compMin ty r a b)).run s

/-- R216. -/
def execMax (h : Head) (ty : Ty) (r : Res) (a b : Src) (s : State) : Host.Outcome State Fault Refusal :=
  (compute (.max h ty r a b) h (compMax ty r a b)).run s

/-- R216. -/
def execClamp (h : Head) (ty : Ty) (r : Res) (a b c : Src) (s : State) : Host.Outcome State Fault Refusal :=
  (compute (.clamp h ty r a b c) h (compClamp ty r a b c)).run s

/-- R218. -/
def execLea (h : Head) (ty : Ty) (r : Res) (a b c : Src) (s : State) : Host.Outcome State Fault Refusal :=
  (compute (.lea h ty r a b c) h (compLea ty r a b c)).run s

/-- R218. -/
def execAddc (h : Head) (ty : Ty) (r : Res) (a b c : Src) (s : State) : Host.Outcome State Fault Refusal :=
  (compute (.addc h ty r a b c) h (compAddc ty r a b c)).run s

/-- R218. -/
def execSubb (h : Head) (ty : Ty) (r : Res) (a b c : Src) (s : State) : Host.Outcome State Fault Refusal :=
  (compute (.subb h ty r a b c) h (compSubb ty r a b c)).run s

end Sys2Proof.Machine
end

