-- ==== Sys2Proof/Machine/Lane.lean ====
section
/-! DEFINITION. The meanings of class 5, combinations of threads (R235 to R240): each is the shared execution of R211 applied to
the form's function of Alu. -/
namespace Sys2Proof.Machine

/-- R236. -/
def execLxch (h : Head) (ty : Ty) (r : Res) (a b : Src) (mode : XchMode) (s : State) : Host.Outcome State Fault Refusal :=
  (compute (.lxch h ty r a b mode) h (compLxch ty r a b mode)).run s

/-- R237. -/
def execVoteAll (h : Head) (d : BitVec 3) (pf : PredF) (s : State) : Host.Outcome State Fault Refusal :=
  (compute (.voteAll h d pf) h (compVoteAll d pf)).run s

/-- R237. -/
def execVoteAny (h : Head) (d : BitVec 3) (pf : PredF) (s : State) : Host.Outcome State Fault Refusal :=
  (compute (.voteAny h d pf) h (compVoteAny d pf)).run s

/-- R237. -/
def execVoteBallot (h : Head) (r : Res) (pf : PredF) (j : BitVec 2) (s : State) : Host.Outcome State Fault Refusal :=
  (compute (.voteBallot h r pf j) h (compVoteBallot r pf j)).run s

/-- R238. -/
def execGred (h : Head) (ty : Ty) (r : Res) (a : Src) (op : FoldOp) (s : State) : Host.Outcome State Fault Refusal :=
  (compute (.gred h ty r a op) h (compGred ty r a op)).run s

/-- R238. -/
def execGscan (h : Head) (ty : Ty) (r : Res) (a : Src) (op : FoldOp) (s : State) : Host.Outcome State Fault Refusal :=
  (compute (.gscan h ty r a op) h (compGscan ty r a op)).run s

/-- R239. -/
def execRngk (h : Head) (r : Res) (a b : Src) (s : State) : Host.Outcome State Fault Refusal :=
  (compute (.rngk h r a b) h (compRngk r a b)).run s

/-- R240. -/
def execElect (h : Head) (d : BitVec 3) (s : State) : Host.Outcome State Fault Refusal :=
  (compute (.elect h d) h (compElect d)).run s

end Sys2Proof.Machine
end

