-- ==== Sys2Proof/Machine/Dispatch.lean ====
section
/-! DEFINITION. One arm for every operation and event: a direct call of its meaning. -/
namespace Sys2Proof.Machine

def exec (i : Instr) (s : State) : Host.Outcome State Fault Refusal :=
  match i with
  | .filler => Sys2Proof.Machine.execFiller s
  | .nop h => Sys2Proof.Machine.execNop h s
  | .bra h f => Sys2Proof.Machine.execBra h f s
  | .jmp h a b => Sys2Proof.Machine.execJmp h a b s
  | .call h d f => Sys2Proof.Machine.execCall h d f s
  | .ret h a => Sys2Proof.Machine.execRet h a s
  | .exit h => Sys2Proof.Machine.execExit h s
  | .rejoin h a b => Sys2Proof.Machine.execRejoin h a b s
  | .trap h n => Sys2Proof.Machine.execTrap h n s
  | .sysc h n => Sys2Proof.Machine.execSysc h n s
  | .bkpt h n => Sys2Proof.Machine.execBkpt h n s
  | .eret h => Sys2Proof.Machine.execEret h s
  | .eretExit h => Sys2Proof.Machine.execEretExit h s
  | .sigchk h sig => Sys2Proof.Machine.execSigchk h sig s
  | .rgn h => Sys2Proof.Machine.execRgn h s
  | .srd h ty r n => Sys2Proof.Machine.execSrd h ty r n s
  | .swr h ty a n => Sys2Proof.Machine.execSwr h ty a n s
  | .swrPgwatch h ty a => Sys2Proof.Machine.execSwrPgwatch h ty a s
  | .swrRgnpc h ty a => Sys2Proof.Machine.execSwrRgnpc h ty a s
  | .tevict h a => Sys2Proof.Machine.execTevict h a s
  | .add h ty r a b => Sys2Proof.Machine.execAdd h ty r a b s
  | .sub h ty r a b => Sys2Proof.Machine.execSub h ty r a b s
  | .mul h ty r a b => Sys2Proof.Machine.execMul h ty r a b s
  | .mulh h ty r a b => Sys2Proof.Machine.execMulh h ty r a b s
  | .mad h ty r a b c => Sys2Proof.Machine.execMad h ty r a b c s
  | .madw h ty r a b c => Sys2Proof.Machine.execMadw h ty r a b c s
  | .div h ty r a b => Sys2Proof.Machine.execDiv h ty r a b s
  | .rem h ty r a b => Sys2Proof.Machine.execRem h ty r a b s
  | .abs h ty r a => Sys2Proof.Machine.execAbs h ty r a s
  | .neg h ty r a => Sys2Proof.Machine.execNeg h ty r a s
  | .min h ty r a b => Sys2Proof.Machine.execMin h ty r a b s
  | .max h ty r a b => Sys2Proof.Machine.execMax h ty r a b s
  | .clamp h ty r a b c => Sys2Proof.Machine.execClamp h ty r a b c s
  | .lea h ty r a b c => Sys2Proof.Machine.execLea h ty r a b c s
  | .addc h ty r a b c => Sys2Proof.Machine.execAddc h ty r a b c s
  | .subb h ty r a b c => Sys2Proof.Machine.execSubb h ty r a b c s
  | .and h ty r a b => Sys2Proof.Machine.execAnd h ty r a b s
  | .or h ty r a b => Sys2Proof.Machine.execOr h ty r a b s
  | .xor h ty r a b => Sys2Proof.Machine.execXor h ty r a b s
  | .andn h ty r a b => Sys2Proof.Machine.execAndn h ty r a b s
  | .not h ty r a => Sys2Proof.Machine.execNot h ty r a s
  | .shl h ty r a n => Sys2Proof.Machine.execShl h ty r a n s
  | .shr h ty r a n => Sys2Proof.Machine.execShr h ty r a n s
  | .sar h ty r a n => Sys2Proof.Machine.execSar h ty r a n s
  | .rot h ty r a n => Sys2Proof.Machine.execRot h ty r a n s
  | .bfx h ty r a b => Sys2Proof.Machine.execBfx h ty r a b s
  | .bfi h ty r a b c => Sys2Proof.Machine.execBfi h ty r a b c s
  | .popc h ty r a => Sys2Proof.Machine.execPopc h ty r a s
  | .clz h ty r a => Sys2Proof.Machine.execClz h ty r a s
  | .ctz h ty r a => Sys2Proof.Machine.execCtz h ty r a s
  | .brev h ty r a => Sys2Proof.Machine.execBrev h ty r a s
  | .perm h r a b c => Sys2Proof.Machine.execPerm h r a b c s
  | .sel h ty r a b pf => Sys2Proof.Machine.execSel h ty r a b pf s
  | .mov h ty r a => Sys2Proof.Machine.execMov h ty r a s
  | .movx h ty r a x => Sys2Proof.Machine.execMovx h ty r a x s
  | .cmp h ty d cond a b => Sys2Proof.Machine.execCmp h ty d cond a b s
  | .plop h d pa pb pc table => Sys2Proof.Machine.execPlop h d pa pb pc table s
  | .setx h d a k => Sys2Proof.Machine.execSetx h d a k s
  | .fadd h ty r a b => Sys2Proof.Machine.execFadd h ty r a b s
  | .fsub h ty r a b => Sys2Proof.Machine.execFsub h ty r a b s
  | .fmul h ty r a b => Sys2Proof.Machine.execFmul h ty r a b s
  | .fma h ty r a b c => Sys2Proof.Machine.execFma h ty r a b c s
  | .fmaImmediate h ty r a f => Sys2Proof.Machine.execFmaImmediate h ty r a f s
  | .fmaConstant h ty r a f => Sys2Proof.Machine.execFmaConstant h ty r a f s
  | .fmin h ty r a b => Sys2Proof.Machine.execFmin h ty r a b s
  | .fmax h ty r a b => Sys2Proof.Machine.execFmax h ty r a b s
  | .fabs h ty r a => Sys2Proof.Machine.execFabs h ty r a s
  | .fneg h ty r a => Sys2Proof.Machine.execFneg h ty r a s
  | .fcmp h ty d cond a b => Sys2Proof.Machine.execFcmp h ty d cond a b s
  | .fclass h ty d a b => Sys2Proof.Machine.execFclass h ty d a b s
  | .frnd h ty r a mode => Sys2Proof.Machine.execFrnd h ty r a mode s
  | .fdiv h ty r a b => Sys2Proof.Machine.execFdiv h ty r a b s
  | .fsqrt h ty r a => Sys2Proof.Machine.execFsqrt h ty r a s
  | .cvt h ty r a from_ => Sys2Proof.Machine.execCvt h ty r a from_ s
  | .cvts h ty r a from_ => Sys2Proof.Machine.execCvts h ty r a from_ s
  | .frcp h ty r a => Sys2Proof.Machine.execFrcp h ty r a s
  | .frsq h ty r a => Sys2Proof.Machine.execFrsq h ty r a s
  | .fex2 h ty r a => Sys2Proof.Machine.execFex2 h ty r a s
  | .flg2 h ty r a => Sys2Proof.Machine.execFlg2 h ty r a s
  | .fsin h ty r a => Sys2Proof.Machine.execFsin h ty r a s
  | .fcos h ty r a => Sys2Proof.Machine.execFcos h ty r a s
  | .ftanh h ty r a => Sys2Proof.Machine.execFtanh h ty r a s
  | .lxch h ty r a b mode => Sys2Proof.Machine.execLxch h ty r a b mode s
  | .voteAll h d pf => Sys2Proof.Machine.execVoteAll h d pf s
  | .voteAny h d pf => Sys2Proof.Machine.execVoteAny h d pf s
  | .voteBallot h r pf j => Sys2Proof.Machine.execVoteBallot h r pf j s
  | .gred h ty r a op => Sys2Proof.Machine.execGred h ty r a op s
  | .gscan h ty r a op => Sys2Proof.Machine.execGscan h ty r a op s
  | .rngk h r a b => Sys2Proof.Machine.execRngk h r a b s
  | .elect h d => Sys2Proof.Machine.execElect h d s
  | .ldg h ty r o sc rc hint a b => Sys2Proof.Machine.execLdg h ty r o sc rc hint a b s
  | .stg h ty d o sc hint a b => Sys2Proof.Machine.execStg h ty d o sc hint a b s
  | .pfg h hint a b => Sys2Proof.Machine.execPfg h hint a b s
  | .ldl h ty r o sc a b => Sys2Proof.Machine.execLdl h ty r o sc a b s
  | .stl h ty d o sc a b => Sys2Proof.Machine.execStl h ty d o sc a b s
  | .ldk h ty r win b => Sys2Proof.Machine.execLdk h ty r win b s
  | .lda h ty r a b => Sys2Proof.Machine.execLda h ty r a b s
  | .sta h ty d a b => Sys2Proof.Machine.execSta h ty d a b s
  | .atm h ty r o sc sp a b op data => Sys2Proof.Machine.execAtm h ty r o sc sp a b op data s
  | .cas h ty r o sc sp a b data cmp fail => Sys2Proof.Machine.execCas h ty r o sc sp a b data cmp fail s
  | .red h ty o sc sp a b op data => Sys2Proof.Machine.execRed h ty o sc sp a b op data s
  | .ored h ty o sc sp a b data index => Sys2Proof.Machine.execOred h ty o sc sp a b data index s
  | .fence h o sc => Sys2Proof.Machine.execFence h o sc s
  | .arrive h o sc a b => Sys2Proof.Machine.execArrive h o sc a b s
  | .waitb h d o sc a b => Sys2Proof.Machine.execWaitb h d o sc a b s
  | .arw h o sc a b => Sys2Proof.Machine.execArw h o sc a b s
  | .pgmap h a b c => Sys2Proof.Machine.execPgmap h a b c s
  | .pgunmap h a b => Sys2Proof.Machine.execPgunmap h a b s
  | .tlbinv h d a b => Sys2Proof.Machine.execTlbinv h d a b s
  | .tlbinvSync h d a b => Sys2Proof.Machine.execTlbinvSync h d a b s
  | .clean h d a b => Sys2Proof.Machine.execClean h d a b s
  | .invl h d a b => Sys2Proof.Machine.execInvl h d a b s
  | .scwin h a b win mode => Sys2Proof.Machine.execScwin h a b win mode s
  | .cpy h d a b c => Sys2Proof.Machine.execCpy h d a b c s
  | .rstr h d a b c => Sys2Proof.Machine.execRstr h d a b c s
  | .fwait h hn => Sys2Proof.Machine.execFwait h hn s
  | .ftest h d hn => Sys2Proof.Machine.execFtest h d hn s
  | .fcancel h hn => Sys2Proof.Machine.execFcancel h hn s
  | .yld h hn f => Sys2Proof.Machine.execYld h hn f s
  | .tsub h d a => Sys2Proof.Machine.execTsub h d a s
  | .emit h a b => Sys2Proof.Machine.execEmit h a b s
  | .emitFlush h a => Sys2Proof.Machine.execEmitFlush h a s
  | .lnch h d a prio => Sys2Proof.Machine.execLnch h d a prio s
  | .mma h ty d a b m => Sys2Proof.Machine.execMma h ty d a b m s
  | .mxfnc h ty d a b m => Sys2Proof.Machine.execMxfnc h ty d a b m s
  | .scacc h d a b m => Sys2Proof.Machine.execScacc h d a b m s
  | .bqnt h d a b m => Sys2Proof.Machine.execBqnt h d a b m s
  | .bunp h d a b m => Sys2Proof.Machine.execBunp h d a b m s
  | .accz h ty a b m => Sys2Proof.Machine.execAccz h ty a b m s
  | .unite h r a b c => Sys2Proof.Machine.execUnite h r a b c s
  | .find h r a b => Sys2Proof.Machine.execFind h r a b s
  | .csize h r a b => Sys2Proof.Machine.execCsize h r a b s
  | .fcount h r a sel => Sys2Proof.Machine.execFcount h r a sel s
  | .relabel h ty d a b => Sys2Proof.Machine.execRelabel h ty d a b s
  | .fsnap h a => Sys2Proof.Machine.execFsnap h a s
  | .fundo h a => Sys2Proof.Machine.execFundo h a s
  | .freset h a => Sys2Proof.Machine.execFreset h a s
  | .rcp h d k => Sys2Proof.Machine.execRcp h d k s
  | .rcpdrop h d => Sys2Proof.Machine.execRcpdrop h d s
  | .rcpmat h d => Sys2Proof.Machine.execRcpmat h d s
  | .rcpdem h d => Sys2Proof.Machine.execRcpdem h d s
  | .cntrd h r n => Sys2Proof.Machine.execCntrd h r n s
  | .cntsn h d a sel => Sys2Proof.Machine.execCntsn h d a sel s
  | .pwrset h c => Sys2Proof.Machine.execPwrset h c s
  | .issue site upset => Sys2Proof.Machine.execIssue site upset s
  | .withholdStarvation cluster g => Sys2Proof.Machine.execWithholdStarvation cluster g s
  | .performLoad g op lane ecc => Sys2Proof.Machine.execPerformLoad g op lane ecc s
  | .commit g op lane => Sys2Proof.Machine.execCommit g op lane s
  | .apply die k => Sys2Proof.Machine.execApply die k s
  | .atomic g op lane => Sys2Proof.Machine.execAtomic g op lane s
  | .complete g op => Sys2Proof.Machine.execComplete g op s
  | .engine cmd => Sys2Proof.Machine.execEngine cmd s
  | .atomicReply g op lane => Sys2Proof.Machine.execAtomicReply g op lane s
  | .requestResend g op lane => Sys2Proof.Machine.execRequestResend g op lane s
  | .oredArrive g op lane => Sys2Proof.Machine.execOredArrive g op lane s
  | .oredHeldApply k => Sys2Proof.Machine.execOredHeldApply k s
  | .oredRetry g op => Sys2Proof.Machine.execOredRetry g op s
  | .forestStep g op lane => Sys2Proof.Machine.execForestStep g op lane s
  | .splitMerge g a b => Sys2Proof.Machine.execSplitMerge g a b s
  | .splitOverflow g => Sys2Proof.Machine.execSplitOverflow g s
  | .rjdl g => Sys2Proof.Machine.execRjdl g s
  | .rollback g => Sys2Proof.Machine.execRollback g s
  | .demotion g reg => Sys2Proof.Machine.execDemotion g reg s
  | .fetchFill core line => Sys2Proof.Machine.execFetchFill core line s
  | .windowFill team win blk => Sys2Proof.Machine.execWindowFill team win blk s
  | .handleComplete cmd => Sys2Proof.Machine.execHandleComplete cmd s
  | .copyStart core => Sys2Proof.Machine.execCopyStart core s
  | .tileRecordStart pair engine => Sys2Proof.Machine.execTileRecordStart pair engine s
  | .tileRecordComplete pair cmd => Sys2Proof.Machine.execTileRecordComplete pair cmd s
  | .rstrBlockMove cmd => Sys2Proof.Machine.execRstrBlockMove cmd s
  | .relabelRun cmd => Sys2Proof.Machine.execRelabelRun cmd s
  | .launchCommand part slot prio single words => Sys2Proof.Machine.execLaunchCommand part slot prio single words s
  | .ptrootWrite part slot value => Sys2Proof.Machine.execPtrootWrite part slot value s
  | .quantumWrite part value => Sys2Proof.Machine.execQuantumWrite part value s
  | .timeSliceTick part => Sys2Proof.Machine.execTimeSliceTick part s
  | .contextRecordWrite part slot offset value => Sys2Proof.Machine.execContextRecordWrite part slot offset value s
  | .severityWrite cls value => Sys2Proof.Machine.execSeverityWrite cls value s
  | .registerWrite bar offset value => Sys2Proof.Machine.execRegisterWrite bar offset value s
  | .launchDequeue part => Sys2Proof.Machine.execLaunchDequeue part s
  | .teamSelect part launch vcore => Sys2Proof.Machine.execTeamSelect part launch vcore s
  | .teamAdmit part entry place => Sys2Proof.Machine.execTeamAdmit part entry place s
  | .teamEvict team => Sys2Proof.Machine.execTeamEvict team s
  | .teamResume part entry place => Sys2Proof.Machine.execTeamResume part entry place s
  | .segmentRecoveryEvict g reg => Sys2Proof.Machine.execSegmentRecoveryEvict g reg s
  | .teamEnd team => Sys2Proof.Machine.execTeamEnd team s
  | .launchComplete launch => Sys2Proof.Machine.execLaunchComplete launch s
  | .orderLogDrain die => Sys2Proof.Machine.execOrderLogDrain die s
  | .powerModeChange core quad lg => Sys2Proof.Machine.execPowerModeChange core quad lg s
  | .refillUpdate refill settings => Sys2Proof.Machine.execRefillUpdate refill settings s
  | .energySeal => Sys2Proof.Machine.execEnergySeal s
  | .signReading => Sys2Proof.Machine.execSignReading s
  | .hostRead q => Sys2Proof.Machine.execHostRead q s
  | .hostWrite m pa bytes => Sys2Proof.Machine.execHostWrite m pa bytes s
  | .cxlCacheSnoop m pa invalidate => Sys2Proof.Machine.execCxlCacheSnoop m pa invalidate s
  | .peerInbound port pa bytes => Sys2Proof.Machine.execPeerInbound port pa bytes s
  | .dirRequest core pa write => Sys2Proof.Machine.execDirRequest core pa write s
  | .dirOverflow junction set => Sys2Proof.Machine.execDirOverflow junction set s
  | .prefetch core pa part => Sys2Proof.Machine.execPrefetch core pa part s
  | .skimmerWriteback sector ue => Sys2Proof.Machine.execSkimmerWriteback sector ue s
  | .patrolScrub sector ecc => Sys2Proof.Machine.execPatrolScrub sector ecc s
  | .blackBoxRelease => Sys2Proof.Machine.execBlackBoxRelease s
  | .linkReplay l => Sys2Proof.Machine.execLinkReplay l s
  | .linkDown l => Sys2Proof.Machine.execLinkDown l s
  | .junctionFail j => Sys2Proof.Machine.execJunctionFail j s
  | .ctrlParity site => Sys2Proof.Machine.execCtrlParity site s
  | .thermal die => Sys2Proof.Machine.execThermal die s
  | .power die => Sys2Proof.Machine.execPower die s
  | .criticalTemperature die => Sys2Proof.Machine.execCriticalTemperature die s
  | .moduleReset => Sys2Proof.Machine.execModuleReset s
  | .powerLoss => Sys2Proof.Machine.execPowerLoss s
  | .partitionConfigure part clusters ranges shares => Sys2Proof.Machine.execPartitionConfigure part clusters ranges shares s
  | .peerWiring port target boundPart => Sys2Proof.Machine.execPeerWiring port target boundPart s
  | .measurementExtend k image => Sys2Proof.Machine.execMeasurementExtend k image s
  | .attestationQuote nonce => Sys2Proof.Machine.execAttestationQuote nonce s
  | .lifecycleAdvance => Sys2Proof.Machine.execLifecycleAdvance s
  | .powerOn => Sys2Proof.Machine.execPowerOn s
  | .coreCycle => Sys2Proof.Machine.execCoreCycle s

end Sys2Proof.Machine
end

