-- ==== Sys2Proof/Machine/Step.lean ====
section
/-! DEFINITION. One step: the issuing split's instruction, or the event that is due, or the event that comes. -/
namespace Sys2Proof.Machine

/-- An event; what is no event changes nothing. -/
def runEvent (i : Instr) (s : State) : Host.Outcome State Fault Refusal :=
  if Instr.isEvent i then exec i s else .next s

def step (s : State) : Host.Outcome State Fault Refusal :=
  match s.cur, s.agenda with
  | some c, _ => (fetchNext c).thenRun s (fun i t => exec i t)
  | none, i :: rest => runEvent i { s with agenda := rest }
  | none, [] => runEvent (Config.nextEvent s.tick) { s with tick := s.tick + 1 }

/-- The state with an instruction stored where the next step fetches, and everything that this fetch needs. -/
def State.withFetchWord (s : State) (nbits w : Nat) : State := placeWord s (w % 2 ^ nbits)

end Sys2Proof.Machine
end

