-- ==== Sys2Proof/Laws/Coding.lean ====
section
/-! SUPPORT. Lemmas of the encoding: a field gives back what was put into it. -/
set_option linter.unusedSimpArgs false
set_option Elab.async false

namespace Sys2Proof

/-! ### The head word (R64) -/

theorem Raw.lo_bit (r : Raw) (i : Nat) :
    r.lo.getLsbD i = if i < 2 then r.lits.len.getLsbD i else if i < 12 then r.opc.getLsbD (i - 2)
      else if i < 16 then r.ty.getLsbD (i - 12) else if i < 17 then r.g else if i < 21 then r.grd.getLsbD (i - 17)
      else if i < 22 then r.nwb else if i < 24 then r.lat.getLsbD (i - 22) else r.d.getLsbD (i - 24) := by
  have e : r.lo.getLsbD i = BitVec.getLsbD (w := 8 + 2 + 1 + 4 + 1 + 4 + 10 + 2)
      (r.d ++ r.lat ++ BitVec.ofBool r.nwb ++ r.grd ++ BitVec.ofBool r.g ++ r.ty ++ r.opc ++ r.lits.len) i := rfl
  rw [e]
  simp only [BitVec.getLsbD_append, BitVec.getLsbD_ofBool]
  repeat' split
  all_goals first
    | rfl
    | omega
    | (simp; try omega)

theorem Raw.hi_bit (r : Raw) (i : Nat) :
    r.hi.getLsbD i = if i < 11 then r.a.getLsbD i else if i < 22 then r.b.getLsbD (i - 11) else r.c.getLsbD (i - 22) := by
  have e : r.hi.getLsbD i = BitVec.getLsbD (w := 10 + 11 + 11) (r.c ++ r.b ++ r.a) i := rfl
  rw [e]
  simp only [BitVec.getLsbD_append]
  repeat' split
  all_goals first
    | rfl
    | omega

theorem bits_eq {n w : Nat} (x : BitVec w) (y : BitVec n) (lo : Nat) (h : ∀ i, i < n → x.getLsbD (lo + i) = y.getLsbD i) :
    x.extractLsb' lo n = y := by
  apply BitVec.eq_of_getLsbD_eq
  intro i hi
  simp [hi, h i hi]

theorem Raw.ofHead_lo_hi (r : Raw) : Raw.ofHead r.lo r.hi r.lits = r := by
  unfold Raw.ofHead
  have h1 : r.lo.extractLsb' 2 10 = r.opc := bits_eq _ _ _ (fun i hi => by rw [Raw.lo_bit]; (repeat' split) <;> first | omega | (congr 1; omega))
  have h2 : r.lo.extractLsb' 12 4 = r.ty := bits_eq _ _ _ (fun i hi => by rw [Raw.lo_bit]; (repeat' split) <;> first | omega | (congr 1; omega))
  have h3 : r.lo.getLsbD 16 = r.g := by rw [Raw.lo_bit]; rfl
  have h4 : r.lo.extractLsb' 17 4 = r.grd := bits_eq _ _ _ (fun i hi => by rw [Raw.lo_bit]; (repeat' split) <;> first | omega | (congr 1; omega))
  have h5 : r.lo.getLsbD 21 = r.nwb := by rw [Raw.lo_bit]; rfl
  have h6 : r.lo.extractLsb' 22 2 = r.lat := bits_eq _ _ _ (fun i hi => by rw [Raw.lo_bit]; (repeat' split) <;> first | omega | (congr 1; omega))
  have h7 : r.lo.extractLsb' 24 8 = r.d := bits_eq _ _ _ (fun i hi => by rw [Raw.lo_bit]; (repeat' split) <;> first | omega | (congr 1; omega))
  have h8 : r.hi.extractLsb' 0 11 = r.a := bits_eq _ _ _ (fun i hi => by rw [Raw.hi_bit]; (repeat' split) <;> first | omega | (congr 1; omega))
  have h9 : r.hi.extractLsb' 11 11 = r.b := bits_eq _ _ _ (fun i hi => by rw [Raw.hi_bit]; (repeat' split) <;> first | omega | (congr 1; omega))
  have h10 : r.hi.extractLsb' 22 10 = r.c := bits_eq _ _ _ (fun i hi => by rw [Raw.hi_bit]; (repeat' split) <;> first | omega | (congr 1; omega))
  rw [h1, h2, h3, h4, h5, h6, h7, h8, h9, h10]

theorem Raw.lo_len (r : Raw) : r.lo.extractLsb' 0 2 = r.lits.len :=
  bits_eq _ _ _ (fun i hi => by rw [Raw.lo_bit]; split <;> first | omega | (congr 1; omega))

/-- Decoding the words of a head reads back its fields (R60, R64). -/
theorem decode_words (slice : Bool) (r : Raw) (rest : List W32) : decode slice (r.words ++ rest) = decodeRaw slice r := by
  have h := Raw.ofHead_lo_hi r
  have hl := Raw.lo_len r
  unfold Raw.words
  cases hr : r.lits with
  | none => rw [hr] at h hl; simp [decode, hl, Lits.len, Lits.words, h]
  | one w => rw [hr] at h hl; simp [decode, hl, Lits.len, Lits.words, h]
  | two w v => rw [hr] at h hl; simp [decode, hl, Lits.len, Lits.words, h]

/-! ### Sources (R69) -/

@[simp] theorem src11_enc (x : Src) : src11 x.enc11 = x := by
  cases x with
  | v n => revert n; decide +kernel
  | vx x b => revert x b; decide +kernel
  | s n => revert n; decide +kernel
  | x n => revert n; decide +kernel
  | h n => revert n; decide +kernel
  | b n => revert n; decide +kernel
  | lit0 => decide
  | lit1 => decide
  | lit64 => decide
  | imm i => revert i; decide +kernel

@[simp] theorem src10_enc (x : Src) (h : x.fitsC = true) : src10 x.enc10 = x := by
  cases x with
  | v n => revert n; decide +kernel
  | vx x b => revert x b; decide +kernel
  | s n => revert n; decide +kernel
  | x n => revert n; decide +kernel
  | h n => revert n; decide +kernel
  | b n => revert n; decide +kernel
  | lit0 => decide
  | lit1 => decide
  | lit64 => decide
  | imm i => revert i; decide +kernel

@[simp] theorem kind11_enc (x : Src) : kind11 x.enc11 = false := by
  cases x with
  | v n => revert n; decide +kernel
  | vx x b => revert x b; decide +kernel
  | s n => revert n; decide +kernel
  | x n => revert n; decide +kernel
  | h n => revert n; decide +kernel
  | b n => revert n; decide +kernel
  | lit0 => decide
  | lit1 => decide
  | lit64 => decide
  | imm i => revert i; decide +kernel

@[simp] theorem kind10_enc (x : Src) : kind10 x.enc10 = false := by
  cases x with
  | v n => revert n; decide +kernel
  | vx x b => revert x b; decide +kernel
  | s n => revert n; decide +kernel
  | x n => revert n; decide +kernel
  | h n => revert n; decide +kernel
  | b n => revert n; decide +kernel
  | lit0 => decide
  | lit1 => decide
  | lit64 => decide
  | imm i => revert i; decide +kernel

@[simp] theorem rsv11_enc (x : Src) : rsv11 x.enc11 = false := by simp [rsv11, src11_enc]

@[simp] theorem rsv10_enc (x : Src) (h : x.fitsC = true) : rsv10 x.enc10 = false := by simp [rsv10, src10_enc x h]

@[simp] theorem ty_code (t : Ty) : Ty.ofCode t.code = t := by cases t <;> rfl

/-! ### The fields of an encoded head -/

section
variable (h : Head) (o : BitVec 10) (t : BitVec 4) (d : BitVec 8) (a b : BitVec 11) (c : BitVec 10) (f : BitVec 20)

@[simp] theorem mk_opc : (mk h o t d a b c).opc = o := rfl
@[simp] theorem mk_ty : (mk h o t d a b c).ty = t := rfl
@[simp] theorem mk_g : (mk h o t d a b c).g = h.g := rfl
@[simp] theorem mk_nwb : (mk h o t d a b c).nwb = false := rfl
@[simp] theorem mk_lat : (mk h o t d a b c).lat = 0 := rfl
@[simp] theorem mk_d : (mk h o t d a b c).d = d := rfl
@[simp] theorem mk_a : (mk h o t d a b c).a = a := rfl
@[simp] theorem mk_b : (mk h o t d a b c).b = b := rfl
@[simp] theorem mk_c : (mk h o t d a b c).c = c := rfl
@[simp] theorem mk_lits : (mk h o t d a b c).lits = h.lits := rfl

theorem guard_neg (n : Bool) (i : BitVec 3) : (BitVec.ofBool n ++ i).getLsbD 3 = n := by
  revert n i; decide +kernel
theorem guard_idx (n : Bool) (i : BitVec 3) : (BitVec.ofBool n ++ i).extractLsb' 0 3 = i := by
  revert n i; decide +kernel

@[simp] theorem mk_head : (mk h o t d a b c).head = h := by
  simp only [Raw.head, mk, guard_neg, guard_idx]

@[simp] theorem mkF_eq : mkF h o t d a f = mk h o t d a (fB f) (fC f) := rfl

/-- F comes back from the two fields that hold it (R65). -/
theorem f_parts : (fC f).setWidth 9 ++ fB f = f := by
  apply BitVec.eq_of_getLsbD_eq
  intro i hi
  have e : ((fC f).setWidth 9 ++ fB f).getLsbD i = BitVec.getLsbD (w := 9 + 11) ((fC f).setWidth 9 ++ fB f) i := rfl
  have e1 : ∀ j, (fC f).getLsbD j = BitVec.getLsbD (w := 1 + 9) (0#1 ++ f.extractLsb' 11 9) j := fun _ => rfl
  rw [e]
  simp only [BitVec.getLsbD_append, BitVec.getLsbD_setWidth, e1, fB, BitVec.getLsbD_extractLsb']
  split
  · simp_all
  · have h9 : i - 11 < 9 := by omega
    simp [h9]
    congr 1
    omega

@[simp] theorem mk_f : (mk h o t d a (fB f) (fC f)).f = f := f_parts f
@[simp] theorem fC_top : (fC f)[9] = false := by
  rw [← BitVec.getLsbD_eq_getElem]
  have e1 : (fC f).getLsbD 9 = BitVec.getLsbD (w := 1 + 9) (0#1 ++ f.extractLsb' 11 9) 9 := rfl
  rw [e1]
  simp only [BitVec.getLsbD_append]
  simp

end

section
variable (x : Raw) (r : Res) (w : W32)

@[simp] theorem withRes_opc : (x.withRes r).opc = x.opc := rfl
@[simp] theorem withRes_ty : (x.withRes r).ty = x.ty := rfl
@[simp] theorem withRes_g : (x.withRes r).g = x.g := rfl
@[simp] theorem withRes_nwb : (x.withRes r).nwb = r.nwb := rfl
@[simp] theorem withRes_lat : (x.withRes r).lat = r.lat := rfl
@[simp] theorem withRes_d : (x.withRes r).d = x.d := rfl
@[simp] theorem withRes_a : (x.withRes r).a = x.a := rfl
@[simp] theorem withRes_b : (x.withRes r).b = x.b := rfl
@[simp] theorem withRes_c : (x.withRes r).c = x.c := rfl
@[simp] theorem withRes_f : (x.withRes r).f = x.f := rfl
@[simp] theorem withRes_lits : (x.withRes r).lits = x.lits := rfl
@[simp] theorem withRes_head : (x.withRes r).head = x.head := rfl
@[simp] theorem withRes_headA : (x.withRes r).headA = x.headA := rfl

@[simp] theorem withAtom_opc : (x.withAtom w).opc = x.opc := rfl
@[simp] theorem withAtom_ty : (x.withAtom w).ty = x.ty := rfl
@[simp] theorem withAtom_g : (x.withAtom w).g = x.g := rfl
@[simp] theorem withAtom_nwb : (x.withAtom w).nwb = x.nwb := rfl
@[simp] theorem withAtom_lat : (x.withAtom w).lat = x.lat := rfl
@[simp] theorem withAtom_d : (x.withAtom w).d = x.d := rfl
@[simp] theorem withAtom_a : (x.withAtom w).a = x.a := rfl
@[simp] theorem withAtom_b : (x.withAtom w).b = x.b := rfl
@[simp] theorem withAtom_c : (x.withAtom w).c = x.c := rfl
@[simp] theorem withAtom_lits : (x.withAtom w).lits = .one w := rfl
@[simp] theorem withAtom_headA : (x.withAtom w).headA = x.headA := rfl

/-- The result fields read as one. -/
theorem res_of (r : Res) (x : Raw) (h1 : x.nwb = r.nwb) (h2 : x.lat = r.lat) (h3 : x.d = r.d) : x.res = r := by
  simp [Raw.res, h1, h2, h3]

end

/-! ### Codes of the fields -/

@[simp] theorem layout_beq (a b : Layout) : (a == b) = decide (a = b) := by cases a <;> cases b <;> rfl
@[simp] theorem rkind_beq (a b : RKind) : (a == b) = decide (a = b) := by cases a <;> cases b <;> rfl

@[simp] theorem tyALL_code (t : Ty) : tyALL.getLsbD t.code.toNat = t.isAll := by cases t <;> rfl
@[simp] theorem tyINT_code (t : Ty) : tyINT.getLsbD t.code.toNat = t.isInt := by cases t <;> rfl
@[simp] theorem tyW_code (t : Ty) : tyW.getLsbD t.code.toNat = t.isW := by cases t <;> rfl
@[simp] theorem tyFLT_code (t : Ty) : tyFLT.getLsbD t.code.toNat = t.isFlt := by cases t <;> rfl
@[simp] theorem ty0to5_code (t : Ty) : (0x003F#16).getLsbD t.code.toNat = t.is0to5 := by cases t <;> rfl
@[simp] theorem ty5_code (t : Ty) : (0x0005#16).getLsbD t.code.toNat = (t == .i32 || t == .i64) := by cases t <;> rfl
@[simp] theorem ty3_code (t : Ty) : (0x0003#16).getLsbD t.code.toNat = (t == .i32 || t == .n32) := by cases t <;> rfl
@[simp] theorem tyC_code (t : Ty) : (0x000C#16).getLsbD t.code.toNat = (t == .i64 || t == .n64) := by cases t <;> rfl
@[simp] theorem ty30_code (t : Ty) : (0x0030#16).getLsbD t.code.toNat = (t == .f32 || t == .f64) := by cases t <;> rfl
@[simp] theorem tyD0_code (t : Ty) : (0x00D0#16).getLsbD t.code.toNat = (t == .f32 || t == .f16 || t == .bf16) := by
  cases t <;> rfl
@[simp] theorem tyFC0_code (t : Ty) : (0x0FC0#16).getLsbD t.code.toNat = (t == .f16 || t == .bf16 || (t.isInt && !t.isW)) := by
  cases t <;> rfl
@[simp] theorem ty31_code (t : Ty) : (0x0031#16).getLsbD t.code.toNat = (t == .i32 || t == .f32 || t == .f64) := by
  cases t <;> rfl
@[simp] theorem ty10F0_code (t : Ty) : (0x10F0#16).getLsbD t.code.toNat = (t.isFlt || t == .bfp) := by cases t <;> rfl
@[simp] theorem ty1031_code (t : Ty) : (0x1031#16).getLsbD t.code.toNat = (t == .i32 || t == .f32 || t == .f64 || t == .bfp) := by
  cases t <;> rfl
@[simp] theorem ty1090_code (t : Ty) : (0x1090#16).getLsbD t.code.toNat = (t == .f32 || t == .bf16 || t == .bfp) := by
  cases t <;> rfl

@[simp] theorem sysReg_code (n : SysReg) : SysReg.ofCode n.code = some n := by cases n <;> rfl
@[simp] theorem cond_code (c : Cond) : Cond.ofCode c.code = c := by cases c <;> rfl
@[simp] theorem fcond_code (c : FCond) : FCond.ofCode c.code = c := by cases c <;> rfl
@[simp] theorem order_code (o : Order) : Order.ofCode o.code = o := by cases o <;> rfl
@[simp] theorem scope_code (o : Scope) : Scope.ofCode o.code = o := by cases o <;> rfl
@[simp] theorem predF_code (p : PredF) : PredF.dec p.enc = p := by
  rcases p with ⟨n, q, i⟩; revert n q i; decide +kernel
@[simp] theorem counter_code (n : Counter) (h : n.ok = true) : Counter.ofCode n.code = some n := by
  cases n with
  | pf1 k => revert k; decide
  | pfl k => revert k; decide
  | evt c => revert c; decide +kernel
  | _ => rfl

/-! ### D fields with two parts, qualifiers, immediates, the atomic word -/

@[simp] theorem d3_field (x : BitVec 3) : (0#5 ++ x).setWidth 3 = x := by revert x; decide +kernel
@[simp] theorem d3_top (x : BitVec 3) : BitVec.extractLsb' 3 5 (0#5 ++ x) = 0 := by revert x; decide +kernel
@[simp] theorem d3_cond (k : BitVec 5) (x : BitVec 3) : BitVec.extractLsb' 3 5 (k ++ x) = k := by revert k x; decide +kernel
@[simp] theorem d3_low (k : BitVec 5) (x : BitVec 3) : (k ++ x).setWidth 3 = x := by revert k x; decide +kernel
@[simp] theorem d4_field (x : BitVec 4) : (0#4 ++ x).setWidth 4 = x := by revert x; decide +kernel
@[simp] theorem d4_small (x : BitVec 4) : (0#4 ++ x).toNat < 16 := by revert x; decide +kernel
@[simp] theorem d2_field (x : BitVec 2) : (0#6 ++ x).setWidth 2 = x := by revert x; decide +kernel
@[simp] theorem d2_small (x : BitVec 2) : (0#6 ++ x).toNat < 4 := by revert x; decide +kernel

@[simp] theorem qualC_scope (o : Order) (s : Scope) (k : BitVec 4) : BitVec.extractLsb' 7 3 (qualC o s k) = s.code := by
  revert k; cases o <;> cases s <;> decide +kernel
@[simp] theorem qualC_order (o : Order) (s : Scope) (k : BitVec 4) : BitVec.extractLsb' 4 3 (qualC o s k) = o.code := by
  revert k; cases o <;> cases s <;> decide +kernel
@[simp] theorem qualC_hint (o : Order) (s : Scope) (k : BitVec 4) : BitVec.extractLsb' 0 4 (qualC o s k) = k := by
  revert k; cases o <;> cases s <;> decide +kernel
@[simp] theorem scope_small (s : Scope) : s.code.toNat ≤ 5 := by cases s <;> decide
@[simp] theorem orders_load (o : Order) : (0x13#8).getLsbD o.code.toNat = o.okLoad := by cases o <;> rfl
@[simp] theorem orders_store (o : Order) : (0x15#8).getLsbD o.code.toNat = o.okStore := by cases o <;> rfl
@[simp] theorem orders_all (o : Order) : (0x1F#8).getLsbD o.code.toNat = true := by cases o <;> rfl
@[simp] theorem orders_red (o : Order) : (0x05#8).getLsbD o.code.toNat = o.okRed := by cases o <;> rfl
@[simp] theorem orders_fence (o : Order) : (0x1E#8).getLsbD o.code.toNat = (o != .rlx) := by cases o <;> rfl
@[simp] theorem orders_wait (o : Order) : (0x03#8).getLsbD o.code.toNat = (o == .rlx || o == .acq) := by cases o <;> rfl
@[simp] theorem orders_arw (o : Order) : (0x0F#8).getLsbD o.code.toNat = (o != .sc) := by cases o <;> rfl
@[simp] theorem hint_low (b : Bool) (k : BitVec 3) : (BitVec.ofBool b ++ k).setWidth 3 = k := by revert b k; decide +kernel
@[simp] theorem hint_top (b : Bool) (k : BitVec 3) : (BitVec.ofBool b ++ k)[3] = b := by revert b k; decide +kernel
@[simp] theorem hint0_low (k : BitVec 3) : (0#1 ++ k).setWidth 3 = k := by revert k; decide +kernel
@[simp] theorem hint0_top (k : BitVec 3) : (0#1 ++ k)[3] = false := by revert k; decide +kernel
@[simp] theorem hints_five (k : BitVec 3) : (0x1F#8).getLsbD k.toNat = decide (k.toNat < 5) := by revert k; decide +kernel

theorem bit_of_append {m n : Nat} (x : BitVec m) (y : BitVec n) (i : Nat) :
    (x ++ y).getLsbD i = if i < n then y.getLsbD i else x.getLsbD (i - n) := by
  rw [BitVec.getLsbD_append]

@[simp] theorem iop_imm_top (k : BitVec 19) : (IOp.imm k).enc[19] = false := by
  rw [← BitVec.getLsbD_eq_getElem]
  have e : (IOp.imm k).enc.getLsbD 19 = BitVec.getLsbD (w := 1 + 19) (0#1 ++ k) 19 := rfl
  rw [e, bit_of_append]; simp
theorem iop_imm_low (k : BitVec 19) : (IOp.imm k).enc.setWidth 19 = k := by
  apply BitVec.eq_of_getLsbD_eq
  intro i hi
  have e : (IOp.imm k).enc.getLsbD i = BitVec.getLsbD (w := 1 + 19) (0#1 ++ k) i := rfl
  rw [BitVec.getLsbD_setWidth, e, bit_of_append]; simp [hi]
theorem iop_src_bit (x : Src) (i : Nat) : (IOp.src x).enc.getLsbD i =
    if i < 11 then x.enc11.getLsbD i else if i < 19 then false else decide (i = 19) := by
  have e : (IOp.src x).enc.getLsbD i = BitVec.getLsbD (w := 1 + 8 + 11) (1#1 ++ 0#8 ++ x.enc11) i := rfl
  rw [e, bit_of_append, bit_of_append]
  split
  · rfl
  · by_cases h : i < 19
    · have h1 : i - 11 < 8 := by omega
      simp [h, h1]
    · have h1 : ¬ i - 11 < 8 := by omega
      simp only [h1, h, if_false]
      rw [BitVec.getLsbD_one]
      simp only [Nat.zero_lt_one, decide_true, Bool.true_and, decide_eq_decide]
      omega
@[simp] theorem iop_src_top (x : Src) : (IOp.src x).enc[19] = true := by
  rw [← BitVec.getLsbD_eq_getElem, iop_src_bit]; rfl
@[simp] theorem iop_src_low (x : Src) : (IOp.src x).enc.setWidth 11 = x.enc11 := by
  apply BitVec.eq_of_getLsbD_eq
  intro i hi
  rw [BitVec.getLsbD_setWidth, iop_src_bit]; simp [hi]
@[simp] theorem iop_src_mid (x : Src) : BitVec.extractLsb' 11 8 (IOp.src x).enc = 0 :=
  bits_eq _ _ _ (fun i hi => by
    rw [iop_src_bit]
    have h1 : ¬ 11 + i < 11 := by omega
    have h2 : 11 + i < 19 := by omega
    simp [h1, h2])

@[simp] theorem iop_code (k : IOp) : IOp.dec k.enc = k := by
  cases k with
  | imm k => simp [IOp.dec, iop_imm_top, iop_imm_low]
  | src x => simp [IOp.dec, iop_src_top]

@[simp] theorem atom_data (a b : BitVec 11) (f : BitVec 3) : BitVec.extractLsb' 0 11 (atomWord a b f) = a :=
  bits_eq _ _ _ (fun i hi => by
    have e : (atomWord a b f).getLsbD (0 + i) = BitVec.getLsbD (w := 7 + 3 + 11 + 11) (0#7 ++ f ++ b ++ a) (0 + i) := rfl
    rw [e]; simp only [BitVec.getLsbD_append]; (repeat' split) <;> first | omega | (congr 1; omega))
@[simp] theorem atom_second (a b : BitVec 11) (f : BitVec 3) : BitVec.extractLsb' 11 11 (atomWord a b f) = b :=
  bits_eq _ _ _ (fun i hi => by
    have e : (atomWord a b f).getLsbD (11 + i) = BitVec.getLsbD (w := 7 + 3 + 11 + 11) (0#7 ++ f ++ b ++ a) (11 + i) := rfl
    rw [e]; simp only [BitVec.getLsbD_append]; (repeat' split) <;> first | omega | (congr 1; omega))
@[simp] theorem atom_fail (a b : BitVec 11) (f : BitVec 3) : BitVec.extractLsb' 22 3 (atomWord a b f) = f :=
  bits_eq _ _ _ (fun i hi => by
    have e : (atomWord a b f).getLsbD (22 + i) = BitVec.getLsbD (w := 7 + 3 + 11 + 11) (0#7 ++ f ++ b ++ a) (22 + i) := rfl
    rw [e]; simp only [BitVec.getLsbD_append]; (repeat' split) <;> first | omega | (congr 1; omega))
@[simp] theorem atom_top (a b : BitVec 11) (f : BitVec 3) : BitVec.extractLsb' 25 7 (atomWord a b f) = 0 :=
  bits_eq _ _ _ (fun i hi => by
    have e : (atomWord a b f).getLsbD (25 + i) = BitVec.getLsbD (w := 7 + 3 + 11 + 11) (0#7 ++ f ++ b ++ a) (25 + i) := rfl
    rw [e]; simp only [BitVec.getLsbD_append]; (repeat' split) <;> first | omega | simp)

/-! ### Small immediates that hold a code -/

@[simp] theorem imm_fits_ty (t : Ty) : Src.immIn 0 11 (.imm (0#2 ++ t.code)) = t.isAll := by cases t <;> rfl
@[simp] theorem imm_fits_f32 (t : Ty) : Src.immIn 4 5 (.imm (0#2 ++ t.code)) = (t == .f32 || t == .f64) := by cases t <;> rfl
@[simp] theorem imm_ty (t : Ty) : Ty.ofCode (BitVec.ofNat 4 (Src.immNat (.imm (0#2 ++ t.code)))) = t := by cases t <;> rfl
@[simp] theorem imm_isImm (i : BitVec 6) : Src.isImm (.imm i) = true := rfl
@[simp] theorem imm_fits2 (j : BitVec 2) : Src.immIn 0 3 (.imm (0#4 ++ j)) = true := by revert j; decide
@[simp] theorem imm_nat2 (j : BitVec 2) : BitVec.ofNat 2 (Src.immNat (.imm (0#4 ++ j))) = j := by revert j; decide
@[simp] theorem imm_fits3 (j : BitVec 3) : Src.immIn 0 7 (.imm (0#3 ++ j)) = true := by revert j; decide
@[simp] theorem imm_nat3 (j : BitVec 3) : BitVec.ofNat 3 (Src.immNat (.imm (0#3 ++ j))) = j := by revert j; decide
@[simp] theorem imm_fits_rnd (m : RndMode) : Src.immIn 0 4 (.imm m.code) = true := by cases m <;> rfl
@[simp] theorem imm_rnd (m : RndMode) : RndMode.ofCode (Src.immNat (.imm m.code)) = m := by cases m <;> rfl
@[simp] theorem imm_fits_xch (m : XchMode) : Src.immIn 0 3 (.imm m.code) = true := by cases m <;> rfl
@[simp] theorem imm_xch (m : XchMode) : XchMode.ofCode (Src.immNat (.imm m.code)) = m := by cases m <;> rfl
@[simp] theorem imm_fits_fold (m : FoldOp) : Src.immIn 0 5 (.imm m.code) = true := by cases m <;> rfl
@[simp] theorem imm_fold (m : FoldOp) : FoldOp.ofCode (Src.immNat (.imm m.code)) = m := by cases m <;> rfl
@[simp] theorem imm_fits_win (m w : BitVec 2) : Src.immIn 0 11 (.imm (0#2 ++ m ++ w)) = (m != 3) := by revert m w; decide
@[simp] theorem imm_win (m w : BitVec 2) : BitVec.ofNat 2 (Src.immNat (.imm (0#2 ++ m ++ w))) = w := by revert m w; decide
@[simp] theorem imm_mode (m w : BitVec 2) : BitVec.ofNat 2 (Src.immNat (.imm (0#2 ++ m ++ w)) / 4) = m := by revert m w; decide
@[simp] theorem imm_fits_m (lo : Int) (m : BitVec 4) : Src.immIn lo 8 (.imm (0#2 ++ m)) = (decide (lo ≤ m.toNat) && decide (m.toNat ≤ 8)) := by
  have h : (0#2 ++ m).toInt = (m.toNat : Int) := by revert m; decide
  simp only [Src.immIn, Src.immVal, h]
  congr 1
  simp <;> omega
@[simp] theorem imm_m (m : BitVec 4) : BitVec.ofNat 4 (Src.immNat (.imm (0#2 ++ m))) = m := by revert m; decide
@[simp] theorem imm_m_fits (m : BitVec 4) : Src.fitsC (.imm (0#2 ++ m)) = true := by revert m; decide
@[simp] theorem code_fitsC_rnd (m : RndMode) : Src.fitsC (.imm m.code) = true := by cases m <;> rfl
@[simp] theorem code_fitsC_xch (m : XchMode) : Src.fitsC (.imm m.code) = true := by cases m <;> rfl
@[simp] theorem code_fitsC_fold (m : FoldOp) : Src.fitsC (.imm m.code) = true := by cases m <;> rfl
@[simp] theorem win_fitsC (m w : BitVec 2) : Src.fitsC (.imm (0#2 ++ m ++ w)) = true ∨ m = 3 ∨ m = 2 := by revert m w; decide
@[simp] theorem x_fitsC (x : BitVec 2) : Src.fitsC (.x x) = true := rfl
@[simp] theorem atm_op (k : AtmOp) : BitVec.extractLsb' 0 4 (0#7 ++ k.code) = k.code := by cases k <;> rfl
@[simp] theorem atm_code (k : AtmOp) : AtmOp.ofCode k.code.toNat = k := by cases k <;> rfl
@[simp] theorem atm_small (k : AtmOp) : k.code.toNat ≤ 6 := by cases k <;> decide

/-! ### Single fields of single forms -/

@[simp] theorem sig_low (x : BitVec 16) : BitVec.setWidth 16 (0#4 ++ x) = x := by
  apply BitVec.eq_of_getLsbD_eq
  intro i hi
  rw [BitVec.getLsbD_setWidth]
  have e : (0#4 ++ x).getLsbD i = BitVec.getLsbD (w := 4 + 16) (0#4 ++ x) i := rfl
  rw [e, bit_of_append]
  simp [hi]
@[simp] theorem sig_top (x : BitVec 16) : BitVec.extractLsb' 16 4 (0#4 ++ x) = 0 :=
  bits_eq _ _ _ (fun i hi => by
    have e : (0#4 ++ x).getLsbD (16 + i) = BitVec.getLsbD (w := 4 + 16) (0#4 ++ x) (16 + i) := rfl
    rw [e, bit_of_append]
    simp)
@[simp] theorem cond_small (c : Cond) : c.code.toNat ≤ 5 := by cases c <;> decide
@[simp] theorem fcond_small (c : FCond) : c.code.toNat ≤ 13 := by cases c <;> decide

theorem v_ne1 (n : BitVec 8) : (Src.v n != Src.lit1) = true := rfl
theorem v_ne64 (n : BitVec 8) : (Src.v n != Src.lit64) = true := rfl
@[simp] theorem lits_v2 (l : Lits) (x : Src) (n : BitVec 8) (xs : List Src) (s : Bool) :
    l.ok (x :: .v n :: xs) s = l.ok (x :: xs) s := by
  cases l <;> simp [Lits.ok, Src.isLit, v_ne1, v_ne64]
@[simp] theorem lits_v3 (l : Lits) (x y : Src) (n : BitVec 8) (xs : List Src) (s : Bool) :
    l.ok (x :: y :: .v n :: xs) s = l.ok (x :: y :: xs) s := by
  cases l <;> simp [Lits.ok, Src.isLit, v_ne1, v_ne64]
theorem imm_ne1 (i : BitVec 6) : (Src.imm i != Src.lit1) = true := rfl
theorem imm_ne64 (i : BitVec 6) : (Src.imm i != Src.lit64) = true := rfl
theorem x_ne1 (n : BitVec 2) : (Src.x n != Src.lit1) = true := rfl
theorem x_ne64 (n : BitVec 2) : (Src.x n != Src.lit64) = true := rfl
@[simp] theorem src10_x (n : BitVec 2) : src10 (Src.x n).enc10 = .x n := src10_enc _ rfl
@[simp] theorem rsv10_x (n : BitVec 2) : rsv10 (Src.x n).enc10 = false := rsv10_enc _ rfl
@[simp] theorem isX_x (n : BitVec 2) : (Src.x n).isX = true := rfl
@[simp] theorem xIndex_x (n : BitVec 2) : (Src.x n).xIndex = n := rfl
@[simp] theorem rlx_code : Order.rlx.code = 0#3 := rfl
@[simp] theorem rlx_zero : Order.ofCode 0#3 = .rlx := rfl
@[simp] theorem imm_no : Src.immIn 0 1 (.imm 0#6) = true := rfl
@[simp] theorem imm_yes : Src.immIn 0 1 (.imm 1#6) = true := rfl
@[simp] theorem nat_no : Src.immNat (.imm 0#6) = 0 := rfl
@[simp] theorem nat_yes : Src.immNat (.imm 1#6) = 1 := rfl
@[simp] theorem hint7_low (k : BitVec 3) : BitVec.setWidth 3 (BitVec.extractLsb' 0 4 (0#7 ++ k)) = k := by revert k; decide
@[simp] theorem hint7_top (k : BitVec 3) : (BitVec.extractLsb' 0 4 (0#7 ++ k))[3] = false := by revert k; decide
@[simp] theorem hint7_order (k : BitVec 3) : BitVec.extractLsb' 4 3 (0#7 ++ k) = 0 := by revert k; decide
@[simp] theorem hint7_scope (k : BitVec 3) : BitVec.extractLsb' 7 3 (0#7 ++ k) = 0 := by revert k; decide
@[simp] theorem hint7_head (k : BitVec 3) : (0#7 ++ k)[3] = false := by revert k; decide
@[simp] theorem order_small (o : Order) : o.code.toNat < 5 := by cases o <;> decide
@[simp] theorem order_small' (o : Order) : o.code.toNat ≤ 4 := by cases o <;> decide
theorem atom_op (a : BitVec 11) (k : BitVec 4) (f : BitVec 3) : BitVec.extractLsb' 11 4 (atomWord a (0#7 ++ k) f) = k :=
  bits_eq _ _ _ (fun i hi => by
    have e : (atomWord a (0#7 ++ k) f).getLsbD (11 + i) =
      BitVec.getLsbD (w := 7 + 3 + (7 + 4) + 11) (0#7 ++ f ++ (0#7 ++ k) ++ a) (11 + i) := rfl
    rw [e]; simp only [BitVec.getLsbD_append]; (repeat' split) <;> first | omega | (congr 1; omega))
@[simp] theorem atom_op_nat (a : BitVec 11) (k : BitVec 4) (f : BitVec 3) :
    BitVec.toNat (atomWord a (0#7 ++ k) f) >>> 11 % 16 = k.toNat := by
  have h := congrArg BitVec.toNat (atom_op a k f)
  rw [BitVec.extractLsb'_toNat] at h
  exact h
@[simp] theorem atom_seven (a : BitVec 11) (k : BitVec 4) (f : BitVec 3) :
    BitVec.extractLsb' 15 7 (atomWord a (0#7 ++ k) f) = 0 :=
  bits_eq _ _ _ (fun i hi => by
    have e : (atomWord a (0#7 ++ k) f).getLsbD (15 + i) =
      BitVec.getLsbD (w := 7 + 3 + (7 + 4) + 11) (0#7 ++ f ++ (0#7 ++ k) ++ a) (15 + i) := rfl
    rw [e]; simp only [BitVec.getLsbD_append]; (repeat' split) <;> first | omega | simp)
@[simp] theorem mk_headA (h : Head) (o : BitVec 10) (t : BitVec 4) (d : BitVec 8) (a b : BitVec 11) (c : BitVec 10)
    (hl : h.lits = .none) : (mk h o t d a b c).headA = h := by
  rcases h with ⟨g, n, i, l⟩
  cases hl
  simp only [Raw.headA, mk, guard_neg, guard_idx]
@[simp] theorem src10_win (m w : BitVec 2) (h : ¬ m = 3#2) : src10 (Src.imm (0#2 ++ m ++ w)).enc10 = .imm (0#2 ++ m ++ w) := by
  revert m w; decide
@[simp] theorem rsv10_win (m w : BitVec 2) (h : ¬ m = 3#2) : rsv10 (Src.imm (0#2 ++ m ++ w)).enc10 = false := by
  revert m w; decide
@[simp] theorem isHandle_h (n : BitVec 4) : (Src.h n).isHandle = true := rfl
@[simp] theorem handle_h (n : BitVec 4) : (Src.h n).handle = n := rfl
@[simp] theorem src11_zero : src11 0#11 = .v 0 := rfl
@[simp] theorem src10_zero : src10 0#10 = .v 0 := rfl
@[simp] theorem rsv10_zero : rsv10 0#10 = false := rfl
@[simp] theorem kind10_zero : kind10 0#10 = false := rfl
theorem int_two_le (n : Nat) : ((2 : Int) ≤ (n : Int)) = (2 ≤ n) := by simp <;> omega
@[simp] theorem ty_twelve : Ty.ofCode 12#4 = .bfp := rfl
theorem slot_lt (x : BitVec 8) : (0#12 ++ x).toNat = x.toNat := by
  show BitVec.toNat (w := 12 + 8) (0#12 ++ x) = x.toNat
  rw [BitVec.toNat_append]
  simp
@[simp] theorem slot_small (x : BitVec 8) : (0#12 ++ x).toNat ≤ 255 := by
  rw [slot_lt]
  have := x.isLt
  omega
@[simp] theorem slot_low (x : BitVec 8) : BitVec.setWidth 8 (0#12 ++ x) = x := by
  apply BitVec.eq_of_toNat_eq
  rw [BitVec.toNat_setWidth, slot_lt]
  exact Nat.mod_eq_of_lt x.isLt
theorem class_lt (x : BitVec 2) : (0#18 ++ x).toNat = x.toNat := by
  show BitVec.toNat (w := 18 + 2) (0#18 ++ x) = x.toNat
  rw [BitVec.toNat_append]
  simp
@[simp] theorem class_small (x : BitVec 2) (h : x.toNat < 3) : (0#18 ++ x).toNat ≤ 2 := by
  rw [class_lt]
  omega
@[simp] theorem class_low (x : BitVec 2) : BitVec.setWidth 2 (0#18 ++ x) = x := by
  apply BitVec.eq_of_toNat_eq
  rw [BitVec.toNat_setWidth, class_lt]
  exact Nat.mod_eq_of_lt x.isLt
@[simp] theorem src10_eight : src10 (Src.imm 8#6).enc10 = .imm 8 := rfl
@[simp] theorem rsv10_eight : rsv10 (Src.imm 8#6).enc10 = false := rfl
@[simp] theorem immIn_eight : Src.immIn 8 8 (.imm 8#6) = true := rfl
@[simp] theorem rsv11_zero : rsv11 0#11 = false := rfl
@[simp] theorem kind11_zero : kind11 0#11 = false := rfl
@[simp] theorem pf5_mask (p : PredF) : BitVec.setWidth 11 (0#5 ++ p.enc) &&& 2016#11 = 0 := by
  rcases p with ⟨n, q, i⟩; revert n q i; decide +kernel
@[simp] theorem pf5_low (p : PredF) : BitVec.setWidth 5 (0#5 ++ p.enc) = p.enc := by
  rcases p with ⟨n, q, i⟩; revert n q i; decide +kernel
@[simp] theorem pf6_mask (p : PredF) : 0#6 ++ p.enc &&& 2016#11 = 0 := by
  rcases p with ⟨n, q, i⟩; revert n q i; decide +kernel
@[simp] theorem pf6_low (p : PredF) : BitVec.setWidth 5 (0#6 ++ p.enc) = p.enc := by
  rcases p with ⟨n, q, i⟩; revert n q i; decide +kernel
theorem pf2_all : ∀ x y : BitVec 5, 0#1 ++ x ++ y &&& 1024#11 = 0 ∧ BitVec.setWidth 5 (0#1 ++ x ++ y) = y
    ∧ BitVec.extractLsb' 5 5 (0#1 ++ x ++ y) = x := by decide +kernel
@[simp] theorem pf2_mask (p q : PredF) : 0#1 ++ p.enc ++ q.enc &&& 1024#11 = 0 := (pf2_all _ _).1
@[simp] theorem pf2_low (p q : PredF) : BitVec.setWidth 5 (0#1 ++ p.enc ++ q.enc) = q.enc := (pf2_all _ _).2.1
@[simp] theorem pf2_high (p q : PredF) : BitVec.extractLsb' 5 5 (0#1 ++ p.enc ++ q.enc) = p.enc := (pf2_all _ _).2.2
@[simp] theorem table_mask (t : BitVec 8) : BitVec.setWidth 11 (0#2 ++ t) &&& 1792#11 = 0 := by revert t; decide +kernel
@[simp] theorem table_low (t : BitVec 8) : BitVec.setWidth 8 (0#2 ++ t) = t := by revert t; decide +kernel
/-- An immediate selects no literal word (R68). -/
@[simp] theorem lits_imm1 (l : Lits) (i : BitVec 6) (xs : List Src) (s : Bool) :
    l.ok (.imm i :: xs) s = l.ok xs s := by
  cases l <;> simp [Lits.ok, Src.isLit, imm_ne1, imm_ne64, x_ne1, x_ne64]
@[simp] theorem lits_imm2 (l : Lits) (x : Src) (i : BitVec 6) (xs : List Src) (s : Bool) :
    l.ok (x :: .imm i :: xs) s = l.ok (x :: xs) s := by
  cases l <;> simp [Lits.ok, Src.isLit, imm_ne1, imm_ne64, x_ne1, x_ne64]
@[simp] theorem lits_imm3 (l : Lits) (x y : Src) (i : BitVec 6) (xs : List Src) (s : Bool) :
    l.ok (x :: y :: .imm i :: xs) s = l.ok (x :: y :: xs) s := by
  cases l <;> simp [Lits.ok, Src.isLit, imm_ne1, imm_ne64, x_ne1, x_ne64]
@[simp] theorem lits_x3 (l : Lits) (x : Src) (n : BitVec 2) (xs : List Src) (s : Bool) :
    l.ok (x :: .x n :: xs) s = l.ok (x :: xs) s := by
  cases l <;> simp [Lits.ok, Src.isLit, imm_ne1, imm_ne64, x_ne1, x_ne64]

@[simp] theorem isLit_v (n : BitVec 8) : (Src.v n).isLit = false := rfl
@[simp] theorem isLit_h (n : BitVec 4) : (Src.h n).isLit = false := rfl
@[simp] theorem isLit_x (n : BitVec 2) : (Src.x n).isLit = false := rfl
@[simp] theorem isLit_imm (i : BitVec 6) : (Src.imm i).isLit = false := rfl
/-- A 10-bit field lies inside its mask. -/
@[simp] theorem c10_mask (c : BitVec 10) : c.setWidth 11 &&& 1024#11 = 0#11 := by
  apply BitVec.eq_of_getLsbD_eq
  intro i hi
  rw [BitVec.getLsbD_and, BitVec.getLsbD_setWidth]
  by_cases h : i < 10
  · have : (1024#11).getLsbD i = false := by
      revert h; revert i; decide
    simp [this]
  · simp [BitVec.getLsbD_of_ge c i (by omega)]

/-- A source that selects no literal is none of the three (R69). -/
@[simp] theorem Src.bne_lit1 {x : Src} (h : x.isLit = false) : (x != Src.lit1) = true := by cases x <;> simp_all [Src.isLit] <;> rfl
@[simp] theorem Src.bne_lit64 {x : Src} (h : x.isLit = false) : (x != Src.lit64) = true := by cases x <;> simp_all [Src.isLit] <;> rfl
@[simp] theorem lits_spare (w : W32) (xs : List Src) :
    (Lits.one w).ok xs true = xs.all (fun x => x != .lit1 && x != .lit64) := by simp [Lits.ok]
@[simp] theorem lits_none (xs : List Src) (s : Bool) : Lits.none.ok xs s = xs.all (fun x => !x.isLit) := rfl

/-! ### The checks (R86) -/

theorem decodeRaw_ok (f : Form) (r : Raw) (hf : formOf r.opc.toNat = some f) (hl : f.failing false r = []) :
    decodeRaw false r = .ok (f.build r) := by
  simp [decodeRaw, hf, hl, lowest]

/-- A form none of whose checks fails. -/
theorem failing_nil (f : Form) (r : Raw) (h1 : f.tys.getLsbD r.ty.toNat = true) (h2 : (r.g = true → f.g1 = true) ∧ (r.g = false → f.g0 = true))
    (h3 : f.resOk false r = true) (h4 : f.rsvOk r = true) (h5 : f.kindBad r = false)
    (h6 : f.lits r = true) (h7 : f.srcBad r = false) (h8 : f.qualBad r = false) (h9 : f.hintBad r = false)
    (h10 : ∀ p ∈ f.extra r, p.2 = false) : f.failing false r = [] := by
  have hg : (if r.g then false || !f.g1 else !f.g0) = false := by cases hg : r.g <;> simp_all
  have hx : (f.extra r).filterMap (fun (p : Nat × Bool) => if p.2 then some p.1 else none) = [] := by
    rw [List.filterMap_eq_nil_iff]
    intro p hp
    simp [h10 p hp]
  unfold Form.failing
  simp only [Bool.false_eq_true, if_false, List.append_nil, List.filterMap_append, hx]
  simp only [h1, hg, h3, h4, h5, h6, h7, h8, h9]
  rfl

end Sys2Proof
end

