-- ==== Sys2Proof/Laws/PerInstr.lean ====
section
/-! SUPPORT. For every instruction: decoding its encoding gives it back (R60, R64 to R70, R83 to R86). -/
set_option linter.unusedSimpArgs false

namespace Sys2Proof

/-- Decoding the words of a well-formed instruction, whatever follows them, gives the instruction. -/
def Laws.Encoding.Statement (i : Instr) : Prop :=
  Instr.wf i = true → ∀ ws, encode i = some ws → ∀ rest, decode false (ws ++ rest) = .ok i

theorem encodes_of (i : Instr) (r : Raw) (f : Form) (hr : encode i = some r.words) (hf : formOf r.opc.toNat = some f)
    (hl : Instr.wf i = true → f.failing false r = []) (hb : Instr.wf i = true → f.build r = i) : Laws.Encoding.Statement i := by
  intro hw ws he rest
  rw [hr] at he
  cases he
  rw [decode_words, decodeRaw_ok f r hf (hl hw), hb hw]

theorem filler_encodes : Laws.Encoding.Statement .filler := by
  intro _ ws he rest
  cases he
  rfl

/-- A step of the device has no encoding. -/
theorem event_encodes (i : Instr) (h : encode i = none) : Laws.Encoding.Statement i := by
  intro _ ws he
  rw [h] at he
  cases he

theorem Laws.Encoding.filler :
    Laws.Encoding.Statement (.filler) := filler_encodes

theorem Laws.Encoding.nop (h : Head) :
    Laws.Encoding.Statement (.nop h) := by
  refine encodes_of _ (mk h 0x000 0 0 0 0 0) _ rfl rfl (fun hw => ?_) (fun hw => ?_)
  all_goals replace hw : (h.bare) = true := hw
  all_goals (cases hg : h.g <;> simp [hg, intOk, int3Ok, abOk, abcOk, Head.bare, IOp.srcs] at hw)
  all_goals first
    | (refine failing_nil _ _ ?_ ?_ ?_ ?_ ?_ ?_ ?_ ?_ ?_ ?_ <;> simp_all)
    | simp_all

theorem Laws.Encoding.bra (h : Head) (f : BitVec 20) :
    Laws.Encoding.Statement (.bra h f) := by
  refine encodes_of _ (mkF h 0x001 0 0 0 f) _ rfl rfl (fun hw => ?_) (fun hw => ?_)
  all_goals replace hw : (h.bare) = true := hw
  all_goals (cases hg : h.g <;> simp [hg, intOk, int3Ok, abOk, abcOk, Head.bare, IOp.srcs] at hw)
  all_goals first
    | (refine failing_nil _ _ ?_ ?_ ?_ ?_ ?_ ?_ ?_ ?_ ?_ ?_ <;> simp_all)
    | simp_all

theorem Laws.Encoding.jmp (h : Head) (a : Src) (b : Src) :
    Laws.Encoding.Statement (.jmp h a b) := by
  refine encodes_of _ (mk h 0x002 0 0 a.enc11 b.enc11 0) _ rfl rfl (fun hw => ?_) (fun hw => ?_)
  all_goals replace hw : (abOk h [(a, .w64), (b, .w32)]) = true := hw
  all_goals (cases hg : h.g <;> simp [hg, intOk, int3Ok, abOk, abcOk, Head.bare, IOp.srcs] at hw)
  all_goals first
    | (refine failing_nil _ _ ?_ ?_ ?_ ?_ ?_ ?_ ?_ ?_ ?_ ?_ <;> simp_all)
    | simp_all

theorem Laws.Encoding.call (h : Head) (d : BitVec 8) (f : BitVec 20) :
    Laws.Encoding.Statement (.call h d f) := by
  refine encodes_of _ (mkF h 0x003 0 d 0 f) _ rfl rfl (fun hw => ?_) (fun hw => ?_)
  all_goals replace hw : (h.bare && dataOk h.g true d) = true := hw
  all_goals (cases hg : h.g <;> simp [hg, intOk, int3Ok, abOk, abcOk, Head.bare, IOp.srcs] at hw)
  all_goals first
    | (refine failing_nil _ _ ?_ ?_ ?_ ?_ ?_ ?_ ?_ ?_ ?_ ?_ <;> simp_all)
    | simp_all

theorem Laws.Encoding.ret (h : Head) (a : Src) :
    Laws.Encoding.Statement (.ret h a) := by
  refine encodes_of _ (mk h 0x004 0 0 a.enc11 0 0) _ rfl rfl (fun hw => ?_) (fun hw => ?_)
  all_goals replace hw : (h.bare && abOk h [(a, .w64)]) = true := hw
  all_goals (cases hg : h.g <;> simp [hg, intOk, int3Ok, abOk, abcOk, Head.bare, IOp.srcs] at hw)
  all_goals (obtain ⟨hl, hk, ha⟩ := hw; simp [hl] at ha)
  all_goals first
    | (refine failing_nil _ _ ?_ ?_ ?_ ?_ ?_ ?_ ?_ ?_ ?_ ?_ <;> simp_all)
    | simp_all

theorem Laws.Encoding.exit (h : Head) :
    Laws.Encoding.Statement (.exit h) := by
  refine encodes_of _ (mk h 0x005 0 0 0 0 0) _ rfl rfl (fun hw => ?_) (fun hw => ?_)
  all_goals replace hw : (h.bare) = true := hw
  all_goals (cases hg : h.g <;> simp [hg, intOk, int3Ok, abOk, abcOk, Head.bare, IOp.srcs] at hw)
  all_goals first
    | (refine failing_nil _ _ ?_ ?_ ?_ ?_ ?_ ?_ ?_ ?_ ?_ ?_ <;> simp_all)
    | simp_all

theorem Laws.Encoding.rejoin (h : Head) (a : Src) (b : Src) :
    Laws.Encoding.Statement (.rejoin h a b) := by
  refine encodes_of _ (mk h 0x006 0 0 a.enc11 b.enc11 0) _ rfl rfl (fun hw => ?_) (fun hw => ?_)
  all_goals replace hw : (!h.g && abOk h [(a, .uni64), (b, .uni64)]) = true := hw
  all_goals (cases hg : h.g <;> simp [hg, intOk, int3Ok, abOk, abcOk, Head.bare, IOp.srcs] at hw)
  all_goals first
    | (refine failing_nil _ _ ?_ ?_ ?_ ?_ ?_ ?_ ?_ ?_ ?_ ?_ <;> simp_all)
    | simp_all

theorem Laws.Encoding.trap (h : Head) (n : BitVec 20) :
    Laws.Encoding.Statement (.trap h n) := by
  refine encodes_of _ (mkF h 0x007 0 0 0 n) _ rfl rfl (fun hw => ?_) (fun hw => ?_)
  all_goals replace hw : (h.bare) = true := hw
  all_goals (cases hg : h.g <;> simp [hg, intOk, int3Ok, abOk, abcOk, Head.bare, IOp.srcs] at hw)
  all_goals first
    | (refine failing_nil _ _ ?_ ?_ ?_ ?_ ?_ ?_ ?_ ?_ ?_ ?_ <;> simp_all)
    | simp_all

theorem Laws.Encoding.sysc (h : Head) (n : BitVec 20) :
    Laws.Encoding.Statement (.sysc h n) := by
  refine encodes_of _ (mkF h 0x008 0 0 0 n) _ rfl rfl (fun hw => ?_) (fun hw => ?_)
  all_goals replace hw : (h.bare) = true := hw
  all_goals (cases hg : h.g <;> simp [hg, intOk, int3Ok, abOk, abcOk, Head.bare, IOp.srcs] at hw)
  all_goals first
    | (refine failing_nil _ _ ?_ ?_ ?_ ?_ ?_ ?_ ?_ ?_ ?_ ?_ <;> simp_all)
    | simp_all

theorem Laws.Encoding.bkpt (h : Head) (n : BitVec 20) :
    Laws.Encoding.Statement (.bkpt h n) := by
  refine encodes_of _ (mkF h 0x00A 0 0 0 n) _ rfl rfl (fun hw => ?_) (fun hw => ?_)
  all_goals replace hw : (h.bare) = true := hw
  all_goals (cases hg : h.g <;> simp [hg, intOk, int3Ok, abOk, abcOk, Head.bare, IOp.srcs] at hw)
  all_goals first
    | (refine failing_nil _ _ ?_ ?_ ?_ ?_ ?_ ?_ ?_ ?_ ?_ ?_ <;> simp_all)
    | simp_all

theorem Laws.Encoding.eret (h : Head) :
    Laws.Encoding.Statement (.eret h) := by
  refine encodes_of _ (mk h 0x009 0 0 (Src.imm 0).enc11 0 0) _ rfl rfl (fun hw => ?_) (fun hw => ?_)
  all_goals replace hw : (h.bare) = true := hw
  all_goals (cases hg : h.g <;> simp [hg, intOk, int3Ok, abOk, abcOk, Head.bare, IOp.srcs] at hw)
  all_goals first
    | (refine failing_nil _ _ ?_ ?_ ?_ ?_ ?_ ?_ ?_ ?_ ?_ ?_ <;> simp_all)
    | simp_all

theorem Laws.Encoding.eretExit (h : Head) :
    Laws.Encoding.Statement (.eretExit h) := by
  refine encodes_of _ (mk h 0x009 0 0 (Src.imm 1).enc11 0 0) _ rfl rfl (fun hw => ?_) (fun hw => ?_)
  all_goals replace hw : (h.bare) = true := hw
  all_goals (cases hg : h.g <;> simp [hg, intOk, int3Ok, abOk, abcOk, Head.bare, IOp.srcs] at hw)
  all_goals first
    | (refine failing_nil _ _ ?_ ?_ ?_ ?_ ?_ ?_ ?_ ?_ ?_ ?_ <;> simp_all)
    | simp_all

theorem Laws.Encoding.sigchk (h : Head) (sig : BitVec 16) :
    Laws.Encoding.Statement (.sigchk h sig) := by
  refine encodes_of _ (mkF h 0x00B 0 0 0 (0#4 ++ sig)) _ rfl rfl (fun hw => ?_) (fun hw => ?_)
  all_goals replace hw : (h.bare) = true := hw
  all_goals (cases hg : h.g <;> simp [hg, intOk, int3Ok, abOk, abcOk, Head.bare, IOp.srcs] at hw)
  all_goals first
    | (refine failing_nil _ _ ?_ ?_ ?_ ?_ ?_ ?_ ?_ ?_ ?_ ?_ <;> simp_all)
    | simp_all

theorem Laws.Encoding.rgn (h : Head) :
    Laws.Encoding.Statement (.rgn h) := by
  refine encodes_of _ (mk h 0x00C 0 0 0 0 0) _ rfl rfl (fun hw => ?_) (fun hw => ?_)
  all_goals replace hw : (h.bare) = true := hw
  all_goals (cases hg : h.g <;> simp [hg, intOk, int3Ok, abOk, abcOk, Head.bare, IOp.srcs] at hw)
  all_goals first
    | (refine failing_nil _ _ ?_ ?_ ?_ ?_ ?_ ?_ ?_ ?_ ?_ ?_ <;> simp_all)
    | simp_all

theorem Laws.Encoding.srd (h : Head) (ty : Ty) (r : Res) (n : SysReg) :
    Laws.Encoding.Statement (.srd h ty r n) := by
  refine encodes_of _ ((mkF h 0x00D ty.code r.d 0 n.code).withRes r) _ rfl rfl (fun hw => ?_) (fun hw => ?_)
  all_goals replace hw : (h.bare && (ty == .i32 || ty == .i64) && r.ok h.g ty.is64 && n != .pgwatch && !(h.g && n.perThread)) = true := hw
  all_goals (cases hg : h.g <;> simp [hg, intOk, int3Ok, abOk, abcOk, Head.bare, IOp.srcs] at hw)
  all_goals first
    | (refine failing_nil _ _ ?_ ?_ ?_ ?_ ?_ ?_ ?_ ?_ ?_ ?_ <;> simp_all [srdChecks, SysReg.perThread, SysReg.plainWrite])
    | (simp_all [srdChecks, SysReg.perThread, SysReg.plainWrite])

theorem Laws.Encoding.swr (h : Head) (ty : Ty) (a : Src) (n : SysReg) :
    Laws.Encoding.Statement (.swr h ty a n) := by
  refine encodes_of _ (mkF h 0x00E ty.code 0 a.enc11 n.code) _ rfl rfl (fun hw => ?_) (fun hw => ?_)
  all_goals replace hw : ((ty == .i32 || ty == .i64) && n.plainWrite && abOk h [(a, ty.use)]) = true := hw
  all_goals cases n
  all_goals (cases hg : h.g <;> simp [hg, intOk, int3Ok, abOk, abcOk, Head.bare, IOp.srcs] at hw)
  all_goals first
    | (refine failing_nil _ _ ?_ ?_ ?_ ?_ ?_ ?_ ?_ ?_ ?_ ?_ <;> simp_all [swrChecks, buildSwr, SysReg.perThread, SysReg.plainWrite])
    | (simp_all [swrChecks, buildSwr, SysReg.perThread, SysReg.plainWrite])

theorem Laws.Encoding.swrPgwatch (h : Head) (ty : Ty) (a : Src) :
    Laws.Encoding.Statement (.swrPgwatch h ty a) := by
  refine encodes_of _ (mkF h 0x00E ty.code 0 a.enc11 SysReg.pgwatch.code) _ rfl rfl (fun hw => ?_) (fun hw => ?_)
  all_goals replace hw : ((ty == .i32 || ty == .i64) && !h.g && abOk h [(a, ty.use)]) = true := hw
  all_goals (cases hg : h.g <;> simp [hg, intOk, int3Ok, abOk, abcOk, Head.bare, IOp.srcs] at hw)
  all_goals first
    | (refine failing_nil _ _ ?_ ?_ ?_ ?_ ?_ ?_ ?_ ?_ ?_ ?_ <;> simp_all [swrChecks, buildSwr])
    | (simp_all [swrChecks, buildSwr])

theorem Laws.Encoding.swrRgnpc (h : Head) (ty : Ty) (a : Src) :
    Laws.Encoding.Statement (.swrRgnpc h ty a) := by
  refine encodes_of _ (mkF h 0x00E ty.code 0 a.enc11 SysReg.rgnpc.code) _ rfl rfl (fun hw => ?_) (fun hw => ?_)
  all_goals replace hw : ((ty == .i32 || ty == .i64) && abOk h [(a, ty.use)]) = true := hw
  all_goals (cases hg : h.g <;> simp [hg, intOk, int3Ok, abOk, abcOk, Head.bare, IOp.srcs] at hw)
  all_goals first
    | (refine failing_nil _ _ ?_ ?_ ?_ ?_ ?_ ?_ ?_ ?_ ?_ ?_ <;> simp_all [swrChecks, buildSwr, SysReg.perThread, SysReg.plainWrite])
    | (simp_all [swrChecks, buildSwr, SysReg.perThread, SysReg.plainWrite])

theorem Laws.Encoding.tevict (h : Head) (a : Src) :
    Laws.Encoding.Statement (.tevict h a) := by
  refine encodes_of _ (mk h 0x00F 0 0 a.enc11 0 0) _ rfl rfl (fun hw => ?_) (fun hw => ?_)
  all_goals replace hw : (h.g && abOk h [(a, .w64)]) = true := hw
  all_goals (cases hg : h.g <;> simp [hg, intOk, int3Ok, abOk, abcOk, Head.bare, IOp.srcs] at hw)
  all_goals first
    | (refine failing_nil _ _ ?_ ?_ ?_ ?_ ?_ ?_ ?_ ?_ ?_ ?_ <;> simp_all)
    | simp_all

theorem Laws.Encoding.add (h : Head) (ty : Ty) (r : Res) (a : Src) (b : Src) :
    Laws.Encoding.Statement (.add h ty r a b) := by
  refine encodes_of _ ((mk h 0x040 ty.code r.d a.enc11 b.enc11 0).withRes r) _ rfl rfl (fun hw => ?_) (fun hw => ?_)
  all_goals replace hw : (intOk ty.isInt h ty r [a, b]) = true := hw
  all_goals (cases hg : h.g <;> simp [hg, intOk, int3Ok, abOk, abcOk, Head.bare, IOp.srcs] at hw)
  all_goals first
    | (refine failing_nil _ _ ?_ ?_ ?_ ?_ ?_ ?_ ?_ ?_ ?_ ?_ <;> simp_all)
    | simp_all

theorem Laws.Encoding.sub (h : Head) (ty : Ty) (r : Res) (a : Src) (b : Src) :
    Laws.Encoding.Statement (.sub h ty r a b) := by
  refine encodes_of _ ((mk h 0x041 ty.code r.d a.enc11 b.enc11 0).withRes r) _ rfl rfl (fun hw => ?_) (fun hw => ?_)
  all_goals replace hw : (intOk ty.isInt h ty r [a, b]) = true := hw
  all_goals (cases hg : h.g <;> simp [hg, intOk, int3Ok, abOk, abcOk, Head.bare, IOp.srcs] at hw)
  all_goals first
    | (refine failing_nil _ _ ?_ ?_ ?_ ?_ ?_ ?_ ?_ ?_ ?_ ?_ <;> simp_all)
    | simp_all

theorem Laws.Encoding.mul (h : Head) (ty : Ty) (r : Res) (a : Src) (b : Src) :
    Laws.Encoding.Statement (.mul h ty r a b) := by
  refine encodes_of _ ((mk h 0x042 ty.code r.d a.enc11 b.enc11 0).withRes r) _ rfl rfl (fun hw => ?_) (fun hw => ?_)
  all_goals replace hw : (intOk ty.isInt h ty r [a, b]) = true := hw
  all_goals (cases hg : h.g <;> simp [hg, intOk, int3Ok, abOk, abcOk, Head.bare, IOp.srcs] at hw)
  all_goals first
    | (refine failing_nil _ _ ?_ ?_ ?_ ?_ ?_ ?_ ?_ ?_ ?_ ?_ <;> simp_all)
    | simp_all

theorem Laws.Encoding.mulh (h : Head) (ty : Ty) (r : Res) (a : Src) (b : Src) :
    Laws.Encoding.Statement (.mulh h ty r a b) := by
  refine encodes_of _ ((mk h 0x043 ty.code r.d a.enc11 b.enc11 0).withRes r) _ rfl rfl (fun hw => ?_) (fun hw => ?_)
  all_goals replace hw : (intOk ty.isW h ty r [a, b]) = true := hw
  all_goals (cases hg : h.g <;> simp [hg, intOk, int3Ok, abOk, abcOk, Head.bare, IOp.srcs] at hw)
  all_goals first
    | (refine failing_nil _ _ ?_ ?_ ?_ ?_ ?_ ?_ ?_ ?_ ?_ ?_ <;> simp_all)
    | simp_all

theorem Laws.Encoding.mad (h : Head) (ty : Ty) (r : Res) (a : Src) (b : Src) (c : Src) :
    Laws.Encoding.Statement (.mad h ty r a b c) := by
  refine encodes_of _ ((mk h 0x044 ty.code r.d a.enc11 b.enc11 c.enc10).withRes r) _ rfl rfl (fun hw => ?_) (fun hw => ?_)
  all_goals replace hw : (int3Ok ty.isInt h ty r a b c) = true := hw
  all_goals (cases hg : h.g <;> simp [hg, intOk, int3Ok, abOk, abcOk, Head.bare, IOp.srcs] at hw)
  all_goals first
    | (refine failing_nil _ _ ?_ ?_ ?_ ?_ ?_ ?_ ?_ ?_ ?_ ?_ <;> simp_all)
    | simp_all

theorem Laws.Encoding.madw (h : Head) (ty : Ty) (r : Res) (a : Src) (b : Src) (c : Src) :
    Laws.Encoding.Statement (.madw h ty r a b c) := by
  refine encodes_of _ ((mk h 0x045 ty.code r.d a.enc11 b.enc11 c.enc10).withRes r) _ rfl rfl (fun hw => ?_) (fun hw => ?_)
  all_goals replace hw : ((ty == .i32 || ty == .n32) && r.ok h.g true && abcOk h [(a, .w32), (b, .w32)] c .w64) = true := hw
  all_goals (cases hg : h.g <;> simp [hg, intOk, int3Ok, abOk, abcOk, Head.bare, IOp.srcs] at hw)
  all_goals first
    | (refine failing_nil _ _ ?_ ?_ ?_ ?_ ?_ ?_ ?_ ?_ ?_ ?_ <;> simp_all)
    | simp_all

theorem Laws.Encoding.div (h : Head) (ty : Ty) (r : Res) (a : Src) (b : Src) :
    Laws.Encoding.Statement (.div h ty r a b) := by
  refine encodes_of _ ((mk h 0x046 ty.code r.d a.enc11 b.enc11 0).withRes r) _ rfl rfl (fun hw => ?_) (fun hw => ?_)
  all_goals replace hw : (intOk ty.isW h ty r [a, b]) = true := hw
  all_goals (cases hg : h.g <;> simp [hg, intOk, int3Ok, abOk, abcOk, Head.bare, IOp.srcs] at hw)
  all_goals first
    | (refine failing_nil _ _ ?_ ?_ ?_ ?_ ?_ ?_ ?_ ?_ ?_ ?_ <;> simp_all)
    | simp_all

theorem Laws.Encoding.rem (h : Head) (ty : Ty) (r : Res) (a : Src) (b : Src) :
    Laws.Encoding.Statement (.rem h ty r a b) := by
  refine encodes_of _ ((mk h 0x047 ty.code r.d a.enc11 b.enc11 0).withRes r) _ rfl rfl (fun hw => ?_) (fun hw => ?_)
  all_goals replace hw : (intOk ty.isW h ty r [a, b]) = true := hw
  all_goals (cases hg : h.g <;> simp [hg, intOk, int3Ok, abOk, abcOk, Head.bare, IOp.srcs] at hw)
  all_goals first
    | (refine failing_nil _ _ ?_ ?_ ?_ ?_ ?_ ?_ ?_ ?_ ?_ ?_ <;> simp_all)
    | simp_all

theorem Laws.Encoding.abs (h : Head) (ty : Ty) (r : Res) (a : Src) :
    Laws.Encoding.Statement (.abs h ty r a) := by
  refine encodes_of _ ((mk h 0x048 ty.code r.d a.enc11 0 0).withRes r) _ rfl rfl (fun hw => ?_) (fun hw => ?_)
  all_goals replace hw : (intOk ty.isInt h ty r [a]) = true := hw
  all_goals (cases hg : h.g <;> simp [hg, intOk, int3Ok, abOk, abcOk, Head.bare, IOp.srcs] at hw)
  all_goals first
    | (refine failing_nil _ _ ?_ ?_ ?_ ?_ ?_ ?_ ?_ ?_ ?_ ?_ <;> simp_all)
    | simp_all

theorem Laws.Encoding.neg (h : Head) (ty : Ty) (r : Res) (a : Src) :
    Laws.Encoding.Statement (.neg h ty r a) := by
  refine encodes_of _ ((mk h 0x049 ty.code r.d a.enc11 0 0).withRes r) _ rfl rfl (fun hw => ?_) (fun hw => ?_)
  all_goals replace hw : (intOk ty.isInt h ty r [a]) = true := hw
  all_goals (cases hg : h.g <;> simp [hg, intOk, int3Ok, abOk, abcOk, Head.bare, IOp.srcs] at hw)
  all_goals first
    | (refine failing_nil _ _ ?_ ?_ ?_ ?_ ?_ ?_ ?_ ?_ ?_ ?_ <;> simp_all)
    | simp_all

theorem Laws.Encoding.min (h : Head) (ty : Ty) (r : Res) (a : Src) (b : Src) :
    Laws.Encoding.Statement (.min h ty r a b) := by
  refine encodes_of _ ((mk h 0x04a ty.code r.d a.enc11 b.enc11 0).withRes r) _ rfl rfl (fun hw => ?_) (fun hw => ?_)
  all_goals replace hw : (intOk ty.isInt h ty r [a, b]) = true := hw
  all_goals (cases hg : h.g <;> simp [hg, intOk, int3Ok, abOk, abcOk, Head.bare, IOp.srcs] at hw)
  all_goals first
    | (refine failing_nil _ _ ?_ ?_ ?_ ?_ ?_ ?_ ?_ ?_ ?_ ?_ <;> simp_all)
    | simp_all

theorem Laws.Encoding.max (h : Head) (ty : Ty) (r : Res) (a : Src) (b : Src) :
    Laws.Encoding.Statement (.max h ty r a b) := by
  refine encodes_of _ ((mk h 0x04b ty.code r.d a.enc11 b.enc11 0).withRes r) _ rfl rfl (fun hw => ?_) (fun hw => ?_)
  all_goals replace hw : (intOk ty.isInt h ty r [a, b]) = true := hw
  all_goals (cases hg : h.g <;> simp [hg, intOk, int3Ok, abOk, abcOk, Head.bare, IOp.srcs] at hw)
  all_goals first
    | (refine failing_nil _ _ ?_ ?_ ?_ ?_ ?_ ?_ ?_ ?_ ?_ ?_ <;> simp_all)
    | simp_all

theorem Laws.Encoding.clamp (h : Head) (ty : Ty) (r : Res) (a : Src) (b : Src) (c : Src) :
    Laws.Encoding.Statement (.clamp h ty r a b c) := by
  refine encodes_of _ ((mk h 0x04c ty.code r.d a.enc11 b.enc11 c.enc10).withRes r) _ rfl rfl (fun hw => ?_) (fun hw => ?_)
  all_goals replace hw : (int3Ok ty.isInt h ty r a b c) = true := hw
  all_goals (cases hg : h.g <;> simp [hg, intOk, int3Ok, abOk, abcOk, Head.bare, IOp.srcs] at hw)
  all_goals first
    | (refine failing_nil _ _ ?_ ?_ ?_ ?_ ?_ ?_ ?_ ?_ ?_ ?_ <;> simp_all)
    | simp_all

theorem Laws.Encoding.lea (h : Head) (ty : Ty) (r : Res) (a : Src) (b : Src) (c : Src) :
    Laws.Encoding.Statement (.lea h ty r a b c) := by
  refine encodes_of _ ((mk h 0x04d ty.code r.d a.enc11 b.enc11 c.enc10).withRes r) _ rfl rfl (fun hw => ?_) (fun hw => ?_)
  all_goals replace hw : ((ty == .i64 || ty == .n64) && r.ok h.g true && abcOk h [(a, .w64), (b, .w32)] c .w32) = true := hw
  all_goals (cases hg : h.g <;> simp [hg, intOk, int3Ok, abOk, abcOk, Head.bare, IOp.srcs] at hw)
  all_goals first
    | (refine failing_nil _ _ ?_ ?_ ?_ ?_ ?_ ?_ ?_ ?_ ?_ ?_ <;> simp_all)
    | simp_all

theorem Laws.Encoding.addc (h : Head) (ty : Ty) (r : Res) (a : Src) (b : Src) (c : Src) :
    Laws.Encoding.Statement (.addc h ty r a b c) := by
  refine encodes_of _ ((mk h 0x04e ty.code r.d a.enc11 b.enc11 c.enc10).withRes r) _ rfl rfl (fun hw => ?_) (fun hw => ?_)
  all_goals replace hw : (int3Ok ty.isW h ty r a b c) = true := hw
  all_goals (cases hg : h.g <;> simp [hg, intOk, int3Ok, abOk, abcOk, Head.bare, IOp.srcs] at hw)
  all_goals first
    | (refine failing_nil _ _ ?_ ?_ ?_ ?_ ?_ ?_ ?_ ?_ ?_ ?_ <;> simp_all)
    | simp_all

theorem Laws.Encoding.subb (h : Head) (ty : Ty) (r : Res) (a : Src) (b : Src) (c : Src) :
    Laws.Encoding.Statement (.subb h ty r a b c) := by
  refine encodes_of _ ((mk h 0x04f ty.code r.d a.enc11 b.enc11 c.enc10).withRes r) _ rfl rfl (fun hw => ?_) (fun hw => ?_)
  all_goals replace hw : (int3Ok ty.isW h ty r a b c) = true := hw
  all_goals (cases hg : h.g <;> simp [hg, intOk, int3Ok, abOk, abcOk, Head.bare, IOp.srcs] at hw)
  all_goals first
    | (refine failing_nil _ _ ?_ ?_ ?_ ?_ ?_ ?_ ?_ ?_ ?_ ?_ <;> simp_all)
    | simp_all

theorem Laws.Encoding.and (h : Head) (ty : Ty) (r : Res) (a : Src) (b : Src) :
    Laws.Encoding.Statement (.and h ty r a b) := by
  refine encodes_of _ ((mk h 0x080 ty.code r.d a.enc11 b.enc11 0).withRes r) _ rfl rfl (fun hw => ?_) (fun hw => ?_)
  all_goals replace hw : (intOk ty.isW h ty r [a, b]) = true := hw
  all_goals (cases hg : h.g <;> simp [hg, intOk, int3Ok, abOk, abcOk, Head.bare, IOp.srcs] at hw)
  all_goals first
    | (refine failing_nil _ _ ?_ ?_ ?_ ?_ ?_ ?_ ?_ ?_ ?_ ?_ <;> simp_all)
    | simp_all

theorem Laws.Encoding.or (h : Head) (ty : Ty) (r : Res) (a : Src) (b : Src) :
    Laws.Encoding.Statement (.or h ty r a b) := by
  refine encodes_of _ ((mk h 0x081 ty.code r.d a.enc11 b.enc11 0).withRes r) _ rfl rfl (fun hw => ?_) (fun hw => ?_)
  all_goals replace hw : (intOk ty.isW h ty r [a, b]) = true := hw
  all_goals (cases hg : h.g <;> simp [hg, intOk, int3Ok, abOk, abcOk, Head.bare, IOp.srcs] at hw)
  all_goals first
    | (refine failing_nil _ _ ?_ ?_ ?_ ?_ ?_ ?_ ?_ ?_ ?_ ?_ <;> simp_all)
    | simp_all

theorem Laws.Encoding.xor (h : Head) (ty : Ty) (r : Res) (a : Src) (b : Src) :
    Laws.Encoding.Statement (.xor h ty r a b) := by
  refine encodes_of _ ((mk h 0x082 ty.code r.d a.enc11 b.enc11 0).withRes r) _ rfl rfl (fun hw => ?_) (fun hw => ?_)
  all_goals replace hw : (intOk ty.isW h ty r [a, b]) = true := hw
  all_goals (cases hg : h.g <;> simp [hg, intOk, int3Ok, abOk, abcOk, Head.bare, IOp.srcs] at hw)
  all_goals first
    | (refine failing_nil _ _ ?_ ?_ ?_ ?_ ?_ ?_ ?_ ?_ ?_ ?_ <;> simp_all)
    | simp_all

theorem Laws.Encoding.andn (h : Head) (ty : Ty) (r : Res) (a : Src) (b : Src) :
    Laws.Encoding.Statement (.andn h ty r a b) := by
  refine encodes_of _ ((mk h 0x083 ty.code r.d a.enc11 b.enc11 0).withRes r) _ rfl rfl (fun hw => ?_) (fun hw => ?_)
  all_goals replace hw : (intOk ty.isW h ty r [a, b]) = true := hw
  all_goals (cases hg : h.g <;> simp [hg, intOk, int3Ok, abOk, abcOk, Head.bare, IOp.srcs] at hw)
  all_goals first
    | (refine failing_nil _ _ ?_ ?_ ?_ ?_ ?_ ?_ ?_ ?_ ?_ ?_ <;> simp_all)
    | simp_all

theorem Laws.Encoding.not (h : Head) (ty : Ty) (r : Res) (a : Src) :
    Laws.Encoding.Statement (.not h ty r a) := by
  refine encodes_of _ ((mk h 0x084 ty.code r.d a.enc11 0 0).withRes r) _ rfl rfl (fun hw => ?_) (fun hw => ?_)
  all_goals replace hw : (intOk ty.isW h ty r [a]) = true := hw
  all_goals (cases hg : h.g <;> simp [hg, intOk, int3Ok, abOk, abcOk, Head.bare, IOp.srcs] at hw)
  all_goals first
    | (refine failing_nil _ _ ?_ ?_ ?_ ?_ ?_ ?_ ?_ ?_ ?_ ?_ <;> simp_all)
    | simp_all

theorem Laws.Encoding.shl (h : Head) (ty : Ty) (r : Res) (a : Src) (n : IOp) :
    Laws.Encoding.Statement (.shl h ty r a n) := by
  refine encodes_of _ ((mkF h 0x085 ty.code r.d a.enc11 n.enc).withRes r) _ rfl rfl (fun hw => ?_) (fun hw => ?_)
  all_goals replace hw : (ty.isW && r.ok h.g ty.is64 && abOk h ((a, ty.use) :: n.srcs)) = true := hw
  all_goals cases n
  all_goals (cases hg : h.g <;> simp [hg, intOk, int3Ok, abOk, abcOk, Head.bare, IOp.srcs] at hw)
  all_goals first
    | (refine failing_nil _ _ ?_ ?_ ?_ ?_ ?_ ?_ ?_ ?_ ?_ ?_ <;> simp_all)
    | simp_all

theorem Laws.Encoding.shr (h : Head) (ty : Ty) (r : Res) (a : Src) (n : IOp) :
    Laws.Encoding.Statement (.shr h ty r a n) := by
  refine encodes_of _ ((mkF h 0x086 ty.code r.d a.enc11 n.enc).withRes r) _ rfl rfl (fun hw => ?_) (fun hw => ?_)
  all_goals replace hw : (ty.isW && r.ok h.g ty.is64 && abOk h ((a, ty.use) :: n.srcs)) = true := hw
  all_goals cases n
  all_goals (cases hg : h.g <;> simp [hg, intOk, int3Ok, abOk, abcOk, Head.bare, IOp.srcs] at hw)
  all_goals first
    | (refine failing_nil _ _ ?_ ?_ ?_ ?_ ?_ ?_ ?_ ?_ ?_ ?_ <;> simp_all)
    | simp_all

theorem Laws.Encoding.sar (h : Head) (ty : Ty) (r : Res) (a : Src) (n : IOp) :
    Laws.Encoding.Statement (.sar h ty r a n) := by
  refine encodes_of _ ((mkF h 0x087 ty.code r.d a.enc11 n.enc).withRes r) _ rfl rfl (fun hw => ?_) (fun hw => ?_)
  all_goals replace hw : (ty.isW && r.ok h.g ty.is64 && abOk h ((a, ty.use) :: n.srcs)) = true := hw
  all_goals cases n
  all_goals (cases hg : h.g <;> simp [hg, intOk, int3Ok, abOk, abcOk, Head.bare, IOp.srcs] at hw)
  all_goals first
    | (refine failing_nil _ _ ?_ ?_ ?_ ?_ ?_ ?_ ?_ ?_ ?_ ?_ <;> simp_all)
    | simp_all

theorem Laws.Encoding.rot (h : Head) (ty : Ty) (r : Res) (a : Src) (n : IOp) :
    Laws.Encoding.Statement (.rot h ty r a n) := by
  refine encodes_of _ ((mkF h 0x088 ty.code r.d a.enc11 n.enc).withRes r) _ rfl rfl (fun hw => ?_) (fun hw => ?_)
  all_goals replace hw : (ty.isW && r.ok h.g ty.is64 && abOk h ((a, ty.use) :: n.srcs)) = true := hw
  all_goals cases n
  all_goals (cases hg : h.g <;> simp [hg, intOk, int3Ok, abOk, abcOk, Head.bare, IOp.srcs] at hw)
  all_goals first
    | (refine failing_nil _ _ ?_ ?_ ?_ ?_ ?_ ?_ ?_ ?_ ?_ ?_ <;> simp_all)
    | simp_all

theorem Laws.Encoding.bfx (h : Head) (ty : Ty) (r : Res) (a : Src) (b : Src) :
    Laws.Encoding.Statement (.bfx h ty r a b) := by
  refine encodes_of _ ((mk h 0x089 ty.code r.d a.enc11 b.enc11 0).withRes r) _ rfl rfl (fun hw => ?_) (fun hw => ?_)
  all_goals replace hw : (intOk ty.isW h ty r [a, b]) = true := hw
  all_goals (cases hg : h.g <;> simp [hg, intOk, int3Ok, abOk, abcOk, Head.bare, IOp.srcs] at hw)
  all_goals first
    | (refine failing_nil _ _ ?_ ?_ ?_ ?_ ?_ ?_ ?_ ?_ ?_ ?_ <;> simp_all)
    | simp_all

theorem Laws.Encoding.bfi (h : Head) (ty : Ty) (r : Res) (a : Src) (b : Src) (c : Src) :
    Laws.Encoding.Statement (.bfi h ty r a b c) := by
  refine encodes_of _ ((mk h 0x08a ty.code r.d a.enc11 b.enc11 c.enc10).withRes r) _ rfl rfl (fun hw => ?_) (fun hw => ?_)
  all_goals replace hw : (int3Ok ty.isW h ty r a b c) = true := hw
  all_goals (cases hg : h.g <;> simp [hg, intOk, int3Ok, abOk, abcOk, Head.bare, IOp.srcs] at hw)
  all_goals first
    | (refine failing_nil _ _ ?_ ?_ ?_ ?_ ?_ ?_ ?_ ?_ ?_ ?_ <;> simp_all)
    | simp_all

theorem Laws.Encoding.popc (h : Head) (ty : Ty) (r : Res) (a : Src) :
    Laws.Encoding.Statement (.popc h ty r a) := by
  refine encodes_of _ ((mk h 0x08b ty.code r.d a.enc11 0 0).withRes r) _ rfl rfl (fun hw => ?_) (fun hw => ?_)
  all_goals replace hw : (intOk ty.isW h ty r [a]) = true := hw
  all_goals (cases hg : h.g <;> simp [hg, intOk, int3Ok, abOk, abcOk, Head.bare, IOp.srcs] at hw)
  all_goals first
    | (refine failing_nil _ _ ?_ ?_ ?_ ?_ ?_ ?_ ?_ ?_ ?_ ?_ <;> simp_all)
    | simp_all

theorem Laws.Encoding.clz (h : Head) (ty : Ty) (r : Res) (a : Src) :
    Laws.Encoding.Statement (.clz h ty r a) := by
  refine encodes_of _ ((mk h 0x08c ty.code r.d a.enc11 0 0).withRes r) _ rfl rfl (fun hw => ?_) (fun hw => ?_)
  all_goals replace hw : (intOk ty.isW h ty r [a]) = true := hw
  all_goals (cases hg : h.g <;> simp [hg, intOk, int3Ok, abOk, abcOk, Head.bare, IOp.srcs] at hw)
  all_goals first
    | (refine failing_nil _ _ ?_ ?_ ?_ ?_ ?_ ?_ ?_ ?_ ?_ ?_ <;> simp_all)
    | simp_all

theorem Laws.Encoding.ctz (h : Head) (ty : Ty) (r : Res) (a : Src) :
    Laws.Encoding.Statement (.ctz h ty r a) := by
  refine encodes_of _ ((mk h 0x08d ty.code r.d a.enc11 0 0).withRes r) _ rfl rfl (fun hw => ?_) (fun hw => ?_)
  all_goals replace hw : (intOk ty.isW h ty r [a]) = true := hw
  all_goals (cases hg : h.g <;> simp [hg, intOk, int3Ok, abOk, abcOk, Head.bare, IOp.srcs] at hw)
  all_goals first
    | (refine failing_nil _ _ ?_ ?_ ?_ ?_ ?_ ?_ ?_ ?_ ?_ ?_ <;> simp_all)
    | simp_all

theorem Laws.Encoding.brev (h : Head) (ty : Ty) (r : Res) (a : Src) :
    Laws.Encoding.Statement (.brev h ty r a) := by
  refine encodes_of _ ((mk h 0x08e ty.code r.d a.enc11 0 0).withRes r) _ rfl rfl (fun hw => ?_) (fun hw => ?_)
  all_goals replace hw : (intOk ty.isW h ty r [a]) = true := hw
  all_goals (cases hg : h.g <;> simp [hg, intOk, int3Ok, abOk, abcOk, Head.bare, IOp.srcs] at hw)
  all_goals first
    | (refine failing_nil _ _ ?_ ?_ ?_ ?_ ?_ ?_ ?_ ?_ ?_ ?_ <;> simp_all)
    | simp_all

theorem Laws.Encoding.perm (h : Head) (r : Res) (a : Src) (b : Src) (c : Src) :
    Laws.Encoding.Statement (.perm h r a b c) := by
  refine encodes_of _ ((mk h 0x08F 0 r.d a.enc11 b.enc11 c.enc10).withRes r) _ rfl rfl (fun hw => ?_) (fun hw => ?_)
  all_goals replace hw : (r.ok h.g false && abcOk h [(a, .w32), (b, .w32)] c .w32) = true := hw
  all_goals (cases hg : h.g <;> simp [hg, intOk, int3Ok, abOk, abcOk, Head.bare, IOp.srcs] at hw)
  all_goals first
    | (refine failing_nil _ _ ?_ ?_ ?_ ?_ ?_ ?_ ?_ ?_ ?_ ?_ <;> simp_all)
    | simp_all

theorem Laws.Encoding.sel (h : Head) (ty : Ty) (r : Res) (a : Src) (b : Src) (pf : PredF) :
    Laws.Encoding.Statement (.sel h ty r a b pf) := by
  refine encodes_of _ ((mk h 0x090 ty.code r.d a.enc11 b.enc11 (0#5 ++ pf.enc)).withRes r) _ rfl rfl (fun hw => ?_) (fun hw => ?_)
  all_goals replace hw : (intOk ty.isAll h ty r [a, b] && pf.ok h.g) = true := hw
  all_goals (cases hg : h.g <;> simp [hg, intOk, int3Ok, abOk, abcOk, Head.bare, IOp.srcs] at hw)
  all_goals first
    | (refine failing_nil _ _ ?_ ?_ ?_ ?_ ?_ ?_ ?_ ?_ ?_ ?_ <;> simp_all [predBad])
    | (simp_all [predBad])

theorem Laws.Encoding.mov (h : Head) (ty : Ty) (r : Res) (a : Src) :
    Laws.Encoding.Statement (.mov h ty r a) := by
  refine encodes_of _ ((mk h 0x091 ty.code r.d a.enc11 0 0).withRes r) _ rfl rfl (fun hw => ?_) (fun hw => ?_)
  all_goals replace hw : (intOk ty.isAll h ty r [a]) = true := hw
  all_goals (cases hg : h.g <;> simp [hg, intOk, int3Ok, abOk, abcOk, Head.bare, IOp.srcs] at hw)
  all_goals first
    | (refine failing_nil _ _ ?_ ?_ ?_ ?_ ?_ ?_ ?_ ?_ ?_ ?_ <;> simp_all)
    | simp_all

theorem Laws.Encoding.movx (h : Head) (ty : Ty) (r : Res) (a : Src) (x : BitVec 2) :
    Laws.Encoding.Statement (.movx h ty r a x) := by
  refine encodes_of _ ((mk h 0x092 ty.code r.d a.enc11 0 (Src.x x).enc10).withRes r) _ rfl rfl (fun hw => ?_) (fun hw => ?_)
  all_goals replace hw : ((ty == .i32 || ty == .i64) && !h.g && abOk h [(a, ty.use)] && (!r.nwb || r.d == 0)) = true := hw
  all_goals (cases hg : h.g <;> simp [hg, intOk, int3Ok, abOk, abcOk, Head.bare, IOp.srcs] at hw)
  all_goals first
    | (refine failing_nil _ _ ?_ ?_ ?_ ?_ ?_ ?_ ?_ ?_ ?_ ?_ <;> simp_all)
    | simp_all

theorem Laws.Encoding.cmp (h : Head) (ty : Ty) (d : BitVec 3) (cond : Cond) (a : Src) (b : Src) :
    Laws.Encoding.Statement (.cmp h ty d cond a b) := by
  refine encodes_of _ (mk h 0x093 ty.code (cond.code ++ d) a.enc11 b.enc11 0) _ rfl rfl (fun hw => ?_) (fun hw => ?_)
  all_goals replace hw : (ty.isAll && abOk h [(a, ty.use), (b, ty.use)]) = true := hw
  all_goals (cases hg : h.g <;> simp [hg, intOk, int3Ok, abOk, abcOk, Head.bare, IOp.srcs] at hw)
  all_goals first
    | (refine failing_nil _ _ ?_ ?_ ?_ ?_ ?_ ?_ ?_ ?_ ?_ ?_ <;> simp_all)
    | simp_all

theorem Laws.Encoding.plop (h : Head) (d : BitVec 3) (pa : PredF) (pb : PredF) (pc : PredF) (table : BitVec 8) :
    Laws.Encoding.Statement (.plop h d pa pb pc table) := by
  refine encodes_of _ (mk h 0x094 0 (0#5 ++ d) (0#1 ++ pb.enc ++ pa.enc) (0#6 ++ pc.enc) (0#2 ++ table)) _ rfl rfl (fun hw => ?_) (fun hw => ?_)
  all_goals replace hw : (h.bare && pa.ok h.g && pb.ok h.g && pc.ok h.g) = true := hw
  all_goals (cases hg : h.g <;> simp [hg, intOk, int3Ok, abOk, abcOk, Head.bare, IOp.srcs] at hw)
  all_goals first
    | (refine failing_nil _ _ ?_ ?_ ?_ ?_ ?_ ?_ ?_ ?_ ?_ ?_ <;> simp_all [predBad])
    | (simp_all [predBad])

theorem Laws.Encoding.setx (h : Head) (d : BitVec 2) (a : Src) (k : IOp) :
    Laws.Encoding.Statement (.setx h d a k) := by
  refine encodes_of _ (mkF h 0x095 0 (0#6 ++ d) a.enc11 k.enc) _ rfl rfl (fun hw => ?_) (fun hw => ?_)
  all_goals replace hw : (!h.g && abOk h ((a, .w32) :: k.srcs)) = true := hw
  all_goals cases k
  all_goals (cases hg : h.g <;> simp [hg, intOk, int3Ok, abOk, abcOk, Head.bare, IOp.srcs] at hw)
  all_goals first
    | (refine failing_nil _ _ ?_ ?_ ?_ ?_ ?_ ?_ ?_ ?_ ?_ ?_ <;> simp_all)
    | simp_all

theorem Laws.Encoding.fadd (h : Head) (ty : Ty) (r : Res) (a : Src) (b : Src) :
    Laws.Encoding.Statement (.fadd h ty r a b) := by
  refine encodes_of _ ((mk h 0x0c0 ty.code r.d a.enc11 b.enc11 0).withRes r) _ rfl rfl (fun hw => ?_) (fun hw => ?_)
  all_goals replace hw : (intOk ty.isFlt h ty r [a, b]) = true := hw
  all_goals (cases hg : h.g <;> simp [hg, intOk, int3Ok, abOk, abcOk, Head.bare, IOp.srcs] at hw)
  all_goals first
    | (refine failing_nil _ _ ?_ ?_ ?_ ?_ ?_ ?_ ?_ ?_ ?_ ?_ <;> simp_all)
    | simp_all

theorem Laws.Encoding.fsub (h : Head) (ty : Ty) (r : Res) (a : Src) (b : Src) :
    Laws.Encoding.Statement (.fsub h ty r a b) := by
  refine encodes_of _ ((mk h 0x0c1 ty.code r.d a.enc11 b.enc11 0).withRes r) _ rfl rfl (fun hw => ?_) (fun hw => ?_)
  all_goals replace hw : (intOk ty.isFlt h ty r [a, b]) = true := hw
  all_goals (cases hg : h.g <;> simp [hg, intOk, int3Ok, abOk, abcOk, Head.bare, IOp.srcs] at hw)
  all_goals first
    | (refine failing_nil _ _ ?_ ?_ ?_ ?_ ?_ ?_ ?_ ?_ ?_ ?_ <;> simp_all)
    | simp_all

theorem Laws.Encoding.fmul (h : Head) (ty : Ty) (r : Res) (a : Src) (b : Src) :
    Laws.Encoding.Statement (.fmul h ty r a b) := by
  refine encodes_of _ ((mk h 0x0c2 ty.code r.d a.enc11 b.enc11 0).withRes r) _ rfl rfl (fun hw => ?_) (fun hw => ?_)
  all_goals replace hw : (intOk ty.isFlt h ty r [a, b]) = true := hw
  all_goals (cases hg : h.g <;> simp [hg, intOk, int3Ok, abOk, abcOk, Head.bare, IOp.srcs] at hw)
  all_goals first
    | (refine failing_nil _ _ ?_ ?_ ?_ ?_ ?_ ?_ ?_ ?_ ?_ ?_ <;> simp_all)
    | simp_all

theorem Laws.Encoding.fma (h : Head) (ty : Ty) (r : Res) (a : Src) (b : Src) (c : Src) :
    Laws.Encoding.Statement (.fma h ty r a b c) := by
  refine encodes_of _ ((mk h 0x0c3 ty.code r.d a.enc11 b.enc11 c.enc10).withRes r) _ rfl rfl (fun hw => ?_) (fun hw => ?_)
  all_goals replace hw : (int3Ok ty.isFlt h ty r a b c) = true := hw
  all_goals (cases hg : h.g <;> simp [hg, intOk, int3Ok, abOk, abcOk, Head.bare, IOp.srcs] at hw)
  all_goals first
    | (refine failing_nil _ _ ?_ ?_ ?_ ?_ ?_ ?_ ?_ ?_ ?_ ?_ <;> simp_all)
    | simp_all

theorem Laws.Encoding.fmaImmediate (h : Head) (ty : Ty) (r : Res) (a : Src) (f : BitVec 20) :
    Laws.Encoding.Statement (.fmaImmediate h ty r a f) := by
  refine encodes_of _ ((mkF h 0x0C4 ty.code r.d a.enc11 f).withRes r) _ rfl rfl (fun hw => ?_) (fun hw => ?_)
  all_goals replace hw : (intOk ty.isFlt h ty r [a]) = true := hw
  all_goals (cases hg : h.g <;> simp [hg, intOk, int3Ok, abOk, abcOk, Head.bare, IOp.srcs] at hw)
  all_goals first
    | (refine failing_nil _ _ ?_ ?_ ?_ ?_ ?_ ?_ ?_ ?_ ?_ ?_ <;> simp_all)
    | simp_all

theorem Laws.Encoding.fmaConstant (h : Head) (ty : Ty) (r : Res) (a : Src) (f : BitVec 20) :
    Laws.Encoding.Statement (.fmaConstant h ty r a f) := by
  refine encodes_of _ ((mkF h 0x0C5 ty.code r.d a.enc11 f).withRes r) _ rfl rfl (fun hw => ?_) (fun hw => ?_)
  all_goals replace hw : (intOk ty.isFlt h ty r [a]) = true := hw
  all_goals (cases hg : h.g <;> simp [hg, intOk, int3Ok, abOk, abcOk, Head.bare, IOp.srcs] at hw)
  all_goals first
    | (refine failing_nil _ _ ?_ ?_ ?_ ?_ ?_ ?_ ?_ ?_ ?_ ?_ <;> simp_all)
    | simp_all

theorem Laws.Encoding.fmin (h : Head) (ty : Ty) (r : Res) (a : Src) (b : Src) :
    Laws.Encoding.Statement (.fmin h ty r a b) := by
  refine encodes_of _ ((mk h 0x0c6 ty.code r.d a.enc11 b.enc11 0).withRes r) _ rfl rfl (fun hw => ?_) (fun hw => ?_)
  all_goals replace hw : (intOk ty.isFlt h ty r [a, b]) = true := hw
  all_goals (cases hg : h.g <;> simp [hg, intOk, int3Ok, abOk, abcOk, Head.bare, IOp.srcs] at hw)
  all_goals first
    | (refine failing_nil _ _ ?_ ?_ ?_ ?_ ?_ ?_ ?_ ?_ ?_ ?_ <;> simp_all)
    | simp_all

theorem Laws.Encoding.fmax (h : Head) (ty : Ty) (r : Res) (a : Src) (b : Src) :
    Laws.Encoding.Statement (.fmax h ty r a b) := by
  refine encodes_of _ ((mk h 0x0c7 ty.code r.d a.enc11 b.enc11 0).withRes r) _ rfl rfl (fun hw => ?_) (fun hw => ?_)
  all_goals replace hw : (intOk ty.isFlt h ty r [a, b]) = true := hw
  all_goals (cases hg : h.g <;> simp [hg, intOk, int3Ok, abOk, abcOk, Head.bare, IOp.srcs] at hw)
  all_goals first
    | (refine failing_nil _ _ ?_ ?_ ?_ ?_ ?_ ?_ ?_ ?_ ?_ ?_ <;> simp_all)
    | simp_all

theorem Laws.Encoding.fabs (h : Head) (ty : Ty) (r : Res) (a : Src) :
    Laws.Encoding.Statement (.fabs h ty r a) := by
  refine encodes_of _ ((mk h 0x0c8 ty.code r.d a.enc11 0 0).withRes r) _ rfl rfl (fun hw => ?_) (fun hw => ?_)
  all_goals replace hw : (intOk ty.isFlt h ty r [a]) = true := hw
  all_goals (cases hg : h.g <;> simp [hg, intOk, int3Ok, abOk, abcOk, Head.bare, IOp.srcs] at hw)
  all_goals first
    | (refine failing_nil _ _ ?_ ?_ ?_ ?_ ?_ ?_ ?_ ?_ ?_ ?_ <;> simp_all)
    | simp_all

theorem Laws.Encoding.fneg (h : Head) (ty : Ty) (r : Res) (a : Src) :
    Laws.Encoding.Statement (.fneg h ty r a) := by
  refine encodes_of _ ((mk h 0x0c9 ty.code r.d a.enc11 0 0).withRes r) _ rfl rfl (fun hw => ?_) (fun hw => ?_)
  all_goals replace hw : (intOk ty.isFlt h ty r [a]) = true := hw
  all_goals (cases hg : h.g <;> simp [hg, intOk, int3Ok, abOk, abcOk, Head.bare, IOp.srcs] at hw)
  all_goals first
    | (refine failing_nil _ _ ?_ ?_ ?_ ?_ ?_ ?_ ?_ ?_ ?_ ?_ <;> simp_all)
    | simp_all

theorem Laws.Encoding.fcmp (h : Head) (ty : Ty) (d : BitVec 3) (cond : FCond) (a : Src) (b : Src) :
    Laws.Encoding.Statement (.fcmp h ty d cond a b) := by
  refine encodes_of _ (mk h 0x0CA ty.code (cond.code ++ d) a.enc11 b.enc11 0) _ rfl rfl (fun hw => ?_) (fun hw => ?_)
  all_goals replace hw : (ty.isFlt && abOk h [(a, ty.use), (b, ty.use)]) = true := hw
  all_goals (cases hg : h.g <;> simp [hg, intOk, int3Ok, abOk, abcOk, Head.bare, IOp.srcs] at hw)
  all_goals first
    | (refine failing_nil _ _ ?_ ?_ ?_ ?_ ?_ ?_ ?_ ?_ ?_ ?_ <;> simp_all)
    | simp_all

theorem Laws.Encoding.fclass (h : Head) (ty : Ty) (d : BitVec 3) (a : Src) (b : Src) :
    Laws.Encoding.Statement (.fclass h ty d a b) := by
  refine encodes_of _ (mk h 0x0CB ty.code (0#5 ++ d) a.enc11 b.enc11 0) _ rfl rfl (fun hw => ?_) (fun hw => ?_)
  all_goals replace hw : (ty.isFlt && abOk h [(a, ty.use), (b, .w32)]) = true := hw
  all_goals (cases hg : h.g <;> simp [hg, intOk, int3Ok, abOk, abcOk, Head.bare, IOp.srcs] at hw)
  all_goals first
    | (refine failing_nil _ _ ?_ ?_ ?_ ?_ ?_ ?_ ?_ ?_ ?_ ?_ <;> simp_all)
    | simp_all

theorem Laws.Encoding.frnd (h : Head) (ty : Ty) (r : Res) (a : Src) (mode : RndMode) :
    Laws.Encoding.Statement (.frnd h ty r a mode) := by
  refine encodes_of _ ((mk h 0x0CC ty.code r.d a.enc11 0 (Src.imm mode.code).enc10).withRes r) _ rfl rfl (fun hw => ?_) (fun hw => ?_)
  all_goals replace hw : (intOk ty.isFlt h ty r [a]) = true := hw
  all_goals (cases hg : h.g <;> simp [hg, intOk, int3Ok, abOk, abcOk, Head.bare, IOp.srcs] at hw)
  all_goals first
    | (refine failing_nil _ _ ?_ ?_ ?_ ?_ ?_ ?_ ?_ ?_ ?_ ?_ <;> simp_all)
    | simp_all

theorem Laws.Encoding.fdiv (h : Head) (ty : Ty) (r : Res) (a : Src) (b : Src) :
    Laws.Encoding.Statement (.fdiv h ty r a b) := by
  refine encodes_of _ ((mk h 0x0cd ty.code r.d a.enc11 b.enc11 0).withRes r) _ rfl rfl (fun hw => ?_) (fun hw => ?_)
  all_goals replace hw : (intOk (ty == .f32 || ty == .f64) h ty r [a, b]) = true := hw
  all_goals (cases hg : h.g <;> simp [hg, intOk, int3Ok, abOk, abcOk, Head.bare, IOp.srcs] at hw)
  all_goals first
    | (refine failing_nil _ _ ?_ ?_ ?_ ?_ ?_ ?_ ?_ ?_ ?_ ?_ <;> simp_all)
    | simp_all

theorem Laws.Encoding.fsqrt (h : Head) (ty : Ty) (r : Res) (a : Src) :
    Laws.Encoding.Statement (.fsqrt h ty r a) := by
  refine encodes_of _ ((mk h 0x0ce ty.code r.d a.enc11 0 0).withRes r) _ rfl rfl (fun hw => ?_) (fun hw => ?_)
  all_goals replace hw : (intOk (ty == .f32 || ty == .f64) h ty r [a]) = true := hw
  all_goals (cases hg : h.g <;> simp [hg, intOk, int3Ok, abOk, abcOk, Head.bare, IOp.srcs] at hw)
  all_goals first
    | (refine failing_nil _ _ ?_ ?_ ?_ ?_ ?_ ?_ ?_ ?_ ?_ ?_ <;> simp_all)
    | simp_all

theorem Laws.Encoding.cvt (h : Head) (ty : Ty) (r : Res) (a : Src) (from_ : Ty) :
    Laws.Encoding.Statement (.cvt h ty r a from_) := by
  refine encodes_of _ ((mk h 0x100 ty.code r.d a.enc11 (Src.imm (0#2 ++ from_.code)).enc11 0).withRes r) _ rfl rfl (fun hw => ?_) (fun hw => ?_)
  all_goals replace hw : (ty.isAll && from_.isAll && r.ok h.g ty.is64 && abOk h [(a, from_.use)]) = true := hw
  all_goals (cases hg : h.g <;> simp [hg, intOk, int3Ok, abOk, abcOk, Head.bare, IOp.srcs] at hw)
  all_goals first
    | (refine failing_nil _ _ ?_ ?_ ?_ ?_ ?_ ?_ ?_ ?_ ?_ ?_ <;> simp_all [cvtChecks, fieldChecks, Src.refusedBy])
    | (simp_all [cvtChecks, fieldChecks, Src.refusedBy])

theorem Laws.Encoding.cvts (h : Head) (ty : Ty) (r : Res) (a : Src) (from_ : Ty) :
    Laws.Encoding.Statement (.cvts h ty r a from_) := by
  refine encodes_of _ ((mk h 0x101 ty.code r.d a.enc11 (Src.imm (0#2 ++ from_.code)).enc11 0).withRes r) _ rfl rfl (fun hw => ?_) (fun hw => ?_)
  all_goals replace hw : ((ty == .f16 || ty == .bf16 || (ty.isInt && !ty.isW)) && (from_ == .f32 || from_ == .f64) && r.ok h.g false && abOk h [(a, from_.use)]) = true := hw
  all_goals cases ty
  all_goals cases from_
  all_goals (cases hg : h.g <;> simp [hg, intOk, int3Ok, abOk, abcOk, Head.bare, IOp.srcs] at hw)
  all_goals first
    | (refine failing_nil _ _ ?_ ?_ ?_ ?_ ?_ ?_ ?_ ?_ ?_ ?_ <;> simp_all [cvtChecks, fieldChecks, Src.refusedBy, Ty.isInt, Ty.isW, Ty.is64])
    | (simp_all [cvtChecks, fieldChecks, Src.refusedBy, Ty.isInt, Ty.isW, Ty.is64])

theorem Laws.Encoding.frcp (h : Head) (ty : Ty) (r : Res) (a : Src) :
    Laws.Encoding.Statement (.frcp h ty r a) := by
  refine encodes_of _ ((mk h 0x102 ty.code r.d a.enc11 0 0).withRes r) _ rfl rfl (fun hw => ?_) (fun hw => ?_)
  all_goals replace hw : (intOk (ty == .f32 || ty == .f64) h ty r [a]) = true := hw
  all_goals (cases hg : h.g <;> simp [hg, intOk, int3Ok, abOk, abcOk, Head.bare, IOp.srcs] at hw)
  all_goals first
    | (refine failing_nil _ _ ?_ ?_ ?_ ?_ ?_ ?_ ?_ ?_ ?_ ?_ <;> simp_all)
    | simp_all

theorem Laws.Encoding.frsq (h : Head) (ty : Ty) (r : Res) (a : Src) :
    Laws.Encoding.Statement (.frsq h ty r a) := by
  refine encodes_of _ ((mk h 0x103 ty.code r.d a.enc11 0 0).withRes r) _ rfl rfl (fun hw => ?_) (fun hw => ?_)
  all_goals replace hw : (intOk (ty == .f32 || ty == .f64) h ty r [a]) = true := hw
  all_goals (cases hg : h.g <;> simp [hg, intOk, int3Ok, abOk, abcOk, Head.bare, IOp.srcs] at hw)
  all_goals first
    | (refine failing_nil _ _ ?_ ?_ ?_ ?_ ?_ ?_ ?_ ?_ ?_ ?_ <;> simp_all)
    | simp_all

theorem Laws.Encoding.fex2 (h : Head) (ty : Ty) (r : Res) (a : Src) :
    Laws.Encoding.Statement (.fex2 h ty r a) := by
  refine encodes_of _ ((mk h 0x104 ty.code r.d a.enc11 0 0).withRes r) _ rfl rfl (fun hw => ?_) (fun hw => ?_)
  all_goals replace hw : (intOk (ty == .f32 || ty == .f16 || ty == .bf16) h ty r [a]) = true := hw
  all_goals (cases hg : h.g <;> simp [hg, intOk, int3Ok, abOk, abcOk, Head.bare, IOp.srcs] at hw)
  all_goals first
    | (refine failing_nil _ _ ?_ ?_ ?_ ?_ ?_ ?_ ?_ ?_ ?_ ?_ <;> simp_all)
    | simp_all

theorem Laws.Encoding.flg2 (h : Head) (ty : Ty) (r : Res) (a : Src) :
    Laws.Encoding.Statement (.flg2 h ty r a) := by
  refine encodes_of _ ((mk h 0x105 ty.code r.d a.enc11 0 0).withRes r) _ rfl rfl (fun hw => ?_) (fun hw => ?_)
  all_goals replace hw : (intOk (ty == .f32 || ty == .f16 || ty == .bf16) h ty r [a]) = true := hw
  all_goals (cases hg : h.g <;> simp [hg, intOk, int3Ok, abOk, abcOk, Head.bare, IOp.srcs] at hw)
  all_goals first
    | (refine failing_nil _ _ ?_ ?_ ?_ ?_ ?_ ?_ ?_ ?_ ?_ ?_ <;> simp_all)
    | simp_all

theorem Laws.Encoding.fsin (h : Head) (ty : Ty) (r : Res) (a : Src) :
    Laws.Encoding.Statement (.fsin h ty r a) := by
  refine encodes_of _ ((mk h 0x106 ty.code r.d a.enc11 0 0).withRes r) _ rfl rfl (fun hw => ?_) (fun hw => ?_)
  all_goals replace hw : (intOk (ty == .f32 || ty == .f16 || ty == .bf16) h ty r [a]) = true := hw
  all_goals (cases hg : h.g <;> simp [hg, intOk, int3Ok, abOk, abcOk, Head.bare, IOp.srcs] at hw)
  all_goals first
    | (refine failing_nil _ _ ?_ ?_ ?_ ?_ ?_ ?_ ?_ ?_ ?_ ?_ <;> simp_all)
    | simp_all

theorem Laws.Encoding.fcos (h : Head) (ty : Ty) (r : Res) (a : Src) :
    Laws.Encoding.Statement (.fcos h ty r a) := by
  refine encodes_of _ ((mk h 0x107 ty.code r.d a.enc11 0 0).withRes r) _ rfl rfl (fun hw => ?_) (fun hw => ?_)
  all_goals replace hw : (intOk (ty == .f32 || ty == .f16 || ty == .bf16) h ty r [a]) = true := hw
  all_goals (cases hg : h.g <;> simp [hg, intOk, int3Ok, abOk, abcOk, Head.bare, IOp.srcs] at hw)
  all_goals first
    | (refine failing_nil _ _ ?_ ?_ ?_ ?_ ?_ ?_ ?_ ?_ ?_ ?_ <;> simp_all)
    | simp_all

theorem Laws.Encoding.ftanh (h : Head) (ty : Ty) (r : Res) (a : Src) :
    Laws.Encoding.Statement (.ftanh h ty r a) := by
  refine encodes_of _ ((mk h 0x108 ty.code r.d a.enc11 0 0).withRes r) _ rfl rfl (fun hw => ?_) (fun hw => ?_)
  all_goals replace hw : (intOk (ty == .f32 || ty == .f16 || ty == .bf16) h ty r [a]) = true := hw
  all_goals (cases hg : h.g <;> simp [hg, intOk, int3Ok, abOk, abcOk, Head.bare, IOp.srcs] at hw)
  all_goals first
    | (refine failing_nil _ _ ?_ ?_ ?_ ?_ ?_ ?_ ?_ ?_ ?_ ?_ <;> simp_all)
    | simp_all

theorem Laws.Encoding.lxch (h : Head) (ty : Ty) (r : Res) (a : Src) (b : Src) (mode : XchMode) :
    Laws.Encoding.Statement (.lxch h ty r a b mode) := by
  refine encodes_of _ ((mk h 0x140 ty.code r.d a.enc11 b.enc11 (Src.imm mode.code).enc10).withRes r) _ rfl rfl (fun hw => ?_) (fun hw => ?_)
  all_goals replace hw : ((ty == .i32 || ty == .i64) && !h.g && r.ok false ty.is64 && abOk h [(a, ty.use), (b, .w32)]) = true := hw
  all_goals (cases hg : h.g <;> simp [hg, intOk, int3Ok, abOk, abcOk, Head.bare, IOp.srcs] at hw)
  all_goals first
    | (refine failing_nil _ _ ?_ ?_ ?_ ?_ ?_ ?_ ?_ ?_ ?_ ?_ <;> simp_all)
    | simp_all

theorem Laws.Encoding.voteAll (h : Head) (d : BitVec 3) (pf : PredF) :
    Laws.Encoding.Statement (.voteAll h d pf) := by
  refine encodes_of _ (mk h 0x141 0 (0#5 ++ d) (0#6 ++ pf.enc) 0 0) _ rfl rfl (fun hw => ?_) (fun hw => ?_)
  all_goals replace hw : (h.bare && !h.g) = true := hw
  all_goals (cases hg : h.g <;> simp [hg, intOk, int3Ok, abOk, abcOk, Head.bare, IOp.srcs] at hw)
  all_goals first
    | (refine failing_nil _ _ ?_ ?_ ?_ ?_ ?_ ?_ ?_ ?_ ?_ ?_ <;> simp_all [voteChecks, buildVote, rsv11_zero, kind11_zero])
    | (simp_all [voteChecks, buildVote, rsv11_zero, kind11_zero])

theorem Laws.Encoding.voteAny (h : Head) (d : BitVec 3) (pf : PredF) :
    Laws.Encoding.Statement (.voteAny h d pf) := by
  refine encodes_of _ (mk h 0x141 1 (0#5 ++ d) (0#6 ++ pf.enc) 0 0) _ rfl rfl (fun hw => ?_) (fun hw => ?_)
  all_goals replace hw : (h.bare && !h.g) = true := hw
  all_goals (cases hg : h.g <;> simp [hg, intOk, int3Ok, abOk, abcOk, Head.bare, IOp.srcs] at hw)
  all_goals first
    | (refine failing_nil _ _ ?_ ?_ ?_ ?_ ?_ ?_ ?_ ?_ ?_ ?_ <;> simp_all [voteChecks, buildVote])
    | (simp_all [voteChecks, buildVote])

theorem Laws.Encoding.voteBallot (h : Head) (r : Res) (pf : PredF) (j : BitVec 2) :
    Laws.Encoding.Statement (.voteBallot h r pf j) := by
  refine encodes_of _ ((mk h 0x141 2 r.d (0#6 ++ pf.enc) (Src.imm (0#4 ++ j)).enc11 0).withRes r) _ rfl rfl (fun hw => ?_) (fun hw => ?_)
  all_goals replace hw : (h.bare && !h.g && r.ok false false) = true := hw
  all_goals (cases hg : h.g <;> simp [hg, intOk, int3Ok, abOk, abcOk, Head.bare, IOp.srcs] at hw)
  all_goals first
    | (refine failing_nil _ _ ?_ ?_ ?_ ?_ ?_ ?_ ?_ ?_ ?_ ?_ <;> simp_all [voteChecks, buildVote])
    | (simp_all [voteChecks, buildVote])

theorem Laws.Encoding.gred (h : Head) (ty : Ty) (r : Res) (a : Src) (op : FoldOp) :
    Laws.Encoding.Statement (.gred h ty r a op) := by
  refine encodes_of _ ((mk h 0x142 ty.code r.d a.enc11 0 (Src.imm op.code).enc10).withRes r) _ rfl rfl (fun hw => ?_) (fun hw => ?_)
  all_goals replace hw : (ty.is0to5 && op.ok ty && !h.g && r.ok false ty.is64 && abOk h [(a, ty.use)]) = true := hw
  all_goals (cases hg : h.g <;> simp [hg, intOk, int3Ok, abOk, abcOk, Head.bare, IOp.srcs] at hw)
  all_goals first
    | (refine failing_nil _ _ ?_ ?_ ?_ ?_ ?_ ?_ ?_ ?_ ?_ ?_ <;> simp_all [foldChecks])
    | (simp_all [foldChecks])

theorem Laws.Encoding.gscan (h : Head) (ty : Ty) (r : Res) (a : Src) (op : FoldOp) :
    Laws.Encoding.Statement (.gscan h ty r a op) := by
  refine encodes_of _ ((mk h 0x143 ty.code r.d a.enc11 0 (Src.imm op.code).enc10).withRes r) _ rfl rfl (fun hw => ?_) (fun hw => ?_)
  all_goals replace hw : (ty.is0to5 && op.ok ty && !h.g && r.ok false ty.is64 && abOk h [(a, ty.use)]) = true := hw
  all_goals (cases hg : h.g <;> simp [hg, intOk, int3Ok, abOk, abcOk, Head.bare, IOp.srcs] at hw)
  all_goals first
    | (refine failing_nil _ _ ?_ ?_ ?_ ?_ ?_ ?_ ?_ ?_ ?_ ?_ <;> simp_all [foldChecks])
    | (simp_all [foldChecks])

theorem Laws.Encoding.rngk (h : Head) (r : Res) (a : Src) (b : Src) :
    Laws.Encoding.Statement (.rngk h r a b) := by
  refine encodes_of _ ((mk h 0x144 1 r.d a.enc11 b.enc11 0).withRes r) _ rfl rfl (fun hw => ?_) (fun hw => ?_)
  all_goals replace hw : (!h.g && r.ok false false && abOk h [(a, .w32), (b, .w32)]) = true := hw
  all_goals (cases hg : h.g <;> simp [hg, intOk, int3Ok, abOk, abcOk, Head.bare, IOp.srcs] at hw)
  all_goals first
    | (refine failing_nil _ _ ?_ ?_ ?_ ?_ ?_ ?_ ?_ ?_ ?_ ?_ <;> simp_all)
    | simp_all

theorem Laws.Encoding.elect (h : Head) (d : BitVec 3) :
    Laws.Encoding.Statement (.elect h d) := by
  refine encodes_of _ (mk h 0x145 0 (0#5 ++ d) 0 0 0) _ rfl rfl (fun hw => ?_) (fun hw => ?_)
  all_goals replace hw : (h.bare && !h.g) = true := hw
  all_goals (cases hg : h.g <;> simp [hg, intOk, int3Ok, abOk, abcOk, Head.bare, IOp.srcs] at hw)
  all_goals first
    | (refine failing_nil _ _ ?_ ?_ ?_ ?_ ?_ ?_ ?_ ?_ ?_ ?_ <;> simp_all)
    | simp_all

theorem Laws.Encoding.ldg (h : Head) (ty : Ty) (r : Res) (o : Order) (sc : Scope) (rc : Bool) (hint : BitVec 3) (a : Src) (b : Src) :
    Laws.Encoding.Statement (.ldg h ty r o sc rc hint a b) := by
  refine encodes_of _ ((mk h 0x180 ty.code r.d a.enc11 b.enc11 (qualC o sc (BitVec.ofBool rc ++ hint))).withRes r) _ rfl rfl (fun hw => ?_) (fun hw => ?_)
  all_goals replace hw : (ty.isAll && r.ok h.g ty.is64 && o.okLoad && (!rc || (o == .rlx && !h.g)) && hint.toNat < 5 && abOk h [(a, .addr), (b, .addr)] true) = true := hw
  all_goals cases o
  all_goals (cases hg : h.g <;> simp [hg, intOk, int3Ok, abOk, abcOk, Head.bare, IOp.srcs] at hw)
  all_goals first
    | (refine failing_nil _ _ ?_ ?_ ?_ ?_ ?_ ?_ ?_ ?_ ?_ ?_ <;> simp_all)
    | simp_all

theorem Laws.Encoding.stg (h : Head) (ty : Ty) (d : BitVec 8) (o : Order) (sc : Scope) (hint : BitVec 3) (a : Src) (b : Src) :
    Laws.Encoding.Statement (.stg h ty d o sc hint a b) := by
  refine encodes_of _ (mk h 0x181 ty.code d a.enc11 b.enc11 (qualC o sc (0#1 ++ hint))) _ rfl rfl (fun hw => ?_) (fun hw => ?_)
  all_goals replace hw : (ty.isAll && dataOk h.g ty.is64 d && o.okStore && hint.toNat < 5 && abOk h [(a, .addr), (b, .addr)] true) = true := hw
  all_goals cases hty : ty.is64
  all_goals (cases hg : h.g <;> simp [hg, intOk, int3Ok, abOk, abcOk, Head.bare, IOp.srcs, hty] at hw)
  all_goals first
    | (refine failing_nil _ _ ?_ ?_ ?_ ?_ ?_ ?_ ?_ ?_ ?_ ?_ <;> simp_all)
    | simp_all

theorem Laws.Encoding.pfg (h : Head) (hint : BitVec 3) (a : Src) (b : Src) :
    Laws.Encoding.Statement (.pfg h hint a b) := by
  refine encodes_of _ (mk h 0x182 0 0 a.enc11 b.enc11 (0#7 ++ hint)) _ rfl rfl (fun hw => ?_) (fun hw => ?_)
  all_goals replace hw : (hint.toNat < 5 && abOk h [(a, .addr), (b, .addr)] true) = true := hw
  all_goals (cases hg : h.g <;> simp [hg, intOk, int3Ok, abOk, abcOk, Head.bare, IOp.srcs] at hw)
  all_goals first
    | (refine failing_nil _ _ ?_ ?_ ?_ ?_ ?_ ?_ ?_ ?_ ?_ ?_ <;> simp_all)
    | simp_all

theorem Laws.Encoding.ldl (h : Head) (ty : Ty) (r : Res) (o : Order) (sc : Scope) (a : Src) (b : Src) :
    Laws.Encoding.Statement (.ldl h ty r o sc a b) := by
  refine encodes_of _ ((mk h 0x1C0 ty.code r.d a.enc11 b.enc11 (qualC o sc 0)).withRes r) _ rfl rfl (fun hw => ?_) (fun hw => ?_)
  all_goals replace hw : (ty.isAll && r.ok h.g ty.is64 && o.okLoad && abOk h [(a, .addr), (b, .addr)] true) = true := hw
  all_goals (cases hg : h.g <;> simp [hg, intOk, int3Ok, abOk, abcOk, Head.bare, IOp.srcs] at hw)
  all_goals first
    | (refine failing_nil _ _ ?_ ?_ ?_ ?_ ?_ ?_ ?_ ?_ ?_ ?_ <;> simp_all)
    | simp_all

theorem Laws.Encoding.stl (h : Head) (ty : Ty) (d : BitVec 8) (o : Order) (sc : Scope) (a : Src) (b : Src) :
    Laws.Encoding.Statement (.stl h ty d o sc a b) := by
  refine encodes_of _ (mk h 0x1C1 ty.code d a.enc11 b.enc11 (qualC o sc 0)) _ rfl rfl (fun hw => ?_) (fun hw => ?_)
  all_goals replace hw : (ty.isAll && dataOk h.g ty.is64 d && o.okStore && abOk h [(a, .addr), (b, .addr)] true) = true := hw
  all_goals cases hty : ty.is64
  all_goals (cases hg : h.g <;> simp [hg, intOk, int3Ok, abOk, abcOk, Head.bare, IOp.srcs, hty] at hw)
  all_goals first
    | (refine failing_nil _ _ ?_ ?_ ?_ ?_ ?_ ?_ ?_ ?_ ?_ ?_ <;> simp_all)
    | simp_all

theorem Laws.Encoding.ldk (h : Head) (ty : Ty) (r : Res) (win : BitVec 3) (b : Src) :
    Laws.Encoding.Statement (.ldk h ty r win b) := by
  refine encodes_of _ ((mk h 0x1C2 ty.code r.d (Src.imm (0#3 ++ win)).enc11 b.enc11 0).withRes r) _ rfl rfl (fun hw => ?_) (fun hw => ?_)
  all_goals replace hw : (ty.is0to5 && r.ok h.g ty.is64 && abOk h [(b, .addr)] true) = true := hw
  all_goals (cases hg : h.g <;> simp [hg, intOk, int3Ok, abOk, abcOk, Head.bare, IOp.srcs] at hw)
  all_goals first
    | (refine failing_nil _ _ ?_ ?_ ?_ ?_ ?_ ?_ ?_ ?_ ?_ ?_ <;> simp_all)
    | simp_all

theorem Laws.Encoding.lda (h : Head) (ty : Ty) (r : Res) (a : Src) (b : Src) :
    Laws.Encoding.Statement (.lda h ty r a b) := by
  refine encodes_of _ ((mk h 0x1C3 ty.code r.d a.enc11 b.enc11 0).withRes r) _ rfl rfl (fun hw => ?_) (fun hw => ?_)
  all_goals replace hw : ((ty == .i32 || ty == .f32 || ty == .f64) && !h.g && r.ok false ty.is64 && abOk h [(a, .addr), (b, .addr)] true) = true := hw
  all_goals (cases hg : h.g <;> simp [hg, intOk, int3Ok, abOk, abcOk, Head.bare, IOp.srcs] at hw)
  all_goals first
    | (refine failing_nil _ _ ?_ ?_ ?_ ?_ ?_ ?_ ?_ ?_ ?_ ?_ <;> simp_all)
    | simp_all

theorem Laws.Encoding.sta (h : Head) (ty : Ty) (d : BitVec 8) (a : Src) (b : Src) :
    Laws.Encoding.Statement (.sta h ty d a b) := by
  refine encodes_of _ (mk h 0x1C4 ty.code d a.enc11 b.enc11 0) _ rfl rfl (fun hw => ?_) (fun hw => ?_)
  all_goals replace hw : ((ty == .i32 || ty == .f32 || ty == .f64) && !h.g && dataOk false ty.is64 d && abOk h [(a, .addr), (b, .addr)] true) = true := hw
  all_goals cases hty : ty.is64
  all_goals (cases hg : h.g <;> simp [hg, intOk, int3Ok, abOk, abcOk, Head.bare, IOp.srcs, hty] at hw)
  all_goals first
    | (refine failing_nil _ _ ?_ ?_ ?_ ?_ ?_ ?_ ?_ ?_ ?_ ?_ <;> simp_all)
    | simp_all

theorem Laws.Encoding.atm (h : Head) (ty : Ty) (r : Res) (o : Order) (sc : Scope) (sp : Bool) (a : Src) (b : Src) (op : AtmOp) (data : Src) :
    Laws.Encoding.Statement (.atm h ty r o sc sp a b op data) := by
  refine encodes_of _ (((mk h 0x200 ty.code r.d a.enc11 b.enc11 (qualC o sc (if sp then 5 else 0))).withRes r).withAtom (atomWord data.enc11 (0#7 ++ op.code) 0)) _ rfl rfl (fun hw => ?_) (fun hw => ?_)
  all_goals replace hw : (ty.is0to5 && op.ok ty && r.ok h.g ty.is64 && atomOk h [(a, .addr), (b, .addr), (data, ty.use)]) = true := hw
  all_goals cases sp
  all_goals (cases hg : h.g <;> simp [hg, intOk, int3Ok, abOk, abcOk, Head.bare, IOp.srcs] at hw)
  all_goals first
    | (refine failing_nil _ _ ?_ ?_ ?_ ?_ ?_ ?_ ?_ ?_ ?_ ?_ <;> simp_all [Lits.len, atomOk, aChecks, opChecks, awSrc, Raw.awData, Raw.awSecond, Raw.awFail, Raw.awOp, Raw.aw, Raw.sp])
    | (simp_all [Lits.len, atomOk, aChecks, opChecks, awSrc, Raw.awData, Raw.awSecond, Raw.awFail, Raw.awOp, Raw.aw, Raw.sp])

theorem Laws.Encoding.cas (h : Head) (ty : Ty) (r : Res) (o : Order) (sc : Scope) (sp : Bool) (a : Src) (b : Src) (data : Src) (cmp : Src) (fail : Order) :
    Laws.Encoding.Statement (.cas h ty r o sc sp a b data cmp fail) := by
  refine encodes_of _ (((mk h 0x201 ty.code r.d a.enc11 b.enc11 (qualC o sc (if sp then 5 else 0))).withRes r).withAtom (atomWord data.enc11 cmp.enc11 fail.code)) _ rfl rfl (fun hw => ?_) (fun hw => ?_)
  all_goals replace hw : (ty.isW && fail.okLoad && r.ok h.g ty.is64 && atomOk h [(a, .addr), (b, .addr), (data, ty.use), (cmp, ty.use)]) = true := hw
  all_goals cases sp
  all_goals (cases hg : h.g <;> simp [hg, intOk, int3Ok, abOk, abcOk, Head.bare, IOp.srcs] at hw)
  all_goals first
    | (refine failing_nil _ _ ?_ ?_ ?_ ?_ ?_ ?_ ?_ ?_ ?_ ?_ <;> simp_all [Lits.len, atomOk, aChecks, opChecks, awSrc, Raw.awData, Raw.awSecond, Raw.awFail, Raw.awOp, Raw.aw, Raw.sp])
    | (simp_all [Lits.len, atomOk, aChecks, opChecks, awSrc, Raw.awData, Raw.awSecond, Raw.awFail, Raw.awOp, Raw.aw, Raw.sp])

theorem Laws.Encoding.red (h : Head) (ty : Ty) (o : Order) (sc : Scope) (sp : Bool) (a : Src) (b : Src) (op : AtmOp) (data : Src) :
    Laws.Encoding.Statement (.red h ty o sc sp a b op data) := by
  refine encodes_of _ ((mk h 0x202 ty.code 0 a.enc11 b.enc11 (qualC o sc (if sp then 5 else 0))).withAtom (atomWord data.enc11 (0#7 ++ op.code) 0)) _ rfl rfl (fun hw => ?_) (fun hw => ?_)
  all_goals replace hw : (ty.is0to5 && op.ok ty && o.okRed && atomOk h [(a, .addr), (b, .addr), (data, ty.use)]) = true := hw
  all_goals cases sp
  all_goals (cases hg : h.g <;> simp [hg, intOk, int3Ok, abOk, abcOk, Head.bare, IOp.srcs] at hw)
  all_goals first
    | (refine failing_nil _ _ ?_ ?_ ?_ ?_ ?_ ?_ ?_ ?_ ?_ ?_ <;> simp_all [Lits.len, atomOk, aChecks, opChecks, awSrc, Raw.awData, Raw.awSecond, Raw.awFail, Raw.awOp, Raw.aw, Raw.sp])
    | (simp_all [Lits.len, atomOk, aChecks, opChecks, awSrc, Raw.awData, Raw.awSecond, Raw.awFail, Raw.awOp, Raw.aw, Raw.sp])

theorem Laws.Encoding.ored (h : Head) (ty : Ty) (o : Order) (sc : Scope) (sp : Bool) (a : Src) (b : Src) (data : Src) (index : Src) :
    Laws.Encoding.Statement (.ored h ty o sc sp a b data index) := by
  refine encodes_of _ ((mk h 0x203 ty.code 0 a.enc11 b.enc11 (qualC o sc (if sp then 5 else 0))).withAtom (atomWord data.enc11 index.enc11 0)) _ rfl rfl (fun hw => ?_) (fun hw => ?_)
  all_goals replace hw : (ty.is0to5 && o.okRed && atomOk h [(a, .addr), (b, .addr), (data, ty.use), (index, .w32)]) = true := hw
  all_goals cases sp
  all_goals (cases hg : h.g <;> simp [hg, intOk, int3Ok, abOk, abcOk, Head.bare, IOp.srcs] at hw)
  all_goals first
    | (refine failing_nil _ _ ?_ ?_ ?_ ?_ ?_ ?_ ?_ ?_ ?_ ?_ <;> simp_all [Lits.len, atomOk, aChecks, opChecks, awSrc, Raw.awData, Raw.awSecond, Raw.awFail, Raw.awOp, Raw.aw, Raw.sp])
    | (simp_all [Lits.len, atomOk, aChecks, opChecks, awSrc, Raw.awData, Raw.awSecond, Raw.awFail, Raw.awOp, Raw.aw, Raw.sp])

theorem Laws.Encoding.fence (h : Head) (o : Order) (sc : Scope) :
    Laws.Encoding.Statement (.fence h o sc) := by
  refine encodes_of _ (mk h 0x204 0 0 0 0 (qualC o sc 0)) _ rfl rfl (fun hw => ?_) (fun hw => ?_)
  all_goals replace hw : (h.bare && o != .rlx) = true := hw
  all_goals (cases hg : h.g <;> simp [hg, intOk, int3Ok, abOk, abcOk, Head.bare, IOp.srcs] at hw)
  all_goals first
    | (refine failing_nil _ _ ?_ ?_ ?_ ?_ ?_ ?_ ?_ ?_ ?_ ?_ <;> simp_all)
    | simp_all

theorem Laws.Encoding.arrive (h : Head) (o : Order) (sc : Scope) (a : Src) (b : Src) :
    Laws.Encoding.Statement (.arrive h o sc a b) := by
  refine encodes_of _ (mk h 0x205 0 0 a.enc11 b.enc11 (qualC o sc 0)) _ rfl rfl (fun hw => ?_) (fun hw => ?_)
  all_goals replace hw : (o.okRed && abOk h [(a, .addr), (b, .addr)] true) = true := hw
  all_goals (cases hg : h.g <;> simp [hg, intOk, int3Ok, abOk, abcOk, Head.bare, IOp.srcs] at hw)
  all_goals first
    | (refine failing_nil _ _ ?_ ?_ ?_ ?_ ?_ ?_ ?_ ?_ ?_ ?_ <;> simp_all)
    | simp_all

theorem Laws.Encoding.waitb (h : Head) (d : BitVec 8) (o : Order) (sc : Scope) (a : Src) (b : Src) :
    Laws.Encoding.Statement (.waitb h d o sc a b) := by
  refine encodes_of _ (mk h 0x206 0 d a.enc11 b.enc11 (qualC o sc 0)) _ rfl rfl (fun hw => ?_) (fun hw => ?_)
  all_goals replace hw : ((o == .rlx || o == .acq) && dataOk h.g false d && abOk h [(a, .addr), (b, .addr)] true) = true := hw
  all_goals cases o
  all_goals (cases hg : h.g <;> simp [hg, intOk, int3Ok, abOk, abcOk, Head.bare, IOp.srcs] at hw)
  all_goals first
    | (refine failing_nil _ _ ?_ ?_ ?_ ?_ ?_ ?_ ?_ ?_ ?_ ?_ <;> simp_all)
    | simp_all

theorem Laws.Encoding.arw (h : Head) (o : Order) (sc : Scope) (a : Src) (b : Src) :
    Laws.Encoding.Statement (.arw h o sc a b) := by
  refine encodes_of _ (mk h 0x207 0 0 a.enc11 b.enc11 (qualC o sc 0)) _ rfl rfl (fun hw => ?_) (fun hw => ?_)
  all_goals replace hw : (o != .sc && abOk h [(a, .addr), (b, .addr)] true) = true := hw
  all_goals (cases hg : h.g <;> simp [hg, intOk, int3Ok, abOk, abcOk, Head.bare, IOp.srcs] at hw)
  all_goals first
    | (refine failing_nil _ _ ?_ ?_ ?_ ?_ ?_ ?_ ?_ ?_ ?_ ?_ <;> simp_all)
    | simp_all

theorem Laws.Encoding.pgmap (h : Head) (a : Src) (b : Src) (c : Src) :
    Laws.Encoding.Statement (.pgmap h a b c) := by
  refine encodes_of _ (mk h 0x240 0 0 a.enc11 b.enc11 c.enc10) _ rfl rfl (fun hw => ?_) (fun hw => ?_)
  all_goals replace hw : (abcOk h [(a, .w64), (b, .w64)] c .w32) = true := hw
  all_goals (cases hg : h.g <;> simp [hg, intOk, int3Ok, abOk, abcOk, Head.bare, IOp.srcs] at hw)
  all_goals first
    | (refine failing_nil _ _ ?_ ?_ ?_ ?_ ?_ ?_ ?_ ?_ ?_ ?_ <;> simp_all)
    | simp_all

theorem Laws.Encoding.pgunmap (h : Head) (a : Src) (b : Src) :
    Laws.Encoding.Statement (.pgunmap h a b) := by
  refine encodes_of _ (mk h 0x241 0 0 a.enc11 b.enc11 0) _ rfl rfl (fun hw => ?_) (fun hw => ?_)
  all_goals replace hw : (abOk h [(a, .w64), (b, .w64)]) = true := hw
  all_goals (cases hg : h.g <;> simp [hg, intOk, int3Ok, abOk, abcOk, Head.bare, IOp.srcs] at hw)
  all_goals first
    | (refine failing_nil _ _ ?_ ?_ ?_ ?_ ?_ ?_ ?_ ?_ ?_ ?_ <;> simp_all)
    | simp_all

theorem Laws.Encoding.tlbinv (h : Head) (d : BitVec 8) (a : Src) (b : Src) :
    Laws.Encoding.Statement (.tlbinv h d a b) := by
  refine encodes_of _ (mk h 0x242 0 d a.enc11 b.enc11 0) _ rfl rfl (fun hw => ?_) (fun hw => ?_)
  all_goals replace hw : (dataOk h.g false d && abOk h [(a, .addr), (b, .addr)] true) = true := hw
  all_goals (cases hg : h.g <;> simp [hg, intOk, int3Ok, abOk, abcOk, Head.bare, IOp.srcs] at hw)
  all_goals first
    | (refine failing_nil _ _ ?_ ?_ ?_ ?_ ?_ ?_ ?_ ?_ ?_ ?_ <;> simp_all)
    | simp_all

theorem Laws.Encoding.tlbinvSync (h : Head) (d : BitVec 8) (a : Src) (b : Src) :
    Laws.Encoding.Statement (.tlbinvSync h d a b) := by
  refine encodes_of _ (mk h 0x242 1 d a.enc11 b.enc11 0) _ rfl rfl (fun hw => ?_) (fun hw => ?_)
  all_goals replace hw : (dataOk h.g false d && abOk h [(a, .addr), (b, .addr)] true) = true := hw
  all_goals (cases hg : h.g <;> simp [hg, intOk, int3Ok, abOk, abcOk, Head.bare, IOp.srcs] at hw)
  all_goals first
    | (refine failing_nil _ _ ?_ ?_ ?_ ?_ ?_ ?_ ?_ ?_ ?_ ?_ <;> simp_all)
    | simp_all

theorem Laws.Encoding.clean (h : Head) (d : BitVec 8) (a : Src) (b : Src) :
    Laws.Encoding.Statement (.clean h d a b) := by
  refine encodes_of _ (mk h 0x243 0 d a.enc11 b.enc11 0) _ rfl rfl (fun hw => ?_) (fun hw => ?_)
  all_goals replace hw : (dataOk h.g false d && abOk h [(a, .addr), (b, .addr)] true) = true := hw
  all_goals (cases hg : h.g <;> simp [hg, intOk, int3Ok, abOk, abcOk, Head.bare, IOp.srcs] at hw)
  all_goals first
    | (refine failing_nil _ _ ?_ ?_ ?_ ?_ ?_ ?_ ?_ ?_ ?_ ?_ <;> simp_all)
    | simp_all

theorem Laws.Encoding.invl (h : Head) (d : BitVec 8) (a : Src) (b : Src) :
    Laws.Encoding.Statement (.invl h d a b) := by
  refine encodes_of _ (mk h 0x244 0 d a.enc11 b.enc11 0) _ rfl rfl (fun hw => ?_) (fun hw => ?_)
  all_goals replace hw : (dataOk h.g false d && abOk h [(a, .addr), (b, .addr)] true) = true := hw
  all_goals (cases hg : h.g <;> simp [hg, intOk, int3Ok, abOk, abcOk, Head.bare, IOp.srcs] at hw)
  all_goals first
    | (refine failing_nil _ _ ?_ ?_ ?_ ?_ ?_ ?_ ?_ ?_ ?_ ?_ <;> simp_all)
    | simp_all

theorem Laws.Encoding.scwin (h : Head) (a : Src) (b : Src) (win : BitVec 2) (mode : BitVec 2) :
    Laws.Encoding.Statement (.scwin h a b win mode) := by
  refine encodes_of _ (mk h 0x245 0 0 a.enc11 b.enc11 (Src.imm (0#2 ++ mode ++ win)).enc10) _ rfl rfl (fun hw => ?_) (fun hw => ?_)
  all_goals replace hw : (mode != 3 && abOk h [(a, .w64), (b, .w64)]) = true := hw
  all_goals (cases hg : h.g <;> simp [hg, intOk, int3Ok, abOk, abcOk, Head.bare, IOp.srcs] at hw)
  all_goals first
    | (refine failing_nil _ _ ?_ ?_ ?_ ?_ ?_ ?_ ?_ ?_ ?_ ?_ <;> simp_all)
    | simp_all

theorem Laws.Encoding.cpy (h : Head) (d : BitVec 4) (a : Src) (b : Src) (c : Src) :
    Laws.Encoding.Statement (.cpy h d a b c) := by
  refine encodes_of _ (mk h 0x280 0 (0#4 ++ d) a.enc11 b.enc11 c.enc10) _ rfl rfl (fun hw => ?_) (fun hw => ?_)
  all_goals replace hw : (abcOk h [(a, .w64), (b, .w64)] c .w32) = true := hw
  all_goals (cases hg : h.g <;> simp [hg, intOk, int3Ok, abOk, abcOk, Head.bare, IOp.srcs] at hw)
  all_goals first
    | (refine failing_nil _ _ ?_ ?_ ?_ ?_ ?_ ?_ ?_ ?_ ?_ ?_ <;> simp_all)
    | simp_all

theorem Laws.Encoding.rstr (h : Head) (d : BitVec 4) (a : Src) (b : Src) (c : BitVec 10) :
    Laws.Encoding.Statement (.rstr h d a b c) := by
  refine encodes_of _ (mk h 0x281 0 (0#4 ++ d) a.enc11 b.enc11 c) _ rfl rfl (fun hw => ?_) (fun hw => ?_)
  all_goals replace hw : (abOk h [(a, .w64), (b, .w64)]) = true := hw
  all_goals (cases hg : h.g <;> simp [hg, intOk, int3Ok, abOk, abcOk, Head.bare, IOp.srcs] at hw)
  all_goals first
    | (refine failing_nil _ _ ?_ ?_ ?_ ?_ ?_ ?_ ?_ ?_ ?_ ?_ <;> simp_all)
    | simp_all

theorem Laws.Encoding.fwait (h : Head) (hn : BitVec 4) :
    Laws.Encoding.Statement (.fwait h hn) := by
  refine encodes_of _ (mk h 0x282 0 0 (Src.h hn).enc11 0 0) _ rfl rfl (fun hw => ?_) (fun hw => ?_)
  all_goals replace hw : (h.bare) = true := hw
  all_goals (cases hg : h.g <;> simp [hg, intOk, int3Ok, abOk, abcOk, Head.bare, IOp.srcs] at hw)
  all_goals first
    | (refine failing_nil _ _ ?_ ?_ ?_ ?_ ?_ ?_ ?_ ?_ ?_ ?_ <;> simp_all)
    | simp_all

theorem Laws.Encoding.ftest (h : Head) (d : BitVec 3) (hn : BitVec 4) :
    Laws.Encoding.Statement (.ftest h d hn) := by
  refine encodes_of _ (mk h 0x283 0 (0#5 ++ d) (Src.h hn).enc11 0 0) _ rfl rfl (fun hw => ?_) (fun hw => ?_)
  all_goals replace hw : (h.bare) = true := hw
  all_goals (cases hg : h.g <;> simp [hg, intOk, int3Ok, abOk, abcOk, Head.bare, IOp.srcs] at hw)
  all_goals first
    | (refine failing_nil _ _ ?_ ?_ ?_ ?_ ?_ ?_ ?_ ?_ ?_ ?_ <;> simp_all)
    | simp_all

theorem Laws.Encoding.fcancel (h : Head) (hn : BitVec 4) :
    Laws.Encoding.Statement (.fcancel h hn) := by
  refine encodes_of _ (mk h 0x284 0 0 (Src.h hn).enc11 0 0) _ rfl rfl (fun hw => ?_) (fun hw => ?_)
  all_goals replace hw : (h.bare) = true := hw
  all_goals (cases hg : h.g <;> simp [hg, intOk, int3Ok, abOk, abcOk, Head.bare, IOp.srcs] at hw)
  all_goals first
    | (refine failing_nil _ _ ?_ ?_ ?_ ?_ ?_ ?_ ?_ ?_ ?_ ?_ <;> simp_all)
    | simp_all

theorem Laws.Encoding.yld (h : Head) (hn : BitVec 4) (f : BitVec 20) :
    Laws.Encoding.Statement (.yld h hn f) := by
  refine encodes_of _ (mkF h 0x285 0 0 (Src.h hn).enc11 f) _ rfl rfl (fun hw => ?_) (fun hw => ?_)
  all_goals replace hw : (h.bare) = true := hw
  all_goals (cases hg : h.g <;> simp [hg, intOk, int3Ok, abOk, abcOk, Head.bare, IOp.srcs] at hw)
  all_goals first
    | (refine failing_nil _ _ ?_ ?_ ?_ ?_ ?_ ?_ ?_ ?_ ?_ ?_ <;> simp_all)
    | simp_all

theorem Laws.Encoding.tsub (h : Head) (d : BitVec 4) (a : Src) :
    Laws.Encoding.Statement (.tsub h d a) := by
  refine encodes_of _ (mk h 0x286 0 (0#4 ++ d) a.enc11 0 0) _ rfl rfl (fun hw => ?_) (fun hw => ?_)
  all_goals replace hw : (abOk h [(a, .w64)]) = true := hw
  all_goals (cases hg : h.g <;> simp [hg, intOk, int3Ok, abOk, abcOk, Head.bare, IOp.srcs] at hw)
  all_goals first
    | (refine failing_nil _ _ ?_ ?_ ?_ ?_ ?_ ?_ ?_ ?_ ?_ ?_ <;> simp_all)
    | simp_all

theorem Laws.Encoding.emit (h : Head) (a : Src) (b : Src) :
    Laws.Encoding.Statement (.emit h a b) := by
  refine encodes_of _ (mk h 0x287 0 0 a.enc11 b.enc11 0) _ rfl rfl (fun hw => ?_) (fun hw => ?_)
  all_goals replace hw : (abOk h [(a, .w64), (b, .w64)]) = true := hw
  all_goals (cases hg : h.g <;> simp [hg, intOk, int3Ok, abOk, abcOk, Head.bare, IOp.srcs] at hw)
  all_goals first
    | (refine failing_nil _ _ ?_ ?_ ?_ ?_ ?_ ?_ ?_ ?_ ?_ ?_ <;> simp_all [emitChecks])
    | (simp_all [emitChecks])

theorem Laws.Encoding.emitFlush (h : Head) (a : Src) :
    Laws.Encoding.Statement (.emitFlush h a) := by
  refine encodes_of _ (mk h 0x287 1 0 a.enc11 0 0) _ rfl rfl (fun hw => ?_) (fun hw => ?_)
  all_goals replace hw : (abOk h [(a, .w64)]) = true := hw
  all_goals (cases hg : h.g <;> simp [hg, intOk, int3Ok, abOk, abcOk, Head.bare, IOp.srcs] at hw)
  all_goals first
    | (refine failing_nil _ _ ?_ ?_ ?_ ?_ ?_ ?_ ?_ ?_ ?_ ?_ <;> simp_all [emitChecks])
    | (simp_all [emitChecks])

theorem Laws.Encoding.lnch (h : Head) (d : BitVec 4) (a : Src) (prio : BitVec 2) :
    Laws.Encoding.Statement (.lnch h d a prio) := by
  refine encodes_of _ (mk h 0x288 0 (0#4 ++ d) a.enc11 (Src.imm (0#4 ++ prio)).enc11 0) _ rfl rfl (fun hw => ?_) (fun hw => ?_)
  all_goals replace hw : (abOk h [(a, .w64)]) = true := hw
  all_goals (cases hg : h.g <;> simp [hg, intOk, int3Ok, abOk, abcOk, Head.bare, IOp.srcs] at hw)
  all_goals first
    | (refine failing_nil _ _ ?_ ?_ ?_ ?_ ?_ ?_ ?_ ?_ ?_ ?_ <;> simp_all)
    | simp_all

theorem Laws.Encoding.mma (h : Head) (ty : Ty) (d : BitVec 4) (a : Src) (b : Src) (m : BitVec 4) :
    Laws.Encoding.Statement (.mma h ty d a b m) := by
  refine encodes_of _ (mk h 0x2C0 ty.code (0#4 ++ d) a.enc11 b.enc11 (mC ty m)) _ rfl rfl (fun hw => ?_) (fun hw => ?_)
  all_goals replace hw : ((ty.isFlt || ty == .bfp) && mOk ty m && abOk h [(a, .w64), (b, .w64)]) = true := hw
  all_goals cases ty
  all_goals (cases hg : h.g <;> simp [hg, intOk, int3Ok, abOk, abcOk, Head.bare, IOp.srcs] at hw)
  all_goals first
    | (refine failing_nil _ _ ?_ ?_ ?_ ?_ ?_ ?_ ?_ ?_ ?_ ?_ <;> simp_all [mC, mChecks, Src.refusedBy, Raw.m, mOk, int_two_le])
    | (simp_all [mC, mChecks, Src.refusedBy, Raw.m, mOk, int_two_le])

theorem Laws.Encoding.mxfnc (h : Head) (ty : Ty) (d : BitVec 4) (a : Src) (b : Src) (m : BitVec 4) :
    Laws.Encoding.Statement (.mxfnc h ty d a b m) := by
  refine encodes_of _ (mk h 0x2C1 ty.code (0#4 ++ d) a.enc11 b.enc11 (mC ty m)) _ rfl rfl (fun hw => ?_) (fun hw => ?_)
  all_goals replace hw : ((ty.isFlt || ty == .bfp) && mOk ty m && abOk h [(a, .w64), (b, .w64)]) = true := hw
  all_goals cases ty
  all_goals (cases hg : h.g <;> simp [hg, intOk, int3Ok, abOk, abcOk, Head.bare, IOp.srcs] at hw)
  all_goals first
    | (refine failing_nil _ _ ?_ ?_ ?_ ?_ ?_ ?_ ?_ ?_ ?_ ?_ <;> simp_all [mC, mChecks, Src.refusedBy, Raw.m, mOk, int_two_le])
    | (simp_all [mC, mChecks, Src.refusedBy, Raw.m, mOk, int_two_le])

theorem Laws.Encoding.scacc (h : Head) (d : BitVec 4) (a : Src) (b : Src) (m : BitVec 4) :
    Laws.Encoding.Statement (.scacc h d a b m) := by
  refine encodes_of _ (mk h 0x2c2 12 (0#4 ++ d) a.enc11 b.enc11 (mC .bfp m)) _ rfl rfl (fun hw => ?_) (fun hw => ?_)
  all_goals replace hw : (mOk .bfp m && abOk h [(a, .w64), (b, .w64)]) = true := hw
  all_goals (cases hg : h.g <;> simp [hg, intOk, int3Ok, abOk, abcOk, Head.bare, IOp.srcs] at hw)
  all_goals first
    | (refine failing_nil _ _ ?_ ?_ ?_ ?_ ?_ ?_ ?_ ?_ ?_ ?_ <;> simp_all [mC, mChecks, Src.refusedBy, Raw.m, mOk, int_two_le])
    | (simp_all [mC, mChecks, Src.refusedBy, Raw.m, mOk, int_two_le])

theorem Laws.Encoding.bqnt (h : Head) (d : BitVec 4) (a : Src) (b : Src) (m : BitVec 4) :
    Laws.Encoding.Statement (.bqnt h d a b m) := by
  refine encodes_of _ (mk h 0x2c3 12 (0#4 ++ d) a.enc11 b.enc11 (mC .bfp m)) _ rfl rfl (fun hw => ?_) (fun hw => ?_)
  all_goals replace hw : (mOk .bfp m && abOk h [(a, .w64), (b, .w64)]) = true := hw
  all_goals (cases hg : h.g <;> simp [hg, intOk, int3Ok, abOk, abcOk, Head.bare, IOp.srcs] at hw)
  all_goals first
    | (refine failing_nil _ _ ?_ ?_ ?_ ?_ ?_ ?_ ?_ ?_ ?_ ?_ <;> simp_all [mC, mChecks, Src.refusedBy, Raw.m, mOk, int_two_le])
    | (simp_all [mC, mChecks, Src.refusedBy, Raw.m, mOk, int_two_le])

theorem Laws.Encoding.bunp (h : Head) (d : BitVec 4) (a : Src) (b : Src) (m : BitVec 4) :
    Laws.Encoding.Statement (.bunp h d a b m) := by
  refine encodes_of _ (mk h 0x2c4 12 (0#4 ++ d) a.enc11 b.enc11 (mC .bfp m)) _ rfl rfl (fun hw => ?_) (fun hw => ?_)
  all_goals replace hw : (mOk .bfp m && abOk h [(a, .w64), (b, .w64)]) = true := hw
  all_goals (cases hg : h.g <;> simp [hg, intOk, int3Ok, abOk, abcOk, Head.bare, IOp.srcs] at hw)
  all_goals first
    | (refine failing_nil _ _ ?_ ?_ ?_ ?_ ?_ ?_ ?_ ?_ ?_ ?_ <;> simp_all [mC, mChecks, Src.refusedBy, Raw.m, mOk, int_two_le])
    | (simp_all [mC, mChecks, Src.refusedBy, Raw.m, mOk, int_two_le])

theorem Laws.Encoding.accz (h : Head) (ty : Ty) (a : Src) (b : Src) (m : BitVec 4) :
    Laws.Encoding.Statement (.accz h ty a b m) := by
  refine encodes_of _ (mk h 0x2C5 ty.code 0 a.enc11 b.enc11 (mC ty m)) _ rfl rfl (fun hw => ?_) (fun hw => ?_)
  all_goals replace hw : ((ty == .i32 || ty == .f32 || ty == .f64 || ty == .bfp) && mOk ty m && abOk h [(a, .w64), (b, .w64)]) = true := hw
  all_goals cases ty
  all_goals (cases hg : h.g <;> simp [hg, intOk, int3Ok, abOk, abcOk, Head.bare, IOp.srcs] at hw)
  all_goals first
    | (refine failing_nil _ _ ?_ ?_ ?_ ?_ ?_ ?_ ?_ ?_ ?_ ?_ <;> simp_all [mC, mChecks, Src.refusedBy, Raw.m, mOk, int_two_le])
    | simp_all [mC, mChecks, Src.refusedBy, Raw.m, mOk, int_two_le]

theorem Laws.Encoding.unite (h : Head) (r : Res) (a : Src) (b : Src) (c : Src) :
    Laws.Encoding.Statement (.unite h r a b c) := by
  refine encodes_of _ ((mk h 0x300 1 r.d a.enc11 b.enc11 c.enc10).withRes r) _ rfl rfl (fun hw => ?_) (fun hw => ?_)
  all_goals replace hw : (r.ok h.g false && abcOk h [(a, .uni32), (b, .w32)] c .w32) = true := hw
  all_goals (cases hg : h.g <;> simp [hg, intOk, int3Ok, abOk, abcOk, Head.bare, IOp.srcs] at hw)
  all_goals first
    | (refine failing_nil _ _ ?_ ?_ ?_ ?_ ?_ ?_ ?_ ?_ ?_ ?_ <;> simp_all)
    | simp_all

theorem Laws.Encoding.find (h : Head) (r : Res) (a : Src) (b : Src) :
    Laws.Encoding.Statement (.find h r a b) := by
  refine encodes_of _ ((mk h 0x301 1 r.d a.enc11 b.enc11 0).withRes r) _ rfl rfl (fun hw => ?_) (fun hw => ?_)
  all_goals replace hw : (r.ok h.g false && abOk h [(a, .uni32), (b, .w32)]) = true := hw
  all_goals (cases hg : h.g <;> simp [hg, intOk, int3Ok, abOk, abcOk, Head.bare, IOp.srcs] at hw)
  all_goals first
    | (refine failing_nil _ _ ?_ ?_ ?_ ?_ ?_ ?_ ?_ ?_ ?_ ?_ <;> simp_all)
    | simp_all

theorem Laws.Encoding.csize (h : Head) (r : Res) (a : Src) (b : Src) :
    Laws.Encoding.Statement (.csize h r a b) := by
  refine encodes_of _ ((mk h 0x302 1 r.d a.enc11 b.enc11 0).withRes r) _ rfl rfl (fun hw => ?_) (fun hw => ?_)
  all_goals replace hw : (r.ok h.g false && abOk h [(a, .uni32), (b, .w32)]) = true := hw
  all_goals (cases hg : h.g <;> simp [hg, intOk, int3Ok, abOk, abcOk, Head.bare, IOp.srcs] at hw)
  all_goals first
    | (refine failing_nil _ _ ?_ ?_ ?_ ?_ ?_ ?_ ?_ ?_ ?_ ?_ <;> simp_all)
    | simp_all

theorem Laws.Encoding.fcount (h : Head) (r : Res) (a : Src) (sel : BitVec 2) :
    Laws.Encoding.Statement (.fcount h r a sel) := by
  refine encodes_of _ ((mk h 0x303 1 r.d a.enc11 (Src.imm (0#4 ++ sel)).enc11 0).withRes r) _ rfl rfl (fun hw => ?_) (fun hw => ?_)
  all_goals replace hw : (r.ok h.g false && abOk h [(a, .uni32)]) = true := hw
  all_goals (cases hg : h.g <;> simp [hg, intOk, int3Ok, abOk, abcOk, Head.bare, IOp.srcs] at hw)
  all_goals first
    | (refine failing_nil _ _ ?_ ?_ ?_ ?_ ?_ ?_ ?_ ?_ ?_ ?_ <;> simp_all)
    | simp_all

theorem Laws.Encoding.relabel (h : Head) (ty : Ty) (d : BitVec 4) (a : Src) (b : Src) :
    Laws.Encoding.Statement (.relabel h ty d a b) := by
  refine encodes_of _ (mk h 0x304 ty.code (0#4 ++ d) a.enc11 b.enc11 (mC ty 8)) _ rfl rfl (fun hw => ?_) (fun hw => ?_)
  all_goals replace hw : ((ty == .f32 || ty == .bf16 || ty == .bfp) && abOk h [(a, .uni32), (b, .w64)]) = true := hw
  all_goals cases ty
  all_goals (cases hg : h.g <;> simp [hg, intOk, int3Ok, abOk, abcOk, Head.bare, IOp.srcs] at hw)
  all_goals first
    | (refine failing_nil _ _ ?_ ?_ ?_ ?_ ?_ ?_ ?_ ?_ ?_ ?_ <;> simp_all [mC, mChecks])
    | (simp_all [mC, mChecks])

theorem Laws.Encoding.fsnap (h : Head) (a : Src) :
    Laws.Encoding.Statement (.fsnap h a) := by
  refine encodes_of _ (mk h 0x305 0 0 a.enc11 0 0) _ rfl rfl (fun hw => ?_) (fun hw => ?_)
  all_goals replace hw : (abOk h [(a, .uni32)]) = true := hw
  all_goals (cases hg : h.g <;> simp [hg, intOk, int3Ok, abOk, abcOk, Head.bare, IOp.srcs] at hw)
  all_goals first
    | (refine failing_nil _ _ ?_ ?_ ?_ ?_ ?_ ?_ ?_ ?_ ?_ ?_ <;> simp_all)
    | simp_all

theorem Laws.Encoding.fundo (h : Head) (a : Src) :
    Laws.Encoding.Statement (.fundo h a) := by
  refine encodes_of _ (mk h 0x306 0 0 a.enc11 0 0) _ rfl rfl (fun hw => ?_) (fun hw => ?_)
  all_goals replace hw : (abOk h [(a, .uni32)]) = true := hw
  all_goals (cases hg : h.g <;> simp [hg, intOk, int3Ok, abOk, abcOk, Head.bare, IOp.srcs] at hw)
  all_goals first
    | (refine failing_nil _ _ ?_ ?_ ?_ ?_ ?_ ?_ ?_ ?_ ?_ ?_ <;> simp_all)
    | simp_all

theorem Laws.Encoding.freset (h : Head) (a : Src) :
    Laws.Encoding.Statement (.freset h a) := by
  refine encodes_of _ (mk h 0x307 0 0 a.enc11 0 0) _ rfl rfl (fun hw => ?_) (fun hw => ?_)
  all_goals replace hw : (abOk h [(a, .uni32)]) = true := hw
  all_goals (cases hg : h.g <;> simp [hg, intOk, int3Ok, abOk, abcOk, Head.bare, IOp.srcs] at hw)
  all_goals first
    | (refine failing_nil _ _ ?_ ?_ ?_ ?_ ?_ ?_ ?_ ?_ ?_ ?_ <;> simp_all)
    | simp_all

theorem Laws.Encoding.rcp (h : Head) (d : BitVec 8) (k : BitVec 8) :
    Laws.Encoding.Statement (.rcp h d k) := by
  refine encodes_of _ (mkF h 0x340 0 d 0 (0#12 ++ k)) _ rfl rfl (fun hw => ?_) (fun hw => ?_)
  all_goals replace hw : (h.bare && !h.g) = true := hw
  all_goals (cases hg : h.g <;> simp [hg, intOk, int3Ok, abOk, abcOk, Head.bare, IOp.srcs] at hw)
  all_goals first
    | (refine failing_nil _ _ ?_ ?_ ?_ ?_ ?_ ?_ ?_ ?_ ?_ ?_ <;> simp_all)
    | simp_all

theorem Laws.Encoding.rcpdrop (h : Head) (d : BitVec 8) :
    Laws.Encoding.Statement (.rcpdrop h d) := by
  refine encodes_of _ (mk h 0x341 0 d 0 0 0) _ rfl rfl (fun hw => ?_) (fun hw => ?_)
  all_goals replace hw : (h.bare && !h.g) = true := hw
  all_goals (cases hg : h.g <;> simp [hg, intOk, int3Ok, abOk, abcOk, Head.bare, IOp.srcs] at hw)
  all_goals first
    | (refine failing_nil _ _ ?_ ?_ ?_ ?_ ?_ ?_ ?_ ?_ ?_ ?_ <;> simp_all)
    | simp_all

theorem Laws.Encoding.rcpmat (h : Head) (d : BitVec 8) :
    Laws.Encoding.Statement (.rcpmat h d) := by
  refine encodes_of _ (mk h 0x342 0 d 0 0 0) _ rfl rfl (fun hw => ?_) (fun hw => ?_)
  all_goals replace hw : (h.bare && !h.g) = true := hw
  all_goals (cases hg : h.g <;> simp [hg, intOk, int3Ok, abOk, abcOk, Head.bare, IOp.srcs] at hw)
  all_goals first
    | (refine failing_nil _ _ ?_ ?_ ?_ ?_ ?_ ?_ ?_ ?_ ?_ ?_ <;> simp_all)
    | simp_all

theorem Laws.Encoding.rcpdem (h : Head) (d : BitVec 8) :
    Laws.Encoding.Statement (.rcpdem h d) := by
  refine encodes_of _ (mk h 0x343 0 d 0 0 0) _ rfl rfl (fun hw => ?_) (fun hw => ?_)
  all_goals replace hw : (h.bare && !h.g) = true := hw
  all_goals (cases hg : h.g <;> simp [hg, intOk, int3Ok, abOk, abcOk, Head.bare, IOp.srcs] at hw)
  all_goals first
    | (refine failing_nil _ _ ?_ ?_ ?_ ?_ ?_ ?_ ?_ ?_ ?_ ?_ <;> simp_all)
    | simp_all

theorem Laws.Encoding.cntrd (h : Head) (r : Res) (n : Counter) :
    Laws.Encoding.Statement (.cntrd h r n) := by
  refine encodes_of _ ((mkF h 0x380 2 r.d 0 n.code).withRes r) _ rfl rfl (fun hw => ?_) (fun hw => ?_)
  all_goals replace hw : (h.bare && r.ok h.g true && n.ok) = true := hw
  all_goals (cases hg : h.g <;> simp [hg, intOk, int3Ok, abOk, abcOk, Head.bare, IOp.srcs] at hw)
  all_goals first
    | (refine failing_nil _ _ ?_ ?_ ?_ ?_ ?_ ?_ ?_ ?_ ?_ ?_ <;> simp_all)
    | simp_all

theorem Laws.Encoding.cntsn (h : Head) (d : BitVec 4) (a : Src) (sel : Bool) :
    Laws.Encoding.Statement (.cntsn h d a sel) := by
  refine encodes_of _ (mk h 0x381 0 (0#4 ++ d) a.enc11 (Src.imm (if sel then 1 else 0)).enc11 0) _ rfl rfl (fun hw => ?_) (fun hw => ?_)
  all_goals replace hw : (abOk h [(a, .w64)]) = true := hw
  all_goals cases sel
  all_goals (cases hg : h.g <;> simp [hg, intOk, int3Ok, abOk, abcOk, Head.bare, IOp.srcs] at hw)
  all_goals first
    | (refine failing_nil _ _ ?_ ?_ ?_ ?_ ?_ ?_ ?_ ?_ ?_ ?_ <;> simp_all)
    | simp_all

theorem Laws.Encoding.pwrset (h : Head) (c : BitVec 2) :
    Laws.Encoding.Statement (.pwrset h c) := by
  refine encodes_of _ (mkF h 0x382 0 0 0 (0#18 ++ c)) _ rfl rfl (fun hw => ?_) (fun hw => ?_)
  all_goals replace hw : (h.bare && h.g && c.toNat < 3) = true := hw
  all_goals (cases hg : h.g <;> simp [hg, intOk, int3Ok, abOk, abcOk, Head.bare, IOp.srcs] at hw)
  all_goals first
    | (refine failing_nil _ _ ?_ ?_ ?_ ?_ ?_ ?_ ?_ ?_ ?_ ?_ <;> simp_all)
    | simp_all

theorem Laws.Encoding.issue (site : Site) (upset : Upset) :
    Laws.Encoding.Statement (.issue site upset) := event_encodes _ rfl

theorem Laws.Encoding.withholdStarvation (cluster : Nat) (g : GRef) :
    Laws.Encoding.Statement (.withholdStarvation cluster g) := event_encodes _ rfl

theorem Laws.Encoding.performLoad (g : GRef) (op : Nat) (lane : Nat) (ecc : Ecc) :
    Laws.Encoding.Statement (.performLoad g op lane ecc) := event_encodes _ rfl

theorem Laws.Encoding.commit (g : GRef) (op : Nat) (lane : Nat) :
    Laws.Encoding.Statement (.commit g op lane) := event_encodes _ rfl

theorem Laws.Encoding.apply (die : Nat) (k : Nat) :
    Laws.Encoding.Statement (.apply die k) := event_encodes _ rfl

theorem Laws.Encoding.atomic (g : GRef) (op : Nat) (lane : Nat) :
    Laws.Encoding.Statement (.atomic g op lane) := event_encodes _ rfl

theorem Laws.Encoding.complete (g : GRef) (op : Nat) :
    Laws.Encoding.Statement (.complete g op) := event_encodes _ rfl

theorem Laws.Encoding.engine (cmd : Nat) :
    Laws.Encoding.Statement (.engine cmd) := event_encodes _ rfl

theorem Laws.Encoding.atomicReply (g : GRef) (op : Nat) (lane : Nat) :
    Laws.Encoding.Statement (.atomicReply g op lane) := event_encodes _ rfl

theorem Laws.Encoding.requestResend (g : GRef) (op : Nat) (lane : Nat) :
    Laws.Encoding.Statement (.requestResend g op lane) := event_encodes _ rfl

theorem Laws.Encoding.oredArrive (g : GRef) (op : Nat) (lane : Nat) :
    Laws.Encoding.Statement (.oredArrive g op lane) := event_encodes _ rfl

theorem Laws.Encoding.oredHeldApply (k : Nat) :
    Laws.Encoding.Statement (.oredHeldApply k) := event_encodes _ rfl

theorem Laws.Encoding.oredRetry (g : GRef) (op : Nat) :
    Laws.Encoding.Statement (.oredRetry g op) := event_encodes _ rfl

theorem Laws.Encoding.forestStep (g : GRef) (op : Nat) (lane : Nat) :
    Laws.Encoding.Statement (.forestStep g op lane) := event_encodes _ rfl

theorem Laws.Encoding.splitMerge (g : GRef) (a : Nat) (b : Nat) :
    Laws.Encoding.Statement (.splitMerge g a b) := event_encodes _ rfl

theorem Laws.Encoding.splitOverflow (g : GRef) :
    Laws.Encoding.Statement (.splitOverflow g) := event_encodes _ rfl

theorem Laws.Encoding.rjdl (g : GRef) :
    Laws.Encoding.Statement (.rjdl g) := event_encodes _ rfl

theorem Laws.Encoding.rollback (g : GRef) :
    Laws.Encoding.Statement (.rollback g) := event_encodes _ rfl

theorem Laws.Encoding.demotion (g : GRef) (reg : Nat) :
    Laws.Encoding.Statement (.demotion g reg) := event_encodes _ rfl

theorem Laws.Encoding.fetchFill (core : Nat) (line : Nat) :
    Laws.Encoding.Statement (.fetchFill core line) := event_encodes _ rfl

theorem Laws.Encoding.windowFill (team : Nat) (win : Nat) (blk : Nat) :
    Laws.Encoding.Statement (.windowFill team win blk) := event_encodes _ rfl

theorem Laws.Encoding.handleComplete (cmd : Nat) :
    Laws.Encoding.Statement (.handleComplete cmd) := event_encodes _ rfl

theorem Laws.Encoding.copyStart (core : Nat) :
    Laws.Encoding.Statement (.copyStart core) := event_encodes _ rfl

theorem Laws.Encoding.tileRecordStart (pair : Nat) (engine : Nat) :
    Laws.Encoding.Statement (.tileRecordStart pair engine) := event_encodes _ rfl

theorem Laws.Encoding.tileRecordComplete (pair : Nat) (cmd : Nat) :
    Laws.Encoding.Statement (.tileRecordComplete pair cmd) := event_encodes _ rfl

theorem Laws.Encoding.rstrBlockMove (cmd : Nat) :
    Laws.Encoding.Statement (.rstrBlockMove cmd) := event_encodes _ rfl

theorem Laws.Encoding.relabelRun (cmd : Nat) :
    Laws.Encoding.Statement (.relabelRun cmd) := event_encodes _ rfl

theorem Laws.Encoding.launchCommand (part : Nat) (slot : Nat) (prio : Nat) (single : Bool) (words : List W64) :
    Laws.Encoding.Statement (.launchCommand part slot prio single words) := event_encodes _ rfl

theorem Laws.Encoding.ptrootWrite (part : Nat) (slot : Nat) (value : W64) :
    Laws.Encoding.Statement (.ptrootWrite part slot value) := event_encodes _ rfl

theorem Laws.Encoding.quantumWrite (part : Nat) (value : W32) :
    Laws.Encoding.Statement (.quantumWrite part value) := event_encodes _ rfl

theorem Laws.Encoding.timeSliceTick (part : Nat) :
    Laws.Encoding.Statement (.timeSliceTick part) := event_encodes _ rfl

theorem Laws.Encoding.contextRecordWrite (part : Nat) (slot : Nat) (offset : Nat) (value : W64) :
    Laws.Encoding.Statement (.contextRecordWrite part slot offset value) := event_encodes _ rfl

theorem Laws.Encoding.severityWrite (cls : Nat) (value : W32) :
    Laws.Encoding.Statement (.severityWrite cls value) := event_encodes _ rfl

theorem Laws.Encoding.registerWrite (bar : Nat) (offset : Nat) (value : W64) :
    Laws.Encoding.Statement (.registerWrite bar offset value) := event_encodes _ rfl

theorem Laws.Encoding.launchDequeue (part : Nat) :
    Laws.Encoding.Statement (.launchDequeue part) := event_encodes _ rfl

theorem Laws.Encoding.teamSelect (part : Nat) (launch : Nat) (vcore : Nat) :
    Laws.Encoding.Statement (.teamSelect part launch vcore) := event_encodes _ rfl

theorem Laws.Encoding.teamAdmit (part : Nat) (entry : Nat) (place : Place) :
    Laws.Encoding.Statement (.teamAdmit part entry place) := event_encodes _ rfl

theorem Laws.Encoding.teamEvict (team : Nat) :
    Laws.Encoding.Statement (.teamEvict team) := event_encodes _ rfl

theorem Laws.Encoding.teamResume (part : Nat) (entry : Nat) (place : Place) :
    Laws.Encoding.Statement (.teamResume part entry place) := event_encodes _ rfl

theorem Laws.Encoding.segmentRecoveryEvict (g : GRef) (reg : Nat) :
    Laws.Encoding.Statement (.segmentRecoveryEvict g reg) := event_encodes _ rfl

theorem Laws.Encoding.teamEnd (team : Nat) :
    Laws.Encoding.Statement (.teamEnd team) := event_encodes _ rfl

theorem Laws.Encoding.launchComplete (launch : Nat) :
    Laws.Encoding.Statement (.launchComplete launch) := event_encodes _ rfl

theorem Laws.Encoding.orderLogDrain (die : Nat) :
    Laws.Encoding.Statement (.orderLogDrain die) := event_encodes _ rfl

theorem Laws.Encoding.powerModeChange (core : Nat) (quad : Nat) (lg : Nat) :
    Laws.Encoding.Statement (.powerModeChange core quad lg) := event_encodes _ rfl

theorem Laws.Encoding.refillUpdate (refill : Nat) (settings : List (Nat × Allowance)) :
    Laws.Encoding.Statement (.refillUpdate refill settings) := event_encodes _ rfl

theorem Laws.Encoding.energySeal :
    Laws.Encoding.Statement (.energySeal) := event_encodes _ rfl

theorem Laws.Encoding.signReading :
    Laws.Encoding.Statement (.signReading) := event_encodes _ rfl

theorem Laws.Encoding.hostRead (q : HostAsk) :
    Laws.Encoding.Statement (.hostRead q) := event_encodes _ rfl

theorem Laws.Encoding.hostWrite (m : HostMove) (pa : Nat) (bytes : List Byte) :
    Laws.Encoding.Statement (.hostWrite m pa bytes) := event_encodes _ rfl

theorem Laws.Encoding.cxlCacheSnoop (m : HostMove) (pa : Nat) (invalidate : Bool) :
    Laws.Encoding.Statement (.cxlCacheSnoop m pa invalidate) := event_encodes _ rfl

theorem Laws.Encoding.peerInbound (port : Nat) (pa : Nat) (bytes : List Byte) :
    Laws.Encoding.Statement (.peerInbound port pa bytes) := event_encodes _ rfl

theorem Laws.Encoding.dirRequest (core : Nat) (pa : Nat) (write : Bool) :
    Laws.Encoding.Statement (.dirRequest core pa write) := event_encodes _ rfl

theorem Laws.Encoding.dirOverflow (junction : Nat) (set : Nat) :
    Laws.Encoding.Statement (.dirOverflow junction set) := event_encodes _ rfl

theorem Laws.Encoding.prefetch (core : Option Nat) (pa : Nat) (part : Nat) :
    Laws.Encoding.Statement (.prefetch core pa part) := event_encodes _ rfl

theorem Laws.Encoding.skimmerWriteback (sector : Nat) (ue : Bool) :
    Laws.Encoding.Statement (.skimmerWriteback sector ue) := event_encodes _ rfl

theorem Laws.Encoding.patrolScrub (sector : Nat) (ecc : Ecc) :
    Laws.Encoding.Statement (.patrolScrub sector ecc) := event_encodes _ rfl

theorem Laws.Encoding.blackBoxRelease :
    Laws.Encoding.Statement (.blackBoxRelease) := event_encodes _ rfl

theorem Laws.Encoding.linkReplay (l : Link) :
    Laws.Encoding.Statement (.linkReplay l) := event_encodes _ rfl

theorem Laws.Encoding.linkDown (l : Link) :
    Laws.Encoding.Statement (.linkDown l) := event_encodes _ rfl

theorem Laws.Encoding.junctionFail (j : Nat) :
    Laws.Encoding.Statement (.junctionFail j) := event_encodes _ rfl

theorem Laws.Encoding.ctrlParity (site : ParitySite) :
    Laws.Encoding.Statement (.ctrlParity site) := event_encodes _ rfl

theorem Laws.Encoding.thermal (die : Nat) :
    Laws.Encoding.Statement (.thermal die) := event_encodes _ rfl

theorem Laws.Encoding.power (die : Option Nat) :
    Laws.Encoding.Statement (.power die) := event_encodes _ rfl

theorem Laws.Encoding.criticalTemperature (die : Nat) :
    Laws.Encoding.Statement (.criticalTemperature die) := event_encodes _ rfl

theorem Laws.Encoding.moduleReset :
    Laws.Encoding.Statement (.moduleReset) := event_encodes _ rfl

theorem Laws.Encoding.powerLoss :
    Laws.Encoding.Statement (.powerLoss) := event_encodes _ rfl

theorem Laws.Encoding.partitionConfigure (part : Nat) (clusters : BitVec 64) (ranges : List (Nat × Nat)) (shares : List Nat) :
    Laws.Encoding.Statement (.partitionConfigure part clusters ranges shares) := event_encodes _ rfl

theorem Laws.Encoding.peerWiring (port : Nat) (target : Nat) (boundPart : Option Nat) :
    Laws.Encoding.Statement (.peerWiring port target boundPart) := event_encodes _ rfl

theorem Laws.Encoding.measurementExtend (i : Nat) (image : List Byte) :
    Laws.Encoding.Statement (.measurementExtend i image) := event_encodes _ rfl

theorem Laws.Encoding.attestationQuote (nonce : BitVec 256) :
    Laws.Encoding.Statement (.attestationQuote nonce) := event_encodes _ rfl

theorem Laws.Encoding.lifecycleAdvance :
    Laws.Encoding.Statement (.lifecycleAdvance) := event_encodes _ rfl

theorem Laws.Encoding.powerOn :
    Laws.Encoding.Statement (.powerOn) := event_encodes _ rfl

theorem Laws.Encoding.coreCycle :
    Laws.Encoding.Statement (.coreCycle) := event_encodes _ rfl

end Sys2Proof
end

