-- ==== Sys2Proof/Safety.lean ====
section
/-! DEFINITION. The terms in which claims about the machine are made: the canonical form of memory, the invariant of every
step, what an instruction's frame leaves out, and the conditions under which an instruction runs. -/
namespace Sys2Proof.Machine

/-! ### Canonical memory -/

def View.wf (v : View) : Bool := Tab.wf 0 v.mem && Tab.wf 0 v.pos

/-- Every table of the memory system lists its keys in rising order and no default. -/
def Memory.wf (m : MemSys) : Bool :=
  m.views.all View.wf && Tab.wf 0 m.home && Tab.wf 0 m.host && Tab.wf none m.frameMap && Tab.wf 0 m.reserved
    && Tab.wf .good m.latent

/-- R175, R179: no die and no write on its way is ahead of the coherence order of a byte. -/
def MemSys.ordered (m : MemSys) : Prop :=
  ∀ v ∈ m.views, (∀ a, Tab.get 0 v.pos a ≤ Tab.get 0 m.home a)
    ∧ ∀ w ∈ v.queue, ∀ c : Nat × Byte × Nat, c ∈ w.cells → c.2.2 ≤ Tab.get 0 m.home c.1

/-- What every step keeps: memory in canonical form, one view and one clock entry for each die (R175), no byte ahead of its
coherence order (R179), and no frame whose placement word is illegal (R133, R134). -/
def Inv (s : State) : Prop :=
  Memory.wf s.mem = true ∧ s.mem.views.length = 8 ∧ (∀ v ∈ s.mem.views, v.clock.length = 8) ∧ s.mem.ordered
    ∧ ∀ f, legalPlacement (s.mem.frameWord f) = true

/-! ### What a frame leaves out

The counters by which the scheduler shares the datapaths (R274, R275, R357), the translation, instruction and constant
caches (R115, R130), who pays for the cycle (R360), the issuing split, the merges and other events that are due, and the model's own counters are no
result of an instruction. -/

def Split.facts (x : Split) : Split := { x with wait := if x.wait = .number then .none else x.wait }

def Group.facts (g : Group) : Group :=
  { g with wait := 0, waitU := 0, withheld := 0, heldAt := 0, splits := g.splits.map Split.facts }

def Team.facts (t : Team) : Team := { t with groups := t.groups.map Group.facts }

def Dev.facts (d : Dev) : Dev := { d with lanes := [], clusters := [], tlb := [], code := [], spent := [] }

/-- All of the machine but the scheduler's bookkeeping. -/
def State.facts (s : State) : State :=
  { s with teams := s.teams.map Team.facts, dev := s.dev.facts, cur := none, agenda := [], undefs := 0, choices := 0 }

/-! ### Running an instruction -/

/-- Split `c` issues: its team, its group, its launch. -/
def Issues (s : State) (c : Issuer) (t : Team) (g : Group) (l : Launch) : Prop :=
  s.cur = some c ∧ s.team? c.team = some t ∧ s.group? c.team c.gidx = some g ∧ s.launch? t.launch = some l
    ∧ (g.split c.split).live = true

/-- The head of an instruction. -/
def Instr.head (i : Instr) : Head := (i.raw.map Raw.head).getD ⟨false, false, 7, .none⟩

/-- R145, R282, R84: neither the level nor the slice area keeps the instruction from its own effect. -/
def Instr.runs (i : Instr) (e : Env) : Bool := (!i.supervisor || e.sup) && (!e.falls || Instr.choosesNext i)

/-- A group in place of the group of its number. -/
def State.withGroup (s : State) (u : Nat) (g : Group) : State := (Eff.group u g).apply s
def State.withTeam (s : State) (t : Team) : State := (Eff.team t).apply s

/-- The group in which the body of an instruction runs. -/
def State.starting (s : State) (c : Issuer) (g : Group) (i : Instr) : Group := g.begin c.split (s.dev.core g.core).cycle.toNat i

/-- The state in which the body of an instruction runs. -/
def State.begun (s : State) (c : Issuer) (g : Group) (i : Instr) : State := s.withGroup c.team (s.starting c g i)

/-- The group once the running instruction has ended; `w` is what its split waits for then. -/
def Group.ended (g : Group) (e : Env) (signed : Bool) (w : Wait) : Group :=
  g.modSplit e.split (fun x => x.after e signed w)

/-- An outcome that is a next state with nothing issuing, equal to `u` but for the scheduler's bookkeeping. -/
def Reaches (r : Host.Outcome State Fault Refusal) (u : State) : Prop :=
  ∃ t, r = .next t ∧ t.cur = none ∧ t.facts = u.facts

/-! ### Operands -/

/-- The value of a v register operand, where it is defined. -/
def regVal (g : Group) (lane r : Nat) (a : As) : Option W64 :=
  if a.wide then
    match g.vreg r lane, g.vreg (r + 1) lane with
    | some lo, some hi => some (zext32 lo ||| (zext32 hi <<< 32))
    | _, _ => none
  else (g.vreg r lane).map (fun x => match a with
    | .addr => sext32 x
    | .ty _ => zext32 x)

/-- The value of an operand, where it is defined. -/
def opndVal (g : Group) (lits : Lits) (lane : Nat) (o : Opnd) : Option W64 :=
  match o.src with
  | .v n => regVal g lane n.toNat o.as_
  | .vx x b => regVal g lane ((g.xreg x.toNat lane).toInt + (b.toNat : Int)).toNat o.as_
  | .s n => some (wide64 o.as_ (g.sreg n.toNat))
  | .x n => some (wide64 o.as_ ((g.xreg n.toNat lane).signExtend 64))
  | .h n => some (wide64 o.as_ (match g.handle n.toNat with
      | .complete v => v
      | _ => 0))
  | .b n => (Tab.get none g.latch (laneKey n.toNat lane)).map (wide64 o.as_)
  | .lit0 => some (litWord o.as_ (Lits.w0 lits))
  | .lit1 => some (litWord o.as_ (Lits.w1 lits))
  | .lit64 => some (zext32 (Lits.w0 lits) ||| (zext32 (Lits.w1 lits) <<< 32))
  | .imm i => some (immValue o.as_ i.toInt)

/-- Rows that hold, for each performed lane, the operands of a shape; an operand that is not defined may be anything. -/
def RowsOf (g : Group) (lits : Lits) (lanes : List Nat) (sh : Shape) (rows : Rows) : Prop :=
  rows.map (·.1) = lanes ∧ ∀ p : Nat × List W64, p ∈ rows → p.2.length = sh.srcs.length
    ∧ ∀ (k : Nat) (o : Opnd) (v : W64), sh.srcs[k]? = some o → opndVal g lits p.1 o = some v → p.2[k]? = some v

/-- Nothing keeps the operands of a shape from being read now: no pending result or handle (R176, R193), every register
inside the allocation (R248), no register in recipe form and no uncorrectable word among the sources (R204, R330), and no
binding on or over what is written (R201). -/
def Shape.ready (sh : Shape) (e : Env) (t : Team) (g : Group) : Bool :=
  (sh.pendingHandle g).isNone && !sh.blocked e.g g e.lanes
    && (t.guarded.isEmpty || (sh.srcs.filterMap (fun o => Src.handle? o.src)).isEmpty)
    && (if e.g then
          match sh.dst with
          | .reg r _ => (g.dependents true r.d.toNat).isEmpty
          | _ => true
        else sh.refs.all (fun r => !e.lanes.any (fun k => r.fails e.regs g k))
          && (sh.readRegs g e.lanes).all (fun r => !g.demoted r && !e.lanes.any (fun k => g.badV.contains (laneKey r k)))
          && (sh.srcs.all (fun o => match o.src with
            | .b n => !e.lanes.any (fun k => g.badV.contains (latchBase + laneKey n.toNat k))
            | _ => true))
          && (sh.writtenRegs g e.lanes).all (fun r => (g.dependents false r).isEmpty && !g.bound r))

/-- Split `c` issues instruction `i`, which sees `e`, is kept from its effect by neither level nor slice area, and is
performed for some thread. -/
structure Performs (s : State) (i : Instr) (c : Issuer) (t : Team) (g : Group) (l : Launch) (e : Env) : Prop where
  issues : Issues s c t g l
  sees : e = envOf s c g l i (Instr.head i)
  runs : Instr.runs i e = true
  active : e.active = true

/-- The operands of instruction `i` can be read now. -/
def Ready (s : State) (i : Instr) (c : Issuer) (t : Team) (g : Group) (l : Launch) (e : Env) : Prop :=
  Performs s i c t g l e ∧ (Instr.shape i).ready e t (s.starting c g i) = true

/-- The operands of `i` are some rows of which P holds; where every operand is defined the rows are what they hold. -/
def ForRows (g : Group) (i : Instr) (e : Env) (P : Rows → Prop) : Prop :=
  ∃ rows, RowsOf g (Instr.head i).lits e.lanes (Instr.shape i) rows ∧ P rows

/-- What the threads of a compute form get (R211), under the rounding mode that the core cycle found and the next phase of
the cycle (R98): `ks` is the window operand, where the form has one. -/
def Comp.results (k : Comp) (e : Env) (g : Group) (rows : Rows) (ks : List W64) : List (Nat × Flagged W64) :=
  (rows.map (·.1)).zip (k.eval ⟨Round.ofFrm g.frmNow, e.w, g.phaseNow.toNat⟩
    (rows.map (fun p => ⟨p.1, p.2 ++ ks, k.preds.map (g.readPred p.1)⟩)))

/-- R75: `res` are those results; in a restarted chain that has overwritten what it reads their values are undefined. -/
def Comp.Gives (k : Comp) (s : State) (e : Env) (g : Group) (rows : Rows) (ks : List W64) (res : List (Nat × Flagged W64)) : Prop :=
  if chainSpoilt s e g then
    res.map (fun p => (p.1, p.2.flags)) = (k.results e g rows ks).map (fun p => (p.1, p.2.flags))
  else res = k.results e g rows ks

/-- What a compute form of split n does once beside its results: `cvts` takes a phase, which advances DPHASE (R98). -/
def Instr.post (i : Instr) (n : Nat) (g : Group) : Group :=
  match i with
  | .cvts .. => g.takePhase n
  | _ => g

/-! ### Addresses -/

/-- R131: every walk that an agent may make for an address passes the checks with this outcome. -/
def Maps (s : State) (agent die : Nat) (key : SlotKey) (sup : Bool) (need : Need) (va : W64) (x : Nat × Bool) : Prop :=
  canonical va = true ∧ ∀ w ∈ walksOf s agent die key va, walkCheck (s.dev.part (key / 16)) sup need va w = .ok x

/-- R119, R149: n bytes that are read without an event: ECC finds nothing in their sectors, and no sector is poisoned. -/
def MemSys.sound (m : MemSys) (pa n : Nat) : Prop := m.eccGood pa n = true ∧ m.poisoned pa n = false

/-- R115, R157: n bytes of a window, at an address that maps to a place that is no peer's, sound, and not written since the
launch began; and the place. -/
def WindowHas (s : State) (e : Env) (l : Launch) (va : W64) (n : Nat) (pa : Nat) (x : W64) : Prop :=
  ∃ wr, Maps s e.core e.die e.key false .read va (pa, wr) ∧ inPeer pa = false ∧ s.mem.sound pa n
    ∧ (∀ j, j < n / 4 → l.stale.contains (pa / 4 + j) = false) ∧ x = s.mem.word e.die pa n

/-- R157: the word or pair of a window that begins at an address: a pair may lie in two pages. `pa` is the first word's place. -/
def WindowGives (s : State) (e : Env) (l : Launch) (va : W64) (wide : Bool) (pa : Nat) (x : W64) : Prop :=
  if wide && pageSplit va then ∃ lo hi pb, WindowHas s e l va 4 pa lo ∧ WindowHas s e l (va + 4) 4 pb hi ∧ x = lo ||| hi <<< 32
  else WindowHas s e l va (if wide then 8 else 4) pa x

/-- R206: the team's loads wait for no clock. -/
def ClockOk (s : State) (e : Env) : Prop := ∀ t, s.team? e.team = some t → clockOk s t e.die = true

/-- R157, R211: what the constant-window operand of a form is: nothing without one; else the word (or pair) that its field
names in its window. -/
def Konst (s : State) (e : Env) (l : Launch) (k : Comp) (ks : List W64) : Prop :=
  match k.konst with
  | none => ks = []
  | some f => ClockOk s e ∧ ∃ va pa x, windowAddr l.desc true (f.extractLsb' 17 3).toNat (f.setWidth 17).toNat k.ty.is64 = .ok va
      ∧ WindowGives s e l va k.ty.is64 pa x ∧ ks = [x]

/-- Checks 6 and 7 of R145 pass for every thread: the physical address of each, and whether its page has WR. -/
def Reach (s : State) (e : Env) (need : Need) (eas : List (Nat × W64)) (pas : List (Nat × W64 × Nat × Bool)) : Prop :=
  pas.map (fun p => (p.1, p.2.1)) = eas
    ∧ ∀ p ∈ pas, Maps s e.core e.die e.key e.sup need p.2.1 p.2.2 ∧ inPeer p.2.2.1 = false

/-- Check 4 of R145. -/
def aligned (n : Nat) (eas : List (Nat × W64)) : Bool := eas.all (fun a => a.2.toNat % n == 0)

/-- The words of the 32-byte block at a physical address. -/
def blockWords (s : State) (core pa : Nat) : List W32 :=
  (List.range 8).map (fun i => (s.mem.word (dieOf core) (pa + 4 * i) 4).setWidth 32)

/-- R63, R242: an address is an instruction start that can be fetched, and no word of its block is stale (R115). -/
def StartAt (s : State) (core : Nat) (l : Launch) (sup : Bool) (x : W64) : Prop :=
  ∃ pa wr, Maps s core (dieOf core) l.cmd.slot sup .fetch (BitVec.ofNat 64 (x.toNat / 32 * 32)) (pa, wr) ∧ inPeer pa = false
    ∧ (∀ i, i < 8 → l.stale.contains (pa / 32 * 8 + i) = false) ∧ targetBad l.desc x (blockWords s core (pa / 32 * 32)) = none

/-! ### Traps -/

/-- R257: a group with its lowest-numbered pending trap delivered, unless a handler runs. -/
def Group.delivered (g : Group) (now : Nat) (entry : W64) : Group :=
  if g.handler.isSome then g
  else match g.firstTrap with
    | some (n, t) => g.enter now n t entry
    | none => g

/-- R257: the group once a trap of the running instruction is raised. -/
def Env.trapped (e : Env) (now : Nat) (g : Group) (r : TrapRec) (entry : W64) : Group :=
  (g.raise now e.split r).delivered now entry

/-- A pending trap of a group, where there is one, can be delivered. -/
def CanEnter (s : State) (l : Launch) (core : Nat) (g : Group) : Prop :=
  g.handler = none → g.firstTrap ≠ none → StartAt s core l true (s.dev.slot l.cmd.slot).sventry

/-- A trap of the running instruction can be taken (R257 to R259): it runs at user level, and either a handler runs already
and goes on, or the handler can be entered. -/
def CanTrap (s : State) (l : Launch) (e : Env) (g : Group) : Prop :=
  e.sup = false ∧ ((∃ h, g.handler = some h ∧ (h.untouched g (s.now e.core) = none ∨ h.split ≤ e.split))
    ∨ StartAt s e.core l true (s.dev.slot l.cmd.slot).sventry)

/-- A trap of the running instruction, in the group `g` in which it runs. -/
def Traps (r : Host.Outcome State Fault Refusal) (s : State) (l : Launch) (e : Env) (g : Group) (x : TrapRec) : Prop :=
  Reaches r (s.withGroup e.team (e.trapped (s.now e.core) g x (s.dev.slot l.cmd.slot).sventry))

/-! ### Memory operations -/

/-- The operations that one instruction adds to its split's stream: a `fence.sc` first where R182 asks for it on every
path. A `cas` at `.sc` on one of its paths only keeps both orders (R177). -/
def Env.ops (e : Env) (id : Nat) (kind : OpKind) (ty : Ty) (order : Order) (scope : Scope) (dest : Option Res) (accs : List Access)
    (hint : BitVec 3 := 0) (spans : List (Nat × Nat) := []) : List MemOp :=
  let op (id : Nat) (kind : OpKind) (order : Order) : MemOp :=
    { id, split := e.split, pc := e.pc, sup := e.sup, kind, ty, order, scope, g := e.g, dest, accs, mask := e.visited, hint, spans }
  let fence : MemOp := { op id .fence .sc with ty := .i32, dest := none, accs := [], hint := 0, spans := [] }
  match kind with
  | .cas f =>
    if order == .sc && f == .sc then [fence, op (id + 1) (.cas .acq) .ar]
    else [op id kind order]
  | k => if order == .sc then [fence, op (id + 1) k (plainOrder k .sc)] else [op id k order]

/-- A group with operations added to its stream. -/
def Group.issue (g : Group) (l : List MemOp) : Group := { g with stream := g.stream ++ l }

/-- The state after an instruction that left `g` in its group and took names for `n` operations. -/
def State.issued (s : State) (u : Nat) (g : Group) (n : Nat) : State := { s.withGroup u g with nextUid := s.nextUid + n }

/-- R39, R40, R63: the targets can be fetched, no thread falls into the slice area, and the split may divide now. -/
def Goes (s : State) (l : Launch) (e : Env) (g : Group) (targets : List (Nat × W64)) : Prop :=
  (∀ x ∈ targets, StartAt s e.core l e.sup x.2) ∧ (e.falls = true → e.mask &&& ~~~maskOf (targets.map (·.1)) = 0)
    ∧ ((e.sets targets).length ≤ g.freeNumbers.length + 1 ∨ (g.split e.split).wait = .number)

/-- R249: instructions that the signature counts when nobody performs them. -/
def Instr.counted (i : Instr) : Bool :=
  match i with
  | .sigchk .. => false
  | _ => true

/-- Check 5 of R145 passes, the window blocks are filled (R109), and no word that is read is uncorrectable (R330). -/
def LocalOk (t : Team) (l : Launch) (size : Nat) (store reads : Bool) (eas : List (Nat × W64)) : Prop :=
  ∀ a ∈ eas, a.2.toNat + size ≤ l.desc.localSize ∧ t.missingBlock a.2.toNat = none
    ∧ (store = true → ∀ k w, t.windowAt a.2.toNat = some (k, w) → w.mode ≠ 1)
    ∧ (reads = true → ∀ w ∈ t.badLocal, ¬ (w < a.2.toNat + size ∧ a.2.toNat < w + 4))

/-- What an instruction that only changes its group's registers leaves: the group as `k` makes it, and the end. -/
def Leaves (r : Host.Outcome State Fault Refusal) (s : State) (c : Issuer) (e : Env) (g : Group) : Prop :=
  Reaches r (s.withGroup c.team (g.ended e true .none))

/-- What an instruction leaves that adds operations to the stream: `w` is what its split waits for then. -/
def Issued (r : Host.Outcome State Fault Refusal) (s : State) (c : Issuer) (e : Env) (g : Group) (ops : List MemOp) (w : Wait) : Prop :=
  Reaches r (s.issued c.team ((g.issue ops).ended e true w) ops.length)

/-! ### Writes, commands and events -/

/-- An outcome that is a next state of which P holds. -/
def Answers (r : Host.Outcome State Fault Refusal) (P : State → Prop) : Prop := ∃ t, r = .next t ∧ P t

/-- The same, with nothing issuing. -/
def Ends (r : Host.Outcome State Fault Refusal) (P : State → Prop) : Prop := Answers r (fun t => t.cur = none ∧ P t)

/-- The group of issuer `c` is `g`, but for the scheduler's bookkeeping. -/
def State.hasGroup (s : State) (c : Issuer) (g : Group) : Prop := (s.group? c.team c.gidx).map Group.facts = some g.facts

/-- R179, R185: memory after cells have been committed from a die: they are current there, host bytes everywhere, and no
other byte of any view has changed. -/
def Stored (m m' : MemSys) (die : Nat) (cells : List (Nat × Byte)) : Prop :=
  ∀ d pa, d < 8 → m'.byte d pa =
    if d = die ∨ inHost pa = true then ((cells.find? (fun c => c.1 == pa)).map (·.2)).getD (m.byte d pa) else m.byte d pa

/-- The latest values of memory after cells have been written. -/
def Newest (m m' : MemSys) (cells : List (Nat × Byte)) : Prop :=
  ∀ pa, m'.newest pa = ((cells.find? (fun c => c.1 == pa)).map (·.2)).getD (m.newest pa)

/-- No resident group watches a page-table entry (R140). -/
def Unwatched (s : State) : Prop := ∀ t ∈ s.teams, ∀ g ∈ t.groups, g.watch = []

/-- R193, R294: a team once a command has joined its queue: a handle that it takes observes no earlier command any more, and
the command's ranges are guarded. -/
def Team.guarding (t : Team) (e : Env) (id : Nat) (hn : Option Nat) (spans : List Span) (waits tile : Bool)
    (after : List Nat := []) : Team :=
  { t with guarded := t.guarded.map (fun g => if hn.isSome && g.holder == hn.map (fun n => (e.gidx, n)) then { g with holder := none } else g)
      ++ spans.map (fun x => { cmd := id, space := x.space, high := x.space == .acc && e.high t, lo := x.lo, len := x.len, write := x.write
                               holder := hn.map (fun n => (e.gidx, n)), waits := if waits then some (e.gidx, e.split) else none, tile, after }) }

/-- The state after an instruction, begun in this state, that placed an engine command and left `g` in its group. -/
def State.commanded (s : State) (e : Env) (t : Team) (g : Group) (tile : Bool) (hn : Option Nat) (kind : CmdKind) (spans : List Span)
    (waits : Bool) : State :=
  { (s.withTeam (t.guarding e s.nextUid hn spans waits tile (e.cmd s kind s.nextUid).after)).withGroup e.team g with
    nextUid := s.nextUid + 1, dev := (s.dev.usePort e.core).queued (e.cmd s kind s.nextUid) tile }

/-- A group that has closed its region and given a handle; splits that wait for one that is complete go on. -/
def Group.handed (g : Group) (hn : Nat) (x : Handle) : Group :=
  match x with
  | .complete v => g.closeRegion.finishHandle hn v
  | x => g.closeRegion.setHandle hn x

/-- What a form leaves whose command has completed with a result as soon as it has passed the engine port (R276, R282). -/
def Resolved (r : Host.Outcome State Fault Refusal) (s : State) (c : Issuer) (t : Team) (e : Env) (g : Group) (hn : Nat) (v : W64) : Prop :=
  Reaches r { (s.withTeam (t.guarding e 0 (some hn) [] false false)).withGroup c.team ((g.handed hn (.complete v)).ended e true .none) with
    dev := s.dev.usePort e.core }

/-- R289 to R294: a tile-task record passes its checks, no register that it names is pending, in recipe form or
uncorrectable, and the queue has room (R281). -/
structure Submits (s : State) (e : Env) (t : Team) (g : Group) (l : Launch) (r : TileRec) : Prop where
  checks : r.check l.desc t e.gidx = .ok ()
  due : r.waitsFor t e.gidx e.w = false
  whole : ∀ x ∈ r.ownVectors e.gidx e.w, g.demoted x = false
  good : (r.defer = false → r.badVectors t = []) ∧ ∀ x ∈ r.ownVectors e.gidx e.w, ∀ n, n < g.width → g.badV.contains (laneKey x n) = false
  room : s.dev.tileFull e.core = false

/-- R209: EPIN of the registers of its group that a deferred record names. -/
def TileRec.pins (r : TileRec) (w : Nat) (g : Group) : Group :=
  if r.defer then (r.ownVectors g.gidx w).foldl (fun g x => g.setWord x (g.word x ||| 4)) g else g

/-- The state after an instruction, begun in this state with group `g`, has put a record at the end of the tile-task queue
(R98, R209, R289, R294, R296). -/
def State.submitted (s : State) (e : Env) (t : Team) (g : Group) (hn : Option Nat) (r : TileRec) : State :=
  let t := t.withGroup g
  let g := match hn with
    | some n => g.handed n (.pending s.nextUid)
    | none => g.closeRegion
  let g := r.pins e.w g
  let g := if r.op = 2 then g.takePhase e.split else g
  let regs := if r.op = 0 && !bSrc r.b && !r.defer then some (r.readRegs t none e.w) else none
  let s1 := s.commanded e { t with groups := t.groups.map (r.pins e.w) } (g.ended e true .none) true hn (.tile r.word0 r.a r.b regs) r.spans (r.op == 4)
  if r.defer then { s1 with dev := s1.dev.pinned s.nextUid (r.pinCounts t e.w) } else s1

/-- The operations of a split's own stream, by name. -/
def Group.ownIds (g : Group) (split : Nat) : List Nat := (g.stream.filter (fun o => o.split == split)).map (·.id)

/-- R316, R325: the words of 8 bytes at a place, as relaxed loads of the running split read them now: each from the split's
own store that is still in its buffer, or else from its die's view, where no command is writing them. None is met by an
event, and no release is on its way before its time. -/
def OwnWords (s : State) (e : Env) (t : Team) (g : Group) (va : W64) (pa n : Nat) (ws : List W64) : Prop :=
  s.mem.sound pa (8 * n) ∧ s.dev.early = [] ∧ ws.length = n ∧ ∀ k, k < n →
    let a : Access := { lane := lowestLane e.w e.visited, va := va + BitVec.ofNat 64 (8 * k), glob := true, loc := pa + 8 * k, size := 8 }
    match loadFrom s t g (g.stream.filter (fun o => o.split == e.split)) a with
    | .blocked => False
    | .store x => ws[k]? = some x
    | .view => ws[k]? = some (s.mem.word e.die (pa + 8 * k) 8)
        ∧ ∀ x ∈ t.guarded, (x.live && x.space == .global && x.write && x.meets a.va.toNat 8) = false

/-- R316, R318: operand A of a form of class 12 names a descriptor that can be read, whose words are `ws` and well formed. -/
def ForestAt (s : State) (e : Env) (t : Team) (g : Group) (f : W64) (pa : Nat) (ws : List W64) (reset : Bool) : Prop :=
  let va := (s.dev.slot e.key).fdt + natW (128 * lo32 f)
  (s.dev.slot e.key).fdt ≠ 0 ∧ lo32 f < 64 ∧ (∃ wr, Maps s e.core e.die e.key e.sup .read va (pa, wr)) ∧ inPeer pa = false
    ∧ OwnWords s e t g va pa 16 ws ∧ (Forest.ofWords (fun k => ws.getD k 0)).bad reset = false

/-- R337, R351: an event has been reported: its entry is the ring's newest, and where its action is an interrupt or more
the partition (or every partition, where it has none) has one more message. -/
def Reported (s t : State) (e : Event) : Prop :=
  (∃ en : BoxEntry, t.dev.box = (s.dev.box ++ [en]).drop ((s.dev.box.length + 1) - 4096) ∧ en.cls = e.cls ∧ en.src = e.src ∧ en.unit_ = e.unit_
      ∧ en.addr = e.addr ∧ en.detail = e.detail ∧ en.action = e.action s.dev ∧ en.part = (match e.slot with
        | some k => some (k / 16)
        | none => e.part))
    ∧ ∀ p, p < 16 → (match e.slot, e.part with
        | none, none => true
        | some k, _ => k / 16 == p
        | none, some q => q == p) = true → 2 ≤ e.action s.dev → (t.dev.part p).msix = (s.dev.part p).msix + 1

/-- The ring of the black box takes entries (R352). -/
def Dev.boxOpen (d : Dev) : Prop := d.boxStopped = false ∧ d.boxFrozen = false

/-- R179: the value that a load of the ordering machine takes now, where it may take one and every byte is defined and
sound. -/
def Spot.loads (x : Spot) (s : State) : Option W64 :=
  if !lanesInOrder x.op x.acc || earlyHeld s x.team.uid x.g x.op.split x.op.scope x.acc x.op.order then none
  else match loadFrom s x.team x.g (x.g.before x.op.split x.op.id) x.acc with
  | .blocked => none
  | .store v => some v
  | .view =>
    let bs := bytesAt s x.team x.die x.acc
    if bs.all Option.isSome && !x.guards.any (·.write)
        && !(x.acc.glob && (s.mem.poisoned x.acc.loc x.acc.size || !s.mem.eccGood x.acc.loc x.acc.size)) then
      some (leWord (bs.map (fun b => b.getD 0)))
    else none

/-- An access of the ordering machine that stands at a place: its operation has not failed anywhere, and nothing but the
access itself is concerned by it: no command's range, held contribution, forest in flight or uncorrectable word. -/
structure Plain (s : State) (r : GRef) (op lane : Nat) (x : Spot) : Prop where
  spot : spotOf s r op lane = some x
  uid : x.op.id = op
  lane : x.acc.lane = lane ∧ lane < 128
  sound : x.op.fails = []
  guards : x.team.guarded = []
  whole : x.badWord = none
  ored : s.mem.ored = []
  forests : forestsInFlight s = []
  inv : Inv s
  die : x.die < 8

/-- The access as it stands afterwards. -/
def Stands (t : State) (r : GRef) (op lane : Nat) (P : Access → Prop) : Prop := ∃ y, spotOf t r op lane = some y ∧ P y.acc

end Sys2Proof.Machine
end

