-- ==== Sys2Proof/Certificates/Slice0/Obligations.lean ====
section
/-! DEFINITION. What is claimed of the machine. -/
open Sys2Proof Sys2Proof.Machine

/-- For every well-formed instruction, the words that the encoder lays out, followed by anything, decode to exactly
that instruction, with every operand at every value the encoding admits. (R60, R64, R65, R66, R71, R83, R85) -/
def Obligations.DecodeEncode : Prop :=
  ∀ i : Instr, Laws.Encoding.Statement i

/-- Every well-formed instruction of the opcode table that is no event has words: the first is its head, the list has
1 word for a filler and 2, 3 or 4 for the rest, and its length in bytes is what the PC advances by. (R60, R61, R83) -/
def Obligations.OperationsHaveWords : Prop :=
  ∀ i : Instr, (i = .filler ∨ (Instr.raw i).isSome = true) →
    ∃ ws, encode i = some ws ∧ 4 * ws.length = Instr.bytes i ∧ (i = .filler → ws.length = 1)
      ∧ (i ≠ .filler → 2 ≤ ws.length ∧ ws.length ≤ 4 ∧ ws.head? = some (Instr.headWord i))

/-- From every state in which the memory tables are canonical, each of the eight dies has a view with an eight-entry
clock, and no frame has an illegal placement word, a step that answers a next state gives a state of which the same
holds. (R133, R134, R175, R179, R180) -/
def Obligations.StepKeepsInvariant : Prop :=
  ∀ s t : State, Inv s → step s = .next t → Inv t

/-- The state after module reset has canonical memory, eight views with eight-entry clocks, and a legal placement for
every frame. Its fuses are those of a full part, with every cluster enabled (log entry 1). (R8, R133, R134, R175) -/
def Obligations.ResetHoldsInvariant : Prop :=
  Inv State.reset ∧ State.reset.dev.fusesOk = true

/-- Whatever a step does, the lifecycle byte and the reading number of the state it answers are at least those of the
state it began in (the first clause of R30, the fuses only ever advance). (R30, R365) -/
def Obligations.LifecycleAndReadingsOnlyAdvance : Prop :=
  ∀ s t : State, step s = .next t → s.mgmt.lifecycle ≤ t.mgmt.lifecycle ∧ s.mgmt.rnum ≤ t.mgmt.rnum

/-- Where no operand is pending, every register reference lies inside the allocation, no source is in recipe form or
uncorrectable, no binding stands on what is written and the threads do not fall into the slice area, reading the
operands of any shape answers one row for each performed lane, with the operand's value wherever it is defined, and
leaves every fact of the machine as it was. (R67, R70, R176, R193, R204, R248) -/
def Obligations.OperandsAreRead : Prop :=
  ∀ (s : State) (e : Env) (t : Team) (g : Group) (lits : Lits) (sh : Shape), s.team? e.team = some t → s.group? e.team e.gidx = some g →
    sh.ready e t g = true → (!e.falls || Instr.choosesNext e.instr) = true →
      ∃ rows s1, (operands e lits sh).go s = .done rows s1 ∧ RowsOf g lits e.lanes sh rows ∧ s1.facts = s.facts
        ∧ s1.group? = s.group? ∧ s1.mem = s.mem ∧ s1.mgmt = s.mgmt ∧ s1.dev = s.dev

/-- An instruction of classes 1 to 5 that is performed and whose operands are ready reaches a next state in which each
visited thread has the form's result (in its register and latch, its predicate or its index register, or once in the
uniform file), FSTAT has the flags of every thread added, the split has gone on and the signature has counted it, and
no other fact of the machine has changed. `ks` is the constant-window operand, which only `fma` has (its word, or each
word of a pair that two pages hold, lies in its window, maps, and is neither a peer's, poisoned, stale nor met by an
ECC event, and the team waits for no clock); for every other form it is empty and asks for nothing. In a chain that a
trap has restarted and whose members have overwritten what they read, the results have undefined values and their own
flags (R75); `cvts` takes its phase of the cycle. (R35, R36, R72, R75, R85, R97, R98, R150, R211, R212) -/
def Obligations.ComputeFormsComplete : Prop :=
  ∀ (s : State) (i : Instr) (k : Comp) (c : Issuer) (t : Team) (g : Group) (l : Launch) (e : Env) (ks : List W64),
    Instr.comp i = some k → Ready s i c t g l e → Konst s e l k ks →
      ForRows (s.starting c g i) i e (fun rows => ∃ res, k.Gives s e (s.starting c g i) rows ks res
        ∧ Leaves (exec i s) s c e (Instr.post i c.split (k.effect e.g res (s.starting c g i))))

/-- An operation whose visited threads are none, or whose q guard is false, reads no operand and has no effect: the
split goes to the next start and the signature counts the instruction unless it is `sigchk`. (`rcp` checks its table
entry before it looks at its threads and is not meant here.) `nop` only goes on, counted by the signature; a filler
adds 4 to the PC of the issuing split and changes nothing else, not even the signature. (R35, R36, R61, R247, R249) -/
def Obligations.FormsWithoutEffectGoOn : Prop :=
  (∀ (s : State) (i : Instr) (c : Issuer) (t : Team) (g : Group) (l : Launch) (e : Env),
    (Instr.raw i).isSome = true → (∀ h d k, i ≠ .rcp h d k) → Issues s c t g l → e = envOf s c g l i (Instr.head i) →
    Instr.runs i e = true → e.falls = false → e.active = false →
      Reaches (exec i s) (s.withGroup c.team ((s.starting c g i).ended e (Instr.counted i) .none)))
  ∧ (∀ (s : State) (h : Head) (c : Issuer) (t : Team) (g : Group) (l : Launch) (e : Env),
    (Issues s c t g l → e = envOf s c g l (.nop h) h → Instr.runs (.nop h) e = true →
      Leaves (exec (.nop h) s) s c e (s.starting c g (.nop h)))
    ∧ (Issues s c t g l → Reaches (exec .filler s) (s.withGroup c.team (g.modSplit c.split (fun x => { x with pc := x.pc + 4 })))))

/-- A supervisor form, or one that names a supervisor system register, issued at user level, is not performed: a PROT
trap with detail 0x0F and the mask of the whole split is recorded, and delivered unless the group already runs a
handler. Nothing else changes. An operation that does not choose its own next start, and behind which nothing but
fillers stands before the slice area, raises BADTARGET with subcode 3 for every thread of its split and the first
address of the slice area in TAUX (log entry 82: the spec does not say which of the words it passes is reported),
instead of its effect: at once where no thread performs it, and for a form of classes 1 to 5 once its operands have
been read. (R63, R83, R84, R87, R88, R145, R192, R282) -/
def Obligations.LevelAndSliceAreaComeFirst : Prop :=
  (∀ (s : State) (i : Instr) (c : Issuer) (t : Team) (g : Group) (l : Launch) (e : Env),
    Instr.supervisor i = true → Issues s c t g l → e = envOf s c g l i (Instr.head i) → CanTrap s l e g →
      Traps (exec i s) s l e (s.starting c g i) (e.record (s.starting c g i) .prot 15 e.mask))
  ∧ (∀ (s : State) (i : Instr) (c : Issuer) (t : Team) (g : Group) (l : Launch) (e : Env),
    (Instr.raw i).isSome = true → Issues s c t g l → e = envOf s c g l i (Instr.head i) → (!Instr.supervisor i || e.sup) = true →
    e.falls = true → Instr.choosesNext i = false → CanTrap s l e g →
    (e.active = false ∨ ∃ k ks, Instr.comp i = some k ∧ e.active = true ∧ (Instr.shape i).ready e t (s.starting c g i) = true ∧ Konst s e l k ks) →
      Traps (exec i s) s l e (s.starting c g i) (e.record (s.starting c g i) .badtarget 3 e.mask l.desc.sarea))

/-- In an instruction of classes 1 to 5, the first reference in the order A, B, C, D that any visited thread fails
raises IDXRANGE with the threads that fail that reference as its mask; TAUX holds the register of the lowest of them
as a signed 17-bit value, the place of the reference and the allocation. Nothing is read or written. (R248, R211) -/
def Obligations.RegisterRangeTraps : Prop :=
  ∀ (s : State) (i : Instr) (k : Comp) (c : Issuer) (t : Team) (g : Group) (l : Launch) (e : Env) (r : Ref),
    Instr.comp i = some k → Performs s i c t g l e → e.g = false → CanTrap s l e g → t.guarded = [] →
    (Instr.shape i).pendingHandle (s.starting c g i) = none → (Instr.shape i).blocked false (s.starting c g i) e.lanes = false →
    (Instr.shape i).refs.find? (fun r => e.lanes.any (fun n => r.fails l.desc.regs g n)) = some r →
      ∃ taux : W64,
        taux.extractLsb' 0 17 = BitVec.ofInt 17 (r.num g ((e.lanes.filter (fun n => r.fails l.desc.regs g n)).headD 0))
        ∧ (taux.extractLsb' 17 2).toNat = r.pos ∧ taux.extractLsb' 19 9 = BitVec.ofNat 9 l.desc.regs
        ∧ Traps (exec i s) s l e (s.starting c g i) (e.record (s.starting c g i) .idxrange 0
            (maskOf (e.lanes.filter (fun n => r.fails l.desc.regs g n))) taux)

/-- For `div` and `rem` of the four integer types: dividing by zero gives 2^w − 1 (unsigned) or −1 (signed) and leaves
the dividend as the remainder; the most negative value divided by −1 gives itself and 0; in every other case a = q × b
+ r with |r| < |b| and r zero or of the dividend's sign, which is truncation toward zero. No flag is raised. (R217) -/
def Obligations.DivideTruncatesTowardZero : Prop :=
  ∀ (h : Head) (ty : Ty) (r : Res) (a b : Src) (x : Ctx) (ln : LaneIn), ty ∈ [Ty.i32, Ty.n32, Ty.i64, Ty.n64] →
    ∃ kd kr q m, Instr.comp (.div h ty r a b) = some kd ∧ Instr.comp (.rem h ty r a b) = some kr
      ∧ kd.srcs = [(a, ty), (b, ty)] ∧ kr.srcs = [(a, ty), (b, ty)] ∧ kd.eval x [ln] = [⟨q, 0⟩] ∧ kr.eval x [ln] = [⟨m, 0⟩]
      ∧ (uval ty ln.b = 0 → ty.signed = false → uval ty q = 2 ^ ty.width - 1 ∧ uval ty m = uval ty ln.a)
      ∧ (uval ty ln.b = 0 → ty.signed = true → ival ty q = -1 ∧ ival ty m = ival ty ln.a)
      ∧ (ty.signed = true → ival ty ln.a = -(2 ^ (ty.width - 1) : Nat) → ival ty ln.b = -1 →
          ival ty q = -(2 ^ (ty.width - 1) : Nat) ∧ ival ty m = 0)
      ∧ (uval ty ln.b ≠ 0 → ¬ (ty.signed = true ∧ ival ty ln.a = -(2 ^ (ty.width - 1) : Nat) ∧ ival ty ln.b = -1) →
          ival ty ln.a = ival ty q * ival ty ln.b + ival ty m ∧ (ival ty m).natAbs < (ival ty ln.b).natAbs
          ∧ (ival ty m = 0 ∨ (0 < ival ty m ↔ 0 < ival ty ln.a)))

/-- `add`, `sub`, `mul`, `mad` and `neg` of every integer type of 32 or 64 bits give the low w bits of the exact
result, `mulh` the bits [2w−1:w] of the exact product in the signedness of the type; none raises a flag. For the four
integer types `addc` gives 1 exactly when a + b + (c AND 1), read unsigned, reaches 2^w, and `subb` gives 1 exactly
when a − b − (c AND 1) is below 0; so the carry times 2^w plus the sum that `add` gives equals the unsigned sum when
the carry in is 0. (R89, R216, R218) -/
def Obligations.IntegerSumsAndCarries : Prop :=
  (∀ (h : Head) (ty : Ty) (r : Res) (a b d : Src) (x : Ctx) (ln : LaneIn), ty ∈ [Ty.i32, Ty.n32, Ty.i64, Ty.n64] →
    let gives (i : Instr) (z : Int) : Prop := ∃ k y, Instr.comp i = some k ∧ k.eval x [ln] = [⟨y, 0⟩]
      ∧ (uval ty y : Int) = z % (2 ^ ty.width : Nat)
    gives (.add h ty r a b) (ival ty ln.a + ival ty ln.b) ∧ gives (.sub h ty r a b) (ival ty ln.a - ival ty ln.b)
    ∧ gives (.mul h ty r a b) (ival ty ln.a * ival ty ln.b) ∧ gives (.mad h ty r a b d) (ival ty ln.a * ival ty ln.b + ival ty ln.c)
    ∧ gives (.neg h ty r a) (-ival ty ln.a) ∧ gives (.mulh h ty r a b) (ival ty ln.a * ival ty ln.b / (2 ^ ty.width : Nat)))
  ∧ (∀ (h : Head) (ty : Ty) (r : Res) (a b d : Src) (x : Ctx) (ln : LaneIn), ty ∈ [Ty.i32, Ty.n32, Ty.i64, Ty.n64] →
    ∃ kc kb ka y z w, Instr.comp (.addc h ty r a b d) = some kc ∧ Instr.comp (.subb h ty r a b d) = some kb
      ∧ Instr.comp (.add h ty r a b) = some ka ∧ kc.eval x [ln] = [⟨y, 0⟩] ∧ kb.eval x [ln] = [⟨z, 0⟩] ∧ ka.eval x [ln] = [⟨w, 0⟩]
      ∧ y.toNat ≤ 1 ∧ z.toNat ≤ 1 ∧ (y = 1 ↔ 2 ^ ty.width ≤ uval ty ln.a + uval ty ln.b + uval ty ln.c % 2)
      ∧ (z = 1 ↔ uval ty ln.a < uval ty ln.b + uval ty ln.c % 2)
      ∧ (uval ty ln.c % 2 = 0 → 2 ^ ty.width * y.toNat + uval ty w = uval ty ln.a + uval ty ln.b))

/-- For the four types TY 0 to 3 with a register amount n read as an unsigned 32-bit value: `shl` and `shr` by n ≥ w
give 0, `sar` by n ≥ w gives bit w − 1 everywhere; by a smaller n, `shl` gives a × 2^n modulo 2^w, `shr` gives a
divided by 2^n, and `rot` by any n is the rotation by n mod w. (R219) -/
def Obligations.ShiftsOfFullWidth : Prop :=
  ∀ (h : Head) (ty : Ty) (r : Res) (a b : Src) (x : Ctx) (ln : LaneIn), ty ∈ [Ty.i32, Ty.n32, Ty.i64, Ty.n64] →
    let n := uval .n32 ln.b
    let gives (i : Instr) (P : Nat → Prop) : Prop := ∃ k y, Instr.comp i = some k ∧ k.eval x [ln] = [⟨y, 0⟩] ∧ P y.toNat
    gives (.shl h ty r a (.src b)) (fun y => y = if ty.width ≤ n then 0 else uval ty ln.a * 2 ^ n % 2 ^ ty.width)
    ∧ (ln.a.toNat < 2 ^ ty.width → gives (.shr h ty r a (.src b)) (fun y => y = if ty.width ≤ n then 0 else uval ty ln.a / 2 ^ n))
    ∧ (ty.width ≤ n → gives (.sar h ty r a (.src b)) (fun y => y = if ln.a.getLsbD (ty.width - 1) then 2 ^ ty.width - 1 else 0))
    ∧ gives (.rot h ty r a (.src b)) (fun y => y = uval ty ln.a * 2 ^ (n % ty.width) % 2 ^ ty.width + uval ty ln.a / 2 ^ (ty.width - n % ty.width))

/-- Byte i of the result of `perm` is 0 when bit 4i + 3 of c is 1, and otherwise byte c[4i+2:4i] of the string with a
as bytes 0 to 3 and b as bytes 4 to 7; c[31:16] has no effect. (R220) -/
def Obligations.PermuteChoosesBytes : Prop :=
  ∀ (h : Head) (r : Res) (a b d : Src) (x : Ctx) (ln : LaneIn),
    ∃ k y, Instr.comp (.perm h r a b d) = some k ∧ k.srcs = [(a, .i32), (b, .i32), (d, .i32)] ∧ k.ty = .i32
      ∧ k.eval x [ln] = [⟨y, 0⟩] ∧ y.toNat < 2 ^ 32
      ∧ ∀ i, i < 4 → y.toNat / 256 ^ i % 256 = (let sel := ln.c.toNat / 16 ^ i % 16
          if 8 ≤ sel then 0 else ((ln.a.toNat % 2 ^ 32) + 2 ^ 32 * (ln.b.toNat % 2 ^ 32)) / 256 ^ sel % 256)

/-- `cmp` gives each visited thread the truth of its condition on the operands read as the type's signedness (a float
type compares the raw pattern unsigned) and changes no flag, and `plop` gives bit a + 2b + 4c of its table. Over the
visited threads in ascending order, `vote.all` and `vote.any` give every thread the AND and the OR of the predicate,
`elect` is true in the lowest lane alone, and `lxch` gives a thread the value of the thread its mode names, or its own
when that thread is not visited. (R213, R215, R223, R224, R236, R237, R240) -/
def Obligations.PredicatesAndLaneForms : Prop :=
  (∀ (h : Head) (ty : Ty) (d : BitVec 3) (cond : Cond) (a b : Src) (pa pb pc : PredF) (tab : BitVec 8) (x : Ctx) (ln : LaneIn),
    (∃ k y, Instr.comp (.cmp h ty d cond a b) = some k ∧ k.kind = .p d ∧ k.eval x [ln] = [⟨y, 0⟩]
      ∧ (y ≠ 0 ↔ (let u : Int := if ty.isFlt then (uval ty ln.a : Int) else ival ty ln.a
                  let v : Int := if ty.isFlt then (uval ty ln.b : Int) else ival ty ln.b
                  match cond with
                  | .eq => u = v
                  | .ne => u ≠ v
                  | .lt => u < v
                  | .le => u ≤ v
                  | .gt => v < u
                  | .ge => v ≤ u)))
    ∧ ∃ k y, Instr.comp (.plop h d pa pb pc tab) = some k ∧ k.preds = [pa, pb, pc] ∧ k.eval x [ln] = [⟨y, 0⟩]
      ∧ (y ≠ 0 ↔ tab.getLsbD ((if ln.ps.getD 0 false then 1 else 0) + (if ln.ps.getD 1 false then 2 else 0)
          + (if ln.ps.getD 2 false then 4 else 0)) = true))
  ∧ (∀ (h : Head) (ty : Ty) (r : Res) (d : BitVec 3) (a b : Src) (m : XchMode) (pf : PredF) (x : Ctx) (ls : List LaneIn),
    (∃ k, Instr.comp (.voteAll h d pf) = some k ∧ (k.eval x ls).map (fun y => decide (y.val ≠ 0)) = ls.map (fun _ => ls.all LaneIn.p))
    ∧ (∃ k, Instr.comp (.voteAny h d pf) = some k ∧ (k.eval x ls).map (fun y => decide (y.val ≠ 0)) = ls.map (fun _ => ls.any LaneIn.p))
    ∧ (∃ k, Instr.comp (.elect h d) = some k
        ∧ (k.eval x ls).map (fun y => decide (y.val ≠ 0)) = ls.map (fun n => ls.all (fun j => decide (n.lane ≤ j.lane))))
    ∧ ∃ k, Instr.comp (.lxch h ty r a b m) = some k ∧ (k.eval x ls).map (·.val) = ls.map (fun n =>
        cut ty ((ls.find? (fun j => decide ((j.lane : Int) = xchLane m n.lane n.b))).getD n).a))

/-- `rngk` gives each visited thread the function of its two 32-bit operands that R239 defines, on 32-bit unsigned
values, depending on nothing else; rngk(0, 0) is 0 and rngk(1, 0) is 0xC80D83E3. (R239) -/
def Obligations.SampleKeyFunction : Prop :=
  (∀ (h : Head) (r : Res) (a b : Src) (x : Ctx) (ls : List LaneIn), ∃ k, Instr.comp (.rngk h r a b) = some k
      ∧ k.srcs = [(a, .n32), (b, .n32)] ∧ k.ty = .n32 ∧ k.eval x ls = ls.map (fun n =>
        let t0 := ((n.a.toNat % 2 ^ 32) * 0x9E3779B1 + (n.b.toNat % 2 ^ 32) * 0x85EBCA77) % 2 ^ 32
        let t1 := t0 ^^^ (t0 / 2 ^ 15)
        let t2 := t1 * 0x2C1B3C6D % 2 ^ 32
        ⟨BitVec.ofNat 64 (t2 ^^^ (t2 / 2 ^ 12)), 0⟩))
    ∧ rngkOf 0 0 = 0 ∧ rngkOf 1 0 = 0xC80D83E3

/-- A V result of a G = 0 form sets the latch it names in that thread and, unless NWB is set, its register (pair) in
that thread and no other register or thread; a G = 1 result sets one s register, extended to 64 bits; s63, p7 and q7
discard what is written to them. (R71, R72, R85, R150, R212) -/
def Obligations.ResultsGoWhereTheyAreNamed : Prop :=
  ∀ (g : Group) (ty : Ty) (r : Res) (lane : Nat) (x : W64), lane < 128 → Tab.wf none g.v = true → Tab.wf none g.latch = true → Tab.wf 0 g.s = true →
    (Tab.get none (g.putResult false ty r lane x).latch (laneKey r.lat.toNat lane) = some x)
    ∧ (r.nwb = true → (g.putResult false ty r lane x).v = g.v)
    ∧ (r.nwb = false → (g.putResult false ty r lane x).vreg r.d.toNat lane = some (x.setWidth 32))
    ∧ (r.nwb = false → ty.is64 = true → (g.putResult false ty r lane x).vreg (r.d.toNat + 1) lane = some (x.extractLsb' 32 32))
    ∧ (∀ n k, k < 128 → ¬ (k = lane ∧ (n = r.d.toNat ∨ (ty.is64 = true ∧ n = r.d.toNat + 1))) → g.badV = [] →
        (g.putResult false ty r lane x).vreg n k = g.vreg n k)
    ∧ (r.d.toNat ≠ 63 → (g.putResult true ty r lane x).sreg r.d.toNat = uniformResult ty x)
    ∧ (∀ n, n ≠ r.d.toNat → (g.putResult true ty r lane x).sreg n = g.sreg n)
    ∧ (r.d.toNat = 63 → g.putResult true ty r lane x = g)
    ∧ (∀ b w, g.putPred b 7 lane w = g)

/-- A transfer that is performed and whose targets are instruction starts that can be fetched sends each visited
thread to its target and the rest of the split to the next start; the split divides by next PC, the lowest keeping its
number; `call` writes the link PC + 8 to its register pair (or s register) of the visited threads. Nothing else
changes. (R39, R40, R66, R241, R242, R243, R250) -/
def Obligations.TransfersReachTheirTargets : Prop :=
  ∀ (s : State) (h : Head) (f : BitVec 20) (d : BitVec 8) (a b : Src) (c : Issuer) (t : Team) (g : Group) (l : Launch) (e : Env),
    let g1 (i : Instr) := s.starting c g i
    (Performs s (.bra h f) c t g l e → Goes s l e (g1 (.bra h f)) (together e (label e f)) →
      Reaches (exec (.bra h f) s) (s.withGroup c.team (e.transferred (together e (label e f)) id (g1 (.bra h f)))))
    ∧ (Ready s (.call h d f) c t g l e → Goes s l e (g1 (.call h d f)) (together e (label e f)) →
      Reaches (exec (.call h d f) s) (s.withGroup c.team (e.transferred (together e (label e f)) (writeLink e d) (g1 (.call h d f)))))
    ∧ (Ready s (.jmp h a b) c t g l e → ForRows (g1 (.jmp h a b)) (.jmp h a b) e (fun rows =>
        Goes s l e (g1 (.jmp h a b)) (apart e jumpTarget rows) →
          Reaches (exec (.jmp h a b) s) (s.withGroup c.team (e.transferred (apart e jumpTarget rows) id (g1 (.jmp h a b))))))
    ∧ (Ready s (.ret h a) c t g l e → ForRows (g1 (.ret h a)) (.ret h a) e (fun rows =>
        Goes s l e (g1 (.ret h a)) (apart e (fun xs => xs.getD 0 0) rows) →
          Reaches (exec (.ret h a) s) (s.withGroup c.team (e.transferred (apart e (fun xs => xs.getD 0 0) rows) id (g1 (.ret h a))))))

/-- The sets into which a transfer sorts the threads of a split are disjoint, strictly ascending by next PC, not
empty, and together hold exactly the threads of the split below the width. (R38, R39, R40, R41) -/
def Obligations.DivisionKeepsEveryThread : Prop :=
  ∀ (e : Env) (targets : List (Nat × W64)), e.w ≤ 128 →
    let sets := e.sets targets
    (sets.map (fun x => x.pc.toNat)).Pairwise (· < ·) ∧ (∀ x ∈ sets, x.mask ≠ 0)
    ∧ sets.Pairwise (fun x y => x.mask &&& y.mask = 0)
    ∧ ∀ n, n < 128 → ((∃ x ∈ sets, x.mask.getLsbD n = true) ↔ (n < e.w ∧ e.mask.getLsbD n = true))

/-- `exit` takes the visited threads out of every split, overflow entry and mask that holds them and marks them
exited, and a split that waits at a `rejoin` looks again; when the threads of a running handler have all gone, the
handler ends at EPC as `eret #0` ends it, and a pending trap is then delivered. (R42, R63, R84, R244, R257, R258) -/
def Obligations.ExitRemovesVisitedThreads : Prop :=
  ∀ (s : State) (h : Head) (c : Issuer) (t : Team) (g : Group) (l : Launch) (e : Env), Performs s (.exit h) c t g l e →
    (e.falls = true → e.mask &&& ~~~e.visited = 0) →
    let g1 := e.exits (s.starting c g (.exit h))
    let entry := (s.dev.slot l.cmd.slot).sventry
    (g1.handler = none → CanEnter s l e.core g1 → Reaches (exec (.exit h) s) (s.withGroup c.team (g1.delivered (s.now e.core) entry)))
    ∧ ∀ hd, g1.handler = some hd →
        (g1.unexited hd.mask ≠ 0 → Reaches (exec (.exit h) s) (s.withGroup c.team g1))
        ∧ (g1.unexited hd.mask = 0 → StartAt s e.core l false g1.epc →
            let n := if (g1.split hd.split).live then g1.freeNumbers.headD hd.split else hd.split
            CanEnter s l e.core (g1.leave n hd) → Reaches (exec (.exit h) s) (s.withGroup c.team ((g1.leave n hd).delivered (s.now e.core) entry)))

/-- `rejoin` lets its visited threads go on, counted by the signature, when every lane that it names below the width
is among them or has exited; otherwise they wait at it, uncounted, while the other threads of the split go on. (R39,
R41, R245, R249) -/
def Obligations.RejoinWaitsForTheNamedLanes : Prop :=
  ∀ (s : State) (h : Head) (a b : Src) (c : Issuer) (t : Team) (g : Group) (l : Launch) (e : Env), Ready s (.rejoin h a b) c t g l e →
    let g1 := s.starting c g (.rejoin h a b)
    ForRows g1 (.rejoin h a b) e (fun rows =>
      let named := rejoinMask e.w (firstRow rows)
      (e.gathered g1 named = true → Reaches (exec (.rejoin h a b) s) (s.withGroup c.team (e.passes g1)))
      ∧ (e.gathered g1 named = false → (e.v = e.mask ∨ 1 ≤ g1.freeNumbers.length ∨ (g1.split e.split).wait = .number) →
          Reaches (exec (.rejoin h a b) s) (s.withGroup c.team (e.parts g1))))

/-- At user level `trap #n` and `sysc #n` raise TRAPN and SYSC on the visited threads with n in TAUX and EPC behind
the instruction, which the signature counts; `bkpt #n` raises BKPT with EPC at itself (or at the first member of its
latch chain) and counts nothing. The trap is delivered at once unless the group runs a handler. (R87, R249, R255,
R256, R257) -/
def Obligations.SoftwareTrapsAreRaised : Prop :=
  ∀ (s : State) (h : Head) (n : BitVec 20) (c : Issuer) (t : Team) (g : Group) (l : Launch) (e : Env),
    let signed (i : Instr) := (s.starting c g i).modSplit e.split (fun x => x.sign e.head e.bare)
    (Performs s (.trap h n) c t g l e → CanTrap s l e g → Traps (exec (.trap h n) s) s l e (signed (.trap h n))
      (e.record (signed (.trap h n)) .trapn 0 e.visited (n.setWidth 64) [] (some e.next)))
    ∧ (Performs s (.sysc h n) c t g l e → CanTrap s l e g → Traps (exec (.sysc h n) s) s l e (signed (.sysc h n))
      (e.record (signed (.sysc h n)) .sysc 0 e.visited (n.setWidth 64) [] (some e.next)))
    ∧ (Performs s (.bkpt h n) c t g l e → CanTrap s l e g → Traps (exec (.bkpt h n) s) s l e (s.starting c g (.bkpt h n))
      (e.record (s.starting c g (.bkpt h n)) .bkpt 0 e.visited (n.setWidth 64)))

/-- Delivering the lowest-numbered pending trap sets TCAUSE to cause, detail and split, EPC, TAUX and TMASK from the
record and FVA for its threads alone; the split runs the handler at supervisor level from the entry address with the
trap mask, its accumulator saved and cleared, its other threads held; every register of the group and every other
split is unchanged. When a handler ends, its split holds the executing threads and the held ones that have not exited,
at EPC, at user level, with the saved accumulator and an entry mask equal to its mask; the registers of the group are
as the handler left them. (R255, R257, R258, R260) -/
def Obligations.HandlersSaveAndRestore : Prop :=
  (∀ (g : Group) (now n : Nat) (t : TrapRec) (entry : W64), n < g.splits.length → g.firstTrap = some (n, t) → g.handler = none →
    (t.mask &&& (g.split n).mask ≠ 0) → t.detail < 256 → n < 4 →
    let g1 := g.delivered now entry
    let x := g1.split n
    g1.tcause.extractLsb' 0 8 = BitVec.ofNat 8 t.cause.code ∧ g1.tcause.extractLsb' 8 8 = BitVec.ofNat 8 t.detail
    ∧ g1.tcause.extractLsb' 16 48 = BitVec.ofNat 48 n ∧ g1.epc = t.epc ∧ g1.taux = t.taux ∧ g1.tmask = t.mask
    ∧ x.pc = entry ∧ x.sup = true ∧ x.mask = t.mask &&& (g.split n).mask ∧ x.acc = 0 ∧ x.trap = none ∧ x.live = (g.split n).live
    ∧ (∃ hd, g1.handler = some hd ∧ hd.split = n ∧ hd.mask = x.mask ∧ hd.saved = (g.split n).acc
        ∧ hd.held = (g.split n).mask &&& ~~~x.mask)
    ∧ (∀ m, m ≠ n → g1.split m = g.split m) ∧ g1.v = g.v ∧ g1.s = g.s ∧ g1.p = g.p ∧ g1.q = g.q ∧ g1.x = g.x ∧ g1.h = g.h
    ∧ g1.frm = g.frm ∧ g1.fstat = g.fstat ∧ g1.dphase = g.dphase ∧ g1.rgnpc = g.rgnpc ∧ g1.region = g.region
    ∧ g1.recipe = g.recipe ∧ g1.stream = g.stream ∧ g1.exited = g.exited
    ∧ (Tab.wf 0 g.fva = true → ∀ k, (∀ p ∈ t.fva, p.1 ≠ k) → Tab.get 0 g1.fva k = Tab.get 0 g.fva k))
  ∧ (∀ (g : Group) (n : Nat) (hd : Handler), n < g.splits.length → g.unexited ((g.split n).mask ||| hd.held) ≠ 0 →
    let x := (g.leave n hd).split n
    x.live = true ∧ x.mask = g.unexited ((g.split n).mask ||| hd.held) ∧ x.emask = x.mask ∧ x.acc = hd.saved ∧ x.pc = g.epc
    ∧ x.sup = false ∧ x.trap = none ∧ (g.leave n hd).handler = none ∧ (∀ m, m ≠ n → (g.leave n hd).split m = g.split m)
    ∧ (g.leave n hd).v = g.v ∧ (g.leave n hd).s = g.s ∧ (g.leave n hd).p = g.p ∧ (g.leave n hd).tcause = g.tcause ∧ (g.leave n hd).fva = g.fva)

/-- At supervisor level `eret #0` waits while an unexited thread of the trap mask is elsewhere; once they are together
and EPC is a start that can be fetched at user level, the split goes back to EPC at user level with the held threads
and the saved accumulator, the handler is over and a pending trap is delivered. `eret #1` lets every thread of the
group exit and discards pending traps. (R63, R148, R258, R260) -/
def Obligations.ReturnFromHandler : Prop :=
  ∀ (s : State) (h : Head) (c : Issuer) (t : Team) (g : Group) (l : Launch) (e : Env) (hd : Handler), g.handler = some hd →
    let g1 := s.starting c g (.eret h)
    (Performs s (.eret h) c t g l e → g1.unexited hd.mask &&& ~~~e.mask = 0 → StartAt s e.core l false g.epc →
      CanEnter s l e.core (g1.leave c.split hd) →
        Reaches (exec (.eret h) s) (s.withGroup c.team ((g1.leave c.split hd).delivered (s.now e.core) (s.dev.slot l.cmd.slot).sventry)))
    ∧ (Performs s (.eret h) c t g l e → g1.unexited hd.mask &&& ~~~e.mask ≠ 0 →
        Reaches (exec (.eret h) s) (s.withGroup c.team { g1.modSplit c.split (fun x => { x with wait := .gather, chain := e.chain0 }) with
          issued := g1.issued.map (fun p => p.giveUp c.split) }))
    ∧ (Performs s (.eretExit h) c t g l e → Reaches (exec (.eretExit h) s)
        (s.withGroup c.team { (s.starting c g (.eretExit h)).exitThreads (fullMask g.width) with handler := none }))

/-- A `sigchk` whose value equals the folded accumulator clears the accumulator, takes the mask as the entry mask and
is not counted. `rgn` opens a region at its own PC with the accumulator, mask, FRM and DPHASE of its split, keeping
the retry count only for a split that a rollback made and that opens the same region, and is counted. A `sigchk` whose
value differs from the folded accumulator, in a group that may not roll back and under a severity action below 3,
leaves its group with the trap SIGMIS on the visited threads, the computed and the expected value in TAUX, recorded
and delivered; nothing of the split has gone on. (R249, R251, R252, R332, R337, R338) -/
def Obligations.SignaturesAndRegions : Prop :=
  (∀ (s : State) (h : Head) (sig : BitVec 16) (c : Issuer) (t : Team) (g : Group) (l : Launch) (e : Env),
    (Performs s (.sigchk h sig) c t g l e → (g.split c.split).fold = sig →
      Reaches (exec (.sigchk h sig) s) (s.withGroup c.team
        (((s.starting c g (.sigchk h sig)).modSplit c.split (fun x => ({ x with acc := 0 } : Split).remask)).ended e false .none)))
    ∧ (Performs s (.rgn h) c t g l e → Leaves (exec (.rgn h) s) s c e (e.marks (s.starting c g (.rgn h)))))
  ∧ (∀ (s : State) (h : Head) (sig : BitVec 16) (c : Issuer) (t : Team) (g : Group) (l : Launch) (e : Env),
    Performs s (.sigchk h sig) c t g l e → (g.split c.split).fold ≠ sig → g.mayRollback e.mask = false → s.dev.action 5 9 < 3 →
    CanTrap s l e g →
      ∃ t' g', exec (.sigchk h sig) s = .next t' ∧ t'.cur = none ∧ t'.group? c.team c.gidx = some g'
        ∧ g'.facts = (e.trapped (s.now e.core) (s.starting c g (.sigchk h sig)) (e.record (s.starting c g (.sigchk h sig)) .sigmis 0 e.visited
            (((g.split c.split).fold ++ sig : BitVec 32).setWidth 64)) (s.dev.slot l.cmd.slot).sventry).facts)

/-- `srd` of every system register writes its value, as it is before the instruction (FRM and DPHASE as the core cycle
found them, R98, R211), to the named register of each visited thread, or to the s register, and changes nothing else.
(R150, R191, R192, R261) -/
def Obligations.SystemRegistersAreRead : Prop :=
  ∀ (s : State) (h : Head) (ty : Ty) (r : Res) (n : SysReg) (c : Issuer) (t : Team) (g : Group) (l : Launch) (e : Env),
    Ready s (.srd h ty r n) c t g l e →
      let g1 := s.starting c g (.srd h ty r n)
      Leaves (exec (.srd h ty r n) s) s c e (g1.putResults e.g ty r (e.lanes.map (fun k => (k, sysRegValue n s e t l g1 k))))

/-- `swr` writes the operand of the lowest visited thread to its register: FRM, FSTAT, DPHASE, the saved accumulator,
TCAUSE, EPC or TAUX as far as each has bits, where bits that the layout of TAUX for the trap in TCAUSE reserves are
left zero (log entry 87) and a 32-bit operand fills a 64-bit register with zeros (log entry 90); a write of RGNPC
opens a region or closes it; a write of PGWATCH adds the entries that are not valid yet to the group's watches and to
MPARM, at most 32 of them. Nothing else changes. (R95, R139, R191, R192, R252, R355) -/
def Obligations.SystemRegistersAreWritten : Prop :=
  ∀ (s : State) (h : Head) (ty : Ty) (a : Src) (n : SysReg) (c : Issuer) (t : Team) (g : Group) (l : Launch) (e : Env),
    let val (x : W64) : W64 := if ty.is64 then x else x &&& 0xFFFFFFFF#64
    let g1 (i : Instr) := s.starting c g i
    (Ready s (.swr h ty a n) c t g l e → ForRows (g1 (.swr h ty a n)) (.swr h ty a n) e (fun rows =>
      Leaves (exec (.swr h ty a n) s) s c e (sysRegWrite n (val ((firstRow rows).getD 0 0)) (g1 (.swr h ty a n)))))
    ∧ (Ready s (.swrRgnpc h ty a) c t g l e → ForRows (g1 (.swrRgnpc h ty a)) (.swrRgnpc h ty a) e (fun rows =>
      Leaves (exec (.swrRgnpc h ty a) s) s c e (rgnpcWrite e.split (val ((firstRow rows).getD 0 0)) (g1 (.swrRgnpc h ty a)))))
    ∧ (Ready s (.swrPgwatch h ty a) c t g l e → ForRows (g1 (.swrPgwatch h ty a)) (.swrPgwatch h ty a) e (fun rows =>
        let vals := rows.map (fun r => (val (r.2.getD 0 0)).toNat)
        let missing := vals.filter (fun v => !pteV (s.mem.newestWord v))
        (∀ v ∈ vals, v % 8 = 0 ∧ inHbm v = true ∧ (s.dev.part (e.key / 16)).owns v 8 = true) → g.watch.length + missing.length ≤ 32 →
          Reaches (exec (.swrPgwatch h ty a) s)
            { s.withGroup c.team ({ g1 (.swrPgwatch h ty a) with watch := g.watch ++ missing, mpcount := (g.watch ++ missing).length }.ended e true .none) with
              dev := s.dev.setSlot e.key { s.dev.slot e.key with mparm := (s.dev.slot e.key).mparm + BitVec.ofNat 64 missing.length } }))

/-- `tevict` naming no resident team of its launch, or one for which no frame can be had, only goes on. Naming another
resident team that stands at its boundaries and can be saved, its own split goes on to the next instruction and that
team is resident no more but saved with its frame, due to be resumed. A team that does not stand at its boundaries yet
is waited for: the split stays at the `tevict`, and nothing else happens. Naming its issuer's own team, it goes on to
the next instruction and is saved there with its team, all of whose groups leave together. Assumed where a team is
saved: unique names, unwatched entries, no operation of class 12 in flight. (R49, R57, R58, R262, R348, R349) -/
def Obligations.TevictSavesAnotherTeam : Prop :=
  ∀ (s : State) (h : Head) (a : Src) (c : Issuer) (t : Team) (g : Group) (l : Launch) (e : Env), Ready s (.tevict h a) c t g l e →
    ForRows (s.starting c g (.tevict h a)) (.tevict h a) e (fun rows =>
      let g1 := s.starting c g (.tevict h a)
      let st := s.begun c g (.tevict h a)
      let found := st.teams.find? (fun x => x.launch == e.launch && x.number == lo32 ((firstRow rows).getD 0 0))
      let saved (t' : State) (x : Team) (P : Team → Prop) : Prop := (∀ y ∈ t'.teams, y.uid ≠ x.uid)
        ∧ (∃ y ∈ t'.saved, y.uid = x.uid ∧ y.number = x.number ∧ y.frame.isSome = true ∧ y.groups.length = x.groups.length ∧ P y)
        ∧ ∃ en ∈ (t'.dev.part l.part).placement, en.uid = x.uid ∧ en.resumed = true
      ((found = none ∨ ∃ x, found = some x ∧ frameFor st x l = none) → Leaves (exec (.tevict h a) s) s c e g1)
      ∧ ∀ x, found = some x → (frameFor st x l).isSome = true →
        (x.quiet st l (x.uid == c.team) = false → Reaches (exec (.tevict h a) s) (s.withGroup c.team
          { g1.modSplit c.split (fun y => { y with wait := .evict x.uid, chain := e.chain0 }) with issued := g1.issued.map (fun p => p.giveUp c.split) }))
        ∧ (x.quiet st l (x.uid == c.team) = true → (∀ y ∈ s.teams, ∀ z ∈ s.teams, y.uid = z.uid → y = z) → Unwatched s → forestsInFlight st = [] →
            Ends (exec (.tevict h a) s) (fun t' =>
              (x.uid ≠ c.team → t'.hasGroup c (g1.ended e true .none) ∧ saved t' x (fun _ => True))
              ∧ (x.uid = c.team → saved t' x (fun y => ∃ g' ∈ y.groups, g'.gidx = c.gidx
                  ∧ g'.facts = ({ g1.ended e true .none with latch := [], listed := true, issued := none } : Group).facts)))))

/-- A performed global load or store whose addresses are aligned and map with the access it needs, none of them at a
peer, adds one operation with one access per thread to its split's stream, each at the mapped place and with the
thread's data, with the instruction's cache hint, a `fence.sc` before it at order `.sc`, and goes on; a load records
its blocks in the open region, and a store into a recorded block closes it. No byte of memory and no register has
changed yet. (R145, R152, R153, R154, R156, R175, R179, R182, R253) -/
def Obligations.GlobalLoadsAndStoresIssue : Prop :=
  ∀ (s : State) (h : Head) (ty : Ty) (r : Res) (d : BitVec 8) (o : Order) (sc : Scope) (rc : Bool) (hint : BitVec 3) (a b : Src)
    (c : Issuer) (t : Team) (g : Group) (l : Launch) (e : Env) (pas : List (Nat × W64 × Nat × Bool)),
    let ld : Instr := .ldg h ty r o sc rc hint a b
    let st : Instr := .stg h ty d o sc hint a b
    (Ready s ld c t g l e → ForRows (s.starting c g ld) ld e (fun rows =>
      let eas := effAddrs h a b rows
      aligned (tyBytes ty) eas = true → Reach s e .read eas pas →
        let accs := globalAccs pas (tyBytes ty) zeroData zeroData
        Issued (exec ld s) s c e ((s.starting c g ld).noteLoads .global (placesOf accs)) (e.ops s.nextUid .load ty o sc (some r) accs hint) .none))
    ∧ (Ready s st c t g l e → ForRows (s.starting c g st) st e (fun rows =>
      let eas := effAddrs h a b rows
      aligned (tyBytes ty) eas = true → Reach s e .write eas pas →
        let accs := globalAccs pas (tyBytes ty) (rowAt rows 2) zeroData
        Issued (exec st s) s c e ((s.starting c g st).noteStores .global (placesOf accs)) (e.ops s.nextUid .store ty o sc none accs hint) .none))

/-- The same of a local load or store whose aligned addresses lie inside the team's allocation and whose window blocks
are filled, for a load with no uncorrectable word, for a store with no read-only window at its addresses. (R105, R108,
R109, R145, R153, R154, R175, R331) -/
def Obligations.LocalLoadsAndStoresIssue : Prop :=
  ∀ (s : State) (h : Head) (ty : Ty) (r : Res) (d : BitVec 8) (o : Order) (sc : Scope) (a b : Src)
    (c : Issuer) (t : Team) (g : Group) (l : Launch) (e : Env),
    let ld : Instr := .ldl h ty r o sc a b
    let st : Instr := .stl h ty d o sc a b
    (Ready s ld c t g l e → ForRows (s.starting c g ld) ld e (fun rows =>
      let eas := effAddrs h a b rows
      aligned (tyBytes ty) eas = true → LocalOk t l (tyBytes ty) false true eas →
        let accs := localAccs eas (tyBytes ty) zeroData zeroData
        Issued (exec ld s) s c e ((s.starting c g ld).noteLoads .scratch (placesOf accs)) (e.ops s.nextUid .load ty o sc (some r) accs) .none))
    ∧ (Ready s st c t g l e → ForRows (s.starting c g st) st e (fun rows =>
      let eas := effAddrs h a b rows
      aligned (tyBytes ty) eas = true → LocalOk t l (tyBytes ty) true false eas →
        let accs := localAccs eas (tyBytes ty) (rowAt rows 2) zeroData
        Issued (exec st s) s c e ((s.starting c g st).noteStores .scratch (placesOf accs)) (e.ops s.nextUid .store ty o sc none accs) .none))

/-- A performed atomic form whose places pass the checks of R145 (16-byte sets for `ored`) closes its region and adds
one operation with one access per thread to the stream, with data and comparand (the index for `ored`) and whether its
place may be written (a `cas` needs that only where it succeeds, R161); `ored` then waits for its answers, the others
go on. (R145, R152, R159, R160, R161, R162, R163, R164, R182, R253) -/
def Obligations.AtomicFormsIssue : Prop :=
  ∀ (s : State) (h : Head) (ty : Ty) (r : Res) (o fail : Order) (sc : Scope) (sp : Bool) (op : AtmOp) (a b x y : Src)
    (c : Issuer) (t : Team) (g : Group) (l : Launch) (e : Env) (pas : List (Nat × W64 × Nat × Bool)),
    let form (i : Instr) (need : Need) (n : Nat) (kind : OpKind) (dest : Option Res) (waits : Bool) : Prop :=
      Ready s i c t g l e → ForRows (s.starting c g i) i e (fun rows =>
        let eas := effAddrs h a b rows
        let ends (accs : List Access) : Prop :=
          let ops := e.ops s.nextUid kind ty o sc dest accs
          Issued (exec i s) s c e (s.starting c g i).closeRegion ops (if waits then .op (s.nextUid + (ops.length - 1)) else .none)
        aligned n eas = true →
          (sp = false → Reach s e need eas pas → ends (globalAccs pas n (rowAt rows 2) (rowAt rows 3)))
          ∧ (sp = true → LocalOk t l n (need != .cas) true eas →
            ends ((localAccs eas n (rowAt rows 2) (rowAt rows 3)).map (fun x => { x with wr := t.localWr x.loc }))))
    form (.atm h ty r o sc sp a b op x) .both (tyBytes ty) (.atm op) (some r) false
    ∧ form (.cas h ty r o sc sp a b x y fail) .cas (tyBytes ty) (.cas fail) (some r) false
    ∧ form (.red h ty o sc sp a b op x) .both (tyBytes ty) (.red op) none false
    ∧ form (.ored h ty o sc sp a b x y) .both 16 .ored none true

/-- A performed `fence` closes its region and adds one fence of its order and scope to the stream. `arrive`, `waitb`
and `arw` on aligned 8-byte words inside the local allocation close the region and add their operation; the two that
wait leave their split waiting for it. (R105, R145, R166, R167, R168, R169, R182, R253) -/
def Obligations.FencesAndBarriersIssue : Prop :=
  ∀ (s : State) (h : Head) (o : Order) (sc : Scope) (d : BitVec 8) (a b : Src) (c : Issuer) (t : Team) (g : Group) (l : Launch) (e : Env),
    (Performs s (.fence h o sc) c t g l e →
      Reaches (exec (.fence h o sc) s) (s.issued c.team (((s.starting c g (.fence h o sc)).closeRegion.issue
        [{ id := s.nextUid, split := e.split, pc := e.pc, sup := e.sup, kind := .fence, ty := .i32, order := o, scope := sc, g := e.g
           dest := none, accs := [], mask := e.visited }]).ended e true .none) 1))
    ∧ (let form (i : Instr) (store : Bool) (kind : OpKind) (waits : Bool) : Prop :=
        Ready s i c t g l e → ForRows (s.starting c g i) i e (fun rows =>
          let eas := effAddrs h a b rows
          aligned 8 eas = true → LocalOk t l 8 store true eas →
            let ops := e.ops s.nextUid kind .n64 o sc none (localAccs eas 8 zeroData (rowAt rows 2))
            Issued (exec i s) s c e (s.starting c g i).closeRegion ops (if waits then .op (s.nextUid + (ops.length - 1)) else .none))
      form (.arrive h o sc a b) true .arrive false ∧ form (.waitb h d o sc a b) false .waitb true ∧ form (.arw h o sc a b) true .arw true)

/-- A performed accumulator load at aligned addresses inside the allocation, of bytes that are defined, good and in no
guarded range, by a team whose loads wait for no clock, writes each thread the little-endian value at its address; a
store at such addresses writes the bytes of each thread's data, in ascending lanes, and no other byte of the
accumulators. Nothing else changes but the region record. (R105, R111, R112, R145, R147, R158, R298, R331) -/
def Obligations.AccumulatorAccess : Prop :=
  ∀ (s : State) (h : Head) (ty : Ty) (r : Res) (d : BitVec 8) (a b : Src) (c : Issuer) (t : Team) (g : Group) (l : Launch) (e : Env),
    let n := tyBytes ty
    let ld : Instr := .lda h ty r a b
    let st : Instr := .sta h ty d a b
    t.guarded = [] →
    (Ready s ld c t g l e → ClockOk s e → ForRows (s.starting c g ld) ld e (fun rows =>
      let eas := effAddrs h a b rows
      aligned n eas = true → (∀ x ∈ eas, x.2.toNat + n ≤ l.desc.accSize ∧ (t.accBytes (e.high t) x.2.toNat n).all Option.isSome = true
          ∧ ∀ w ∈ t.badAcc, ¬ (w.1 = e.high t ∧ w.2 < x.2.toNat + n ∧ x.2.toNat < w.2 + 4)) →
        Leaves (exec ld s) s c e (((s.starting c g ld).noteLoads .acc (eas.map (fun x => (x.2.toNat, n)))).putResults e.g ty r
          (eas.map (fun x => (x.1, leWord ((t.accBytes (e.high t) x.2.toNat n).map (fun y => y.getD 0))))))))
    ∧ (Ready s st c t g l e → ForRows (s.starting c g st) st e (fun rows =>
      let eas := effAddrs h a b rows
      let g1 := (s.starting c g st).noteStores .acc (eas.map (fun x => (x.2.toNat, n)))
      let cells := eas.flatMap (fun x => (List.range' x.2.toNat n).zip ((bytesOf n (rowAt rows 2 x.1).toNat).map some))
      aligned n eas = true → (∀ x ∈ eas, x.2.toNat + n ≤ l.desc.accSize) →
        ∃ t', exec st s = .next t' ∧ t'.cur = none ∧ t'.mem = s.mem ∧ t'.mgmt = s.mgmt ∧ t'.dev.facts = s.dev.facts
          ∧ (t'.group? c.team c.gidx).map Group.facts = some (g1.ended e true .none).facts
          ∧ ∃ u, t'.team? c.team = some u ∧ u.accBytes (e.high t) 0 l.desc.accSize = (t.setAcc (e.high t) cells).accBytes (e.high t) 0 l.desc.accSize
            ∧ u.accOf (!(e.high t)) = t.accOf (!(e.high t)) ∧ u.spad = t.spad))

/-- A performed `ldk` whose words lie in their window, and whose addresses map to places that are neither a peer's,
poisoned, stale nor met by an ECC event, by a team whose loads wait for no clock, writes each thread the word there,
or the pair (each word at its own place where two pages hold them), and changes nothing else but the region record.
Under the same conditions step 3 of R211 reads the word (or pair) and changes no fact; a form without a window operand
reads none. (R115, R145, R150, R157, R211, R253) -/
def Obligations.ConstantWindowsAreRead : Prop :=
  (∀ (s : State) (h : Head) (ty : Ty) (r : Res) (win : BitVec 3) (b : Src) (c : Issuer) (t : Team) (g : Group) (l : Launch) (e : Env)
    (pa : Nat → Nat) (va x : Nat → W64),
    let i : Instr := .ldk h ty r win b
    Ready s i c t g l e → ClockOk s e → ForRows (s.starting c g i) i e (fun rows =>
      (∀ row ∈ rows, windowAddr l.desc false win.toNat ((row.2.getD 0 0 + disp h (.imm 0) b).toNat % 2 ^ 32) ty.is64 = .ok (va row.1)
        ∧ WindowGives s e l (va row.1) ty.is64 (pa row.1) (x row.1)) →
        Leaves (exec i s) s c e (((s.starting c g i).noteLoads .global (rows.map (fun row => (pa row.1, tyBytes ty)))).putResults e.g ty r
          (rows.map (fun row => (row.1, x row.1))))))
  ∧ (∀ (s : State) (e : Env) (k : Comp) (l : Launch) (ks : List W64), s.launch? e.launch = some l → (s.team? e.team).isSome = true →
      Konst s e l k ks → ∃ s1, (konstOperand e k).go s = .done ks s1 ∧ s1.facts = s.facts)

/-- A performed `pfg` goes on whatever its addresses are: no trap, no register, no byte of memory and no other team is
changed; only cache and directory tags and the prefetchers' counters are. (R124, R125, R155) -/
def Obligations.PrefetchChangesNoValue : Prop :=
  ∀ (s : State) (h : Head) (hint : BitVec 3) (a b : Src) (c : Issuer) (t : Team) (g : Group) (l : Launch) (e : Env),
    Ready s (.pfg h hint a b) c t g l e →
      ∃ t', exec (.pfg h hint a b) s = .next t' ∧ t'.cur = none ∧ t'.mem = s.mem ∧ t'.mgmt = s.mgmt ∧ t'.saved = s.saved
        ∧ t'.facts.teams = (s.withGroup c.team ((s.starting c g (.pfg h hint a b)).ended e true .none)).facts.teams
        ∧ { t'.dev with l1 := [], llc := [], dir := [], dirWait := [], cores := [], parts := [] }.facts
            = { s.dev with l1 := [], llc := [], dir := [], dirWait := [], cores := [], parts := [] }.facts
        ∧ (∀ k, t'.dev.core k = { s.dev.core k with pfi1 := (t'.dev.core k).pfi1, pfx1 := (t'.dev.core k).pfx1 })
        ∧ (∀ k, t'.dev.part k = { s.dev.part k with pfil := (t'.dev.part k).pfil, pfxl := (t'.dev.part k).pfxl })

/-- When any visited thread of a global or local load or store has an address that is no multiple of the access size,
ALIGN is raised with exactly those threads as mask and their addresses in FVA, no operation joins the stream and no
register changes. (R87, R132, R145, R255) -/
def Obligations.MisalignedAccessTraps : Prop :=
  ∀ (s : State) (h : Head) (ty : Ty) (r : Res) (d : BitVec 8) (o : Order) (sc : Scope) (rc : Bool) (hint : BitVec 3) (a b : Src)
    (c : Issuer) (t : Team) (g : Group) (l : Launch) (e : Env),
    let form (i : Instr) : Prop := Ready s i c t g l e → CanTrap s l e g → ForRows (s.starting c g i) i e (fun rows =>
      let bad := (effAddrs h a b rows).filter (fun x => x.2.toNat % tyBytes ty != 0)
      bad ≠ [] → Traps (exec i s) s l e (s.starting c g i)
        (e.record (s.starting c g i) .align 0 (maskOf ((e.spread bad).map (·.1))) 0 (e.spread bad)))
    form (.ldg h ty r o sc rc hint a b) ∧ form (.stg h ty d o sc hint a b) ∧ form (.ldl h ty r o sc a b) ∧ form (.stl h ty d o sc a b)

/-- When a global load or store is performed for one lane, no translation is cached and the walk from the root for its
aligned canonical address ends in a failure, the failure is PROT or PGFAULT, and the instruction raises it with the
threads of that lane as mask, the detail of the failure and the address in FVA; nothing is performed. (R131, R132,
R145, R148, R255) -/
def Obligations.TranslationFaultsAreReported : Prop :=
  ∀ (s : State) (h : Head) (ty : Ty) (r : Res) (d : BitVec 8) (o : Order) (sc : Scope) (rc : Bool) (hint : BitVec 3) (a b : Src)
    (c : Issuer) (t : Team) (g : Group) (l : Launch) (e : Env) (n : Nat) (va : W64) (cause : Cause) (detail : Nat),
    let form (i : Instr) (need : Need) : Prop := Ready s i c t g l e → CanTrap s l e g → ForRows (s.starting c g i) i e (fun rows =>
      effAddrs h a b rows = [(n, va)] → aligned (tyBytes ty) [(n, va)] = true → canonical va = true → s.dev.tlb = [] →
      walkCheck (s.dev.part (e.key / 16)) e.sup need va (rootWalk s e.die e.key va) = .error (cause, detail) →
        (cause = .prot ∨ cause = .pgfault) ∧
        Traps (exec i s) s l e (s.starting c g i)
          (e.record (s.starting c g i) cause detail (maskOf ((e.spread [(n, va)]).map (·.1))) 0 (e.spread [(n, va)])))
    form (.ldg h ty r o sc rc hint a b) .read ∧ form (.stg h ty d o sc hint a b) .write

/-- An address for which every walk that the agent may make, from the root or from a cached entry, passes the checks
with one outcome translates to it, changes nothing but the agent's translation cache, and leaves every other such
address of that agent translating as before; what the cache takes in agrees with the tables. (R127, R128, R129, R130,
R131) -/
def Obligations.MappedPagesTranslate : Prop :=
  ∀ (s : State) (agent die : Nat) (key : SlotKey) (sup : Bool) (need : Need) (va : W64) (x : Nat × Bool),
    Maps s agent die key sup need va x →
      ∃ s1, (translate agent die key sup need va).go s = .done (.ok x) s1 ∧ s1.facts = s.facts ∧ s1.mem = s.mem ∧ s1.teams = s.teams
        ∧ ∀ key' sup' need' va' x', Maps s agent die key' sup' need' va' x' → Maps s1 agent die key' sup' need' va' x'

/-- A performed `pgmap` or `pgunmap` closes the region, gives each visited thread a status from 0 to 6 in MAPST and no
other thread one, and leaves its split waiting until its own writes are applied everywhere. For one performed lane: a
status other than 0 changes no memory; a done `pgmap` stores the entry where the walk found the invalid one, gives the
page's frames the placement word and leaves every byte outside the entry and those frames as it was; a done `pgunmap`
stores the new entry and leaves no cached translation of the slot that meets the page. Assumed of the state: the
invariant, canonical MAPST, and that no group watches page-table entries (R140). (R127, R128, R129, R130, R136, R138,
R142, R145, R170, R171) -/
def Obligations.PageTableFormsComplete : Prop :=
  ∀ (s : State) (h : Head) (a b d : Src) (c : Issuer) (t : Team) (g : Group) (l : Launch) (e : Env), Inv s → Unwatched s → e.die < 8 → Tab.wf 0 g.mapst = true →
    let mp : Instr := .pgmap h a b d
    let un : Instr := .pgunmap h a b
    let leaves (i : Instr) (rows : Rows) (m : Tab (BitVec 8)) (t' : State) : Prop :=
      t'.hasGroup c ({ (s.starting c g i).closeRegion with mapst := m }.ended e true (.sync 0 0 0)) ∧ t'.mgmt = s.mgmt
      ∧ (∀ k, (∀ r ∈ rows, k ∉ e.threads r.1) → Tab.get 0 m k = Tab.get 0 g.mapst k)
      ∧ ∀ r ∈ rows, ∀ k ∈ e.threads r.1, (Tab.get 0 m k).toNat ≤ 6
    (Ready s mp c t g l e → ForRows (s.starting c g mp) mp e (fun rows => Ends (exec mp s) (fun t' => ∃ m, leaves mp rows m t'
      ∧ ∀ r, rows = [r] → let pw : W32 := (r.2.getD 2 0).setWidth 32
          match pgmapOne s e.key (r.2.getD 0 0) (r.2.getD 1 0) pw with
          | .status x => t'.mem = s.mem ∧ ∀ k ∈ e.threads r.1, Tab.get 0 m k = BitVec.ofNat 8 x
          | .install at_ frames _ => (∀ k ∈ e.threads r.1, Tab.get 0 m k = 0) ∧ t'.mem.word e.die at_ 8 = r.2.getD 1 0
              ∧ (∀ f, t'.mem.frameWord f = if f ∈ frames then pw else s.mem.frameWord f)
              ∧ ∀ die pa, ¬ (at_ ≤ pa ∧ pa < at_ + 8) → pa / 65536 ∉ frames → t'.mem.byte die pa = s.mem.byte die pa)))
    ∧ (Ready s un c t g l e → ForRows (s.starting c g un) un e (fun rows => Ends (exec un s) (fun t' => ∃ m, leaves un rows m t'
      ∧ ∀ r, rows = [r] → let x := pgunmapOne s e.key (r.2.getD 0 0) (r.2.getD 1 0)
          (∀ k ∈ e.threads r.1, Tab.get 0 m k = BitVec.ofNat 8 x.1)
          ∧ match x.2 with
            | none => t'.mem = s.mem
            | some (at_, base, n) => Stored s.mem t'.mem e.die (cellsAt at_ 8 (r.2.getD 1 0))
                ∧ ∀ k ∈ t'.dev.tlb, k.slot = e.key → k.meets base n = false)))

/-- Performed, each of these closes the region and goes on, `tlbinv.sync` waiting until every access of the slot in
its range that was issued before is performed. `tlbinv` takes every cached translation of the slot that meets its
ranges away and changes nothing else. With no window set anywhere, `clean` and `invl` change no byte and no team, and
`invl` leaves no word of code or constants in its ranges undefined. `scwin` does not start while its split's accesses
to the scratchpad are to be performed; then it sets the window it names when the window is legal, clears it for mode
0, and raises PROT 0x0D when it is not; no byte of memory changes unless the old window held dirty words. Two clauses
are the model's: that PROT 0x0D is raised on the visited threads (log entry 34, DEDUCED; R173 gives no mask), and that
`tlbinv.sync` waits as a wait of its split over the hull of its ranges (log entry 76). Assumed of the state: the
invariant, that no group watches page-table entries (R140), and no operation of class 12 in flight. (R108, R109, R110,
R115, R141, R142, R145, R172, R173) -/
def Obligations.WindowAndCacheFormsComplete : Prop :=
  ∀ (s : State) (h : Head) (a b : Src) (d : BitVec 8) (win mode : BitVec 2) (c : Issuer) (t : Team) (g : Group) (l : Launch) (e : Env),
    Inv s → Unwatched s → forestsInFlight s = [] →
    let unset : Prop := ∀ u ∈ s.teams, u.setWindows = []
    let goes (i : Instr) (w : Rows → Wait) (P : Rows → State → Prop) : Prop := Ready s i c t g l e → ForRows (s.starting c g i) i e (fun rows =>
      Ends (exec i s) (fun t' => t'.hasGroup c (((s.starting c g i).closeRegion).ended e true (w rows)) ∧ t'.mgmt = s.mgmt
        ∧ (unset → t'.mem = s.mem ∧ t'.facts.teams = (s.withGroup c.team (((s.starting c g i).closeRegion).ended e true (w rows))).facts.teams)
        ∧ P rows t'))
    let rounded (rows : Rows) := (rangesOf h a b rows).map (fun r => (r.1, roundUp r.2))
    goes (.tlbinv h d a b) (fun _ => .none) (fun rows t' => t'.mem = s.mem ∧ t'.dev.facts = s.dev.facts
      ∧ ∀ k ∈ t'.dev.tlb, k.slot = e.key → ∀ r ∈ rounded rows, k.meets r.1 r.2 = false)
    ∧ goes (.tlbinvSync h d a b) (fun rows => .sync s.nextUid (hullRange (rounded rows)).1 (hullRange (rounded rows)).2) (fun _ _ => True)
    ∧ goes (.clean h d a b) (fun _ => .none) (fun _ _ => True)
    ∧ goes (.invl h d a b) (fun _ => .none) (fun rows t' => unset → ∀ m ∈ t'.dev.launches, m.part = e.key / 16 → ∀ w ∈ m.stale,
        ∀ r ∈ rangesOf h a b rows, rangeHolds s e.key r.1 r.2 (4 * w) = false)
    ∧ (let i : Instr := .scwin h a b win mode
      Ready s i c t g l e → ForRows (s.starting c g i) i e (fun rows =>
        let xs := firstRow rows
        let k := win.toNat
        let v := xs.getD 0 0
        let lb := fld (xs.getD 1 0) 0 32
        let n := fld (xs.getD 1 0) 32 32
        let sets (w : Window) : Prop := Ends (exec i s) (fun t' => t'.hasGroup c (((s.starting c g i).closeRegion).ended e true .none)
          ∧ (∃ u, t'.team? c.team = some u ∧ u.windows = setNth t.windows k w) ∧ ((t.windows.getD k {}).dirty = [] → t'.mem = s.mem))
        ((s.starting c g i).localPending c.split = true → Reaches (exec i s) (s.withGroup c.team
          { (s.starting c g i).modSplit c.split (fun y => { y with wait := .none, chain := e.chain0 }) with
            issued := (s.starting c g i).issued.map (fun p => p.giveUp c.split) }))
        ∧ ((s.starting c g i).localPending c.split = false →
        (mode = 0 → sets {})
        ∧ (mode ≠ 0 → windowOk (t.setWindow k {}) l.desc.localSize k v lb n = true → sets { lbase := lb, len := n, vbase := v, mode := mode.toNat })
        ∧ (mode ≠ 0 → windowOk (t.setWindow k {}) l.desc.localSize k v lb n = false → (t.windows.getD k {}).dirty = [] → CanTrap s l e g →
            Ends (exec i s) (fun t' => t'.hasGroup c (e.trapped (s.now e.core) (s.starting c g i).closeRegion
              (e.record (s.starting c g i).closeRegion .prot 13 e.visited) (s.dev.slot l.cmd.slot).sventry))))))

/-- A performed `cpy` whose control word, addresses and ends pass their checks closes its region, once the copy queue
has room, takes the engine port and either completes its handle with 0 at once (length 0) or puts one command at the
end of its core's queue with the handle pending; the command joins as a release at `.dev` behind what its split has
still to perform. A `rstr` whose C is not zero, or whose B has a bit above 31, kills its context (R259 with PROT 0x11:
it runs at supervisor level). A performed `rstr`, once the queue has room, completes its handle with 7 + 256 × code
where one of its refusals holds (the spec orders none before another) or a stack lacks the storage (code 2), and
otherwise reserves the storage, marks the page as moving under the new placement word and queues one command. (R133,
R136, R143, R145, R184, R193, R259, R276, R281, R282, R284, R286) -/
def Obligations.CopyAndRestripeAreQueued : Prop :=
  ∀ (s : State) (h : Head) (d : BitVec 4) (a b k : Src) (rc : BitVec 10) (c : Issuer) (t : Team) (g : Group) (l : Launch) (e : Env),
    (let i : Instr := .cpy h d a b k
      let g1 := s.starting c g i
      Ready s i c t g l e → ForRows g1 i e (fun rows =>
        let x (n : Nat) : W64 := (firstRow rows).getD n 0
        let len := fld (x 2) 0 28
        let reaches (loc : Bool) (need : Need) (va : W64) : Prop :=
          if loc then va.toNat + len ≤ l.desc.localSize
          else ∃ pa wr, Maps s e.core e.die e.key e.sup need va (pa, wr) ∧ (inPeer pa = true → s.dev.share (e.key / 16) pa ≠ 0)
        fld (x 2) 30 2 = 0 → (x 0).toNat % 4 = 0 → (x 1).toNat % 4 = 0 → len % 4 = 0 →
          (len = 0 → s.dev.copyFull e.core = false → Resolved (exec i s) s c t e g1 d.toNat 0)
          ∧ (len ≠ 0 → reaches ((x 2).getLsbD 28) .write (x 0) → reaches ((x 2).getLsbD 29) .read (x 1) → s.dev.copyFull e.core = false →
              Reaches (exec i s) ((s.begun c g i).commanded e t ((g1.handed d.toNat (.pending s.nextUid)).ended e true .none) false (some d.toNat)
                (.cpy (x 0) (x 1) len ((x 2).getLsbD 28) ((x 2).getLsbD 29)) [] false))))
    ∧ (let i : Instr := .rstr h d a b rc
      let g1 := s.starting c g i
      Ready s i c t g l e → ForRows g1 i e (fun rows =>
        let x (n : Nat) : W64 := (firstRow rows).getD n 0
        let pw : W32 := (x 1).setWidth 32
        (hi32 (x 1) ≠ 0 ∨ rc ≠ 0 → Answers (exec i s) (fun t' => ∀ m ∈ t'.dev.launches, m.cmd.slot ≠ l.cmd.slot))
        ∧ ∀ pa frames pa0 wr, hi32 (x 1) = 0 → rc = 0 → Maps s e.core e.die e.key e.sup .none (x 0) (pa0, wr) →
          pageFrames (x 0) (rootWalk s e.die e.key (x 0)) = some (pa, frames) →
            let codes := rstrRefusals s.mem pa frames pw
            let room := s.mem.rereserve (List.range' (pa / 65536) frames) (fun _ => none) (fun _ => some pw)
            (codes ≠ [] → s.dev.copyFull e.core = false → ∃ code ∈ codes, Resolved (exec i s) s c t e g1 d.toNat (rstrResult code))
            ∧ (codes = [] → room = none → s.dev.copyFull e.core = false → Resolved (exec i s) s c t e g1 d.toNat (rstrResult 2))
            ∧ ∀ next, codes = [] → room = some next → s.dev.copyFull e.core = false →
                Reaches (exec i s) { (s.begun c g i).commanded e t ((g1.handed d.toNat (.pending s.nextUid)).ended e true .none) false (some d.toNat)
                    (.rstr pa frames pw) [] false with
                  mem := { s.mem with
                    reserved := next.foldl (fun m u => Tab.set 0 m u.1 u.2) s.mem.reserved
                    moving := s.mem.moving ++ [{ cmd := s.nextUid, pa, bytes := 65536 * frames, cursor := 0
                                                 old := (List.range' (pa / 65536) frames).map s.mem.frameWord, pw }] } }))

/-- A performed form of class 11 whose record passes its checks, names no register that is pending, in recipe form or
uncorrectable, and finds room in its queue, closes its region, makes its handle pending (`accz` has none), puts its
record at the end of the pair's queue with the operands and B bytes as they are, guards its ranges, sets EPIN for
`mxfnc` (whose command keeps how often each of its registers had been written before) and takes a phase of the cycle
for `bqnt`; nothing else changes. `tsub` does the same for the record in its 64 bytes of local memory when they are
aligned, inside the allocation, filled, defined, good, not about to be written by its own split, and a well-formed
record. (R98, R184, R193, R209, R276, R289, R290, R291, R294, R295, R296, R298) -/
def Obligations.TileRecordsAreQueued : Prop :=
  ∀ (s : State) (h : Head) (ty : Ty) (d : BitVec 4) (a b : Src) (m : BitVec 4) (c : Issuer) (t : Team) (g : Group) (l : Launch) (e : Env),
    let form (i : Instr) (hn : Option Nat) (mk : W64 → W64 → TileRec) : Prop := Ready s i c t g l e → ForRows (s.starting c g i) i e (fun rows =>
      let r := mk ((firstRow rows).getD 0 0) ((firstRow rows).getD 1 0)
      Submits s e t (s.starting c g i) l r → Reaches (exec i s) ((s.begun c g i).submitted e t (s.starting c g i) hn r))
    form (.mma h ty d a b m) (some d.toNat) (fun x y => ⟨0, ty, m.toNat, false, x, y⟩)
    ∧ form (.mxfnc h ty d a b m) (some d.toNat) (fun x y => ⟨0, ty, m.toNat, true, x, y⟩)
    ∧ form (.scacc h d a b m) (some d.toNat) (fun x y => ⟨1, .bfp, m.toNat, false, x, y⟩)
    ∧ form (.bqnt h d a b m) (some d.toNat) (fun x y => ⟨2, .bfp, m.toNat, false, x, y⟩)
    ∧ form (.bunp h d a b m) (some d.toNat) (fun x y => ⟨3, .bfp, m.toNat, false, x, y⟩)
    ∧ form (.accz h ty a b m) none (fun x y => ⟨4, ty, m.toNat, false, x, y⟩)
    ∧ (let i : Instr := .tsub h d a
      Ready s i c t g l e → ForRows (s.starting c g i) i e (fun rows =>
        let x := (firstRow rows).getD 0 0
        let word (k : Nat) : W64 := leWord ((t.localBytes (x.toNat + 8 * k) 8).map (fun y => y.getD 0))
        hi32 x = 0 → x.toNat % 64 = 0 → LocalOk t l 64 false true [(0, x)] → (t.localBytes x.toNat 64).all Option.isSome = true →
          (∀ o ∈ g.stream, o.split = e.split → o.kind.writes = true → ∀ y ∈ o.accs, y.waiting = true → y.glob = false →
            ¬ (y.loc < x.toNat + 64 ∧ x.toNat < y.loc + y.size)) →
          ∀ r, TileRec.ofWord0 (word 0) (word 1) (word 2) = some r → (∀ k, 3 ≤ k → k < 8 → word k = 0) → Submits s e t (s.starting c g i) l r →
            Reaches (exec i s) ((s.begun c g i).submitted e t (s.starting c g i) (some d.toNat) r)))

/-- Performed, `fwait` waits on a handle whose command is not done and otherwise observes it and goes on; `ftest`
gives its visited threads the predicate that the handle is not pending, observing it where that is so; `yld` sends its
visited threads to the label, waiting there while the handle is pending, and the others on; `fcancel` completes a
pending handle whose command has not started with status 1 and removes the command, and otherwise only goes on. Each
closes the region. (R39, R40, R184, R193, R242, R250, R253, R281, R287, R288) -/
def Obligations.FuturesAreObserved : Prop :=
  ∀ (s : State) (h : Head) (d : BitVec 3) (hn : BitVec 4) (f : BitVec 20) (c : Issuer) (t : Team) (g : Group) (l : Launch) (e : Env),
    let cmd := pendingCmd s c.team c.gidx hn.toNat
    let g1 (i : Instr) := (s.starting c g i).closeRegion
    let seen : State := s.withTeam (t.observe c.gidx hn.toNat)
    let tested := e.lanes.foldl (fun y n => y.putPred h.g d n cmd.isNone) (g1 (.ftest h d hn))
    (Performs s (.fwait h hn) c t g l e →
      (cmd ≠ none → Reaches (exec (.fwait h hn) s) (s.withGroup c.team ((g1 (.fwait h hn)).ended e true (.fwait hn.toNat))))
      ∧ (cmd = none → Reaches (exec (.fwait h hn) s) (seen.withGroup c.team ((g1 (.fwait h hn)).ended e true .none))))
    ∧ (Performs s (.ftest h d hn) c t g l e →
      Reaches (exec (.ftest h d hn) s) ((if cmd = none then seen else s).withGroup c.team (tested.ended e true .none)))
    ∧ (Performs s (.yld h hn f) c t g l e → (∀ x ∈ together e (label e f), StartAt s e.core l e.sup x.2) →
      (e.falls = true → e.mask &&& ~~~e.visited = 0) →
      (e.mask &&& ~~~e.visited = 0 ∨ 1 ≤ g.freeNumbers.length ∨ (g.split e.split).wait = .number) →
        Reaches (exec (.yld h hn f) s) ((if cmd = none then seen else s).withGroup c.team (e.yields (label e f) hn.toNat cmd.isSome (g1 (.yld h hn f)))))
    ∧ (Performs s (.fcancel h hn) c t g l e →
      ((∀ k, cmd = some k → k.started = true) → Leaves (exec (.fcancel h hn) s) s c e (g1 (.fcancel h hn)))
      ∧ ∀ k, cmd = some k → k.started = false → k.team = c.team → k.gidx = c.gidx → Ends (exec (.fcancel h hn) s) (fun t' =>
          t'.dev.cmd? k.id = none ∧ ∃ g', t'.group? c.team c.gidx = some g' ∧ g'.handle hn.toNat = .complete ({ k with status := 1 } : Cmd).result
            ∧ g'.v = g.v ∧ g'.s = g.s ∧ g'.p = g.p ∧ ((g.split c.split).resume = none → (g'.split c.split).pc = e.next)))

/-- A performed `emit` whose record addresses are aligned and local and whose descriptors are aligned, mapped for
reading and writing and not a peer's takes the core's engine port, adds one append for each thread to the stream and
waits for it. `emit.flush` on a well-formed descriptor that ECC finds good, once its release may happen, leaves the
node flushed with every appended record in a batch. `lnch`, once its release at `.sys` has happened, queues a
well-formed command behind its priority's others, counts it as accepted and completes its handle with 0; in a slot
with no page table it completes it with 1, and for a full queue or a malformed command with 2 or 1, and queues
nothing. (R24, R25, R51, R145, R178, R193, R270, R299, R300, R301) -/
def Obligations.GraphAndLaunchForms : Prop :=
  ∀ (s : State) (h : Head) (d : BitVec 4) (a b : Src) (prio : BitVec 2) (c : Issuer) (t : Team) (g : Group) (l : Launch) (e : Env),
    (let i : Instr := .emit h a b
     Ready s i c t g l e → ForRows (s.starting c g i) i e (fun rows =>
        let recs := rows.map (fun r => (r.1, (r.2.getD 1 0) &&& 0xFFFFFFFF#64))
        ∀ pas, aligned 8 recs = true → LocalOk t l 8 false false recs → aligned 64 (rows.map (fun r => (r.1, r.2.getD 0 0))) = true →
          Reach s e .both (rows.map (fun r => (r.1, r.2.getD 0 0))) pas →
            Reaches (exec i s) { s.issued c.team (((s.starting c g i).closeRegion.issue (e.ops s.nextUid .emit .n64 .rel .dev none (globalAccs pas 64
              (fun n => ((recs.find? (fun r => r.1 == n)).map (·.2)).getD 0) zeroData))).ended e true (.op s.nextUid)) 1 with
              dev := s.dev.usePort e.core }))
    ∧ (let i : Instr := .emitFlush h a
      Ready s i c t g l e → Inv s → Unwatched s → ForRows (s.starting c g i) i e (fun rows =>
        let va := (firstRow rows).getD 0 0
        ∀ pa wr, va.toNat % 64 = 0 → Maps s e.core e.die e.key e.sup .both va (pa, wr) → inPeer pa = false → s.mem.eccGood pa 64 = true → engineMayJoin s g e.split = true →
          (nodeOf s.mem pa).bad (s.dev.nodeDesc e.key va) = false → Ends (exec i s) (fun t' =>
            let n := nodeOf s.mem pa
            t'.hasGroup c ((s.starting c g i).closeRegion.ended e true .none)
            ∧ nodeOf t'.mem pa = (if n.flushed then n else { n with state := 1, formed := max n.formed n.tail }))))
    ∧ (let i : Instr := .lnch h d a prio
      Ready s i c t g l e → Inv s → Unwatched s → ForRows (s.starting c g i) i e (fun rows =>
        let va := (firstRow rows).getD 0 0
        let p := s.dev.part (e.key / 16)
        let q := p.queues.getD prio.toNat []
        let root := (s.dev.slot e.key).ptroot.getLsbD 0
        ∀ pa wr, va.toNat % 64 = 0 → Maps s e.core e.die e.key e.sup .read va (pa, wr) → inPeer pa = false → releasedSys s g e.team e.split = true →
          s.mem.sound pa 64 →
            let ws := (List.range 8).map (fun k => s.mem.word e.die (pa + 8 * k) 8)
            let answers (v : W64) : Prop := Ends (exec i s) (fun t' => t'.hasGroup c (((s.starting c g i).handed d.toNat (.complete v)).ended e true .none)
              ∧ (t'.dev.part (e.key / 16)).queues = p.queues)
            (root = true → commandOk ws = true → q.length < queueDepth →
              let x := s.dev.setPart (e.key / 16) { p with queues := setNth p.queues prio.toNat (q ++ [commandOf e.key ws]) }
              Reaches (exec i s) { (s.withTeam (t.guarding e 0 (some d.toNat) [] false false)).withGroup c.team
                  (((s.starting c g i).handed d.toNat (.complete 0)).ended e true .none) with
                dev := x.setSlot e.key { x.slot e.key with accepted := (x.slot e.key).accepted + 1 } })
            ∧ (root = false ∨ commandOk ws = false → answers 1) ∧ (root = true → commandOk ws = true → queueDepth ≤ q.length → answers 2)))

/-- Performed on a register inside the allocation with no result due: `rcpdem` takes a bound, unpinned register that
holds its values into recipe form and leaves any other register as it is; `rcpmat` leaves a register that is not in
recipe form as it is, and gives back one that is, whose valid entry names a slice of one instruction of classes 1 to 5
without a window operand, when entry and slice can be read, the inputs are whole, due to no load and in values, no
thread of the binding mask fails and the bank has the segments: each thread of the binding mask that has not exited
has the slice's result (an undefined one where a word of entry or slice has changed since the launch began, R306), the
binding stays and the register is in recipe form no more; `rcpdrop` ends the binding, of a register in recipe form
only once its bank has the segments. `rcp` on an entry below the table's bound whose 32 bytes map, are no peer's, not
poisoned, not met by an ECC event and valid, by a team whose loads wait for no clock, with no register in recipe form
among its inputs and its target, ends the target's old binding and binds it to the slice under the visited mask, in
the entry for that mask or the lowest free one; where none is free it only ends the old binding, and where no thread
is visited it changes nothing. (R189, R196, R197, R199, R201, R202, R203, R204, R210, R248, R306) -/
def Obligations.RecipeForms : Prop :=
  ∀ (s : State) (h : Head) (d k : BitVec 8) (c : Issuer) (t : Team) (g : Group) (l : Launch) (e : Env),
    let g1 (i : Instr) := s.starting c g i
    let free (i : Instr) : Prop := (Instr.shape i).blocked e.g g e.lanes = false
      ∧ (e.g = true ∨ ∀ r ∈ (Instr.shape i).refs, ∀ n ∈ e.lanes, r.fails e.regs g n = false)
    let form (i : Instr) (g2 : Group) : Prop := Performs s i c t g l e → free i → Leaves (exec i s) s c e g2
    form (.rcpdem h d) (if g.bound d.toNat && !g.pinned d.toNat && !g.demoted d.toNat then (g1 (.rcpdem h d)).demote d.toNat else g1 (.rcpdem h d))
    ∧ (g.demoted d.toNat = false → form (.rcpmat h d) (g1 (.rcpmat h d)))
    ∧ (let i : Instr := .rcpmat h d
      let va := l.desc.rtab + BitVec.ofNat 64 (32 * wordSlice (g.word d.toNat))
      let lanes := lanesOf e.w (g.bindMask d.toNat &&& ~~~g.exited)
      ∀ (pa ipa : Nat) (wr iwr : Bool) (i0 : Instr) (kc : Comp) (r0 : Res),
        Performs s i c t g l e → free i → ClockOk s e → g.demoted d.toNat = true →
        (∀ j, j < 4 → Maps s e.core e.die e.key false .read (va + BitVec.ofNat 64 (8 * j)) (pa + 8 * j, wr) ∧ inPeer (pa + 8 * j) = false) →
        s.mem.sound pa 32 →
          let n := sliceEntry l.desc (wordSlice (g.word d.toNat)) ((List.range 4).map (fun j => s.mem.word e.die (pa + 8 * j) 8))
          n.valid = true → n.count = 1 →
          (∀ u ∈ n.ins, ((dueOf g.stream).regs (g.bindMask d.toNat &&& ~~~g.exited)).contains u = false ∧ ∀ x ∈ lanes, g.badV.contains (laneKey u x) = false) →
          Maps s e.core e.die e.key false .fetch n.start (ipa, iwr) → inPeer ipa = false → s.mem.sound ipa 4 →
          (∀ j, j < 8 - ipa / 4 % 8 → l.stale.contains (ipa / 4 + j) = false) →
          decode true ((List.range (8 - ipa / 4 % 8)).map (fun j => (s.mem.word e.die (ipa / 4 * 4 + 4 * j) 4).setWidth 32)) = .ok i0 →
          Instr.comp i0 = some kc → kc.kind = .v r0 → r0.lat = 0 → kc.konst = none → kc.useD = false →
          (sliceSrcs i0).all (fun x => n.admits x.2 x.1) = true →
          bankUse s g.core g.quad (d.toNat % 8) + g.width / 16 ≤ bankSegments →
            ∃ v : Nat → Option W32,
              ((∀ j, j < 8 → l.changed.contains (pa / 4 + j) = false) → (∀ j, j < Instr.bytes i0 / 4 → l.changed.contains (ipa / 4 + j) = false) →
                ∀ x ∈ lanes, ∀ xs : List W64, xs.length = kc.srcs.length →
                  (∀ (j : Nat) (y : Src × Ty) (z : W64), kc.srcs[j]? = some y → xs[j]? = some z →
                    opndVal { g1 i with latch := [] } (Instr.lits i0) x ⟨j, y.1, .ty y.2⟩ = some z) →
                  v x = some (BitVec.setWidth 32
                    (((kc.eval ⟨Round.ofFrm (wordRfrm (g.word d.toNat)), e.w, 0⟩ [⟨x, xs, []⟩]).head?.map (·.val)).getD 0)))
              ∧ Leaves (exec i s) s c e (let y := lanes.foldl (fun y x => y.fillV d.toNat x (v x)) (((g1 i).repair d.toNat).noteLoads .global [])
                y.setWord d.toNat (wordSetDem (y.word d.toNat) false)))
    ∧ ((g.demoted d.toNat = true → bankUse s g.core g.quad (d.toNat % 8) + g.width / 16 ≤ bankSegments) →
        form (.rcpdrop h d) ((g1 (.rcpdrop h d)).endBinding d.toNat))
    ∧ (let i : Instr := .rcp h d k
      let va := l.desc.rtab + BitVec.ofNat 64 (32 * k.toNat)
      ∀ (pa : Nat) (wr : Bool), Issues s c t g l → e = envOf s c g l i h → Instr.runs i e = true → free i → k.toNat < l.desc.nrcp →
        (∀ j, j < 4 → Maps s e.core e.die e.key false .read (va + BitVec.ofNat 64 (8 * j)) (pa + 8 * j, wr) ∧ inPeer (pa + 8 * j) = false) → s.mem.sound pa 32 → ClockOk s e →
          let n := sliceEntry l.desc k.toNat ((List.range 4).map (fun j => s.mem.word e.die (pa + 8 * j) 8))
          n.valid = true → (∀ u ∈ n.ins, g.demoted u = false) → g.demoted d.toNat = false →
            let g2 := (g1 i).endBinding d.toNat
            Leaves (exec i s) s c e (if e.active then (match g2.maskEntry e.v with
              | some m => g2.bindReg d.toNat k.toNat m e.v n
              | none => g2) else g1 i))

/-- A performed form of class 12 on a descriptor that can be read, from its split's own stores where they hold it and
else from the die's view, and that is well formed, with every element number below N, closes its region and adds one
forest operation to its split's stream, one access for each thread (one in all for `fcount`, `fsnap`, `fundo` and
`freset`), each at its first pass, that may touch all of the forest's arrays; `freset` waits for it. `relabel` with a
control block that can be read so and passes its checks, once the copy queue has room, queues one command that guards
the rows of its source and its destination, with its handle pending. Two clauses are the model's: that those four make
one access for all their threads (R321; log entry 55, DEDUCED: R318 has `fcount` performed for each thread), and that
an operation is taken to touch whole arrays (log entry 97). (R145, R177, R184, R193, R307, R315, R316, R318, R321,
R325, R326, R328) -/
def Obligations.ForestFormsIssue : Prop :=
  ∀ (s : State) (h : Head) (r : Res) (ty : Ty) (d : BitVec 4) (a b k : Src) (sel : BitVec 2) (c : Issuer) (t : Team) (g : Group) (l : Launch) (e : Env),
    let g1 (i : Instr) := (s.starting c g i).passCasOf (g.ownIds e.split)
    let form (i : Instr) (f : ForestOp) (dest : Option Res) (elems : List Nat) (whole waits : Bool) : Prop :=
      Ready s i c t g l e → ForRows (s.starting c g i) i e (fun rows =>
        let x := (firstRow rows).getD 0 0
        ∀ pa ws, ForestAt s e t g x pa ws (f == .freset) →
          let fo := Forest.ofWords (fun n => ws.getD n 0)
          (∀ row ∈ rows, ∀ j ∈ elems, lo32 (row.2.getD j 0) < fo.n) →
          let va := (s.dev.slot e.key).fdt + natW (128 * lo32 x)
          let accs : List Access := (if whole then rows.take 1 else rows).map (fun row => startAccess f
            { lane := row.1, va, glob := true, loc := pa, size := 128, data := natW (lo32 (row.2.getD 1 0)), cmp := natW (lo32 (row.2.getD 2 0)) })
          Issued (exec i s) s c e (g1 i).closeRegion (e.ops s.nextUid (.forest f pa) .n32 .rlx .dev dest accs 0 fo.spans)
            (if waits then .op s.nextUid else .none))
    form (.unite h r a b k) .unite (some r) [1, 2] false false ∧ form (.find h r a b) .find (some r) [1] false false
    ∧ form (.csize h r a b) .csize (some r) [1] false false ∧ form (.fcount h r a sel) (.fcount sel) (some r) [] true false
    ∧ form (.fsnap h a) .fsnap none [] true false ∧ form (.fundo h a) .fundo none [] true false ∧ form (.freset h a) .freset none [] true true
    ∧ (let i : Instr := .relabel h ty d a b
      Ready s i c t g l e → ForRows (s.starting c g i) i e (fun rows =>
        let x := (firstRow rows).getD 0 0
        let va := (firstRow rows).getD 1 0
        ∀ fpa fws pa ws wr sp, ForestAt s e t g x fpa fws false → va.toNat % 32 = 0 → Maps s e.core e.die e.key e.sup .read va (pa, wr) →
          inPeer pa = false → OwnWords s e t (g.passCasOf (g.ownIds e.split)) va pa 4 ws →
            relabelCheck ty ws (Forest.ofWords (fun n => fws.getD n 0)).n l.desc.accSize = .ok sp → s.dev.copyFull e.core = false →
              let s2 := (s.withGroup c.team (g1 i)).commanded e t (((g1 i).handed d.toNat (.pending s.nextUid)).ended e true .none) false (some d.toNat)
                (.relabel fpa ty (ws ++ [(s.dev.slot e.key).fdt + natW (128 * lo32 x)])) [sp.1, sp.2] false
              ∃ t2, s2.team? c.team = some t2 ∧ Reaches (exec i s) (s2.withTeam (t2.guardRows s.nextUid ty ws))))

/-- `cntrd` writes the counter that it names, of the reader's core, cluster, pair, partition or slot, to the register
of each visited thread (or the s register). `pwrset` sets the group's power class where the kernel allows it and
raises PROT 0x17 where it does not. `cntsn` on an aligned buffer that maps for writing and is not a peer's, with room
in the signing queue, makes its handle pending and puts one request at the end of the queue, before those that higher
cores made in the same cycle. Nothing else changes. (R145, R150, R193, R276, R355, R363, R364, R366) -/
def Obligations.CounterAndPowerForms : Prop :=
  ∀ (s : State) (h : Head) (r : Res) (n : Counter) (d : BitVec 4) (a : Src) (sel : Bool) (pc : BitVec 2) (c : Issuer) (t : Team) (g : Group) (l : Launch) (e : Env),
    (Ready s (.cntrd h r n) c t g l e → Leaves (exec (.cntrd h r n) s) s c e
      ((s.starting c g (.cntrd h r n)).putResults h.g .n64 r (e.lanes.map (fun k => (k, counterValue s.dev e.core e.key n)))))
    ∧ (Performs s (.pwrset h pc) c t g l e →
      (pc.toNat ≤ l.desc.pmax → Leaves (exec (.pwrset h pc) s) s c e { s.starting c g (.pwrset h pc) with pwr := pc.setWidth 3 })
      ∧ (l.desc.pmax < pc.toNat → CanTrap s l e g → Traps (exec (.pwrset h pc) s) s l e (s.starting c g (.pwrset h pc))
          (e.record (s.starting c g (.pwrset h pc)) .prot 23 e.visited)))
    ∧ (let i : Instr := .cntsn h d a sel
      let g1 := s.starting c g i
      Ready s i c t g l e → ForRows g1 i e (fun rows =>
        let va := (firstRow rows).getD 0 0
        ∀ pa wr, va.toNat % 128 = 0 → Maps s e.core e.die e.key e.sup .write va (pa, wr) → inPeer pa = false → s.mgmt.signQ.length < signDepth →
            Reaches (exec i s) { (s.withTeam (t.guarding e s.nextUid (some d.toNat) [] false false)).withGroup c.team
                ((g1.handed d.toNat (.pending s.nextUid)).ended e true .none) with
              nextUid := s.nextUid + 1, dev := { s.dev with cmds := s.dev.cmds ++ [e.cmd (s.begun c g i) (.cntsn va sel) s.nextUid] }
              mgmt := { s.mgmt with signQ := enqueueReading ⟨s.nextUid, e.core, (s.dev.core e.core).cycle⟩ s.mgmt.signQ } }))

/-- A write to PTROOT or a context record is ignored while a command of the slot is queued or running, and otherwise
changes that register of that slot alone, its reserved bits staying zero. QUANTUM waits for the next tick. A severity
register takes each field that is a legal action and keeps the others. The wiring map names the target of a port and
the partition bound to it; a release ends the freeze of the black box; a write that no register takes changes nothing,
and in ENDED none does but those of the launch port. A read of a port register, of the lifecycle, of the enabled
clusters, of the energy of a partition, of a slot and of no partition, of a cluster's allowance settings and of the
event counters answers it and changes nothing else; FREE holds the free entries of the four queues. A launch command
that is not one 64-byte write, or finds PTROOT invalid, is only counted as dropped; a well-formed one goes to the end
of its queue of fewer than 256 and is counted as accepted. The debug flag that a lifecycle query answers, set in
RETURNED alone (log entry 98), and that this query alone is answered in ENDED (log entry 107), are the model's. (R2,
R8, R23, R24, R25, R27, R30, R59, R303, R311, R352, R355) -/
def Obligations.HostRegistersTakeWrites : Prop :=
  ∀ (s : State) (part slot : Nat), s.mgmt.alive = true → part < 16 → slot < 16 → Tab.risingFrom 0 s.dev.slots = true →
    Tab.risingFrom 0 s.dev.parts = true → Tab.risingFrom 0 s.dev.severity = true →
    let key := 16 * part + slot
    let slots (t : State) : Prop := t = { s with dev := { s.dev with slots := t.dev.slots } } ∧ ∀ k, k ≠ key → t.dev.slot k = s.dev.slot k
    (s.dev.slotBusy key = true → ∀ v, exec (.ptrootWrite part slot v) s = .next s ∧ ∀ off, exec (.contextRecordWrite part slot off v) s = .next s)
    ∧ (5 ≤ s.mgmt.lifecycle → ∀ off v (w : W32) cls port target b, exec (.contextRecordWrite part slot off v) s = .next s ∧ exec (.quantumWrite part w) s = .next s
        ∧ exec (.severityWrite cls w) s = .next s ∧ exec (.peerWiring port target b) s = .next s ∧ exec .blackBoxRelease s = .next s)
    ∧ (s.dev.slotBusy key = false → ∀ v : W64,
        Answers (exec (.ptrootWrite part slot v) s) (fun t => slots t ∧ ∃ r : W64, t.dev.slot key = { s.dev.slot key with ptroot := r }
            ∧ ∀ i, r.getLsbD i = (v.getLsbD i && (i == 0 || (16 ≤ i && i < 52))))
        ∧ ∀ off, s.mgmt.lifecycle < 5 → Answers (exec (.contextRecordWrite part slot off v) s) (fun t => slots t ∧ ∃ r : W64, (∀ i, r.getLsbD i = (v.getLsbD i && i < 57))
            ∧ t.dev.slot key = (let x := s.dev.slot key
                if off = 0 then { x with sventry := r } else if off = 8 then { x with save := r } else if off = 16 then { x with fdt := r } else x)))
    ∧ (∀ q : W32, s.mgmt.lifecycle < 5 → Answers (exec (.quantumWrite part q) s) (fun t => t.dev.part part = { s.dev.part part with quantumNext := q.setWidth 20 }
        ∧ (∀ p, p ≠ part → t.dev.part p = s.dev.part p) ∧ t = { s with dev := { s.dev with parts := t.dev.parts } }))
    ∧ (∀ cls (v : W32), s.mgmt.lifecycle < 5 → cls < 13 → Answers (exec (.severityWrite cls v) s) (fun t =>
        (∀ k, k < 10 → t.dev.action cls k = (let f := field v.toNat (3 * k) 3
            if f ≤ 4 then f else s.dev.action cls k))
        ∧ (∀ c k, c ≠ cls → t.dev.action c k = s.dev.action c k) ∧ t = { s with dev := { s.dev with severity := t.dev.severity } }))
    ∧ (s.mgmt.lifecycle < 5 → ∀ port target b, port < 16 → Answers (exec (.peerWiring port target b) s) (fun t => t.dev.portPart port = b
        ∧ (∀ p, p ≠ port → t.dev.portPart p = s.dev.portPart p) ∧ t = { s with dev := { s.dev with peers := t.dev.peers } }))
    ∧ (∀ bar off v, exec (.registerWrite bar off v) s = .next s)
    ∧ (s.mgmt.lifecycle < 5 → exec .blackBoxRelease s = .next { s with dev := { s.dev with boxFrozen := false } })
    ∧ (let reads (q : HostAsk) (r : HostReply) : Prop := exec (.hostRead q) s = .next { s with dev := { s.dev with reply := r } }
        let at_ (o : Nat) : HostAsk := .port (0x10000 * part + 0x1000 * slot + o)
        let x := s.dev.slot key
        reads (at_ 0) (.port 0) ∧ reads (at_ 0x108) (.port x.accepted) ∧ reads (at_ 0x110) (.port x.dropped) ∧ reads (at_ 0x118) (.port x.recfail)
          ∧ reads (at_ 0x120) (.port x.reclast) ∧ reads (at_ 0x200) (.port x.ptroot)
          ∧ (∃ w, reads (at_ 0x100) (.port w) ∧ ∀ k, k < 4 → fld w (16 * k) 16 = 256 - ((s.dev.part part).queues.getD k []).length)
          ∧ reads .lifecycle (.lifecycle s.mgmt.lifecycle (s.mgmt.lifecycle == 4))
          ∧ (s.mgmt.lifecycle < 5 → reads .clusters (.enabled s.dev.enabled) ∧ reads (.energy part) (.port (s.dev.part part).epart)
              ∧ reads (.slotEnergy part slot) (.port x.eslot) ∧ reads .overhead (.port s.mgmt.eovh)
              ∧ (∀ c, reads (.allowance c) (.allowance (s.dev.cluster c).settings))
              ∧ ∀ cls, reads (.events part cls) (.port ((Tab.get 0 (s.dev.part part).evt cls).setWidth 64))))
    ∧ ∀ prio (ws : List W64), prio < 4 →
        (∀ single, (single = false ∨ ws.length ≠ 8 ∨ (s.dev.slot key).ptroot.getLsbD 0 = false) →
          Answers (exec (.launchCommand part slot prio single ws) s) (fun t => t = { s with dev := { s.dev with slots := t.dev.slots, reply := .dropped } }
            ∧ (∀ k, k ≠ key → t.dev.slot k = s.dev.slot k) ∧ t.dev.slot key = { s.dev.slot key with dropped := (s.dev.slot key).dropped + 1 }))
        ∧ (ws.length = 8 → commandOk ws = true → (s.dev.slot key).ptroot.getLsbD 0 = true → (s.dev.part part).queues.length = 4 →
            ((s.dev.part part).queues.getD prio []).length < 256 →
          Answers (exec (.launchCommand part slot prio true ws) s) (fun t =>
            t = { s with dev := { s.dev with slots := t.dev.slots, parts := t.dev.parts, reply := .accepted } }
            ∧ t.dev.slot key = { s.dev.slot key with accepted := (s.dev.slot key).accepted + 1 } ∧ (∀ k, k ≠ key → t.dev.slot k = s.dev.slot k)
            ∧ t.dev.part part = { s.dev.part part with queues := (t.dev.part part).queues } ∧ (∀ p, p ≠ part → t.dev.part p = s.dev.part p)
            ∧ ∀ k, k < 4 → (t.dev.part part).queues.getD k [] =
                (s.dev.part part).queues.getD k [] ++ (if k = prio then [commandOf key ws] else [])))

/-- A request of the host joins the end of the host bridge queue and is performed when it is the oldest. A read of
sound bytes of one partition's ranges answers each byte from the view of its home die, with poison where a sector is
poisoned, and waits while a release at `.sys` that was performed early holds them. A write to such bytes makes them
the newest values and changes no other byte's; its Cmp is due, and is returned once every die has applied it. Outside
every range a read answers poison, a write is dropped, and both are logged. A write of the host to its own memory
makes its bytes current on every die and leaves no other byte changed. A snoop of a host line leaves it clean and not
exclusive, or absent where it invalidates, and every other sector of the slices as it was; of a line with a dirty
sector, that one may turn out uncorrectable and be written poisoned. A transfer that arrives at a working peer port is
written in the ranges of the partition bound to the port, and is refused elsewhere. Data are read and written through
the caches, which lose no value. That these accesses count and fill the last-level cache as they do is the model's
choice. Assumed of the state: the invariant, that no group watches page-table entries (R140), and tables in order; of
a write, that no held contribution and no forest in flight is there to be spoilt (R162, R317), and of a write to host
memory that no dirty sector of a host line is in the slices. (R20, R21, R22, R27, R113, R116, R119, R175, R182, R185,
R285) -/
def Obligations.HostTrafficIsServed : Prop :=
  ∀ (s : State), s.mgmt.alive = true → Inv s → Unwatched s → Tab.risingFrom 0 s.dev.parts = true →
    let free : Prop := s.mem.ored = [] ∧ forestsInFlight s = []
    let queued (r : HostReq) : State := { s with dev := { s.dev with hostQ := s.dev.hostQ ++ [r], hostIn := s.dev.hostIn + 1 } }
    let cells (pa : Nat) (bs : List Byte) : List (Nat × Byte) := (List.range' pa bs.length).zip bs
    -- the caches, the launches' changed words and the prefetch counts may differ, and what is named
    let served (t : State) (m : MemSys) (d : Dev) : Prop := t = { s with mem := m, choices := t.choices, dev := { d with
        llc := t.dev.llc, l1 := t.dev.l1, dir := t.dev.dir, launches := t.dev.launches, parts := t.dev.parts, spent := t.dev.spent
        badRecords := t.dev.badRecords } }
      ∧ t.dev.launches.map (·.id) = s.dev.launches.map (·.id)
      ∧ ∀ p, t.dev.part p = { s.dev.part p with pful := (t.dev.part p).pful, pfltl := (t.dev.part p).pfltl, pfxl := (t.dev.part p).pfxl }
    (∀ pa n, exec (.hostRead (.memory .arrive pa n)) s = .next (queued (.read pa n)))
    ∧ (∀ pa bs, exec (.hostWrite .arrive pa bs) s = .next (queued (.write pa bs)))
    ∧ (∀ pa inval, inHost pa = true → exec (.cxlCacheSnoop .arrive pa inval) s = .next (queued (.snoop pa inval)))
    ∧ (∀ pa n q, s.dev.hostQ = .read pa n :: q →
        let d : Dev := { s.dev with hostQ := q, hostDone := s.dev.hostDone + 1 }
        (s.dev.assigned pa n = false → exec (.hostRead (.memory .perform pa n)) s =
          .next { s with dev := { d with hostLog := s.dev.hostLog ++ [(pa, false)], reply := .readData [] true, spent := insertNat 512 s.dev.spent } })
        ∧ (s.dev.assigned pa n = true → hostMayRead s pa n = false → exec (.hostRead (.memory .perform pa n)) s = .next s)
        ∧ (s.dev.assigned pa n = true → hostMayRead s pa n = true → s.mem.eccGood pa n = true →
            (∀ r ∈ s.dev.badRecords, ¬ (r.1 < pa + n ∧ pa < r.1 + 8)) →
            Answers (exec (.hostRead (.memory .perform pa n)) s) (fun t =>
              served t s.mem { d with reply := .readData (s.mem.homeBytes pa n) (s.mem.poisoned pa n) })))
    ∧ (∀ pa bs q, s.dev.hostQ = .write pa bs :: q →
        let d : Dev := { s.dev with hostQ := q, hostDone := s.dev.hostDone + 1 }
        (s.dev.assigned pa bs.length = false → inHost pa = false → exec (.hostWrite .perform pa bs) s =
          .next { s with dev := { d with hostLog := s.dev.hostLog ++ [(pa, true)], reply := .dropped, spent := insertNat 512 s.dev.spent } })
        ∧ (bs ≠ [] → (∀ a, pa ≤ a → a < pa + bs.length → inHost a = true) → free →
            (∀ b ∈ s.dev.llc, ∀ e ∈ b.secs, inHost (512 * b.block + 32 * e.1) = true → (e.2.map (·.dirty)).getD false = false) →
            Answers (exec (.hostWrite .perform pa bs) s) (fun t => served t t.mem d
              ∧ ∀ die a, die < 8 → t.mem.byte die a = (((cells pa bs).find? (fun c => c.1 == a)).map (·.2)).getD (s.mem.byte die a)))
        ∧ (s.dev.assigned pa bs.length = true → free → Answers (exec (.hostWrite .perform pa bs) s) (fun t => Newest s.mem t.mem (cells pa bs)
            ∧ ∃ due : List (Nat × Nat), served t t.mem { d with hostCmp := s.dev.hostCmp ++ [due], reply := .accepted }
              ∧ ∀ a, pa ≤ a → a < pa + bs.length → (s.mem.homeDie a, (s.mem.views.getD (s.mem.homeDie a) {}).clock.getD (s.mem.homeDie a) 0 + 1) ∈ due)))
    ∧ (let reached (l : List (Nat × Nat)) : Prop := ∀ v ∈ s.mem.views, ∀ e ∈ l, e.2 ≤ v.clock.getD e.1 0
        ∀ pa bs, ((∀ l ∈ s.dev.hostCmp, ¬ reached l) → exec (.hostWrite .finish pa bs) s = .next s)
          ∧ ∀ before l after, s.dev.hostCmp = before ++ l :: after → (∀ x ∈ before, ¬ reached x) → reached l →
            exec (.hostWrite .finish pa bs) s = .next { s with dev := { s.dev with hostCmp := before ++ after, reply := .cmp } })
    ∧ (∀ pa inval q, s.dev.hostQ = .snoop pa inval :: q → (∀ b ∈ s.dev.llc, Tab.risingFrom 0 b.secs = true) →
        let line (i : Nat) : Prop := i = pa / 64 % 8 * 2 ∨ i = pa / 64 % 8 * 2 + 1
        let clean : Prop := s.dev.hostDirty pa = []
        inHost pa = true → (clean ∨ s.dev.action 4 4 ≤ 2) → Answers (exec (.cxlCacheSnoop .perform pa inval) s) (fun t =>
          (clean → t = { s with dev := { s.dev with hostQ := q, hostDone := s.dev.hostDone + 1, reply := .writeDone, llc := t.dev.llc } })
          ∧ t.mem = { s.mem with poison := t.mem.poison } ∧ (∀ i, i ∈ t.mem.poison ↔ i ∈ s.mem.poison ∨ i ∈ t.mem.poison ∧ i ∈ s.dev.hostDirty pa)
          ∧ t.teams = s.teams ∧ t.saved = s.saved ∧ t.dev.hostQ = q ∧ t.dev.hostDone = s.dev.hostDone + 1 ∧ t.dev.reply = .writeDone
          ∧ (∀ b ∈ t.dev.llc, b.block = pa / 512 → ∃ b0 ∈ s.dev.llc, b = { b0 with secs := b.secs } ∧ ∀ i, if line i then
              b.sec i = (if inval then none else (b0.sec i).map (fun x => { x with dirty := false, excl := false })) else b.sec i = b0.sec i)
          ∧ ∀ b, b.block ≠ pa / 512 → (b ∈ t.dev.llc ↔ b ∈ s.dev.llc ∧ b.secs ≠ [])))
    ∧ ∀ port pa bs, (16 ≤ port ∨ Link.peer port ∈ s.dev.down → exec (.peerInbound port pa bs) s = .next s)
        ∧ (port < 16 → Link.peer port ∉ s.dev.down →
          let mine (p : Nat) : Bool := pa + bs.length ≤ hbmEnd && (s.dev.part p).owns pa bs.length
          (∀ p, s.dev.portPart port = some p → mine p = true → free → Answers (exec (.peerInbound port pa bs) s) (fun t =>
            served t t.mem { s.dev with reply := .accepted } ∧ Newest s.mem t.mem (cells pa bs)))
          ∧ ((∀ p, s.dev.portPart port = some p → mine p = false) →
            exec (.peerInbound port pa bs) s = .next { s with dev := { s.dev with reply := .refused } }))

/-- The fuses advance by one state, and RETURNED clears the energy counters and their seals. A measurement extends one
register by SM3, and no other; MSM3 is extended only where a configuration is applied. A quote in DEPLOYED signs the
measurements, the lifecycle, the module and the nonce with the identity key, in MANUFACTURE with the test key, and
fails in RETURNED; it comes with the certificate chain of the key. A legal configuration of an idle partition is
applied, extends MSM3, and leaves no byte newly assigned to the partition unequal to zero on any die nor any of its
sectors poisoned, and returns the frames of removed ranges to home placement; an illegal one, one of a partition that
is not idle, and one whose frames find no free storage at home, is refused and changes nothing. What makes a
configuration illegal beside R18's busy partitions and fused-off clusters, namely ranges that overlap, are empty or
are no whole units, shares that sum above 16 and clusters of another partition, and that it is then refused without
effect, is the model's choice (log entry 67); so are the byte orders of the quote and of the configuration's image
(log entry 72), and that configurations are accepted in DEPLOYED and RETURNED only. Assumed of the state: the
invariant, and that the partition's ranges so far are whole units of 16 MiB. (R16, R17, R18, R28, R29, R30, R126,
R134, R136, R362) -/
def Obligations.ControllerServesItsHost : Prop :=
  ∀ (s : State), s.mgmt.alive = true → s.mgmt.lifecycle < 5 → Tab.risingFrom 0 s.dev.parts = true → Inv s →
    (Answers (exec .lifecycleAdvance s) (fun t => t.mgmt.lifecycle = s.mgmt.lifecycle + 1 ∧ t.mem = s.mem ∧ t.teams = s.teams
      ∧ (s.mgmt.lifecycle ≠ 3 → t = { s with mgmt := { s.mgmt with lifecycle := s.mgmt.lifecycle + 1 } })
      ∧ (s.mgmt.lifecycle = 3 → t.mgmt.eovh = 0 ∧ t.mgmt.sealedPart = [] ∧ t.mgmt.sealedSlot = [] ∧ t.mgmt.sealedEovh = 0
          ∧ (∀ p, t.dev.part p = { s.dev.part p with epart := 0 }) ∧ ∀ k, t.dev.slot k = { s.dev.slot k with eslot := 0 })))
    ∧ (∀ i image, i < 8 → i ≠ 3 → s.mgmt.msm.length = 8 → Answers (exec (.measurementExtend i image) s) (fun t =>
        t = { s with mgmt := { s.mgmt with msm := t.mgmt.msm } } ∧ ∀ k, k < 8 → t.mgmt.msm.getD k 0 =
          if k = i then Config.sm3 (bytes256 (s.mgmt.msm.getD i 0) ++ bytes256 (Config.sm3 image)) else s.mgmt.msm.getD k 0))
    ∧ (∀ nonce, Answers (exec (.attestationQuote nonce) s) (fun t => t = { s with dev := { s.dev with reply :=
        (let e := Config.sm3 (s.mgmt.msm.flatMap bytes256 ++ [BitVec.ofNat 8 s.mgmt.lifecycle] ++ bytesOf 16 Config.moduleId.toNat
          ++ [if s.dev.harvested then 1 else 0] ++ bytes256 nonce)
        if s.mgmt.lifecycle = 4 then .refused else if s.mgmt.lifecycle = 1 then .quote (Config.sm2TestSign e) Config.testChain else .quote (Config.sm2Sign e) Config.identityChain) } }))
    ∧ ∀ part clusters ranges shares, part < 16 →
        let old := (s.dev.part part).ranges
        let fresh := (ranges.flatMap (fun r => outside old r.1 (r.1 + r.2))).map (fun r => (r.1, r.2 - r.1))
        let removed := (old.flatMap (fun r => outside ranges r.1 (r.1 + r.2))).map (fun r => (r.1, r.2 - r.1))
        let legal : Bool := 3 ≤ s.mgmt.lifecycle && s.dev.partIdle part && clustersOk s.dev part clusters && rangesOk s.dev part ranges
          && sharesOk s.dev part shares && ((s.mem.dropMoves removed).reassign removed fresh).isSome
        (legal = false → Answers (exec (.partitionConfigure part clusters ranges shares) s) (fun t =>
            t = { s with dev := { s.dev with reply := .refused } }))
        ∧ (legal = true → s.mgmt.msm.length = 8 → (∀ r ∈ (s.dev.part part).ranges, r.1 % mib16 = 0 ∧ r.2 % mib16 = 0) →
          Answers (exec (.partitionConfigure part clusters ranges shares) s) (fun t => t.dev.reply = .accepted
            ∧ t.dev.part part = { s.dev.part part with clusters, ranges, shares } ∧ (∀ p, p ≠ part → t.dev.part p = s.dev.part p)
            ∧ t.teams = s.teams ∧ t.dev.slots = s.dev.slots
            ∧ t.mgmt = { s.mgmt with msm := t.mgmt.msm }
            ∧ (∀ k, k < 8 → t.mgmt.msm.getD k 0 = if k = 3 then Config.sm3 (bytes256 (s.mgmt.msm.getD 3 0)
                ++ bytes256 (Config.sm3 (configImage part clusters ranges shares))) else s.mgmt.msm.getD k 0)
            ∧ (∀ pa, (∃ r ∈ ranges, r.1 ≤ pa ∧ pa < r.1 + r.2) → (∀ r ∈ (s.dev.part part).ranges, ¬ (r.1 ≤ pa ∧ pa < r.1 + r.2)) →
                (∀ die, die < 8 → t.mem.byte die pa = 0) ∧ t.mem.poisoned pa 1 = false)
            ∧ (∀ f, (∃ r ∈ old, r.1 ≤ 65536 * f ∧ 65536 * f < r.1 + r.2) → (∀ r ∈ ranges, ¬ (r.1 ≤ 65536 * f ∧ 65536 * f < r.1 + r.2)) →
                t.mem.frameWord f = homePlacement f)
            ∧ ∀ pa, (∀ r ∈ ranges, ¬ (r.1 ≤ pa ∧ pa < r.1 + r.2)) → ∀ die, t.mem.byte die pa = s.mem.byte die pa))

/-- A core cycle advances the cycle counter of every core of an enabled cluster and the allowance of every such
cluster by R357's rule, lets go a hold for a group that is gone, and counts down every datapath; a slot that has spent
nothing pays nothing. A new REFILL goes to every cluster of a partition, and 0 to the others, and a cluster takes the
AMAX and thresholds that the controller writes for it. A lane group outside a latch chain enters near-threshold when
every bound group permits it, and leaves when one does not, taking 16 and 64 cycles. A seal keeps EPART, ESLOT, EOVH
and the reading number. The oldest signing request, once it has joined its queue in an earlier cycle, takes the next
reading number; before RETURNED it seals the value that it signs, clears GAP, and stores the 64 signed bytes and the
signature at its buffer; from RETURNED on it ends with status 9. Assumed for the stores: every walk that the request's
engine may make for its buffer passes the checks, no release of its team performed early keeps the buffer, and no held
contribution and no forest in flight is there to be spoilt. (R355, R357, R358, R362, R363, R364, R365) -/
def Obligations.PowerAndEnergyAreCounted : Prop :=
  ∀ (s : State), Tab.risingFrom 0 s.dev.cores = true → Tab.risingFrom 0 s.dev.clusters = true → Tab.risingFrom 0 s.dev.lanes = true →
    (s.mgmt.powered = true → Answers (exec .coreCycle s) (fun t => t.mem = s.mem ∧ t.teams = s.teams ∧ t.saved = s.saved ∧ t.dev.spent = []
      ∧ (Tab.risingFrom 0 s.dev.slots = true → ∀ k, k ∉ s.dev.spent → t.dev.slot k = s.dev.slot k)
      ∧ (∀ c, t.dev.core c = if c < 256 ∧ s.dev.hasCluster (c / 4) = true then { s.dev.core c with cycle := (s.dev.core c).cycle + 1 } else s.dev.core c)
      ∧ (∀ c, t.dev.cluster c = if c < 64 ∧ s.dev.hasCluster c = true then
            (let x := (s.dev.cluster c).release s c
             { x with allow := BitVec.ofInt 32 (min (x.settings.amax : Int) (x.allow.toInt - x.charges + x.settings.refill)), charges := 0, heldNow := false
                      wheld := if x.heldNow then x.wheld + 1 else x.wheld }) else s.dev.cluster c)
      ∧ ∀ k, t.dev.lane k = { s.dev.lane k with busy := (s.dev.lane k).busy - 1, changing := (s.dev.lane k).changing - 1 }))
    ∧ (s.mgmt.alive = true → ∀ refill (l : List (Nat × Allowance)), refill < 256 →
        (∀ x ∈ l, x.2.refill ≤ 255 ∧ 1 ≤ x.2.amax ∧ x.2.amax ≤ 2 ^ 20 ∧ x.2.t1 < x.2.t2 ∧ x.2.t2 < x.2.t3) → Answers (exec (.refillUpdate refill l) s) (fun t =>
        t = { s with dev := { s.dev with clusters := t.dev.clusters } }
        ∧ ∀ c, t.dev.cluster c = if c < 64 then { s.dev.cluster c with settings := { ((l.find? (fun x => x.1 == c)).map (·.2)).getD (s.dev.cluster c).settings with
              refill := if (s.dev.clusterPart c).isSome then refill else 0 } } else s.dev.cluster c))
    ∧ (∀ core quad lg,
        let k := laneGroupKey core quad lg
        let x := s.dev.lane k
        let starts := (x.starts.filter (fun c => (s.dev.core core).cycle.toNat < c + 256)).length
        let permits (g : Group) : Prop := g.pwr = 2 ∨ 1 ≤ g.pwr.toNat ∧ starts ≤ 32
        x.changing = 0 → chainAt s k = none →
          (x.nominal = true → (∀ g ∈ boundGroups s core quad lg, permits g) → Answers (exec (.powerModeChange core quad lg) s) (fun t =>
            t = { s with dev := { s.dev with lanes := t.dev.lanes } } ∧ t.dev.lane k = { x with nominal := false, changing := 16 }
            ∧ ∀ j, j ≠ k → t.dev.lane j = s.dev.lane j))
          ∧ (x.nominal = false → (∃ g ∈ boundGroups s core quad lg, ¬ permits g) → Answers (exec (.powerModeChange core quad lg) s) (fun t =>
            t = { s with dev := { s.dev with lanes := t.dev.lanes } } ∧ t.dev.lane k = { x with nominal := true, changing := 64 }
            ∧ ∀ j, j ≠ k → t.dev.lane j = s.dev.lane j)))
    ∧ (s.mgmt.alive = true → Answers (exec .energySeal s) (fun t => t = { s with mgmt := { s.mgmt with
          sealedPart := t.mgmt.sealedPart, sealedSlot := t.mgmt.sealedSlot, sealedEovh := s.mgmt.eovh, sealedRnum := s.mgmt.rnum } }
        ∧ (∀ p, Tab.get 0 t.mgmt.sealedPart p = (s.dev.part p).epart) ∧ ∀ k, Tab.get 0 t.mgmt.sealedSlot k = (s.dev.slot k).eslot))
    ∧ ∀ (q : SignReq) (rest : List SignReq) (c : Cmd) (va : W64) (sel : Bool), s.mgmt.alive = true → s.mgmt.signQ = q :: rest →
        s.dev.cmd? q.cmd = some c → c.kind = .cntsn va sel → c.joined s = true → q.cycle ≠ (s.dev.core q.core).cycle →
        (4 ≤ s.mgmt.lifecycle → Answers (exec .signReading s) (fun t => t.mem = s.mem
          ∧ t.mgmt = { s.mgmt with signQ := rest, rnum := s.mgmt.rnum + 1, sealedRnum := s.mgmt.rnum + 1 }
          ∧ t.dev.cmd? c.id = some { c with started := true, finished := true, status := 9 }))
        ∧ (s.mgmt.lifecycle < 4 → c.core < 256 → Inv s → s.mem.ored = [] → forestsInFlight s = [] → Tab.risingFrom 0 s.mgmt.sealedPart = true → Tab.risingFrom 0 s.mgmt.sealedSlot = true →
            ∀ pa wr, Maps s (copyAgent c.core) (dieOf c.core) c.slot c.sup .write va (pa, wr) → inPeer pa = false →
            s.earlyOpen c.team true pa 128 = false →
            let n := s.mgmt.rnum + 1
            let v : W64 := if sel then (s.dev.slot c.slot).eslot else (s.dev.part c.part).epart
            let key := if sel then 16 + c.slot else c.part
            let body : List Byte := bytesOf 8 v.toNat ++ bytesOf 8 n ++ bytesOf 16 Config.moduleId.toNat
              ++ [BitVec.ofNat 8 c.part, BitVec.ofNat 8 (c.slot % 16), if sel then 1 else 0
                , BitVec.ofNat 8 ((if s.mgmt.gap.contains key then 1 else 0) + (if s.mgmt.lifecycle = 1 then 2 else 0))] ++ List.replicate 28 0
            let sig := if s.mgmt.lifecycle = 1 then Config.sm2TestSign (Config.readingDigest body) else Config.sm2Sign (Config.readingDigest body)
            Answers (exec .signReading s) (fun t => Stored s.mem t.mem (dieOf c.core) ((List.range' pa 128).zip (body ++ (bytesOf 64 sig.toNat).reverse))
              ∧ t.mgmt.rnum = n ∧ t.mgmt.sealedRnum = n ∧ t.mgmt.signQ = rest ∧ t.mgmt.gap = s.mgmt.gap.filter (· != key)
              ∧ Tab.get 0 (if sel then t.mgmt.sealedSlot else t.mgmt.sealedPart) (if sel then c.slot else c.part) = v
              ∧ t.dev.cmd? c.id = some { c with started := true, finished := true, addr := BitVec.ofNat 64 n <<< 16 }))

/-- A read from another die leaves a directory entry that names the reader and everyone named before, and no other
core of its partition as sole owner; a write leaves an entry that names the writer alone, or none where the writer is
on the home die, and no other core of the writer's partition, named or in its coherence unit, keeps a copy; where the
halves of the block have different home dies the copies on the home die of the written half stay, and stay named. A
request that finds every way of its set in recall for 4096 cycles raises DIR-OVERFLOW once, charged to the owner of
its address. A prefetch on a stream, in the page of its last access, brings the whole line and adds one to its
counter. A write-back leaves its sector clean everywhere; one that ECC finds uncorrectable becomes poisoned and is
reported, its bytes unchanged, and a dirty sector of a host line likewise where its line is evicted; one that scrub
finds is reported, and becomes poisoned where no cache holds it, while a valid copy keeps its own poison bit. A fill
makes the line of a live split's PC present for its slot; a window fill makes its block valid and leaves in its bytes
the memory's, keeping words written locally. None of them changes another byte of memory or a register. Assumed where
named: no recall in progress, tables in order, walks that pass, and what ECC finds. (R44, R109, R113, R118, R119,
R120, R122, R123, R124, R125, R309, R340) -/
def Obligations.CachesAndDirectoryKeepValues : Prop :=
  ∀ (s : State), Tab.risingFrom 0 s.dev.dir = true → Tab.risingFrom 0 s.dev.parts = true →
    (∀ core pa, inHbm pa = true → core < 256 → s.dev.failed.length < 2 → (∀ k ∈ s.dev.dirKeys pa, (Tab.get {} s.dev.dir k).recalling = false) →
      let away := dieOf core ≠ s.mem.homeDie pa
      let asked (e : L1Line) (i : Nat) : Prop := i < 4 ∧ e.core ≠ core ∧ 4 * e.line + i ∈ s.mem.unitSectors pa ∧ s.dev.answersProbe core (clusterOf e.core) = true
      let quiet (t : State) (j : Nat) : Prop := t = { s with dev := { s.dev with dir := t.dev.dir, dirWait := t.dev.dirWait, l1 := t.dev.l1, llc := t.dev.llc
                                                                                 spent := t.dev.spent } }
        ∧ (∀ k, k ≠ j → Tab.get {} t.dev.dir k = Tab.get {} s.dev.dir k)
        ∧ ∀ e ∈ t.dev.l1, ∃ e0 ∈ s.dev.l1, e = { e0 with secs := e.secs } ∧ ∀ i, i < 4 → ¬ asked e i → e.sec i = e0.sec i
      let read (t : State) : Prop := ∀ e ∈ t.dev.l1, ∀ i, asked e i → e.sec i ≠ some .modified ∧ e.sec i ≠ some .exclusive
      (s.dev.dirFind pa = none → away → ∀ j, (s.dev.dirKeys pa).find? (fun k => (Tab.get {} s.dev.dir k).mode == 0) = some j →
        Answers (exec (.dirRequest core pa false) s) (fun t => quiet t j ∧ read t ∧ let y := Tab.get {} t.dev.dir j
          y.mode = 1 ∧ y.ptrs = [core] ∧ y.ost = 0 ∧ y.tag = dirTag pa ∧ y.recalling = false))
      ∧ ∀ j, s.dev.dirFind pa = some j → let x := Tab.get {} s.dev.dir j
        (away → x.mode ≤ 2 → Answers (exec (.dirRequest core pa false) s) (fun t => quiet t j ∧ read t ∧ let y := Tab.get {} t.dev.dir j
            y.names core = true ∧ (∀ c, c < 256 → x.names c = true → y.names c = true) ∧ y.tag = x.tag
            ∧ (x.mode = 1 → x.ptrs.length < 4 → y.mode = 1) ∧ (x.mode = 1 → 4 ≤ x.ptrs.length → core ∉ x.ptrs → y.mode = 2)))
        ∧ Answers (exec (.dirRequest core pa true) s) (fun t => quiet t j
            ∧ (s.mem.halfDie pa = none → ∀ c, (Tab.get {} t.dev.dir j).names c = true ↔ away ∧ c = core)
            ∧ (∀ d, s.mem.halfDie pa = some d → x.mode ≤ 2 → (away → (Tab.get {} t.dev.dir j).names core = true)
                ∧ (∀ c, c < 256 → x.names c = true → dieOf c = d → (Tab.get {} t.dev.dir j).names c = true)
                ∧ ∀ c, (Tab.get {} t.dev.dir j).names c = true → away ∧ c = core ∨ dieOf c = d)
            ∧ ∀ e ∈ t.dev.l1, (∀ i, asked e i → e.sec i = none)
                ∧ (e.line / 4 = pa / 512 → e.core ≠ core → some (dieOf e.core) ≠ s.mem.halfDie pa → x.names e.core = true → s.dev.answersProbe core (clusterOf e.core) = false)))
    ∧ (∀ j set, let w := Tab.get (0, 0) s.dev.dirWait (waitKey (j, set))
        let ev : Event := { cls := 8, src := 8, slot := none, part := s.dev.owner w.2, unit_ := unitCode (8 + j) 68, addr := natW w.2 }
        0 < w.1 → w.1 < 2 ^ 64 → w.1 + 4096 ≤ s.dev.now + 1 → (∀ k ∈ List.range' (dirBase j set) 16, (Tab.get {} s.dev.dir k).recalling = true) →
        Tab.risingFrom 0 s.dev.dirWait = true → s.dev.boxOpen → ev.action s.dev ≠ 0 → ev.action s.dev ≤ 2 →
        Answers (exec (.dirOverflow j set) s) (fun t => t.mem = s.mem ∧ t.teams = s.teams ∧ Reported s t ev ∧ exec (.dirOverflow j set) t = .next t))
    ∧ (∀ core va part x level pte from_ pa wr, Tab.get none s.dev.streams core = some x → x.reaches va = true → core < 256 → s.dev.corePart core = some (x.slot / 16) →
        let v : W64 := BitVec.ofNat 64 va
        Maps s core (dieOf core) x.slot x.sup .read v (pa, wr) → (rootWalk s (dieOf core) x.slot v).end_ = .leaf level pte from_ →
        x.last / pageBytes level = va / pageBytes level → inHbm pa = true → s.dev.l1Has core pa = false → Tab.risingFrom 0 s.dev.cores = true →
        Answers (exec (.prefetch (some core) va part) s) (fun t => t.dev.l1Has core pa = true
          ∧ t = { s with choices := t.choices, dev := { s.dev with cores := t.dev.cores, l1 := t.dev.l1, llc := t.dev.llc, dir := t.dev.dir
                                                                   dirWait := t.dev.dirWait, tlb := t.dev.tlb, spent := t.dev.spent } }
          ∧ ∀ c, t.dev.core c = if c = core then { s.dev.core c with pfi1 := (s.dev.core c).pfi1 + 1, pfx1 := (t.dev.core c).pfx1 } else s.dev.core c))
    ∧ (∀ pa part x, let unit := s.mem.homeUnit pa
        Tab.get none s.dev.streams (256 + unit) = some x → x.slot / 16 = part → x.reaches pa = true → x.last / 65536 = pa / 65536 → inHbm pa = true →
        (s.dev.part part).owns (pa / 128 * 128) 128 = true → s.dev.llcHas unit pa = false →
        Answers (exec (.prefetch none pa part) s) (fun t => t.dev.llcHas unit pa = true
          ∧ t = { s with choices := t.choices, dev := { s.dev with parts := t.dev.parts, llc := t.dev.llc, spent := t.dev.spent } }
          ∧ ∀ p, t.dev.part p = { s.dev.part p with pfxl := (t.dev.part p).pfxl, pfil := if p = part then (s.dev.part p).pfil + 1 else (s.dev.part p).pfil }))
    ∧ (∀ sector, inHbm (32 * sector) = true →
        let pa := 32 * sector
        let dirty : Prop := ∃ b ∈ s.dev.llc, b.block = sector / 16 ∧ ∃ x, b.sec (sector % 16) = some x ∧ x.dirty = true
        let clean (t : State) : Prop := (∀ b ∈ t.dev.llc, b.block = sector / 16 → ∀ x, b.sec (sector % 16) = some x → x.dirty = false)
          ∧ ∀ x ∈ t.dev.l1, x.line = sector / 4 → x.dirty (sector % 4) = false
        let skim (src : Nat) : Event := { cls := 4, src, slot := none, part := s.dev.owner pa
                                          unit_ := if src = 4 then sliceUnit s.mem pa else coreUnit ((s.dev.dirtyCore sector).getD 0), addr := natW pa }
        let scrub (cls : Nat) : Event := { cls, src := 5, slot := none, part := s.dev.owner pa, unit_ := controllerOf s.mem pa, addr := natW pa }
        let open_ (ev : Event) : Prop := s.dev.boxOpen ∧ ev.action s.dev ≠ 0 ∧ ev.action s.dev ≤ 2
        let spoilt : List Nat := insertNat sector s.mem.poison
        let healed : Tab Ecc := Tab.set .good s.mem.latent sector .good
        Answers (exec (.skimmerWriteback sector false) s) (fun t => clean t ∧ t = { s with dev := { s.dev with llc := t.dev.llc, l1 := t.dev.l1, spent := t.dev.spent } })
        ∧ (∀ src, (dirty ∧ src = 4 ∨ ¬ dirty ∧ src = 3 ∧ ∃ e ∈ s.dev.l1, e.line = sector / 4 ∧ e.dirty (sector % 4) = true) →
            s.mem.poison.contains sector = false → open_ (skim src) → Answers (exec (.skimmerWriteback sector true) s) (fun t =>
              clean t ∧ Reported s t (skim src) ∧ t.mem = { s.mem with poison := spoilt } ∧ t.teams = s.teams))
        ∧ ∀ ecc, (s.mem.finding sector ecc = .good → exec (.patrolScrub sector ecc) s = .next s)
          ∧ (s.mem.finding sector ecc = .corrected → open_ (scrub 0) → Answers (exec (.patrolScrub sector ecc) s) (fun t =>
              Reported s t (scrub 0) ∧ t.mem = { s.mem with latent := healed } ∧ t.teams = s.teams))
          ∧ (s.mem.finding sector ecc = .uncorrectable → s.mem.poison.contains sector = false → s.mem.buried.contains sector = false → open_ (scrub 2) →
              Answers (exec (.patrolScrub sector ecc) s) (fun t =>
                Reported s t (scrub 2) ∧ t.teams = s.teams
                ∧ t.mem = (if s.dev.cached sector = false then { s.mem with latent := healed, poison := spoilt }
                    else if s.dev.dirtyLlc sector = true ∨ (s.dev.dirtyCore sector).isSome = true then { s.mem with latent := healed }
                    else { s.mem with latent := healed, buried := insertNat sector s.mem.buried }))))
    ∧ (∀ sector, let pa := 32 * sector
        let ev : Event := { cls := 4, src := 4, slot := none, part := s.dev.owner pa, unit_ := sliceUnit s.mem pa, addr := natW pa }
        inHost pa = true → s.setFull sector = true → s.dev.dirtyLlc sector = true → s.mem.poison.contains sector = false →
        s.dev.boxOpen → ev.action s.dev ≠ 0 → ev.action s.dev ≤ 2 →
        Answers (exec (.skimmerWriteback sector true) s) (fun t => Reported s t ev ∧ t.mem = { s.mem with poison := insertNat sector s.mem.poison }
          ∧ t.teams = s.teams ∧ ∀ b ∈ t.dev.llc, b.block = sector / 16 → b.sec (sector % 16) = none))
    ∧ (∀ core line, s.teams.length ≤ 1024 → Answers (exec (.fetchFill core line) s) (fun t => t = { s with dev := { s.dev with code := t.dev.code } }
        ∧ ∀ u ∈ s.teams, ∀ l, s.launch? u.launch = some l → ∀ g ∈ u.groups, g.core = core → ∀ x ∈ g.splits, x.live = true → codeLine x.pc = line →
            s.dev.code.any (fun c => c.core == core && !c.const && c.slot == l.cmd.slot && c.line == line) = false →
              t.dev.code.any (fun c => c.core == core && !c.const && c.slot == l.cmd.slot && c.line == line) = true))
    ∧ ∀ u k blk (tm : Team) (l : Launch) (w : Window) pa wr, s.team? u = some tm → s.launch? tm.launch = some l → tm.windows[k]? = some w →
        w.mode ≠ 0 → 512 * blk < w.len → w.valid.contains blk = false → Tab.wf none tm.spad = true → clockOk s tm (dieOf tm.core0) = true →
        Maps s (mapUnit tm.core0) (dieOf tm.core0) l.cmd.slot false .read (w.vbase + BitVec.ofNat 64 (512 * blk)) (pa, wr) → inPeer pa = false →
        s.mem.eccGood pa 512 = true →
        Answers (exec (.windowFill u k blk) s) (fun t => t.mem = s.mem ∧ ∃ n, t.team? u = some n ∧ n.groups = tm.groups
          ∧ n.windows = setNth tm.windows k { w with valid := insertNat blk w.valid }
          ∧ (∀ i, i < 512 → n.localByte (w.lbase + 512 * blk + i) = if w.dirty.contains ((512 * blk + i) / 4) then tm.localByte (w.lbase + 512 * blk + i)
              else if s.mem.poisoned (pa + i) 1 then none else some (s.mem.byte (dieOf tm.core0) (pa + i)))
          ∧ ∀ a, ¬ (w.lbase + 512 * blk ≤ a ∧ a < w.lbase + 512 * blk + 512) → n.localByte a = tm.localByte a)

/-- A replay and a lost link are reported, and the link carries nothing more. A boundary that is lost takes its
junction with it: the junction's peer ports are down, the directory is empty and no L1 copy of a block homed on
another die is left; with J0 every partition is reset and the controller stops, with J1 the black box stops and the
event goes to the controller's log. Losing the CXL link resets every partition. A bad directory entry becomes a coarse
one naming all clusters; bad core state kills the slot where the matrix says so. THERMAL and POWER are reported and
change nothing else. A reset on request or at the critical temperature leaves the reset state with the fuses, the
black box and host memory kept; the energy counters stand at their sealed values, which a request for a reset makes
the present ones; a loss of power loses the black box and what is not sealed, and when power is on again the counters
resume at their seals and every first reading carries GAP. What a reset clears and keeps of memory and poison (log
entry 68), and the source of THERMAL and POWER and their charge to no partition (log entry 69), are the model's.
(R310, R337, R341, R342, R343, R344, R352, R362) -/
def Obligations.DeviceFaultsAreReported : Prop :=
  (∀ (s : State), s.mgmt.powered = false → Tab.risingFrom 0 s.dev.parts = true → Tab.risingFrom 0 s.dev.slots = true →
    Tab.risingFrom 0 s.mgmt.sealedPart = true → Tab.risingFrom 0 s.mgmt.sealedSlot = true → Answers (exec .powerOn s) (fun t =>
      t = { s with mgmt := { s.mgmt with alive := true, powered := true, eovh := s.mgmt.sealedEovh, gap := List.range (16 + 256) },
                   dev := { s.dev with parts := t.dev.parts, slots := t.dev.slots } }
      ∧ (∀ p, t.dev.part p = { s.dev.part p with epart := ((s.mgmt.sealedPart.find? (fun e => e.1 == p)).map (·.2)).getD (s.dev.part p).epart })
      ∧ ∀ k, t.dev.slot k = { s.dev.slot k with eslot := ((s.mgmt.sealedSlot.find? (fun e => e.1 == k)).map (·.2)).getD (s.dev.slot k).eslot }))
  ∧ ∀ (s : State), s.mgmt.powered = true → s.dev.boxOpen → Tab.risingFrom 0 s.dev.parts = true → Tab.risingFrom 0 s.dev.slots = true →
    let calm (i : Instr) (ev : Event) (P : State → Prop) : Prop := ev.action s.dev ≠ 0 → ev.action s.dev ≤ 2 →
      Answers (exec i s) (fun t => Reported s t ev ∧ t.mem = s.mem ∧ t.teams = s.teams ∧ t.mgmt = s.mgmt ∧ P t)
    let fallen (j : Nat) (t : State) : Prop := j ∈ t.dev.failed ∧ (∀ p, 8 * j ≤ p → p < 8 * j + 8 → Link.peer p ∈ t.dev.down) ∧ t.dev.dir = []
      ∧ (∀ x ∈ t.dev.l1, s.mem.homeDie (128 * x.line) = dieOf x.core)
      ∧ (j = 0 → t.mgmt.alive = false ∧ ∀ p, p < 16 → (∀ l ∈ t.dev.launches, l.part ≠ p) ∧ (t.dev.part p).queues = [[], [], [], []])
      ∧ (j = 1 → t.mem = s.mem ∧ t.teams = s.teams ∧ t.dev.boxStopped = true ∧ t.dev.box = [] ∧ (s.dev.action 9 8 ≠ 0 → ∃ en ∈ t.dev.ctrlLog, en.cls = 9))
    let anew (t : State) : Prop := t.cur = none ∧ t.teams = [] ∧ t.saved = [] ∧ t.agenda = []
      ∧ t.mem = { State.reset.mem with host := s.mem.host, poison := s.mem.poison } ∧ t.mgmt.lifecycle = s.mgmt.lifecycle ∧ t.mgmt.rnum = s.mgmt.rnum
      ∧ t.mgmt.msm = List.replicate 8 0 ∧ t.mgmt.signQ = []
    let kept (t : State) (e : W64) (pe se : Nat → W64) : Prop := t.mgmt.alive = true ∧ t.mgmt.eovh = e
      ∧ t.dev = { State.reset.dev with enabled := s.dev.enabled, harvested := s.dev.harvested, parts := t.dev.parts, slots := t.dev.slots, box := t.dev.box
                                       ctrlLog := s.dev.ctrlLog, boxFrozen := true }
      ∧ (∀ p, t.dev.part p = { epart := pe p }) ∧ ∀ k, t.dev.slot k = { eslot := se k }
    (∀ l, s.dev.linkUp l = true →
      calm (.linkReplay l) { cls := 6, src := linkSource l, slot := none, part := none, unit_ := linkUnit l } (fun _ => True)
      ∧ (∀ p, l = .peer p → calm (.linkDown l) { cls := 7, src := linkSource l, slot := none, part := none, unit_ := linkUnit l } (fun t => t.dev.linkUp l = false))
      ∧ (∀ d j, l = .boundary d j → Answers (exec (.linkDown l) s) (fun t => t.dev.linkUp l = false ∧ fallen j t))
      ∧ (l = .cxl → Answers (exec (.linkDown l) s) (fun t => t.dev.linkUp l = false
          ∧ ∀ p, p < 16 → (∀ x ∈ t.dev.launches, x.part ≠ p) ∧ (t.dev.part p).queues = [[], [], [], []])))
    ∧ (∀ j, s.dev.junctionUp j = true → Answers (exec (.junctionFail j) s) (fallen j))
    ∧ (∀ j set way, let k := dirBase j set + way
        let x := Tab.get {} s.dev.dir k
        s.dev.junctionUp j = true → set < 32768 → way < 16 → x.mode ≠ 0 → Tab.risingFrom 0 s.dev.dir = true →
        calm (.ctrlParity (.directory j set way)) { cls := 10, src := 8, slot := none, part := s.dev.owner (dirAddr s.dev j set x), unit_ := unitCode (8 + j) 68
                                                    addr := natW (dirAddr s.dev j set x) } (fun t => let y := Tab.get {} t.dev.dir k
          y.mode = 2 ∧ y.coarse = BitVec.allOnes 64 ∧ y.ost = 0 ∧ y.tag = x.tag ∧ ∀ i, i ≠ k → Tab.get {} t.dev.dir i = Tab.get {} s.dev.dir i))
    ∧ (∀ r t0 g l, s.team? r.team = some t0 → s.group? r.team r.gidx = some g → s.launch? t0.launch = some l → s.dev.action 10 9 = 3 →
        Answers (exec (.ctrlParity (.core r)) s) (fun t => ∀ m ∈ t.dev.launches, m.cmd.slot ≠ l.cmd.slot))
    ∧ (∀ die, die < 10 → calm (.thermal die) { cls := 11, src := 9, slot := none, part := none, unit_ := controllerUnit, detail := BitVec.ofNat 32 die } (fun _ => True))
    ∧ (∀ die : Option Nat, calm (.power die) { cls := 12, src := 9, slot := none, part := none, unit_ := controllerUnit, detail := BitVec.ofNat 32 (die.getD 0) } (fun _ => True))
    ∧ Answers (exec .moduleReset s) (fun t => anew t ∧ kept t s.mgmt.eovh (fun p => (s.dev.part p).epart) (fun k => (s.dev.slot k).eslot) ∧ t.dev.box = s.dev.box)
    ∧ (∀ die, die < 10 → Tab.risingFrom 0 s.mgmt.sealedPart = true → Tab.risingFrom 0 s.mgmt.sealedSlot = true →
        Answers (exec (.criticalTemperature die) s) (fun t => anew t ∧ kept t s.mgmt.sealedEovh (Tab.get 0 s.mgmt.sealedPart) (Tab.get 0 s.mgmt.sealedSlot) ∧ ∃ en : BoxEntry, en.cls = 11 ∧ en.detail = BitVec.ofNat 32 die
        ∧ t.dev.box = (s.dev.box ++ [en]).drop ((s.dev.box.length + 1) - 4096)))
    ∧ Answers (exec .powerLoss s) (fun t => anew t ∧ t.mgmt.powered = false ∧ t.mgmt.alive = false ∧ t.dev.box = [] ∧ t.dev.ctrlLog = []
        ∧ t.mgmt.sealedPart = s.mgmt.sealedPart ∧ t.mgmt.sealedSlot = s.mgmt.sealedSlot
        ∧ (Tab.risingFrom 0 s.mgmt.sealedPart = true → Tab.risingFrom 0 s.mgmt.sealedSlot = true → Answers (exec .powerOn t) (fun u => u.mgmt.powered = true ∧ u.mgmt.alive = true
            ∧ u.mgmt.eovh = s.mgmt.sealedEovh ∧ (∀ p, (u.dev.part p).epart = Tab.get 0 s.mgmt.sealedPart p)
            ∧ (∀ k, (u.dev.slot k).eslot = Tab.get 0 s.mgmt.sealedSlot k) ∧ ∀ k, k < 16 + 256 → k ∈ u.mgmt.gap)))

/-- A load that nothing holds back takes the value that the newest buffered store or its view gives; the last of an
instruction gives each register its value and ends the operation. A store that nothing holds back but what its release
alone would wait for leaves its bytes current on its own die, in host memory, or in the team's scratchpad, and no
other byte changed. A die that takes a write from its queue shows the bytes that are newer than its own and no other
changed, and its clock counts the write. A reply gives the register the old value and ends the access, or begins the
wait of `arw`; the reply to a pass of a forest instruction that goes on lets the next begin; a request sent again gets
the answer that was kept and applies nothing. A fence whose conditions hold leaves the stream and wakes its split;
`fence.sc` first takes its place in the sc order with its die's clock. A wait whose phase has passed, and which no
release performed early keeps (R178), ends. Assumed of the state: the invariant, an operation that has failed nowhere,
and no command's range, held contribution, forest or uncorrectable word that the access meets. (R148, R160, R165,
R168, R169, R175, R176, R178, R179, R180, R182, R185) -/
def Obligations.LoadsAndStoresArePerformed : Prop :=
  ∀ (s : State),
    (∀ r op lane (x : Spot), Plain s r op lane x →
      let last : Prop := ∀ a ∈ x.op.accs, a.lane ≠ lane → a.st = .done
      let others : Prop := ∃ a ∈ x.op.accs, a.lane ≠ lane ∧ a.undone = true
      -- the registers of a lane hold a result
      let holds (t : State) (d : Res) (v : W64) : Prop := ∃ g, t.group? r.team r.gidx = some g
        ∧ (x.op.g = false → d.nwb = false → g.vreg d.d.toNat lane = some (v.setWidth 32)
            ∧ (x.op.ty.is64 = true → g.vreg (d.d.toNat + 1) lane = some (v.extractLsb' 32 32)))
        ∧ (x.op.g = true → d.d ≠ 63 → g.sreg d.d.toNat = uniformResult x.op.ty v)
      let gone (t : State) : Prop := (t.group? r.team r.gidx).bind (fun g => g.op? op) = none
      (∀ v, x.op.kind = .load → x.acc.st = .waiting → x.loads s = some v →
        Answers (exec (.performLoad r op lane .good) s) (fun t => t.mem = s.mem
          ∧ (others → Stands t r op lane (fun a => a.st = .done ∧ a.old = v ∧ a.undef = false))
          ∧ (last → gone t ∧ ∀ d, x.op.dest = some d → (x.op.accs.map (·.lane)).Nodup → (∀ a ∈ x.op.accs, a.lane < 128) → (x.op.g = true → x.op.accs.length = 1) →
              Tab.risingFrom 0 x.g.s = true → holds t d (extend x.op.ty v))))
      ∧ (x.op.kind = .store → x.acc.st = .waiting → mayPerformEarly s r.team x.g x.op x.acc x.op.order = true →
          earlyHeld s r.team x.g x.op.split x.op.scope x.acc x.op.order = false →
        Answers (exec (.commit r op lane) s) (fun t => (others → Stands t r op lane (fun a => a.st = .done)) ∧ (last → gone t)
          ∧ (x.acc.glob = true → Stored s.mem t.mem x.die (cellsAt x.acc.loc x.acc.size x.acc.data))
          ∧ (x.acc.glob = false → t.mem = s.mem ∧ ∃ u, t.team? r.team = some u ∧ ∀ a, u.localByte a =
              if x.acc.loc ≤ a ∧ a < x.acc.loc + x.acc.size then
                some ((bytesOf x.acc.size x.acc.data.toNat).getD (a - x.acc.loc) 0) else x.team.localByte a)))
      ∧ (x.acc.st = .applied → x.acc.fs.more = false → x.acc.undef = false →
        Answers (exec (.atomicReply r op lane) s) (fun t => t.mem = s.mem
          ∧ (x.op.kind = .arw → Stands t r op lane (fun a => a.st = .arrived ∧ a.old = x.acc.old))
          ∧ (x.op.kind ≠ .arw → x.op.kind ≠ .load → x.op.kind ≠ .fence → (others → Stands t r op lane (fun a => a.st = .done)) ∧ (last → gone t))
          ∧ ((∃ o, x.op.kind = .atm o) ∨ (∃ o, x.op.kind = .cas o) → ∀ d, x.op.dest = some d → Tab.risingFrom 0 x.g.s = true → holds t d x.acc.old)))
      ∧ (x.acc.st = .applied → ∀ a, s.dev.answers.find? (fun a => a.1 == x.g.core && a.2.1 == targetUnit s x && a.2.2.1 == x.acc.seq) = some a →
        Answers (exec (.requestResend r op lane) s) (fun t => t.mem = s.mem ∧ t.dev = s.dev
          ∧ Stands t r op lane (fun y => y = { x.acc with old := if x.op.kind = .arw then barPhase a.2.2.2 else a.2.2.2 }))))
    ∧ (∀ r op lane (x : Spot), spotOf s r op lane = some x → x.acc.st = .waiting → x.acc.fs.more = true →
        Answers (exec (.atomicReply r op lane) s) (fun t => t.mem = s.mem
          ∧ Stands t r op lane (fun a => a = { x.acc with fs := { x.acc.fs with more := false } })))
    ∧ (∀ die k (v : View) (w : Arrival), Inv s → s.mem.views[die]? = some v → v.queue[k]? = some w → mayApply v w = true → (w.cells.map (·.1)).Nodup →
        Answers (exec (.apply die k) s) (fun t => t = { s with mem := { s.mem with views := t.mem.views } }
          ∧ (∀ d, d ≠ die → t.mem.views[d]? = s.mem.views[d]?)
          ∧ ∃ u : View, t.mem.views[die]? = some u ∧ u.queue = v.queue.eraseIdx k ∧ (w.src < 8 → u.clock = setNth v.clock w.src (w.vc.getD w.src 0))
          ∧ ∀ pa, Tab.get 0 u.mem pa = (match w.cells.find? (fun c => c.1 == pa) with
              | some c => if Tab.get 0 v.pos pa < c.2.2 then c.2.1 else Tab.get 0 v.mem pa
              | none => Tab.get 0 v.mem pa)))
    ∧ ∀ r op t0 g l o, s.team? r.team = some t0 → s.group? r.team r.gidx = some g → s.launch? t0.launch = some l → g.op? op = some o → op ≠ 0 →
        let done (t : State) : Prop := t.mem = s.mem ∧ ∃ g', t.group? r.team r.gidx = some g' ∧ g'.op? op = none
          ∧ ∀ n, n < 4 → (g.split n).wait = .op op → (g'.split n).wait = .none
        (o.kind = .fence → o.order ≠ .sc → fenceReady s r.team g o = true → Answers (exec (.complete r op) s) done)
        ∧ (o.kind = .fence → o.order = .sc → ∀ x, o.snap = some x → scReady s (dieOf g.core) o x = true → fenceHeld s r.team g o = false → Answers (exec (.complete r op) s) (fun t => done t
            ∧ t.dev.scOpen = s.dev.scOpen.filter (fun e => e.1 != x.2.1)))
        ∧ (o.kind = .fence → o.order = .sc → o.snap = none → (g.before o.split op).any MemOp.openAny = false → Answers (exec (.complete r op) s) (fun t =>
            t.mem = s.mem ∧ t.dev.scNext = s.dev.scNext + 1 ∧ t.dev.scOpen = s.dev.scOpen ++ [(s.dev.scNext, scOrderOf o.scope (dieOf g.core))]
            ∧ ((t.group? r.team r.gidx).bind (fun g => g.op? op)).map (·.snap) =
                some (some ((s.mem.views.getD (dieOf g.core) {}).clock, s.dev.scNext, s.dev.hostIn))))
        ∧ (o.kind = .arw → o.fails = [] → ∀ a ∈ o.accs, a.st = .arrived → earlyHeld s t0.uid g o.split o.scope a o.order = false →
            (t0.localBytes (a.loc + 4) 4).all Option.isSome = true → leWord ((t0.localBytes (a.loc + 4) 4).map (fun b => b.getD 0)) ≠ a.old →
            Answers (exec (.complete r op) s) (fun t => t.mem = s.mem ∧ ∀ y, (t.group? r.team r.gidx).bind (fun g => g.op? op) = some y →
              ∀ b ∈ y.accs, b.lane = a.lane → b.st = .done))
        ∧ Answers (exec (.complete r 0) s) (fun t => t.mem = s.mem ∧ ∃ g', t.group? r.team r.gidx = some g' ∧ ∀ n k, n < 4 →
            (g.split n).wait = .fwait k → (∀ c, g.handle k ≠ .pending c) → (g'.split n).wait = .none)

/-- An atomic whose path nothing holds back and that meets the latest value of sound bytes writes what its operation
makes of it, or for a `cas` whose comparand differs nothing; it then waits for its reply, a `red` too, with the old
value (`arw` with the phase). An ordered reduction whose index is due is applied to VALUE and NEXT; one that is not
due is held, where its home slice has an entry free, and changes no byte, and both wait for the reply; a held one is
applied and leaves the buffer when its index is due and its home die has what its sender had. A refused reduction is
sent again once its wait is over. Assumed of the state: the invariant, free mode, an operation that has failed
nowhere, and no command's range, forest or uncorrectable word that the access meets. (R147, R149, R159, R160, R161,
R162, R163, R164, R165, R167, R169, R181) -/
def Obligations.AtomicsAreApplied : Prop :=
  ∀ (s : State),
    (∀ r op lane (x : Spot), Plain s r op lane x → x.launch.cmd.mode = 0 → x.acc.st = .waiting → mayRequest s x = true → x.latest s = true →
      (x.acc.glob = true → s.mem.sound x.acc.loc 16 ∧ s.mem.sound x.acc.loc x.acc.size) →
      (∀ old, (bytesAt s x.team x.die x.acc).all Option.isSome = true → old = leWord ((bytesAt s x.team x.die x.acc).map (fun b => b.getD 0)) →
        let y := actOf x.op x.acc old
        let new : Option W64 := match x.op.kind with
          | .atm f | .red f => some (bankNew f x.op.ty old x.acc.data)
          | .cas _ => if old = x.acc.cmp &&& (if x.op.ty.is64 then BitVec.allOnes 64 else 0xFFFFFFFF) then some x.acc.data else none
          | _ => arriveWord old
        let runs : Prop := match x.op.kind with
          | .atm _ | .red _ => True
          | .cas _ => x.acc.wr = true
          | .arrive | .arw => arriveWord old ≠ none
          | _ => False
        runs → mayPerformEarly s r.team x.g x.op x.acc .rlx = true → x.pathReady s y.order = true →
          Answers (exec (.atomic r op lane) s) (fun t =>
            (x.acc.glob = true → Stored s.mem t.mem x.die ((new.map (cellsAt x.acc.loc x.acc.size)).getD []))
            ∧ (x.acc.glob = false → t.mem = s.mem ∧ ∃ u, t.team? r.team = some u ∧ ∀ a, u.localByte a = match new with
                | some v => if x.acc.loc ≤ a ∧ a < x.acc.loc + x.acc.size then some ((bytesOf x.acc.size v.toNat).getD (a - x.acc.loc) 0) else x.team.localByte a
                | none => x.team.localByte a)
            ∧ Stands t r op lane (fun a => a.st = .applied ∧ a.old = (if x.op.kind = .arw then barPhase old else old) ∧ a.undef = false)))
      ∧ (x.op.kind = .ored → x.acc.glob = true → x.pathReady s x.op.order = true →
        let at_ := x.acc.loc
        let w := oredSet (s.mem.word x.die at_ 8) (s.mem.word x.die (at_ + 8) 8)
        let i := lo32 x.acc.cmp
        ∀ f, w.fold? x.op.ty = some f → i < w.n →
          (i = w.next → Answers (exec (.oredArrive r op lane) s) (fun t =>
            Stored s.mem t.mem x.die (oredCells at_ x.op.ty (bankNew f x.op.ty (valueOf x.op.ty w.value) x.acc.data) (w.next + 1)) ∧ t.mem.ored = []
            ∧ Stands t r op lane (fun a => a.st = .applied)))
          ∧ (w.next < i → Answers (exec (.oredArrive r op lane) s) (fun t => t.mem = { s.mem with ored :=
              [{ key := x.key, slice := s.mem.homeUnit at_, set_ := at_, ty := x.op.ty, idx := i, x := x.acc.data, clock := (s.mem.views.getD x.die {}).clock }] }
            ∧ Stands t r op lane (fun a => a.st = .applied)))))
    ∧ (∀ h, Inv s → s.mem.ored = [h] → forestsInFlight s = [] → s.mem.sound h.set_ 16 → inHbm h.set_ = true →
        let die := s.mem.homeDie h.set_
        let w := oredSet (s.mem.word die h.set_ 8) (s.mem.word die (h.set_ + 8) 8)
        covers (s.mem.views.getD die {}).clock h.clock = true → s.mem.latest die h.set_ 16 = true → ∀ f, w.fold? h.ty = some f → h.idx = w.next → h.idx < w.n →
          Answers (exec (.oredHeldApply 0) s) (fun t => t.mem.ored = []
            ∧ Stored s.mem t.mem die (oredCells h.set_ h.ty (bankNew f h.ty (valueOf h.ty w.value) h.x) (w.next + 1))))
    ∧ ∀ r op g n c, s.group? r.team r.gidx = some g → n < 4 → (g.split n).wait = .retry op c → c ≤ (s.dev.core g.core).cycle.toNat →
        Answers (exec (.oredRetry r op) s) (fun t => t.mem = s.mem ∧ t.dev = s.dev ∧ ∃ g', t.group? r.team r.gidx = some g' ∧ (g'.split n).wait = .op op
          ∧ ∀ o ∈ g'.stream, o.id = op → ∀ a ∈ o.accs, a.st ≠ .refused)

/-- A copy engine with fewer than four commands starts the oldest that has not started, once that has joined its
queue, and no later one before it; a copy of 4 bytes that do not overlap reads them from its view and then stores
them, and no other byte changes. A command that has ended gives its handle the result word and leaves, its flags going
to FSTAT where the status is 0, and the splits that wait for the handle go on. A free matrix engine starts the oldest
ready record and leases itself to its team; a record that ends leaves in its one result range the bytes that its
operation makes of its operands, and no other byte changed. A re-stripe moves one block, whose held contributions find
room, without changing a byte, and after the last block the new word governs the page's frames. A `relabel` of f32
rows whose roots and source are read holds the folded rows to be written, and ends when nothing is left to write;
`fcount` answers the descriptor's field. Assumed where named: walks that pass, defined operands, a team that is
resident, has spoiled nothing, has no uncorrectable word and no early release that keeps what is accessed, and, of a
store, no held contribution and no forest in flight to be spoilt. (R97, R143, R184, R193, R277, R278, R279, R283,
R284, R292, R321, R326) -/
def Obligations.EnginesRunTheirCommands : Prop :=
  ∀ (s : State),
    (∀ core c dst src len dl sl, let q := (Tab.get [] s.dev.copyQ core).filterMap s.dev.cmd?
      (q.filter (fun x => x.started)).length < 4 → q.find? (fun x => !x.started) = some c → c.kind = .cpy dst src len dl sl →
        (c.joined s = false → exec (.copyStart core) s = .next s) ∧ (c.joined s = true → Answers (exec (.copyStart core) s) (fun t => t = { s with dev := { s.dev with cmds := t.dev.cmds } } ∧ (∀ id, id ≠ c.id → t.dev.cmd? id = s.dev.cmd? id)
          ∧ t.dev.cmd? c.id = some { c with started := true, left := [(0, copyPieces src len)] })))
    ∧ (∀ cmd c (dst src : W64) pa wr, s.dev.cmd? cmd = some c → c.kind = .cpy dst src 4 false false → c.started = true → c.finished = false → c.core < 256 →
        dst.toNat % 4 = 0 → src.toNat % 4 = 0 → src ≠ dst → inPeer pa = false → Inv s → s.mem.eccGood pa 4 = true →
        (∀ n, s.earlyOpen c.team true pa n = false) →
        (c.left = [(0, 1)] → c.held = [] → Maps s (copyAgent c.core) (dieOf c.core) c.slot c.sup .read src (pa, wr) →
          Answers (exec (.engine cmd) s) (fun t => t.mem = s.mem ∧ t.dev.cmd? cmd = some { c with left := [], held :=
            [(0, (s.mem.bytes (dieOf c.core) pa 4).map some, s.mem.poisoned pa 4)] }))
        ∧ (∀ bs : List Byte, c.left = [] → c.held = [(0, bs.map some, false)] → s.mem.ored = [] → forestsInFlight s = [] → Maps s (copyAgent c.core) (dieOf c.core) c.slot c.sup .write dst (pa, wr) →
          Answers (exec (.engine cmd) s) (fun t => Stored s.mem t.mem (dieOf c.core) ((List.range' pa bs.length).zip bs)
            ∧ t.dev.cmd? cmd = some { c with left := [], held := [] })))
    ∧ (∀ cmd c t0 g n, s.dev.cmd? cmd = some c → c.ended = true → s.team? c.team = some t0 → (∀ u ∈ s.saved, u.uid ≠ c.team) →
        s.group? c.team c.gidx = some g → n < 16 → g.handle n = .pending c.id → c.status < 256 → c.detail < 256 →
        Answers (exec (.handleComplete cmd) s) (fun t => t.mem = s.mem ∧ t.dev.cmd? cmd = none ∧ ∃ g', t.group? c.team c.gidx = some g'
          ∧ (∃ v, g'.handle n = .complete v ∧ fld v 0 8 = c.status ∧ fld v 8 8 = c.detail ∧ fld v 16 48 = fld c.addr 16 48)
          ∧ g'.fstat = (if c.status = 0 then g.fstat ||| c.flags else g.fstat)
          ∧ ∀ k, k < 4 → ((g.split k).wait = .fwait n ∨ (g.split k).wait = .yld n) → (g'.split k).wait = .none))
    ∧ (∀ pair engine c r t0, engine < 2 → s.dev.engineBusy pair engine = false → ((s.dev.pair pair).lease engine).team = none →
        (s.readyRecords pair).head? = some c → c.finished = false → c.tileRec = some r → r.defer = false → s.team? c.team = some t0 → t0.setWindows = [] →
        Tab.risingFrom 0 s.dev.pairs = true →
        Answers (exec (.tileRecordStart pair engine) s) (fun t => t.mem = s.mem ∧ t.teams = s.teams
          ∧ (∃ k, t.dev.cmd? c.id = some { c with started := true, engine := some engine, kind := k })
          ∧ (t.dev.pair pair).lease engine = ⟨some c.team, 1⟩ ∧ (t.dev.pair pair).lgrant = (s.dev.pair pair).lgrant + 1))
    ∧ (∀ cmd c r t0 (ins : List (List Byte)) (regs : List Byte) (p : Span) bs fl, s.dev.cmd? cmd = some c → c.tileRec = some r → c.started = true →
        c.finished = false → s.team? c.team = some t0 → (∀ u ∈ s.saved, u.uid ≠ c.team) → t0.badLocal = [] → t0.badAcc = [] →
        (∀ x ∈ r.spans, x.space = .scratch → s.earlyOpen c.team false x.lo x.len = false) →
        t0.spoiled.contains c.id = false → Tab.wf none t0.spad = true → Tab.wf none t0.accLow = true → Tab.wf none t0.accHigh = true →
        let high := c.core % 2 == 1 && t0.accCopies == 2
        let byte (u : Team) (sp : Space) (a : Nat) : Option Byte := if sp = .scratch then u.localByte a else Tab.get none (u.accOf high) a
        ins.map (·.map some) = r.spans.map (fun x => if r.op = 4 then [] else (List.range' x.lo x.len).map (byte t0 x.space)) →
        regs.map some = (match c.kind with
          | .tile _ _ _ (some x) => x
          | _ => []) →
        r.results c.frm c.dphase (ins.map List.toArray) regs.toArray = ([(p, bs)], fl) → p.space ≠ .global →
        Answers (exec (.tileRecordComplete c.pair cmd) s) (fun t => t.mem = s.mem ∧ t.dev.cmd? cmd = some { c with finished := true, flags := fl }
          ∧ ∃ u, t.team? c.team = some u ∧ u.groups = t0.groups ∧ ∀ sp a, sp ≠ .global → byte u sp a =
              if sp = p.space ∧ p.lo ≤ a ∧ a < p.lo + bs.length then bs.getD (a - p.lo) none else byte t0 sp a))
    ∧ (∀ cmd c (v : Moving), Inv s → s.dev.cmd? cmd = some c → s.mem.moving.find? (fun x => x.cmd == cmd) = some v → c.started = true → c.finished = false →
        let lo := v.pa + 512 * v.cursor
        (∀ unit, s.mem.migrationFits lo unit = true) →
        let same (t : State) : Prop := t.mem.views = s.mem.views ∧ t.mem.host = s.mem.host ∧ t.mem.poison = s.mem.poison
          ∧ ∀ x ∈ t.dev.l1, x.line / 4 ≠ lo / 512
        (512 * (v.cursor + 1) < v.bytes → Answers (exec (.rstrBlockMove cmd) s) (fun t => same t
            ∧ t.mem.moving.find? (fun x => x.cmd == cmd) = some { v with cursor := v.cursor + 1 } ∧ t.mem.frameMap = s.mem.frameMap))
        ∧ (v.bytes ≤ 512 * (v.cursor + 1) → legalPlacement v.pw = true → Answers (exec (.rstrBlockMove cmd) s) (fun t => same t
            ∧ t.mem.moving.find? (fun x => x.cmd == cmd) = none ∧ t.dev.cmd? cmd = some { c with finished := true }
            ∧ ∀ f, t.mem.frameWord f = if v.pa / 65536 ≤ f ∧ f < v.pa / 65536 + v.bytes / 65536 then v.pw else s.mem.frameWord f)))
    ∧ (∀ cmd c pa ctl (val : Nat → Nat), s.dev.cmd? cmd = some c → c.kind = .relabel pa .f32 ctl → c.started = true → c.finished = false → c.status = 0 →
        let len := fld (ctl.getD 3 0) 0 24
        let n := c.roots.length
        (c.engine ≠ none → c.held = [] → Answers (exec (.relabelRun cmd) s) (fun t => t.mem = s.mem ∧ t.teams = s.teams
            ∧ t.dev.cmd? cmd = some { c with finished := true }))
        ∧ (c.engine = none → (forestOf s.mem (dieOf c.core) pa).n ≤ n → c.left = [] → (∀ u ∈ s.teams ++ s.saved, u.spoiled.contains c.id = false) →
            relabelOverlap .f32 ctl n = false →
            (∀ k, k < n * len → ∃ (bs : List Byte) (b : Bool), c.held.find? (fun h => h.1 == k) = some (k, bs.map some, b) ∧ leNat bs = val k) →
            let res := relabelRows fmtF32 (fld (ctl.getD 3 0) 24 2) c.roots ((List.range n).map (fun i => (List.range len).map (fun e => val (i * len + e))))
            Answers (exec (.relabelRun cmd) s) (fun t => t.mem = s.mem ∧ t.teams = s.teams
              ∧ t.dev.cmd? cmd = some { c with engine := some 0, flags := res.2, held := ((List.range n).zip res.1).flatMap (fun (p : Nat × List Nat) =>
                  ((List.range p.2.length).zip p.2).map (fun (q : Nat × Nat) =>
                    (hi32 (ctl.getD 2 0) * p.1 + 4 * q.1, (bytesOf 4 q.2).map some, false))) })))
    ∧ ∀ r op lane (x : Spot) sel pa, spotOf s r op lane = some x → x.op.kind = .forest (.fcount sel) pa → x.acc.st = .waiting → x.op.id = op → x.acc.lane = lane →
        mayRequest s x = true → mayPerformEarly s r.team x.g x.op x.acc .rlx = true → s.mem.sound x.acc.loc 128 → x.seat.sees s pa 128 = true →
        (∀ a ∈ x.op.accs, a.fs.more = false) →
        Answers (exec (.forestStep r op lane) s) (fun t => t.mem = s.mem ∧ Stands t r op lane (fun a => a.st = .applied ∧ a.old = BitVec.ofNat 64
          (let f := forestOf s.mem x.die pa
           match sel with
           | 0 => f.ccount
           | 1 => f.lclass
           | 2 => f.nmark
           | _ => f.dptr)))

/-- A datapath at rest starts a split that may start, is not withheld and finds the engine port free where it needs
it: one of those whose group has waited 1024 starts where there is one, else of the highest priority, then of the
lowest age and PC, and the fetch of its block is counted once for the splits that share it. A group withheld for 4096
cycles gets its cluster's hold for its withheld start. Two splits that meet become the lower-numbered one, with both
masks and the merged signature; the newest overflow entry takes the lowest free number, and a split that waits for a
number goes on, with a frame held and the list stored, when no other can. A group whose live splits all wait at a
`rejoin` takes RJDL on the lowest. A rollback that waits for nothing starts the region's threads again at RGNPC with
the accumulator, FRM and DPHASE of the record as it was when the rollback began, one more retry and no block. A
register that may be demoted becomes demoted where its bank is wanted, and no other changes. Assumed where named: no
split is to be parked on a handle or waits for segments, no filler ahead, the handler's entry can be fetched, four
split numbers. The first clause is the model's in two points: siteMay, by which a start with a higher PC may be chosen
while the lowest one's is withheld (log entry 92, DESIGN CHOICE), and the count of fetches (log entry 62). (R40, R41,
R73, R202, R246, R250, R257, R274, R275, R332, R333) -/
def Obligations.TheSchedulerChoosesAndSettles : Prop :=
  ∀ (s : State),
    (∀ site, s.cur = none → (s.teams.map (·.uid)).Nodup → (∀ t ∈ s.teams, (t.groups.map (·.gidx)).Nodup) → siteFree site s = true → skipFillers site s = [] → Tab.risingFrom 0 s.dev.cores = true →
      (∀ p ∈ siteSplits site s, ∀ k, aheadOf s p.2.1 p.2.2.1 p.2.2.2 (siteUniform site) ≠ .handle k) →
      (∀ p ∈ siteSplits site s, ∀ k, (p.2.2.1.split p.2.2.2).wait ≠ .segments k) →
      let may := siteMay site s
      may ≠ [] → (∀ a ∈ may, a.prio ≤ 3) → Answers (exec (.issue site .none) s) (fun t => t.mem = s.mem ∧ ∃ c ∈ may, t.cur = some ⟨c.team, c.gidx, c.split⟩
        ∧ (t.dev.core (siteCore site)).fetch ∈ [(s.dev.core (siteCore site)).fetch, (s.dev.core (siteCore site)).fetch + 1]
        ∧ (s.dev.fuses = [] → (t.dev.core (siteCore site)).fetch = (s.dev.core (siteCore site)).fetch + 1)
        ∧ let aged : Prop := ∃ a ∈ may, 1024 ≤ a.wait
          (aged → 1024 ≤ c.wait) ∧ ∀ a ∈ may, (aged → 1024 ≤ a.wait) → (¬ aged → a.prio ≤ c.prio)
            ∧ ((aged ∨ a.prio = c.prio) → c.age ≤ a.age ∧ (a.age = c.age → c.pc.toNat ≤ a.pc.toNat))))
    ∧ (∀ r g c, s.group? r.team r.gidx = some g → withheldStart s r.team g = some c → 4096 ≤ g.withheld → (s.dev.core g.core).cycle.toNat ≤ g.heldAt →
        (s.dev.cluster (clusterOf g.core)).starving = none → Tab.risingFrom 0 s.dev.clusters = true →
        Answers (exec (.withholdStarvation (clusterOf g.core) r) s) (fun t => t = { s with dev := { s.dev with clusters := t.dev.clusters } }
          ∧ t.dev.cluster (clusterOf g.core) = { s.dev.cluster (clusterOf g.core) with starving := some (r.team, r.gidx, c.split) }))
    ∧ ∀ r t0 g l, s.team? r.team = some t0 → s.group? r.team r.gidx = some g → s.launch? t0.launch = some l → g.splits.length = 4 →
        let group (t : State) (P : Group → Prop) : Prop := ∃ g', t.group? r.team r.gidx = some g' ∧ P g'
        (∀ a b, a < 4 → a < b →
          let y := if b < 4 then g.split b else g.overflow.getD (b - 4) {}
          (g.split a).meets y = true → Answers (exec (.splitMerge r a b) s) (fun t => (∀ die pa, t.mem.byte die pa = s.mem.byte die pa) ∧ group t (fun g' =>
            (g'.split a).live = true ∧ (g'.split a).pc = (g.split a).pc ∧ (g'.split a).mask = (g.split a).mask ||| y.mask
            ∧ (g'.split a).acc = mergeAcc (g.split a).acc y.acc ∧ (b < 4 → (g'.split b).live = false)
            ∧ (4 ≤ b → g'.overflow.length + 1 = g.overflow.length)
            ∧ ∀ n, n < 4 → n ≠ a → n ≠ b → (g'.split n).mask = (g.split n).mask ∧ (g'.split n).pc = (g.split n).pc)))
        ∧ (∀ x rest n free, g.overflow = x :: rest → g.freeNumbers = n :: free → Answers (exec (.splitOverflow r) s) (fun t => t.mem = s.mem ∧ group t (fun g' =>
            g'.overflow = rest ∧ (g'.split n).mask = x.mask ∧ (g'.split n).pc = x.pc ∧ (g'.split n).acc = x.acc ∧ (g'.split n).live = x.live)))
        ∧ (∀ n, g.freeNumbers = [] → g.listed = true → s.cur = none → t0.leaving = false → t0.frame ≠ none → s.evicting t0.uid = false → g.lowestWaiting s l = some n → ∀ p, overflowStart s t0 l g n = some p →
            Answers (exec (.splitOverflow r) s) (fun t => t = { s with cur := some ⟨r.team, r.gidx, n⟩, teams := t.teams, dev := { s.dev with cores := t.dev.cores, fuses := t.dev.fuses, clusters := t.dev.clusters } }
              ∧ group t (fun g' => g' = { g with withheld := g'.withheld, heldAt := g'.heldAt })))
        ∧ (∀ n live, g.deadlocked = some (n :: live) → (g.split n).sup = false → (∀ k, k < 4 → (g.split k).trap = none) →
            StartAt s g.core l true (s.dev.slot l.cmd.slot).sventry →
            let trap : TrapRec := { cause := .rjdl, detail := 0, mask := (g.split n).mask, epc := (g.split n).pc
                                    taux := BitVec.ofNat 64 (((n :: live).map (fun k => 2 ^ k)).foldl (· + ·) 0 + 256 * g.overflow.length), fva := [] }
            Answers (exec (.rjdl r) s) (fun t => t.mem = s.mem ∧ t.group? r.team r.gidx =
              some ((g.raise (s.now g.core) n trap).delivered (s.now g.core) (s.dev.slot l.cmd.slot).sventry)))
        ∧ (∀ rec, g.rolling = some rec → let m := g.unexited rec.1.mask
           g.stream.any (fun o => o.mask &&& m != 0) = false → m ≠ 0 → (g.rolledBack rec m).freeNumbers ≠ [] →
            Answers (exec (.rollback r) s) (fun t => t.mem = s.mem ∧ group t (fun g' => g'.rolling = none ∧ g'.frm = rec.1.frm ∧ g'.dphase = rec.1.dphase
              ∧ g'.region = { rec.1 with retry := rec.1.retry + 1, blocks := [] } ∧ g'.rgnpc = rec.2 ∧ g'.latch = []
              ∧ ∃ n, n < 4 ∧ (g'.split n).live = true ∧ (g'.split n).mask = m ∧ (g'.split n).pc = regionPc rec.2 ∧ (g'.split n).acc = rec.1.acc ∧ (g'.split n).fresh = true
                ∧ ∀ k, k < 4 → k ≠ n → (g'.split k).mask &&& m = 0)))
        ∧ (∀ reg, s.cur = none → g.bound reg = true → g.demoted reg = false → g.pinned reg = false → bankWanted s g.core g.quad (reg % 8) = true →
            (∀ y ∈ g.splits, y.live = true → y.atBoundary = true ∧ midChain s l g y = false) → Tab.risingFrom 0 g.recipe = true → Tab.risingFrom 0 g.v = true →
            Answers (exec (.demotion r reg) s) (fun t => t.mem = s.mem ∧ t.dev = s.dev ∧ group t (fun g' => g'.demoted reg = true
              ∧ g' = { g with recipe := g'.recipe, v := g'.v, badV := g'.badV } ∧ ∀ k, k ≠ reg → g'.word k = g.word k ∧ ∀ n, n < 128 → g'.vreg k n = g.vreg k n)))

/-- A partition with fewer than eight active launches dequeues the oldest command of its highest nonempty queue; a
command that fails its checks gets status 1. Selection places the next team of a virtual core's list in the placement
queue. An entry that is the first to fit is admitted, its groups as R187 starts them; a saved one is resumed, on a die
that has applied the stores of its frame, with what the frame holds, and a bad frame kills the slot. A team named by a
switch, or by a full register bank that an instruction waits for, is saved when it stands at its boundaries, not
before; one that cannot be saved kills the slot. A tick of QUANT names the teams of the launch that R59 chooses where
an entry has waited for room since the tick before, and marks the entries that wait for it now. A team that has ended
leaves its launch; a launch whose teams have ended, with every write applied, gets status 0 and is gone. A log queue
gives up its oldest entry, which a full region drops. Assumed where named: the invariant, that ECC finds nothing
(R119), unique names, unwatched entries, tables in order, seats that the porter's choice finds, no replay that is
stuck. The clock with which a node's team starts is the model's (log entry 53), and when a team and a launch have
ended is log entry 54's reading. (R25, R33, R42, R48, R54, R58, R59, R187, R189, R270, R272, R279) -/
def Obligations.ThePorterRunsLaunches : Prop :=
  ∀ (s : State), Inv s → Unwatched s → s.mem.latent = [] → Tab.risingFrom 0 s.dev.parts = true → (s.teams.map (·.uid)).Nodup → (s.dev.launches.map (·.id)).Nodup →
    let killed (t : State) (l : Launch) : Prop := ∀ m ∈ t.dev.launches, m.cmd.slot ≠ l.cmd.slot
    let recorded (t : State) (c : LaunchCmd) (status : Nat) : Prop := ∀ pa wr, translateFresh s c.slot true .write c.done = .ok (pa, wr) → inPeer pa = false →
      Stored s.mem t.mem (s.mem.homeDie pa) (cellsAt pa 8 (BitVec.ofNat 64 (c.seq.toNat + status * 2 ^ 32)))
    let saved (t : State) (tm : Team) (l : Launch) (f : Nat) : Prop := (∀ u ∈ t.teams, u.uid ≠ tm.uid)
      ∧ (∃ u ∈ t.saved, u.uid = tm.uid ∧ u.frame = some f ∧ u.leaving = false ∧ u.number = tm.number
          ∧ u.groups = tm.groups.map (fun g => { g with latch := [], listed := true, issued := none }))
      ∧ ∃ e ∈ (t.dev.part l.part).placement, e.uid = tm.uid ∧ e.resumed = true ∧ e.team = tm.number ∧ e.launch = l.id
    (∀ part prio c rest, (s.dev.launches.filter (fun l => l.part == part)).length < 8 → prio < 4 → (s.dev.part part).queues.getD prio [] = c :: rest →
        (∀ k, prio < k → k < 4 → (s.dev.part part).queues.getD k [] = []) →
        let popped (t : State) : Prop := (t.dev.part part).queues.getD prio [] = rest ∧ (t.dev.part part).nextDeq = (s.dev.part part).nextDeq + 1
          ∧ ∀ k, k ≠ prio → (t.dev.part part).queues.getD k [] = (s.dev.part part).queues.getD k []
        (launchOf s part prio s.nextUid c = none → Answers (exec (.launchDequeue part) s) (fun t => popped t ∧ recorded t c 1
            ∧ t.dev.launches.map (·.id) = s.dev.launches.map (·.id)))
        ∧ ∀ l pa, launchOf s part prio s.nextUid c = some (l, pa) → l.desc.node = false → Answers (exec (.launchDequeue part) s) (fun t =>
            popped t ∧ t.mem = s.mem ∧ t.teams = s.teams ∧ t.dev.launches = s.dev.launches ++ [l] ∧ l.cmd = c ∧ l.prio = prio ∧ l.deq = (s.dev.part part).nextDeq))
    ∧ (∀ l vcore, s.launch? l.id = some l → (∀ m ∈ s.dev.launches, m.part = l.part → m.id = l.id) → vcore < 1024 → l.onRetry s = false → l.offers s vcore = true →
        ((s.dev.part l.part).placement.filter (fun e => !e.resumed)).length < 64 →
        Answers (exec (.teamSelect l.part l.id vcore) s) (fun t => t.mem = s.mem ∧ t.teams = s.teams
          ∧ (∃ m, t.launch? l.id = some m ∧ m.next vcore = l.next vcore + 1024 ∧ ∀ v, v ≠ vcore → m.next v = l.next v)
          ∧ (t.dev.part l.part).placement.length = (s.dev.part l.part).placement.length + 1
          ∧ ∃ e ∈ (t.dev.part l.part).placement, e.team = l.next vcore ∧ e.launch = l.id ∧ e.resumed = false))
    ∧ (∀ part k place e l xs s1, entryTurn s part k = some (e, l) → e.resumed = false → admits s l e place = true →
        (chooseSeats s place (newNeeds l.desc) []).go s = .done (some xs) s1 →
        Answers (exec (.teamAdmit part k place) s) (fun t => t.mem = s.mem ∧ (t.dev.part part).placement = (s.dev.part part).placement.eraseIdx k
          ∧ ∃ u : Team, t.teams = s.teams ++ [u] ∧ u.clock = (if l.desc.node then some (latestClock s.mem) else none) ∧ u.launch = l.id ∧ u.number = e.team ∧ u.place = place ∧ u.spad = [] ∧ u.accLow = [] ∧ u.accHigh = []
            ∧ u.groups.length = l.desc.groups ∧ ∀ (i : Nat) (g : Group), u.groups[i]? = some g → g.sreg 0 = l.cmd.args ∧ g = {
              gidx := i, width := l.desc.width, s := g.s, pwr := BitVec.ofNat 3 l.desc.pdef, core := g.core, quad := g.quad, lg := g.lg, age := g.age
              splits := [{ live := true, pc := l.desc.entry, mask := fullMask l.desc.width, emask := fullMask l.desc.width }, {}, {}, {}] }))
    ∧ (∀ part k place e l tm, entryTurn s part k = some (e, l) → e.resumed = true → admits s l e place = true → s.saved.find? (fun t => t.uid == e.uid) = some tm →
        clockOk s tm (dieOf ((placeCores place).headD 0)) = true →
        let die := dieOf ((placeCores place).headD 0)
        (restoreTeam s tm l (tm.frame.getD 0) die = none → Answers (exec (.teamResume part k place) s) (killed · l))
        ∧ ∀ r xs s1, restoreTeam s tm l (tm.frame.getD 0) die = some r → (∀ g ∈ r.groups, g.overflow = [] ∧ g.watch = []) →
            (chooseSeats s place (savedNeeds l.desc r e.full) []).go s = .done (some xs) s1 → (∀ u ∈ s.teams, u.uid ≠ e.uid) →
            Answers (exec (.teamResume part k place) s) (fun t => (∀ u ∈ t.saved, u.uid ≠ e.uid) ∧ ∃ u, t.team? e.uid = some u ∧ u.place = place
              ∧ u.frame = none ∧ u.spad = r.spad ∧ u.accLow = r.accLow ∧ u.accHigh = r.accHigh ∧ u.windows = r.windows ∧ u.number = r.number
              ∧ u.groups.map (fun g => { g with core := 0, quad := 0, lg := 0, age := 0 }) = r.groups.map (fun g => { g with
                  core := 0, quad := 0, lg := 0, age := 0, wait := 0, waitU := 0, withheld := 0, heldAt := 0, latch := [] })))
    ∧ (∀ tm l f, s.team? tm.uid = some tm → s.launch? tm.launch = some l → tm.leaving = true →
        (tm.quiet s l false = false → exec (.teamEvict tm.uid) s = .next s)
        ∧ (tm.quiet s l false = true → frameFor s tm l = some f → Answers (exec (.teamEvict tm.uid) s) (saved · tm l f))
        ∧ (tm.quiet s l false = true → frameFor s tm l = none → Answers (exec (.teamEvict tm.uid) s) (killed · l)))
    ∧ (∀ r reg x tm l f, s.group? r.team r.gidx = some x → s.cur = none → x.demoted reg = true → (∃ y ∈ x.splits, y.wait = .segments reg) → bankSegments < bankUse s x.core x.quad (reg % 8) + x.width / 16 →
        bankStuck s x.core x.quad (reg % 8) = true → segmentVictim s r.team x.core x.quad = some tm → s.launch? tm.launch = some l →
        tm.quiet s l false = true → frameFor s tm l = some f → Answers (exec (.segmentRecoveryEvict r reg) s) (saved · tm l f))
    ∧ (∀ part, let q := (s.dev.part part).quantumNext
        let mine (u : Team) : Prop := ∃ l, s.launch? u.launch = some l ∧ l.part = part
        let resident (l : Launch) : Prop := l ∈ s.dev.launches ∧ l.part = part ∧ ∃ u ∈ s.teams, u.launch = l.id
        let waited (p : Nat) : Prop := ∃ e ∈ (s.dev.part part).placement, e.waitedTick = true ∧ entryFits s e = false ∧ ∃ l, s.launch? e.launch = some l ∧ l.prio = p
        let ticked (t : State) (gone : Team → Prop) : Prop := t.mem = s.mem ∧ t.saved = s.saved ∧ t.teams.length = s.teams.length
          ∧ (t.dev.part part).placement = (s.dev.part part).placement.map (fun e => { e with waitedTick := !entryFits s e })
          ∧ ∀ (i : Nat) (u : Team), s.teams[i]? = some u → ∃ v : Team, t.teams[i]? = some v ∧ v = { u with leaving := v.leaving, ticks := v.ticks }
              ∧ (mine u → v.ticks = u.ticks + 1) ∧ (v.leaving = true ↔ u.leaving = true ∨ gone u) ∧ (gone u → Instr.teamEvict u.uid ∈ t.agenda)
        (∀ l ∈ s.dev.launches, l.prio < 4) → Answers (exec (.timeSliceTick part) s) (fun t => (t.dev.part part).quantum = q
          ∧ (q = 0 → t = { s with dev := { s.dev with parts := t.dev.parts } })
          ∧ (q ≠ 0 → (∀ p, ¬ waited p) → ticked t (fun _ => False))
          ∧ (q ≠ 0 → ∀ p l, waited p → (∀ k, waited k → k ≤ p) → resident l → l.prio ≤ p →
              (∀ m, resident m → m.prio ≤ p → m.id ≠ l.id → l.prio < m.prio ∨ l.prio = m.prio ∧ m.deq < l.deq) →
              ticked t (fun u => u.launch = l.id ∧ 1 ≤ u.ticks))))
    ∧ (∀ tm l, s.team? tm.uid = some tm → s.launch? tm.launch = some l → s.cur = none → tm.ended s.dev = true → l.cmd.mode ≠ 2 → l.desc.node = false →
        tm.setWindows = [] → tm.frame = none → Answers (exec (.teamEnd tm.uid) s) (fun t => t.mem = s.mem ∧ t.teams = s.teams.filter (fun u => u.uid != tm.uid)
          ∧ ∃ m, t.launch? l.id = some m ∧ (tm.number < m.endedTo ∨ tm.number ∈ m.ended)))
    ∧ (∀ l, s.launch? l.id = some l → l.over s = true → s.mem.settled = true → (l.closing = true ∨ l.desc.nsucc = 0 ∧ l.cmd.mode ≠ 1) →
        Answers (exec (.launchComplete l.id) s) (fun t => recorded t l.cmd 0 ∧ ∀ m ∈ t.dev.launches, m.id ≠ l.id))
    ∧ ∀ die id e rest, (∀ l ∈ s.dev.launches, replayStuck s l = false) → Tab.get [] s.dev.logQ die = (id, e) :: rest → Tab.risingFrom 0 s.dev.logQ = true →
        Answers (exec (.orderLogDrain die) s) (fun t => Tab.get [] t.dev.logQ die = rest
          ∧ ∀ l, s.launch? id = some l → l.overflowed.contains die = true → t.mem = s.mem)
        ∧ ∀ l, s.launch? id = some l → logHeader s l die 0 4 < logHeader s l die (8 + 4 * die) 4 + 32 →
            Answers (exec (.orderLogDrain die) s) (fun t => ∀ m, t.launch? id = some m → m.overflowed.contains die = true)

/-- Where the words from the PC of the issuing split, up to the end of their fetch block, decode to an instruction,
and the PC is outside the slice area, translates for fetching by every walk that may be made, is sound (R119, R120)
and holds no word written since the launch began, a step is that instruction in a state that differs at most in the
translation caches. With no split issuing, a step is the oldest event that is due, or else the event that comes next
in the model's order of events. (R44, R60, R61, R62, R63, R115, R132, R242) -/
def Obligations.StepRunsDecodedInstruction : Prop :=
  ∀ (s : State),
    (∀ (c : Issuer) (t : Team) (g : Group) (l : Launch) (block : Nat) (wr : Bool) (i : Instr), Issues s c t g l →
      let x := g.split c.split
      let pa := block / 32 * 32 + x.pc.toNat % 32
      ¬ (l.desc.sarea.toNat ≤ x.pc.toNat ∧ x.pc.toNat < l.desc.sarea.toNat + l.desc.salen) →
      Maps s g.core (dieOf g.core) l.cmd.slot x.sup .fetch (BitVec.ofNat 64 (x.pc.toNat / 32 * 32)) (block, wr) → inPeer block = false →
      s.mem.sound (block / 32 * 32) 32 → (∀ k, k < 8 - pa / 4 % 8 → l.stale.contains ((pa + 4 * k) / 4) = false) →
      decode false ((List.range (8 - pa / 4 % 8)).map (fun k => (s.mem.word (dieOf g.core) (pa + 4 * k) 4).setWidth 32)) = .ok i →
      ∃ s1, step s = exec i s1 ∧ s1 = { s with dev := { s.dev with tlb := s1.dev.tlb } })
    ∧ (∀ i rest, s.cur = none → s.agenda = i :: rest → Machine.Instr.isEvent i = true → step s = exec i { s with agenda := rest })
    ∧ (s.cur = none → s.agenda = [] → Machine.Instr.isEvent (Config.nextEvent s.tick) = true → step s = exec (Config.nextEvent s.tick) { s with tick := s.tick + 1 })

/-- Words that the spec writes beside their assembly decode to that instruction: a guarded `add` with a latch, an
indexed `fadd`, a uniform `add` with an immediate, a `ldg` with a displacement, a `cas` with its atomic word, a 64-bit
`mov`, a backward `bra`, a `cmp`, an `mma`, a `unite`, an `ldk`, and the four examples of system registers and of
`movx`; a zero word is a filler. (R64, R65, R66, R67, R68, R69, R70, R71, R192) -/
def Obligations.DecodedWords : Prop :=
  let p : Head := ⟨false, false, 7, .none⟩
  let u : Head := ⟨true, false, 7, .none⟩
  let r (d : BitVec 8) : Res := ⟨false, 0, d⟩
  decode false [0x03540101, 0x00000001] = .ok (.add ⟨false, true, 2, .none⟩ .i32 ⟨false, 1, 3⟩ (.v 1) (.v 0))
  ∧ decode false [0x090E4301, 0x00106009] = .ok (.fadd p .f32 (r 9) (.v 9) (.vx 0 12))
  ∧ decode false [0x040F2101, 0x002FEC04] = .ok (.add u .i64 (r 4) (.s 4) (.imm (BitVec.ofInt 6 (-3))))
  ∧ decode false [0x060E4602, 0x84001404, 0x00000010] = .ok (.ldg ⟨false, false, 7, .one 16⟩ .f32 (r 6) .acq .dev false 0 (.s 4) (.v 2))
  ∧ decode false [0x080E1806, 0x8C2E0406, 0x00005009] = .ok (.cas p .n32 (r 8) .ar .dev false (.s 6) (.imm 0) (.v 9) (.v 10) .rlx)
  ∧ decode false [0x0A0E2247, 0x00000580, 0x89ABCDEF, 0x01234567] = .ok (.mov ⟨false, false, 7, .two 0x89ABCDEF 0x01234567⟩ .i64 (r 10) .lit64)
  ∧ decode false [0x00020005, 0x7FFFB000] = .ok (.bra ⟨false, false, 1, .none⟩ (BitVec.ofInt 20 (-10)))
  ∧ decode false [0x280E124D, 0x00001801] = .ok (.cmp p .n32 0 .ge (.v 1) (.v 3))
  ∧ decode false [0x030FCB01, 0xBA205C0A] = .ok (.mma u .bfp 3 (.s 10) (.s 11) 8)
  ∧ decode false [0x08121C01, 0x014025C0] = .ok (.unite ⟨false, true, 1, .none⟩ (r 8) (.imm 0) (.v 4) (.v 5))
  ∧ decode false [0x030E1709, 0x002E05C0] = .ok (.ldk p .n32 (r 3) 0 (.imm 0))
  ∧ decode false [0x090F0035, 0x00001000] = .ok (.srd u .i32 (r 9) .team)
  ∧ decode false [0x000F0039, 0x00008405] = .ok (.swr u .i32 (.s 5) .frm)
  ∧ decode false [0x080E2035, 0x00010000] = .ok (.srd p .i64 (r 8) .fva)
  ∧ decode false [0x140E0249, 0x88400003] = .ok (.movx p .i32 (r 20) (.v 3) 1)
  ∧ decode false [0x00000000, 0x00000000] = .ok .filler
end

