-- ==== Sys2Proof/Laws/Prog.lean ====
section
/-! SUPPORT. Programs: sequencing, running, and what every effect keeps. -/
namespace Sys2Proof.Machine

namespace Prog

variable {α β : Type}

@[simp] theorem bind_eq (p : Prog α) (f : α → Prog β) : @Bind.bind Prog monad.toBind α β p f = p.bind f := rfl
@[simp] theorem pure_eq (a : α) : @Pure.pure Prog monad.toApplicative.toPure α a = .pure a := rfl

/-- What follows a program that has answered. -/
theorem go_bind (p : Prog α) (f : α → Prog β) (s : State) :
    (p.bind f).go s = match p.go s with
      | .done a t => (f a).go t
      | .halted t => .halted t
      | .faulted x => .faulted x
      | .refused x => .refused x := by
  induction p generalizing s with
  | pure a => rfl
  | halt => rfl
  | fault x => rfl
  | refuse x => rfl
  | read k ih => exact ih s s
  | eff e k ih => exact ih (e.apply s)

theorem go_bind_done {p : Prog α} {f : α → Prog β} {s t : State} {a : α} (h : p.go s = .done a t) :
    (p.bind f).go s = (f a).go t := by
  rw [go_bind, h]

/-- A program's outcome is that of its end. -/
theorem run_eq (p : Prog Unit) (s : State) :
    p.run s = match p.go s with
      | .done _ t => .next t
      | .halted t => .next t
      | .faulted x => .fault x
      | .refused x => .refused x := by
  induction p generalizing s with
  | pure a => rfl
  | halt => rfl
  | fault x => rfl
  | refuse x => rfl
  | read k ih => exact ih s s
  | eff e k ih => exact ih (e.apply s)

theorem run_bind_done {p : Prog α} {f : α → Prog Unit} {s t : State} {a : α} (h : p.go s = .done a t) :
    (p.bind f).run s = (f a).run t := by
  rw [run_eq, go_bind_done h, run_eq]

/-- An outcome of a program with a continuation. -/
theorem thenRun_eq (p : Prog α) (s : State) (k : α → State → Host.Outcome State Fault Refusal) :
    p.thenRun s k = match p.go s with
      | .done a t => k a t
      | .halted t => .next t
      | .faulted x => .fault x
      | .refused x => .refused x := by
  induction p generalizing s with
  | pure a => rfl
  | halt => rfl
  | fault x => rfl
  | refuse x => rfl
  | read f ih => exact ih s s
  | eff e p ih => exact ih (e.apply s)

@[simp] theorem go_pure (a : α) (s : State) : (Prog.pure a).go s = .done a s := rfl
@[simp] theorem go_read (k : State → Prog α) (s : State) : (Prog.read k).go s = (k s).go s := rfl
@[simp] theorem go_eff (e : Eff) (k : Prog α) (s : State) : (Prog.eff e k).go s = k.go (e.apply s) := rfl
@[simp] theorem go_halt (s : State) : (Prog.halt : Prog α).go s = .halted s := rfl
@[simp] theorem go_get (s : State) : Prog.get.go s = .done s s := rfl
@[simp] theorem go_act (e : Eff) (s : State) : (act e).go s = .done () (e.apply s) := rfl
@[simp] theorem go_look (f : State → α) (s : State) : (look f).go s = .done (f s) s := rfl
@[simp] theorem go_modDev (f : Dev → Dev) (s : State) : (modDev f).go s = .done () { s with dev := f s.dev } := rfl
@[simp] theorem go_due (i : Instr) (s : State) : (due i).go s = .done () { s with agenda := s.agenda ++ [i] } := rfl
@[simp] theorem go_fresh (s : State) : fresh.go s = .done s.nextUid { s with nextUid := s.nextUid + 1 } := rfl
@[simp] theorem go_undef (s : State) : undef.go s = .done (Config.undef s.undefs) { s with undefs := s.undefs + 1 } := rfl
@[simp] theorem go_each_nil (f : α → Prog Unit) (s : State) : (each [] f).go s = .done () s := rfl
@[simp] theorem go_collect_nil (f : α → Prog β) (s : State) : (collect [] f).go s = .done [] s := rfl
@[simp] theorem go_when_false (p : Prog Unit) (s : State) : (when false p).go s = .done () s := rfl
@[simp] theorem when_true (p : Prog Unit) : when true p = p := rfl

/-- What every effect keeps, the state that a program ends in keeps. -/
theorem go_keeps {P : State → Prop} (hP : ∀ e s, P s → P (Eff.apply e s)) (p : Prog α) (s : State) (hs : P s) :
    match p.go s with
    | .done _ t => P t
    | .halted t => P t
    | _ => True := by
  induction p generalizing s with
  | pure a => exact hs
  | halt => exact hs
  | fault x => trivial
  | refuse x => trivial
  | read k ih => exact ih s s hs
  | eff e k ih => exact ih _ (hP e s hs)

theorem run_keeps {P : State → Prop} (hP : ∀ e s, P s → P (Eff.apply e s)) (p : Prog Unit) {s t : State} (hs : P s)
    (h : p.run s = .next t) : P t := by
  have k := go_keeps hP p s hs
  rw [run_eq] at h
  generalize p.go s = r at h k
  cases r with
  | done a u => cases h; exact k
  | halted u => cases h; exact k
  | faulted x => cases h
  | refused x => cases h

theorem thenRun_keeps {P : State → Prop} (hP : ∀ e s, P s → P (Eff.apply e s)) (p : Prog α) {s t : State}
    {k : α → State → Host.Outcome State Fault Refusal} (hs : P s) (hk : ∀ a u v, P u → k a u = .next v → P v)
    (h : p.thenRun s k = .next t) : P t := by
  have q := go_keeps hP p s hs
  rw [thenRun_eq] at h
  generalize p.go s = r at h q
  cases r with
  | done a u => exact hk a u t q h
  | halted u => cases h; exact q
  | faulted x => cases h
  | refused x => cases h

end Prog

end Sys2Proof.Machine
end

