-- ==== Sys2Proof/Laws/State.lean ====
section
/-! SUPPORT. What each effect leaves and sets, field by field; tables; groups in their teams; the facts of a state. -/
namespace Sys2Proof.Machine

/-! ### Effects, field by field -/

@[simp] theorem Eff.cur_mem (c : Option Issuer) (s : State) : (Eff.apply (Eff.cur c) s).mem = s.mem := rfl
@[simp] theorem Eff.cur_mgmt (c : Option Issuer) (s : State) : (Eff.apply (Eff.cur c) s).mgmt = s.mgmt := rfl
@[simp] theorem Eff.cur_teams (c : Option Issuer) (s : State) : (Eff.apply (Eff.cur c) s).teams = s.teams := rfl
@[simp] theorem Eff.cur_saved (c : Option Issuer) (s : State) : (Eff.apply (Eff.cur c) s).saved = s.saved := rfl
@[simp] theorem Eff.cur_dev (c : Option Issuer) (s : State) : (Eff.apply (Eff.cur c) s).dev = s.dev := rfl
@[simp] theorem Eff.cur_agenda (c : Option Issuer) (s : State) : (Eff.apply (Eff.cur c) s).agenda = s.agenda := rfl
@[simp] theorem Eff.cur_undefs (c : Option Issuer) (s : State) : (Eff.apply (Eff.cur c) s).undefs = s.undefs := rfl
@[simp] theorem Eff.cur_choices (c : Option Issuer) (s : State) : (Eff.apply (Eff.cur c) s).choices = s.choices := rfl
@[simp] theorem Eff.cur_tick (c : Option Issuer) (s : State) : (Eff.apply (Eff.cur c) s).tick = s.tick := rfl
@[simp] theorem Eff.cur_nextUid (c : Option Issuer) (s : State) : (Eff.apply (Eff.cur c) s).nextUid = s.nextUid := rfl
@[simp] theorem Eff.group_mem (u : Nat) (g : Group) (s : State) : (Eff.apply (Eff.group u g) s).mem = s.mem := rfl
@[simp] theorem Eff.group_mgmt (u : Nat) (g : Group) (s : State) : (Eff.apply (Eff.group u g) s).mgmt = s.mgmt := rfl
@[simp] theorem Eff.group_saved (u : Nat) (g : Group) (s : State) : (Eff.apply (Eff.group u g) s).saved = s.saved := rfl
@[simp] theorem Eff.group_dev (u : Nat) (g : Group) (s : State) : (Eff.apply (Eff.group u g) s).dev = s.dev := rfl
@[simp] theorem Eff.group_cur (u : Nat) (g : Group) (s : State) : (Eff.apply (Eff.group u g) s).cur = s.cur := rfl
@[simp] theorem Eff.group_agenda (u : Nat) (g : Group) (s : State) : (Eff.apply (Eff.group u g) s).agenda = s.agenda := rfl
@[simp] theorem Eff.group_undefs (u : Nat) (g : Group) (s : State) : (Eff.apply (Eff.group u g) s).undefs = s.undefs := rfl
@[simp] theorem Eff.group_choices (u : Nat) (g : Group) (s : State) : (Eff.apply (Eff.group u g) s).choices = s.choices := rfl
@[simp] theorem Eff.group_tick (u : Nat) (g : Group) (s : State) : (Eff.apply (Eff.group u g) s).tick = s.tick := rfl
@[simp] theorem Eff.group_nextUid (u : Nat) (g : Group) (s : State) : (Eff.apply (Eff.group u g) s).nextUid = s.nextUid := rfl
@[simp] theorem Eff.team_mem (t : Team) (s : State) : (Eff.apply (Eff.team t) s).mem = s.mem := rfl
@[simp] theorem Eff.team_mgmt (t : Team) (s : State) : (Eff.apply (Eff.team t) s).mgmt = s.mgmt := rfl
@[simp] theorem Eff.team_saved (t : Team) (s : State) : (Eff.apply (Eff.team t) s).saved = s.saved := rfl
@[simp] theorem Eff.team_dev (t : Team) (s : State) : (Eff.apply (Eff.team t) s).dev = s.dev := rfl
@[simp] theorem Eff.team_cur (t : Team) (s : State) : (Eff.apply (Eff.team t) s).cur = s.cur := rfl
@[simp] theorem Eff.team_agenda (t : Team) (s : State) : (Eff.apply (Eff.team t) s).agenda = s.agenda := rfl
@[simp] theorem Eff.team_undefs (t : Team) (s : State) : (Eff.apply (Eff.team t) s).undefs = s.undefs := rfl
@[simp] theorem Eff.team_choices (t : Team) (s : State) : (Eff.apply (Eff.team t) s).choices = s.choices := rfl
@[simp] theorem Eff.team_tick (t : Team) (s : State) : (Eff.apply (Eff.team t) s).tick = s.tick := rfl
@[simp] theorem Eff.team_nextUid (t : Team) (s : State) : (Eff.apply (Eff.team t) s).nextUid = s.nextUid := rfl
@[simp] theorem Eff.teams_mem (r w : List Team) (s : State) : (Eff.apply (Eff.teams r w) s).mem = s.mem := rfl
@[simp] theorem Eff.teams_mgmt (r w : List Team) (s : State) : (Eff.apply (Eff.teams r w) s).mgmt = s.mgmt := rfl
@[simp] theorem Eff.teams_dev (r w : List Team) (s : State) : (Eff.apply (Eff.teams r w) s).dev = s.dev := rfl
@[simp] theorem Eff.teams_cur (r w : List Team) (s : State) : (Eff.apply (Eff.teams r w) s).cur = s.cur := rfl
@[simp] theorem Eff.teams_agenda (r w : List Team) (s : State) : (Eff.apply (Eff.teams r w) s).agenda = s.agenda := rfl
@[simp] theorem Eff.teams_undefs (r w : List Team) (s : State) : (Eff.apply (Eff.teams r w) s).undefs = s.undefs := rfl
@[simp] theorem Eff.teams_choices (r w : List Team) (s : State) : (Eff.apply (Eff.teams r w) s).choices = s.choices := rfl
@[simp] theorem Eff.teams_tick (r w : List Team) (s : State) : (Eff.apply (Eff.teams r w) s).tick = s.tick := rfl
@[simp] theorem Eff.teams_nextUid (r w : List Team) (s : State) : (Eff.apply (Eff.teams r w) s).nextUid = s.nextUid := rfl
@[simp] theorem Eff.mem_mgmt (e : MemEff) (s : State) : (Eff.apply (Eff.mem e) s).mgmt = s.mgmt := rfl
@[simp] theorem Eff.mem_teams (e : MemEff) (s : State) : (Eff.apply (Eff.mem e) s).teams = s.teams := rfl
@[simp] theorem Eff.mem_saved (e : MemEff) (s : State) : (Eff.apply (Eff.mem e) s).saved = s.saved := rfl
@[simp] theorem Eff.mem_dev (e : MemEff) (s : State) : (Eff.apply (Eff.mem e) s).dev = s.dev := rfl
@[simp] theorem Eff.mem_cur (e : MemEff) (s : State) : (Eff.apply (Eff.mem e) s).cur = s.cur := rfl
@[simp] theorem Eff.mem_agenda (e : MemEff) (s : State) : (Eff.apply (Eff.mem e) s).agenda = s.agenda := rfl
@[simp] theorem Eff.mem_undefs (e : MemEff) (s : State) : (Eff.apply (Eff.mem e) s).undefs = s.undefs := rfl
@[simp] theorem Eff.mem_choices (e : MemEff) (s : State) : (Eff.apply (Eff.mem e) s).choices = s.choices := rfl
@[simp] theorem Eff.mem_tick (e : MemEff) (s : State) : (Eff.apply (Eff.mem e) s).tick = s.tick := rfl
@[simp] theorem Eff.mem_nextUid (e : MemEff) (s : State) : (Eff.apply (Eff.mem e) s).nextUid = s.nextUid := rfl
@[simp] theorem Eff.dev_mem (d : Dev) (s : State) : (Eff.apply (Eff.dev d) s).mem = s.mem := rfl
@[simp] theorem Eff.dev_mgmt (d : Dev) (s : State) : (Eff.apply (Eff.dev d) s).mgmt = s.mgmt := rfl
@[simp] theorem Eff.dev_teams (d : Dev) (s : State) : (Eff.apply (Eff.dev d) s).teams = s.teams := rfl
@[simp] theorem Eff.dev_saved (d : Dev) (s : State) : (Eff.apply (Eff.dev d) s).saved = s.saved := rfl
@[simp] theorem Eff.dev_cur (d : Dev) (s : State) : (Eff.apply (Eff.dev d) s).cur = s.cur := rfl
@[simp] theorem Eff.dev_agenda (d : Dev) (s : State) : (Eff.apply (Eff.dev d) s).agenda = s.agenda := rfl
@[simp] theorem Eff.dev_undefs (d : Dev) (s : State) : (Eff.apply (Eff.dev d) s).undefs = s.undefs := rfl
@[simp] theorem Eff.dev_choices (d : Dev) (s : State) : (Eff.apply (Eff.dev d) s).choices = s.choices := rfl
@[simp] theorem Eff.dev_tick (d : Dev) (s : State) : (Eff.apply (Eff.dev d) s).tick = s.tick := rfl
@[simp] theorem Eff.dev_nextUid (d : Dev) (s : State) : (Eff.apply (Eff.dev d) s).nextUid = s.nextUid := rfl
@[simp] theorem Eff.agenda_mem (l : List Instr) (s : State) : (Eff.apply (Eff.agenda l) s).mem = s.mem := rfl
@[simp] theorem Eff.agenda_mgmt (l : List Instr) (s : State) : (Eff.apply (Eff.agenda l) s).mgmt = s.mgmt := rfl
@[simp] theorem Eff.agenda_teams (l : List Instr) (s : State) : (Eff.apply (Eff.agenda l) s).teams = s.teams := rfl
@[simp] theorem Eff.agenda_saved (l : List Instr) (s : State) : (Eff.apply (Eff.agenda l) s).saved = s.saved := rfl
@[simp] theorem Eff.agenda_dev (l : List Instr) (s : State) : (Eff.apply (Eff.agenda l) s).dev = s.dev := rfl
@[simp] theorem Eff.agenda_cur (l : List Instr) (s : State) : (Eff.apply (Eff.agenda l) s).cur = s.cur := rfl
@[simp] theorem Eff.agenda_undefs (l : List Instr) (s : State) : (Eff.apply (Eff.agenda l) s).undefs = s.undefs := rfl
@[simp] theorem Eff.agenda_choices (l : List Instr) (s : State) : (Eff.apply (Eff.agenda l) s).choices = s.choices := rfl
@[simp] theorem Eff.agenda_tick (l : List Instr) (s : State) : (Eff.apply (Eff.agenda l) s).tick = s.tick := rfl
@[simp] theorem Eff.agenda_nextUid (l : List Instr) (s : State) : (Eff.apply (Eff.agenda l) s).nextUid = s.nextUid := rfl
@[simp] theorem Eff.undef_mem (s : State) : (Eff.apply (Eff.undef) s).mem = s.mem := rfl
@[simp] theorem Eff.undef_mgmt (s : State) : (Eff.apply (Eff.undef) s).mgmt = s.mgmt := rfl
@[simp] theorem Eff.undef_teams (s : State) : (Eff.apply (Eff.undef) s).teams = s.teams := rfl
@[simp] theorem Eff.undef_saved (s : State) : (Eff.apply (Eff.undef) s).saved = s.saved := rfl
@[simp] theorem Eff.undef_dev (s : State) : (Eff.apply (Eff.undef) s).dev = s.dev := rfl
@[simp] theorem Eff.undef_cur (s : State) : (Eff.apply (Eff.undef) s).cur = s.cur := rfl
@[simp] theorem Eff.undef_agenda (s : State) : (Eff.apply (Eff.undef) s).agenda = s.agenda := rfl
@[simp] theorem Eff.undef_choices (s : State) : (Eff.apply (Eff.undef) s).choices = s.choices := rfl
@[simp] theorem Eff.undef_tick (s : State) : (Eff.apply (Eff.undef) s).tick = s.tick := rfl
@[simp] theorem Eff.undef_nextUid (s : State) : (Eff.apply (Eff.undef) s).nextUid = s.nextUid := rfl
@[simp] theorem Eff.choice_mem (s : State) : (Eff.apply (Eff.choice) s).mem = s.mem := rfl
@[simp] theorem Eff.choice_mgmt (s : State) : (Eff.apply (Eff.choice) s).mgmt = s.mgmt := rfl
@[simp] theorem Eff.choice_teams (s : State) : (Eff.apply (Eff.choice) s).teams = s.teams := rfl
@[simp] theorem Eff.choice_saved (s : State) : (Eff.apply (Eff.choice) s).saved = s.saved := rfl
@[simp] theorem Eff.choice_dev (s : State) : (Eff.apply (Eff.choice) s).dev = s.dev := rfl
@[simp] theorem Eff.choice_cur (s : State) : (Eff.apply (Eff.choice) s).cur = s.cur := rfl
@[simp] theorem Eff.choice_agenda (s : State) : (Eff.apply (Eff.choice) s).agenda = s.agenda := rfl
@[simp] theorem Eff.choice_undefs (s : State) : (Eff.apply (Eff.choice) s).undefs = s.undefs := rfl
@[simp] theorem Eff.choice_tick (s : State) : (Eff.apply (Eff.choice) s).tick = s.tick := rfl
@[simp] theorem Eff.choice_nextUid (s : State) : (Eff.apply (Eff.choice) s).nextUid = s.nextUid := rfl
@[simp] theorem Eff.tick_mem (s : State) : (Eff.apply (Eff.tick) s).mem = s.mem := rfl
@[simp] theorem Eff.tick_mgmt (s : State) : (Eff.apply (Eff.tick) s).mgmt = s.mgmt := rfl
@[simp] theorem Eff.tick_teams (s : State) : (Eff.apply (Eff.tick) s).teams = s.teams := rfl
@[simp] theorem Eff.tick_saved (s : State) : (Eff.apply (Eff.tick) s).saved = s.saved := rfl
@[simp] theorem Eff.tick_dev (s : State) : (Eff.apply (Eff.tick) s).dev = s.dev := rfl
@[simp] theorem Eff.tick_cur (s : State) : (Eff.apply (Eff.tick) s).cur = s.cur := rfl
@[simp] theorem Eff.tick_agenda (s : State) : (Eff.apply (Eff.tick) s).agenda = s.agenda := rfl
@[simp] theorem Eff.tick_undefs (s : State) : (Eff.apply (Eff.tick) s).undefs = s.undefs := rfl
@[simp] theorem Eff.tick_choices (s : State) : (Eff.apply (Eff.tick) s).choices = s.choices := rfl
@[simp] theorem Eff.tick_nextUid (s : State) : (Eff.apply (Eff.tick) s).nextUid = s.nextUid := rfl
@[simp] theorem Eff.uid_mem (s : State) : (Eff.apply (Eff.uid) s).mem = s.mem := rfl
@[simp] theorem Eff.uid_mgmt (s : State) : (Eff.apply (Eff.uid) s).mgmt = s.mgmt := rfl
@[simp] theorem Eff.uid_teams (s : State) : (Eff.apply (Eff.uid) s).teams = s.teams := rfl
@[simp] theorem Eff.uid_saved (s : State) : (Eff.apply (Eff.uid) s).saved = s.saved := rfl
@[simp] theorem Eff.uid_dev (s : State) : (Eff.apply (Eff.uid) s).dev = s.dev := rfl
@[simp] theorem Eff.uid_cur (s : State) : (Eff.apply (Eff.uid) s).cur = s.cur := rfl
@[simp] theorem Eff.uid_agenda (s : State) : (Eff.apply (Eff.uid) s).agenda = s.agenda := rfl
@[simp] theorem Eff.uid_undefs (s : State) : (Eff.apply (Eff.uid) s).undefs = s.undefs := rfl
@[simp] theorem Eff.uid_choices (s : State) : (Eff.apply (Eff.uid) s).choices = s.choices := rfl
@[simp] theorem Eff.uid_tick (s : State) : (Eff.apply (Eff.uid) s).tick = s.tick := rfl
@[simp] theorem Eff.cur_cur (c : Option Issuer) (s : State) : (Eff.apply (Eff.cur c) s).cur = c := rfl
@[simp] theorem Eff.mem_mem (e : MemEff) (s : State) : (Eff.apply (Eff.mem e) s).mem = e.apply s.mem := rfl
@[simp] theorem Eff.dev_dev (d : Dev) (s : State) : (Eff.apply (Eff.dev d) s).dev = d := rfl
@[simp] theorem Eff.agenda_agenda (l : List Instr) (s : State) : (Eff.apply (Eff.agenda l) s).agenda = l := rfl
@[simp] theorem Eff.uid_nextUid (s : State) : (Eff.apply Eff.uid s).nextUid = s.nextUid + 1 := rfl
@[simp] theorem Eff.teams_teams (r w : List Team) (s : State) : (Eff.apply (Eff.teams r w) s).teams = r := rfl
@[simp] theorem Eff.teams_saved (r w : List Team) (s : State) : (Eff.apply (Eff.teams r w) s).saved = w := rfl

@[simp] theorem State.withGroup_mem (s : State) (u : Nat) (g : Group) : (s.withGroup u g).mem = s.mem := rfl
@[simp] theorem State.withGroup_mgmt (s : State) (u : Nat) (g : Group) : (s.withGroup u g).mgmt = s.mgmt := rfl
@[simp] theorem State.withGroup_saved (s : State) (u : Nat) (g : Group) : (s.withGroup u g).saved = s.saved := rfl
@[simp] theorem State.withGroup_dev (s : State) (u : Nat) (g : Group) : (s.withGroup u g).dev = s.dev := rfl
@[simp] theorem State.withGroup_cur (s : State) (u : Nat) (g : Group) : (s.withGroup u g).cur = s.cur := rfl
@[simp] theorem State.withGroup_agenda (s : State) (u : Nat) (g : Group) : (s.withGroup u g).agenda = s.agenda := rfl
@[simp] theorem State.withGroup_undefs (s : State) (u : Nat) (g : Group) : (s.withGroup u g).undefs = s.undefs := rfl
@[simp] theorem State.withGroup_choices (s : State) (u : Nat) (g : Group) : (s.withGroup u g).choices = s.choices := rfl
@[simp] theorem State.withGroup_tick (s : State) (u : Nat) (g : Group) : (s.withGroup u g).tick = s.tick := rfl
@[simp] theorem State.withGroup_nextUid (s : State) (u : Nat) (g : Group) : (s.withGroup u g).nextUid = s.nextUid := rfl

/-! ### Groups -/

@[simp] theorem Group.setSplit_gidx (g : Group) (n : Nat) (x : Split) : (g.setSplit n x).gidx = g.gidx := rfl
@[simp] theorem Group.modSplit_gidx (g : Group) (n : Nat) (k : Split → Split) : (g.modSplit n k).gidx = g.gidx := rfl
@[simp] theorem Group.begin_gidx (g : Group) (n m : Nat) (i : Instr) : (g.begin n m i).gidx = g.gidx := rfl
@[simp] theorem Group.ended_gidx (g : Group) (e : Env) (b : Bool) (w : Wait) : (g.ended e b w).gidx = g.gidx := rfl
@[simp] theorem Group.setSplit_width (g : Group) (n : Nat) (x : Split) : (g.setSplit n x).width = g.width := rfl
@[simp] theorem Group.modSplit_width (g : Group) (n : Nat) (k : Split → Split) : (g.modSplit n k).width = g.width := rfl
@[simp] theorem Group.begin_width (g : Group) (n m : Nat) (i : Instr) : (g.begin n m i).width = g.width := rfl
@[simp] theorem Group.ended_width (g : Group) (e : Env) (b : Bool) (w : Wait) : (g.ended e b w).width = g.width := rfl
@[simp] theorem Group.setSplit_s (g : Group) (n : Nat) (x : Split) : (g.setSplit n x).s = g.s := rfl
@[simp] theorem Group.modSplit_s (g : Group) (n : Nat) (k : Split → Split) : (g.modSplit n k).s = g.s := rfl
@[simp] theorem Group.begin_s (g : Group) (n m : Nat) (i : Instr) : (g.begin n m i).s = g.s := rfl
@[simp] theorem Group.ended_s (g : Group) (e : Env) (b : Bool) (w : Wait) : (g.ended e b w).s = g.s := rfl
@[simp] theorem Group.setSplit_q (g : Group) (n : Nat) (x : Split) : (g.setSplit n x).q = g.q := rfl
@[simp] theorem Group.modSplit_q (g : Group) (n : Nat) (k : Split → Split) : (g.modSplit n k).q = g.q := rfl
@[simp] theorem Group.begin_q (g : Group) (n m : Nat) (i : Instr) : (g.begin n m i).q = g.q := rfl
@[simp] theorem Group.ended_q (g : Group) (e : Env) (b : Bool) (w : Wait) : (g.ended e b w).q = g.q := rfl
@[simp] theorem Group.setSplit_p (g : Group) (n : Nat) (x : Split) : (g.setSplit n x).p = g.p := rfl
@[simp] theorem Group.modSplit_p (g : Group) (n : Nat) (k : Split → Split) : (g.modSplit n k).p = g.p := rfl
@[simp] theorem Group.begin_p (g : Group) (n m : Nat) (i : Instr) : (g.begin n m i).p = g.p := rfl
@[simp] theorem Group.ended_p (g : Group) (e : Env) (b : Bool) (w : Wait) : (g.ended e b w).p = g.p := rfl
@[simp] theorem Group.setSplit_x (g : Group) (n : Nat) (x : Split) : (g.setSplit n x).x = g.x := rfl
@[simp] theorem Group.modSplit_x (g : Group) (n : Nat) (k : Split → Split) : (g.modSplit n k).x = g.x := rfl
@[simp] theorem Group.begin_x (g : Group) (n m : Nat) (i : Instr) : (g.begin n m i).x = g.x := rfl
@[simp] theorem Group.ended_x (g : Group) (e : Env) (b : Bool) (w : Wait) : (g.ended e b w).x = g.x := rfl
@[simp] theorem Group.setSplit_v (g : Group) (n : Nat) (x : Split) : (g.setSplit n x).v = g.v := rfl
@[simp] theorem Group.modSplit_v (g : Group) (n : Nat) (k : Split → Split) : (g.modSplit n k).v = g.v := rfl
@[simp] theorem Group.begin_v (g : Group) (n m : Nat) (i : Instr) : (g.begin n m i).v = g.v := rfl
@[simp] theorem Group.ended_v (g : Group) (e : Env) (b : Bool) (w : Wait) : (g.ended e b w).v = g.v := rfl
@[simp] theorem Group.setSplit_latch (g : Group) (n : Nat) (x : Split) : (g.setSplit n x).latch = g.latch := rfl
@[simp] theorem Group.modSplit_latch (g : Group) (n : Nat) (k : Split → Split) : (g.modSplit n k).latch = g.latch := rfl
@[simp] theorem Group.ended_latch (g : Group) (e : Env) (b : Bool) (w : Wait) : (g.ended e b w).latch = g.latch := rfl
@[simp] theorem Group.setSplit_h (g : Group) (n : Nat) (x : Split) : (g.setSplit n x).h = g.h := rfl
@[simp] theorem Group.modSplit_h (g : Group) (n : Nat) (k : Split → Split) : (g.modSplit n k).h = g.h := rfl
@[simp] theorem Group.begin_h (g : Group) (n m : Nat) (i : Instr) : (g.begin n m i).h = g.h := rfl
@[simp] theorem Group.ended_h (g : Group) (e : Env) (b : Bool) (w : Wait) : (g.ended e b w).h = g.h := rfl
@[simp] theorem Group.setSplit_overflow (g : Group) (n : Nat) (x : Split) : (g.setSplit n x).overflow = g.overflow := rfl
@[simp] theorem Group.modSplit_overflow (g : Group) (n : Nat) (k : Split → Split) : (g.modSplit n k).overflow = g.overflow := rfl
@[simp] theorem Group.begin_overflow (g : Group) (n m : Nat) (i : Instr) : (g.begin n m i).overflow = g.overflow := rfl
@[simp] theorem Group.ended_overflow (g : Group) (e : Env) (b : Bool) (w : Wait) : (g.ended e b w).overflow = g.overflow := rfl
@[simp] theorem Group.setSplit_frm (g : Group) (n : Nat) (x : Split) : (g.setSplit n x).frm = g.frm := rfl
@[simp] theorem Group.modSplit_frm (g : Group) (n : Nat) (k : Split → Split) : (g.modSplit n k).frm = g.frm := rfl
@[simp] theorem Group.begin_frm (g : Group) (n m : Nat) (i : Instr) : (g.begin n m i).frm = g.frm := rfl
@[simp] theorem Group.ended_frm (g : Group) (e : Env) (b : Bool) (w : Wait) : (g.ended e b w).frm = g.frm := rfl
@[simp] theorem Group.setSplit_fstat (g : Group) (n : Nat) (x : Split) : (g.setSplit n x).fstat = g.fstat := rfl
@[simp] theorem Group.modSplit_fstat (g : Group) (n : Nat) (k : Split → Split) : (g.modSplit n k).fstat = g.fstat := rfl
@[simp] theorem Group.begin_fstat (g : Group) (n m : Nat) (i : Instr) : (g.begin n m i).fstat = g.fstat := rfl
@[simp] theorem Group.ended_fstat (g : Group) (e : Env) (b : Bool) (w : Wait) : (g.ended e b w).fstat = g.fstat := rfl
@[simp] theorem Group.setSplit_dphase (g : Group) (n : Nat) (x : Split) : (g.setSplit n x).dphase = g.dphase := rfl
@[simp] theorem Group.modSplit_dphase (g : Group) (n : Nat) (k : Split → Split) : (g.modSplit n k).dphase = g.dphase := rfl
@[simp] theorem Group.begin_dphase (g : Group) (n m : Nat) (i : Instr) : (g.begin n m i).dphase = g.dphase := rfl
@[simp] theorem Group.ended_dphase (g : Group) (e : Env) (b : Bool) (w : Wait) : (g.ended e b w).dphase = g.dphase := rfl
@[simp] theorem Group.setSplit_rgnpc (g : Group) (n : Nat) (x : Split) : (g.setSplit n x).rgnpc = g.rgnpc := rfl
@[simp] theorem Group.modSplit_rgnpc (g : Group) (n : Nat) (k : Split → Split) : (g.modSplit n k).rgnpc = g.rgnpc := rfl
@[simp] theorem Group.begin_rgnpc (g : Group) (n m : Nat) (i : Instr) : (g.begin n m i).rgnpc = g.rgnpc := rfl
@[simp] theorem Group.ended_rgnpc (g : Group) (e : Env) (b : Bool) (w : Wait) : (g.ended e b w).rgnpc = g.rgnpc := rfl
@[simp] theorem Group.setSplit_pwr (g : Group) (n : Nat) (x : Split) : (g.setSplit n x).pwr = g.pwr := rfl
@[simp] theorem Group.modSplit_pwr (g : Group) (n : Nat) (k : Split → Split) : (g.modSplit n k).pwr = g.pwr := rfl
@[simp] theorem Group.begin_pwr (g : Group) (n m : Nat) (i : Instr) : (g.begin n m i).pwr = g.pwr := rfl
@[simp] theorem Group.ended_pwr (g : Group) (e : Env) (b : Bool) (w : Wait) : (g.ended e b w).pwr = g.pwr := rfl
@[simp] theorem Group.setSplit_mpcount (g : Group) (n : Nat) (x : Split) : (g.setSplit n x).mpcount = g.mpcount := rfl
@[simp] theorem Group.modSplit_mpcount (g : Group) (n : Nat) (k : Split → Split) : (g.modSplit n k).mpcount = g.mpcount := rfl
@[simp] theorem Group.begin_mpcount (g : Group) (n m : Nat) (i : Instr) : (g.begin n m i).mpcount = g.mpcount := rfl
@[simp] theorem Group.ended_mpcount (g : Group) (e : Env) (b : Bool) (w : Wait) : (g.ended e b w).mpcount = g.mpcount := rfl
@[simp] theorem Group.setSplit_watch (g : Group) (n : Nat) (x : Split) : (g.setSplit n x).watch = g.watch := rfl
@[simp] theorem Group.modSplit_watch (g : Group) (n : Nat) (k : Split → Split) : (g.modSplit n k).watch = g.watch := rfl
@[simp] theorem Group.begin_watch (g : Group) (n m : Nat) (i : Instr) : (g.begin n m i).watch = g.watch := rfl
@[simp] theorem Group.ended_watch (g : Group) (e : Env) (b : Bool) (w : Wait) : (g.ended e b w).watch = g.watch := rfl
@[simp] theorem Group.setSplit_fva (g : Group) (n : Nat) (x : Split) : (g.setSplit n x).fva = g.fva := rfl
@[simp] theorem Group.modSplit_fva (g : Group) (n : Nat) (k : Split → Split) : (g.modSplit n k).fva = g.fva := rfl
@[simp] theorem Group.begin_fva (g : Group) (n m : Nat) (i : Instr) : (g.begin n m i).fva = g.fva := rfl
@[simp] theorem Group.ended_fva (g : Group) (e : Env) (b : Bool) (w : Wait) : (g.ended e b w).fva = g.fva := rfl
@[simp] theorem Group.setSplit_mapst (g : Group) (n : Nat) (x : Split) : (g.setSplit n x).mapst = g.mapst := rfl
@[simp] theorem Group.modSplit_mapst (g : Group) (n : Nat) (k : Split → Split) : (g.modSplit n k).mapst = g.mapst := rfl
@[simp] theorem Group.begin_mapst (g : Group) (n m : Nat) (i : Instr) : (g.begin n m i).mapst = g.mapst := rfl
@[simp] theorem Group.ended_mapst (g : Group) (e : Env) (b : Bool) (w : Wait) : (g.ended e b w).mapst = g.mapst := rfl
@[simp] theorem Group.setSplit_tmask (g : Group) (n : Nat) (x : Split) : (g.setSplit n x).tmask = g.tmask := rfl
@[simp] theorem Group.modSplit_tmask (g : Group) (n : Nat) (k : Split → Split) : (g.modSplit n k).tmask = g.tmask := rfl
@[simp] theorem Group.begin_tmask (g : Group) (n m : Nat) (i : Instr) : (g.begin n m i).tmask = g.tmask := rfl
@[simp] theorem Group.ended_tmask (g : Group) (e : Env) (b : Bool) (w : Wait) : (g.ended e b w).tmask = g.tmask := rfl
@[simp] theorem Group.setSplit_tcause (g : Group) (n : Nat) (x : Split) : (g.setSplit n x).tcause = g.tcause := rfl
@[simp] theorem Group.modSplit_tcause (g : Group) (n : Nat) (k : Split → Split) : (g.modSplit n k).tcause = g.tcause := rfl
@[simp] theorem Group.begin_tcause (g : Group) (n m : Nat) (i : Instr) : (g.begin n m i).tcause = g.tcause := rfl
@[simp] theorem Group.ended_tcause (g : Group) (e : Env) (b : Bool) (w : Wait) : (g.ended e b w).tcause = g.tcause := rfl
@[simp] theorem Group.setSplit_epc (g : Group) (n : Nat) (x : Split) : (g.setSplit n x).epc = g.epc := rfl
@[simp] theorem Group.modSplit_epc (g : Group) (n : Nat) (k : Split → Split) : (g.modSplit n k).epc = g.epc := rfl
@[simp] theorem Group.begin_epc (g : Group) (n m : Nat) (i : Instr) : (g.begin n m i).epc = g.epc := rfl
@[simp] theorem Group.ended_epc (g : Group) (e : Env) (b : Bool) (w : Wait) : (g.ended e b w).epc = g.epc := rfl
@[simp] theorem Group.setSplit_taux (g : Group) (n : Nat) (x : Split) : (g.setSplit n x).taux = g.taux := rfl
@[simp] theorem Group.modSplit_taux (g : Group) (n : Nat) (k : Split → Split) : (g.modSplit n k).taux = g.taux := rfl
@[simp] theorem Group.begin_taux (g : Group) (n m : Nat) (i : Instr) : (g.begin n m i).taux = g.taux := rfl
@[simp] theorem Group.ended_taux (g : Group) (e : Env) (b : Bool) (w : Wait) : (g.ended e b w).taux = g.taux := rfl
@[simp] theorem Group.setSplit_handler (g : Group) (n : Nat) (x : Split) : (g.setSplit n x).handler = g.handler := rfl
@[simp] theorem Group.modSplit_handler (g : Group) (n : Nat) (k : Split → Split) : (g.modSplit n k).handler = g.handler := rfl
@[simp] theorem Group.begin_handler (g : Group) (n m : Nat) (i : Instr) : (g.begin n m i).handler = g.handler := rfl
@[simp] theorem Group.ended_handler (g : Group) (e : Env) (b : Bool) (w : Wait) : (g.ended e b w).handler = g.handler := rfl
@[simp] theorem Group.setSplit_recipe (g : Group) (n : Nat) (x : Split) : (g.setSplit n x).recipe = g.recipe := rfl
@[simp] theorem Group.modSplit_recipe (g : Group) (n : Nat) (k : Split → Split) : (g.modSplit n k).recipe = g.recipe := rfl
@[simp] theorem Group.begin_recipe (g : Group) (n m : Nat) (i : Instr) : (g.begin n m i).recipe = g.recipe := rfl
@[simp] theorem Group.ended_recipe (g : Group) (e : Env) (b : Bool) (w : Wait) : (g.ended e b w).recipe = g.recipe := rfl
@[simp] theorem Group.setSplit_spin (g : Group) (n : Nat) (x : Split) : (g.setSplit n x).spin = g.spin := rfl
@[simp] theorem Group.modSplit_spin (g : Group) (n : Nat) (k : Split → Split) : (g.modSplit n k).spin = g.spin := rfl
@[simp] theorem Group.begin_spin (g : Group) (n m : Nat) (i : Instr) : (g.begin n m i).spin = g.spin := rfl
@[simp] theorem Group.ended_spin (g : Group) (e : Env) (b : Bool) (w : Wait) : (g.ended e b w).spin = g.spin := rfl
@[simp] theorem Group.setSplit_masks (g : Group) (n : Nat) (x : Split) : (g.setSplit n x).masks = g.masks := rfl
@[simp] theorem Group.modSplit_masks (g : Group) (n : Nat) (k : Split → Split) : (g.modSplit n k).masks = g.masks := rfl
@[simp] theorem Group.begin_masks (g : Group) (n m : Nat) (i : Instr) : (g.begin n m i).masks = g.masks := rfl
@[simp] theorem Group.ended_masks (g : Group) (e : Env) (b : Bool) (w : Wait) : (g.ended e b w).masks = g.masks := rfl
@[simp] theorem Group.setSplit_umask (g : Group) (n : Nat) (x : Split) : (g.setSplit n x).umask = g.umask := rfl
@[simp] theorem Group.modSplit_umask (g : Group) (n : Nat) (k : Split → Split) : (g.modSplit n k).umask = g.umask := rfl
@[simp] theorem Group.begin_umask (g : Group) (n m : Nat) (i : Instr) : (g.begin n m i).umask = g.umask := rfl
@[simp] theorem Group.ended_umask (g : Group) (e : Env) (b : Bool) (w : Wait) : (g.ended e b w).umask = g.umask := rfl
@[simp] theorem Group.setSplit_region (g : Group) (n : Nat) (x : Split) : (g.setSplit n x).region = g.region := rfl
@[simp] theorem Group.modSplit_region (g : Group) (n : Nat) (k : Split → Split) : (g.modSplit n k).region = g.region := rfl
@[simp] theorem Group.begin_region (g : Group) (n m : Nat) (i : Instr) : (g.begin n m i).region = g.region := rfl
@[simp] theorem Group.ended_region (g : Group) (e : Env) (b : Bool) (w : Wait) : (g.ended e b w).region = g.region := rfl
@[simp] theorem Group.setSplit_exited (g : Group) (n : Nat) (x : Split) : (g.setSplit n x).exited = g.exited := rfl
@[simp] theorem Group.modSplit_exited (g : Group) (n : Nat) (k : Split → Split) : (g.modSplit n k).exited = g.exited := rfl
@[simp] theorem Group.begin_exited (g : Group) (n m : Nat) (i : Instr) : (g.begin n m i).exited = g.exited := rfl
@[simp] theorem Group.ended_exited (g : Group) (e : Env) (b : Bool) (w : Wait) : (g.ended e b w).exited = g.exited := rfl
@[simp] theorem Group.setSplit_stream (g : Group) (n : Nat) (x : Split) : (g.setSplit n x).stream = g.stream := rfl
@[simp] theorem Group.modSplit_stream (g : Group) (n : Nat) (k : Split → Split) : (g.modSplit n k).stream = g.stream := rfl
@[simp] theorem Group.begin_stream (g : Group) (n m : Nat) (i : Instr) : (g.begin n m i).stream = g.stream := rfl
@[simp] theorem Group.ended_stream (g : Group) (e : Env) (b : Bool) (w : Wait) : (g.ended e b w).stream = g.stream := rfl
@[simp] theorem Group.setSplit_age (g : Group) (n : Nat) (x : Split) : (g.setSplit n x).age = g.age := rfl
@[simp] theorem Group.modSplit_age (g : Group) (n : Nat) (k : Split → Split) : (g.modSplit n k).age = g.age := rfl
@[simp] theorem Group.begin_age (g : Group) (n m : Nat) (i : Instr) : (g.begin n m i).age = g.age := rfl
@[simp] theorem Group.ended_age (g : Group) (e : Env) (b : Bool) (w : Wait) : (g.ended e b w).age = g.age := rfl
@[simp] theorem Group.setSplit_wait (g : Group) (n : Nat) (x : Split) : (g.setSplit n x).wait = g.wait := rfl
@[simp] theorem Group.modSplit_wait (g : Group) (n : Nat) (k : Split → Split) : (g.modSplit n k).wait = g.wait := rfl
@[simp] theorem Group.begin_wait (g : Group) (n m : Nat) (i : Instr) : (g.begin n m i).wait = g.wait := rfl
@[simp] theorem Group.ended_wait (g : Group) (e : Env) (b : Bool) (w : Wait) : (g.ended e b w).wait = g.wait := rfl
@[simp] theorem Group.setSplit_waitU (g : Group) (n : Nat) (x : Split) : (g.setSplit n x).waitU = g.waitU := rfl
@[simp] theorem Group.modSplit_waitU (g : Group) (n : Nat) (k : Split → Split) : (g.modSplit n k).waitU = g.waitU := rfl
@[simp] theorem Group.begin_waitU (g : Group) (n m : Nat) (i : Instr) : (g.begin n m i).waitU = g.waitU := rfl
@[simp] theorem Group.ended_waitU (g : Group) (e : Env) (b : Bool) (w : Wait) : (g.ended e b w).waitU = g.waitU := rfl
@[simp] theorem Group.setSplit_core (g : Group) (n : Nat) (x : Split) : (g.setSplit n x).core = g.core := rfl
@[simp] theorem Group.modSplit_core (g : Group) (n : Nat) (k : Split → Split) : (g.modSplit n k).core = g.core := rfl
@[simp] theorem Group.begin_core (g : Group) (n m : Nat) (i : Instr) : (g.begin n m i).core = g.core := rfl
@[simp] theorem Group.ended_core (g : Group) (e : Env) (b : Bool) (w : Wait) : (g.ended e b w).core = g.core := rfl
@[simp] theorem Group.setSplit_quad (g : Group) (n : Nat) (x : Split) : (g.setSplit n x).quad = g.quad := rfl
@[simp] theorem Group.modSplit_quad (g : Group) (n : Nat) (k : Split → Split) : (g.modSplit n k).quad = g.quad := rfl
@[simp] theorem Group.begin_quad (g : Group) (n m : Nat) (i : Instr) : (g.begin n m i).quad = g.quad := rfl
@[simp] theorem Group.ended_quad (g : Group) (e : Env) (b : Bool) (w : Wait) : (g.ended e b w).quad = g.quad := rfl
@[simp] theorem Group.setSplit_lg (g : Group) (n : Nat) (x : Split) : (g.setSplit n x).lg = g.lg := rfl
@[simp] theorem Group.modSplit_lg (g : Group) (n : Nat) (k : Split → Split) : (g.modSplit n k).lg = g.lg := rfl
@[simp] theorem Group.begin_lg (g : Group) (n m : Nat) (i : Instr) : (g.begin n m i).lg = g.lg := rfl
@[simp] theorem Group.ended_lg (g : Group) (e : Env) (b : Bool) (w : Wait) : (g.ended e b w).lg = g.lg := rfl
@[simp] theorem Group.setSplit_withheld (g : Group) (n : Nat) (x : Split) : (g.setSplit n x).withheld = g.withheld := rfl
@[simp] theorem Group.modSplit_withheld (g : Group) (n : Nat) (k : Split → Split) : (g.modSplit n k).withheld = g.withheld := rfl
@[simp] theorem Group.begin_withheld (g : Group) (n m : Nat) (i : Instr) : (g.begin n m i).withheld = g.withheld := rfl
@[simp] theorem Group.ended_withheld (g : Group) (e : Env) (b : Bool) (w : Wait) : (g.ended e b w).withheld = g.withheld := rfl
@[simp] theorem Group.setSplit_heldAt (g : Group) (n : Nat) (x : Split) : (g.setSplit n x).heldAt = g.heldAt := rfl
@[simp] theorem Group.modSplit_heldAt (g : Group) (n : Nat) (k : Split → Split) : (g.modSplit n k).heldAt = g.heldAt := rfl
@[simp] theorem Group.begin_heldAt (g : Group) (n m : Nat) (i : Instr) : (g.begin n m i).heldAt = g.heldAt := rfl
@[simp] theorem Group.ended_heldAt (g : Group) (e : Env) (b : Bool) (w : Wait) : (g.ended e b w).heldAt = g.heldAt := rfl
@[simp] theorem Group.setSplit_opn (g : Group) (n : Nat) (x : Split) : (g.setSplit n x).opn = g.opn := rfl
@[simp] theorem Group.modSplit_opn (g : Group) (n : Nat) (k : Split → Split) : (g.modSplit n k).opn = g.opn := rfl
@[simp] theorem Group.begin_opn (g : Group) (n m : Nat) (i : Instr) : (g.begin n m i).opn = g.opn := rfl
@[simp] theorem Group.ended_opn (g : Group) (e : Env) (b : Bool) (w : Wait) : (g.ended e b w).opn = g.opn := rfl
@[simp] theorem Group.setSplit_badV (g : Group) (n : Nat) (x : Split) : (g.setSplit n x).badV = g.badV := rfl
@[simp] theorem Group.modSplit_badV (g : Group) (n : Nat) (k : Split → Split) : (g.modSplit n k).badV = g.badV := rfl
@[simp] theorem Group.begin_badV (g : Group) (n m : Nat) (i : Instr) : (g.begin n m i).badV = g.badV := rfl
@[simp] theorem Group.ended_badV (g : Group) (e : Env) (b : Bool) (w : Wait) : (g.ended e b w).badV = g.badV := rfl
@[simp] theorem Group.setSplit_rolling (g : Group) (n : Nat) (x : Split) : (g.setSplit n x).rolling = g.rolling := rfl
@[simp] theorem Group.modSplit_rolling (g : Group) (n : Nat) (k : Split → Split) : (g.modSplit n k).rolling = g.rolling := rfl
@[simp] theorem Group.begin_rolling (g : Group) (n m : Nat) (i : Instr) : (g.begin n m i).rolling = g.rolling := rfl
@[simp] theorem Group.ended_rolling (g : Group) (e : Env) (b : Bool) (w : Wait) : (g.ended e b w).rolling = g.rolling := rfl
@[simp] theorem Group.setSplit_epinBad (g : Group) (n : Nat) (x : Split) : (g.setSplit n x).epinBad = g.epinBad := rfl
@[simp] theorem Group.modSplit_epinBad (g : Group) (n : Nat) (k : Split → Split) : (g.modSplit n k).epinBad = g.epinBad := rfl
@[simp] theorem Group.begin_epinBad (g : Group) (n m : Nat) (i : Instr) : (g.begin n m i).epinBad = g.epinBad := rfl
@[simp] theorem Group.ended_epinBad (g : Group) (e : Env) (b : Bool) (w : Wait) : (g.ended e b w).epinBad = g.epinBad := rfl

end Sys2Proof.Machine
end

