-- ==== Sys2Proof/Laws/Frame.lean ====
section
/-! SUPPORT. Groups found and replaced in a state; the facts of a state; how an instruction starts and ends. -/
namespace Sys2Proof.Machine

/-! ### Lists -/

theorem replaceFirst_map {α β : Type} (f : α → β) (p : α → Bool) (q : β → Bool) (x : α) (hq : ∀ a, q (f a) = p a) (l : List α) :
    (replaceFirst p x l).map f = replaceFirst q (f x) (l.map f) := by
  induction l with
  | nil => rfl
  | cons a t ih =>
    simp only [replaceFirst, List.map_cons, hq]
    split <;> simp [ih]

theorem find_replaceFirst {α : Type} (p : α → Bool) (x : α) (hx : p x = true) (l : List α) :
    (replaceFirst p x l).find? p = (l.find? p).map (fun _ => x) := by
  induction l with
  | nil => rfl
  | cons a t ih =>
    simp only [replaceFirst]
    split
    · rename_i h
      simp [List.find?, hx, h]
    · rename_i h
      simp [List.find?, h, ih]

theorem replaceFirst_twice {α : Type} (p : α → Bool) (x y : α) (hx : p x = true) (l : List α) :
    replaceFirst p y (replaceFirst p x l) = replaceFirst p y l := by
  induction l with
  | nil => rfl
  | cons a t ih =>
    simp only [replaceFirst]
    split
    · simp [replaceFirst, hx]
    · rename_i h
      simp [replaceFirst, h, ih]

theorem find_map_cond {α : Type} (p : α → Bool) (f : α → α) (hf : ∀ a, p (f a) = p a) (l : List α) :
    (l.map f).find? p = (l.find? p).map f := by
  induction l with
  | nil => rfl
  | cons a t ih =>
    simp only [List.map_cons, List.find?_cons, hf]
    split
    · simp
    · simp [ih]

theorem setNth_map {α β : Type} (f : α → β) (l : List α) (n : Nat) (x : α) : (setNth l n x).map f = setNth (l.map f) n (f x) := by
  induction l generalizing n with
  | nil => rfl
  | cons a t ih => cases n <;> simp [setNth, ih]

theorem setNth_setNth {α : Type} (l : List α) (n : Nat) (x y : α) : setNth (setNth l n x) n y = setNth l n y := by
  induction l generalizing n with
  | nil => rfl
  | cons a t ih => cases n <;> simp [setNth, ih]

theorem getD_setNth {α : Type} (l : List α) (n : Nat) (x d : α) (h : n < l.length) : (setNth l n x).getD n d = x := by
  induction l generalizing n with
  | nil => simp at h
  | cons a t ih =>
    cases n with
    | zero => simp [setNth]
    | succ n =>
      have h' : n < t.length := by simpa using h
      simpa [setNth] using ih n h'

/-! ### Groups of a state -/

theorem Team.withGroup_uid (t : Team) (g : Group) : (t.withGroup g).uid = t.uid := rfl

theorem find_modFirst {α : Type} (p : α → Bool) (f : α → α) (hf : ∀ a, p (f a) = p a) (l : List α) :
    (modFirst p f l).find? p = (l.find? p).map f := by
  induction l with
  | nil => rfl
  | cons a t ih =>
    simp only [modFirst]
    by_cases h : p a
    · simp [List.find?, h, hf]
    · simp [List.find?, h, ih]

theorem find_modFirst_map {α β : Type} (p q : α → Bool) (f : α → α) (k : α → β) (hq : ∀ a, q (f a) = q a) (hk : ∀ a, k (f a) = k a)
    (l : List α) : ((modFirst p f l).find? q).map k = (l.find? q).map k := by
  induction l with
  | nil => rfl
  | cons a t ih =>
    simp only [modFirst]
    by_cases h : p a
    · by_cases h2 : q a <;> simp [List.find?, h, hq, h2, hk]
    · by_cases h2 : q a <;> simp [List.find?, h, h2, ih]

theorem modFirst_map {α β : Type} (k : α → β) (p : α → Bool) (q : β → Bool) (f : α → α) (f' : β → β) (hq : ∀ a, q (k a) = p a)
    (hk : ∀ a, k (f a) = f' (k a)) (l : List α) : (modFirst p f l).map k = modFirst q f' (l.map k) := by
  induction l with
  | nil => rfl
  | cons a t ih =>
    simp only [modFirst, List.map_cons, hq]
    split <;> simp [ih, hk]

theorem modFirst_twice {α : Type} (p : α → Bool) (f f' : α → α) (hf : ∀ a, p (f a) = p a) (l : List α) :
    modFirst p f' (modFirst p f l) = modFirst p (fun a => f' (f a)) l := by
  induction l with
  | nil => rfl
  | cons a t ih =>
    simp only [modFirst]
    split
    · rename_i h
      simp [modFirst, hf, h]
    · rename_i h
      simp [modFirst, h, ih]

theorem modFirst_self {α : Type} (p : α → Bool) (f : α → α) (l : List α) (h : ∀ a, l.find? p = some a → f a = a) :
    modFirst p f l = l := by
  induction l with
  | nil => rfl
  | cons a t ih =>
    simp only [modFirst]
    split
    · rename_i hp
      rw [h a (by simp [List.find?, hp])]
    · rename_i hp
      rw [ih (fun b hb => h b (by simpa [List.find?, hp] using hb))]

theorem replaceFirst_self {α : Type} (p : α → Bool) (x : α) (l : List α) (h : l.find? p = some x) : replaceFirst p x l = l := by
  induction l with
  | nil => rfl
  | cons a t ih =>
    simp only [replaceFirst]
    split
    · rename_i hp
      simp [List.find?, hp] at h
      simp [h]
    · rename_i hp
      simp [List.find?, hp] at h
      simp [ih h]

theorem State.team_withGroup (s : State) (u : Nat) (g : Group) : (s.withGroup u g).team? u = (s.team? u).map (·.withGroup g) := by
  simp only [State.withGroup, Eff.apply, State.team?]
  exact find_modFirst _ _ (fun a => by simp [Team.withGroup_uid]) _

theorem State.group_withGroup (s : State) (u : Nat) {g g0 : Group} {k : Nat} (h : s.group? u k = some g0) (hk : g.gidx = k) :
    (s.withGroup u g).group? u k = some g := by
  subst hk
  simp only [State.group?, State.team_withGroup]
  simp only [State.group?] at h
  cases ht : s.team? u with
  | none => simp [ht] at h
  | some t =>
    simp only [ht, Option.bind_some] at h
    simp only [Option.map_some, Option.bind_some, Team.withGroup]
    rw [find_replaceFirst _ _ (by simp), h]
    rfl

theorem Team.withGroup_twice (t : Team) (g g' : Group) (h : g.gidx = g'.gidx) : (t.withGroup g).withGroup g' = t.withGroup g' := by
  simp only [Team.withGroup, h]
  rw [replaceFirst_twice _ _ _ (by simp [h])]

theorem State.withGroup_twice (s : State) (u : Nat) (g g' : Group) (h : g.gidx = g'.gidx) :
    (s.withGroup u g).withGroup u g' = s.withGroup u g' := by
  simp only [State.withGroup, Eff.apply, State.mk.injEq, true_and, and_true]
  rw [modFirst_twice _ _ _ (fun a => by simp [Team.withGroup_uid])]
  congr 1
  funext t
  exact Team.withGroup_twice t g g' h

/-- A group in its own place. -/
theorem State.withGroup_same {s : State} {u k : Nat} {g : Group} (h : s.group? u k = some g) : s.withGroup u g = s := by
  simp only [State.withGroup, Eff.apply]
  rw [modFirst_self]
  intro t ht
  simp only [State.group?, State.team?, ht, Option.bind_some] at h
  have hk : g.gidx = k := by simpa using List.find?_some h
  subst hk
  simp [Team.withGroup, replaceFirst_self _ _ _ h]

theorem State.launch_withGroup (s : State) (u : Nat) (g : Group) (v : Nat) :
    ((s.withGroup u g).team? v).map Team.launch = (s.team? v).map Team.launch := by
  simp only [State.withGroup, Eff.apply, State.team?]
  exact find_modFirst_map (fun t : Team => t.uid == u) (fun t : Team => t.uid == v) (fun t => t.withGroup g) Team.launch (fun _ => rfl)
    (fun _ => rfl) _

theorem State.withGroup_launch (s : State) (u : Nat) (g : Group) (id : Nat) : (s.withGroup u g).launch? id = s.launch? id := rfl

theorem State.group_gidx {s : State} {u k : Nat} {g : Group} (h : s.group? u k = some g) : g.gidx = k := by
  simp only [State.group?] at h
  cases ht : s.team? u with
  | none => simp [ht] at h
  | some t =>
    simp only [ht, Option.bind_some] at h
    simpa using List.find?_some h

/-! ### Facts -/

@[simp] theorem Group.facts_gidx (g : Group) : g.facts.gidx = g.gidx := rfl
@[simp] theorem Team.facts_uid (t : Team) : t.facts.uid = t.uid := rfl
@[simp] theorem Split.facts_facts (x : Split) : x.facts.facts = x.facts := by
  simp only [Split.facts]
  by_cases h : x.wait = .number <;> simp [h]

theorem Team.facts_withGroup (t : Team) (g : Group) : (t.withGroup g).facts = t.facts.withGroup g.facts := by
  simp only [Team.facts, Team.withGroup, Group.facts_gidx, Team.mk.injEq, true_and, and_true]
  exact replaceFirst_map Group.facts _ _ g (fun a => by simp) t.groups

theorem State.facts_withGroup (s : State) (u : Nat) (g : Group) : (s.withGroup u g).facts = s.facts.withGroup u g.facts := by
  simp only [State.facts, State.withGroup, Eff.apply, State.mk.injEq, true_and, and_true]
  exact modFirst_map _ _ _ _ _ (fun a => by simp) (fun a => Team.facts_withGroup a g) _

/-- Equal facts stay equal when groups with equal facts take their places. -/
theorem State.facts_congr {s s' : State} {g g' : Group} (u : Nat) (hs : s.facts = s'.facts) (hg : g.facts = g'.facts) :
    (s.withGroup u g).facts = (s'.withGroup u g').facts := by
  rw [State.facts_withGroup, State.facts_withGroup, hs, hg]

theorem Group.facts_modSplit {g g' : Group} (n : Nat) (f : Split → Split) (h : g.facts = g'.facts) (hs : g.splits = g'.splits) :
    (g.modSplit n f).facts = (g'.modSplit n f).facts := by
  have h2 : ({ g with wait := 0, waitU := 0, withheld := 0, heldAt := 0 } : Group)
      = { g' with wait := 0, waitU := 0, withheld := 0, heldAt := 0 } := by
    simp only [Group.facts, Group.mk.injEq] at h ⊢
    simp [h, hs]
  have e (g : Group) : (g.modSplit n f).facts
      = (({ g with wait := 0, waitU := 0, withheld := 0, heldAt := 0 } : Group).modSplit n f).facts := rfl
  rw [e g, e g', h2]

/-- Only the scheduler's counters may change. -/
theorem Group.facts_numbersAgain (g : Group) : g.numbersAgain.facts = g.facts := by
  simp only [Group.numbersAgain]
  split
  · rfl
  · simp only [Group.facts, List.map_map, Group.mk.injEq, true_and, and_true]
    apply List.map_congr_left
    intro x _
    simp only [Function.comp_apply, beq_iff_eq, Split.facts]
    by_cases h : x.wait = .number <;> simp [h]

@[simp] theorem Group.numbersAgain_gidx (g : Group) : g.numbersAgain.gidx = g.gidx := by
  simp only [Group.numbersAgain]; split <;> rfl

/-! ### Finding a group in a program -/

theorem go_getGroup {s : State} {u k : Nat} {g : Group} (h : s.group? u k = some g) : (getGroup u k).go s = .done g s := by
  simp [getGroup, h]

theorem go_modGroup {s : State} {u k : Nat} {g : Group} (f : Group → Group) (h : s.group? u k = some g) :
    (modGroup u k f).go s = .done () (s.withGroup u (f g)) := by
  simp [modGroup, h, State.withGroup]

theorem go_Env_group {e : Env} {s : State} {g : Group} (h : s.group? e.team e.gidx = some g) : e.group.go s = .done g s :=
  go_getGroup h

theorem go_Env_modGroup {e : Env} {s : State} {g : Group} (f : Group → Group) (h : s.group? e.team e.gidx = some g) :
    (e.modGroup f).go s = .done () (s.withGroup e.team (f g)) := go_modGroup f h

theorem go_getTeam {s : State} {u : Nat} {t : Team} (h : s.team? u = some t) : (getTeam u).go s = .done t s := by
  simp [getTeam, h]

theorem go_getLaunch {s : State} {id : Nat} {l : Launch} (h : s.launch? id = some l) : (getLaunch id).go s = .done l s := by
  simp [getLaunch, h]

/-! ### Starting -/

theorem mapGroups_ok (F : Team → Group → Group) (hF : ∀ t h, (F t h).facts = h.facts ∧ (F t h).splits = h.splits ∧ (F t h).gidx = h.gidx)
    (s : State) {u k : Nat} {g : Group} (h : s.group? u k = some g) :
    let s1 : State := { s with teams := s.teams.map (fun t => { t with groups := t.groups.map (F t) }) }
    s1.facts = s.facts ∧ (∀ v, (s1.team? v).map Team.launch = (s.team? v).map Team.launch)
      ∧ ∃ g1, s1.group? u k = some g1 ∧ g1.facts = g.facts ∧ g1.splits = g.splits ∧ g1.gidx = g.gidx := by
  refine ⟨?_, ?_, ?_⟩
  · simp only [State.facts, List.map_map, State.mk.injEq, true_and, and_true]
    apply List.map_congr_left
    intro t _
    simp only [Function.comp_apply, Team.facts, List.map_map, Team.mk.injEq, true_and, and_true]
    apply List.map_congr_left
    intro x _
    exact (hF t x).1
  · intro v
    simp only [State.team?]
    rw [find_map_cond (fun t : Team => t.uid == v) (fun t => { t with groups := t.groups.map (F t) }) (fun t => rfl), Option.map_map]
    rfl
  · simp only [State.group?, State.team?] at h ⊢
    rw [find_map_cond (fun t : Team => t.uid == u) (fun t => { t with groups := t.groups.map (F t) }) (fun t => rfl)]
    cases ht : s.teams.find? (fun t => t.uid == u) with
    | none => simp [ht] at h
    | some t =>
      simp only [ht, Option.bind_some] at h
      simp only [Option.map_some, Option.bind_some]
      rw [find_map_cond _ _ (fun a => by simp [(hF t a).2.2]), h]
      exact ⟨F t g, rfl, (hF t g).1, (hF t g).2.1, (hF t g).2.2⟩

theorem ageGroups_go (u k : Nat) (uni : Bool) {s : State} {g : Group} (h : s.group? u k = some g) :
    ∃ s1 g1, (ageGroups u k uni).go s = .done () s1 ∧ s1.facts = s.facts ∧ s1.group? u k = some g1 ∧ g1.facts = g.facts
      ∧ g1.splits = g.splits ∧ g1.gidx = g.gidx ∧ s1.nextUid = s.nextUid ∧ s1.mem = s.mem ∧ s1.launch? = s.launch?
      ∧ ∀ v, (s1.team? v).map Team.launch = (s.team? v).map Team.launch := by
  have hk := State.group_gidx h
  unfold ageGroups
  simp only [Prog.go_read, h]
  split
  · obtain ⟨hf, hv, g1, h1, h2, h3, h4⟩ := mapGroups_ok (fun t x =>
      if t.uid == u && x.gidx == k then (if uni then { x with waitU := 0 } else { x with wait := 0 })
      else if g.agesBy x uni then (if uni then { x with waitU := x.waitU + 1 } else { x with wait := x.wait + 1 }) else x)
      (fun t x => by
        split
        · split <;> exact ⟨rfl, rfl, rfl⟩
        · split
          · split <;> exact ⟨rfl, rfl, rfl⟩
          · exact ⟨rfl, rfl, rfl⟩) s h
    exact ⟨_, g1, rfl, hf, h1, h2, h3, h4, rfl, rfl, rfl, hv⟩
  · generalize (if uni = true then g.waitU == 0 else g.wait == 0) = b
    cases b
    rotate_left
    · exact ⟨s, g, rfl, rfl, h, rfl, rfl, rfl, rfl, rfl, rfl, fun _ => rfl⟩
    · simp only [Bool.false_eq_true, if_false, Prog.go_eff, Prog.go_pure]
      refine ⟨_, (if uni = true then { g with waitU := 0 } else { g with wait := 0 }), rfl, ?_, ?_, ?_, ?_, ?_, rfl, rfl, rfl, fun v => ?_⟩
      · have : (s.withGroup u g).facts = s.facts := by rw [State.withGroup_same h]
        rw [← this]
        apply State.facts_congr u rfl
        split <;> rfl
      · exact State.group_withGroup s u h (by split <;> exact hk)
      · split <;> rfl
      · split <;> rfl
      · split <;> rfl
      · exact State.launch_withGroup s u _ v

theorem unhold_go (u k : Nat) (b : Bool) {s : State} {g : Group} (h : s.group? u k = some g) :
    ∃ s1 g1, (Prog.when b (modGroup u k (fun g => { g with withheld := 0 }))).go s = .done () s1 ∧ s1.facts = s.facts
      ∧ s1.group? u k = some g1 ∧ g1.facts = g.facts ∧ g1.splits = g.splits ∧ g1.gidx = g.gidx ∧ s1.nextUid = s.nextUid
      ∧ s1.mem = s.mem ∧ s1.launch? = s.launch? ∧ ∀ v, (s1.team? v).map Team.launch = (s.team? v).map Team.launch := by
  cases b
  · exact ⟨s, g, rfl, rfl, h, rfl, rfl, rfl, rfl, rfl, rfl, fun _ => rfl⟩
  · refine ⟨_, { g with withheld := 0 }, go_modGroup _ h, ?_, State.group_withGroup s u h (show g.gidx = k from State.group_gidx h), rfl, rfl, rfl, rfl, rfl, rfl,
      State.launch_withGroup s u _⟩
    have : (s.withGroup u g).facts = s.facts := by rw [State.withGroup_same h]
    rw [← this]
    exact State.facts_congr u rfl rfl

theorem unholdAge_go (u k : Nat) (b c uni : Bool) {s : State} {g : Group} (h : s.group? u k = some g) :
    ∃ s1 g1, ((Prog.when b (modGroup u k (fun g => { g with withheld := 0 }))).bind (fun _ => Prog.when (!c) (ageGroups u k uni))).go s
        = .done () s1 ∧ s1.facts = s.facts ∧ s1.group? u k = some g1 ∧ g1.facts = g.facts ∧ g1.splits = g.splits ∧ g1.gidx = g.gidx
      ∧ s1.nextUid = s.nextUid ∧ s1.mem = s.mem ∧ s1.launch? = s.launch? ∧ ∀ v, (s1.team? v).map Team.launch = (s.team? v).map Team.launch := by
  obtain ⟨s2, g2, hr, hf, h2, k1, k2, k3, k4, k5, k6, k7⟩ := unhold_go u k b h
  rw [Prog.go_bind_done hr]
  cases c
  · obtain ⟨s3, g3, r1, r2, r3, r4, r5, r6, r7, r8, r9, r10⟩ := ageGroups_go u k uni h2
    exact ⟨s3, g3, r1, r2.trans hf, r3, r4.trans k1, r5.trans k2, r6.trans k3, r7.trans k4, r8.trans k5, r9.trans k6,
      fun v => (r10 v).trans (k7 v)⟩
  · exact ⟨s2, g2, rfl, hf, h2, k1, k2, k3, k4, k5, k6, k7⟩

theorem started_go (e : Env) {s : State} {g : Group} (h : s.group? e.team e.gidx = some g) :
    ∃ s1 g1, (started e).go s = .done () s1 ∧ s1.facts = s.facts ∧ s1.group? e.team e.gidx = some g1 ∧ g1.facts = g.facts
      ∧ g1.splits = g.splits ∧ g1.gidx = g.gidx ∧ s1.nextUid = s.nextUid ∧ s1.mem = s.mem ∧ s1.launch? = s.launch?
      ∧ ∀ v, (s1.team? v).map Team.launch = (s.team? v).map Team.launch := by
  unfold started
  simp only [Prog.go_read, h]
  rw [Prog.go_bind_done (Prog.go_modDev _ _)]
  exact unholdAge_go e.team e.gidx _ _ e.g (s := { s with dev := _ }) h

/-! ### Ending -/

theorem settle_go (u k : Nat) {s : State} {g : Group} (h : s.group? u k = some g) :
    ∃ s1, (settle u k).go s = .done () s1 ∧ s1.facts = s.facts ∧ s1.cur = s.cur := by
  have hk := State.group_gidx h
  have hf : (s.withGroup u g.numbersAgain).facts = s.facts := by
    have h2 := State.facts_congr u (s := s) rfl (Group.facts_numbersAgain g)
    rw [h2, State.withGroup_same h]
  unfold settle
  simp only [Prog.go_read, h, Prog.go_eff]
  split
  · exact ⟨_, rfl, hf, rfl⟩
  · split
    · exact ⟨_, rfl, hf, rfl⟩
    · exact ⟨_, rfl, hf, rfl⟩

/-- A form's last change of its group, and then its end: the datapath, the group as `F` leaves it, the settling. -/
theorem closing_go (e : Env) (F : Group → Group)
    (hF : ∀ g g' : Group, g'.facts = g.facts → g'.splits = g.splits → (F g').facts = (F g).facts)
    (hi : ∀ g, (F g).gidx = g.gidx) (due : Prog Unit) (hd : ∀ s : State, ∃ s1, due.go s = .done () s1 ∧ s1.facts = s.facts
      ∧ s1.cur = s.cur ∧ s1.group? = s.group?) {s : State} {g : Group} (h : s.group? e.team e.gidx = some g) :
    Reaches (((started e).bind (fun _ => (e.modGroup F).bind (fun _ => (Prog.act (.cur none)).bind (fun _ =>
      due.bind (fun _ => settle e.team e.gidx))))).run s) (s.withGroup e.team (F g)) := by
  obtain ⟨s1, g1, h1, h2, h3, h4, h5, h6, -, -, -, -⟩ := started_go e h
  rw [Prog.run_bind_done h1, Prog.run_bind_done (go_Env_modGroup F h3), Prog.run_bind_done (Prog.go_act _ _)]
  have hg : (s1.withGroup e.team (F g1)).group? e.team e.gidx = some (F g1) :=
    State.group_withGroup s1 e.team h3 (by rw [hi, State.group_gidx h3])
  obtain ⟨s3, d1, d2, d3, d4⟩ := hd (Eff.apply (.cur none) (s1.withGroup e.team (F g1)))
  rw [Prog.run_bind_done d1, Prog.run_eq]
  obtain ⟨s4, e1, e2, e3⟩ := settle_go e.team e.gidx (s := s3) (g := F g1) (by rw [d4]; exact hg)
  rw [e1]
  refine ⟨s4, rfl, by rw [e3, d3]; rfl, ?_⟩
  rw [e2, d2]
  have : (Eff.apply (.cur none) (s1.withGroup e.team (F g1))).facts = (s1.withGroup e.team (F g1)).facts := rfl
  rw [this]
  exact State.facts_congr e.team h2 (hF g g1 h4 h5)

theorem go_nothing (s : State) : ∃ s1, (Prog.pure () : Prog Unit).go s = .done () s1 ∧ s1.facts = s.facts ∧ s1.cur = s.cur
    ∧ s1.group? = s.group? := ⟨s, rfl, rfl, rfl, rfl⟩

theorem setNth_out {α : Type} (l : List α) (n : Nat) (x : α) (h : l.length ≤ n) : setNth l n x = l := by
  induction l generalizing n with
  | nil => rfl
  | cons a t ih =>
    cases n with
    | zero => simp at h
    | succ n => simp only [setNth]; rw [ih n (by simpa using h)]

theorem Group.modSplit_twice (g : Group) (n : Nat) (f k : Split → Split) :
    (g.modSplit n f).modSplit n k = g.modSplit n (fun x => k (f x)) := by
  by_cases h : n < g.splits.length
  · simp only [Group.modSplit, Group.setSplit, Group.split, setNth_setNth, getD_setNth _ _ _ _ h]
  · simp only [Group.modSplit, Group.setSplit, Group.split, setNth_out _ _ _ (Nat.le_of_not_lt h)]

/-- R249: how an instruction ends. -/
theorem finish_run (e : Env) (signed : Bool) (w : Wait) (f : Split → Split) {s : State} {g : Group}
    (h : s.group? e.team e.gidx = some g) :
    Reaches ((finish e signed w f).run s) (s.withGroup e.team ((g.modSplit e.split f).ended e signed w)) := by
  obtain ⟨s1, g1, h1, h2, h3, h4, h5, h6, -, -, -, -⟩ := started_go e h
  simp only [finish, Prog.bind_eq]
  rw [Prog.run_bind_done h1, Prog.run_bind_done (go_Env_group h3), Env.modSplit, Prog.run_bind_done (go_Env_modGroup _ h3),
    Prog.run_bind_done (Prog.go_act _ _)]
  have hg : (s1.withGroup e.team (g1.modSplit e.split (fun x => (f x).after e signed w))).group? e.team e.gidx
      = some (g1.modSplit e.split (fun x => (f x).after e signed w)) := State.group_withGroup s1 e.team h3 (show g1.gidx = e.gidx from State.group_gidx h3)
  have hd : ∃ s3, (Prog.when (g1.split e.split).resume.isSome (Prog.due (.complete ⟨e.team, e.gidx⟩ 0))).go
      (Eff.apply (.cur none) (s1.withGroup e.team (g1.modSplit e.split (fun x => (f x).after e signed w)))) = .done () s3
      ∧ s3.facts = (s1.withGroup e.team (g1.modSplit e.split (fun x => (f x).after e signed w))).facts ∧ s3.cur = none
      ∧ s3.group? e.team e.gidx = some (g1.modSplit e.split (fun x => (f x).after e signed w)) := by
    cases (g1.split e.split).resume.isSome
    · exact ⟨_, rfl, rfl, rfl, hg⟩
    · exact ⟨_, rfl, rfl, rfl, hg⟩
  obtain ⟨s3, d1, d2, d3, d4⟩ := hd
  rw [Prog.run_bind_done d1, Prog.run_eq]
  obtain ⟨s4, e1, e2, e3⟩ := settle_go e.team e.gidx d4
  rw [e1]
  refine ⟨s4, rfl, by rw [e3, d3], ?_⟩
  rw [e2, d2]
  have hn : (g.modSplit e.split f).ended e signed w = g.modSplit e.split (fun x => (f x).after e signed w) :=
    Group.modSplit_twice _ _ _ _
  rw [hn]
  exact State.facts_congr e.team h2 (Group.facts_modSplit _ _ h4 h5)

theorem retire_run (e : Env) {s : State} {g : Group} (h : s.group? e.team e.gidx = some g) :
    Reaches ((retire e).run s) (s.withGroup e.team (g.ended e true .none)) := by
  have k := finish_run e true .none id h
  have hn : (g.modSplit e.split id).ended e true .none = g.ended e true .none := Group.modSplit_twice _ _ _ _
  rwa [hn] at k

theorem Reaches.congr {r : Host.Outcome State Fault Refusal} {u v : State} (h : Reaches r u) (e : u.facts = v.facts) : Reaches r v := by
  obtain ⟨t, h1, h2, h3⟩ := h
  exact ⟨t, h1, h2, h3.trans e⟩

/-! ### Running an instruction's body -/

theorem Group.begin_gidx' (g : Group) (n m : Nat) (i : Instr) : (g.begin n m i).gidx = g.gidx := rfl

/-- R84: nothing falls into the slice area. -/
theorem fallCheck_none {e : Env} (h : (!e.falls || Instr.choosesNext e.instr) = true) : fallCheck e = .pure () := by
  have : (e.falls && !Instr.choosesNext e.instr) = false := by
    cases hf : e.falls <;> simp_all
  simp [fallCheck, this]

/-- The frame of every instruction (R87, R145, R282). -/
theorem instruction_run {i : Instr} {h : Head} {body : Env → Prog Unit} {s : State} {c : Issuer} {t : Team} {g : Group} {l : Launch}
    (hs : Issues s c t g l) (hr : Instr.runs i (envOf s c g l i h) = true) :
    (instruction i h body).run s = (body (envOf s c g l i h)).run (s.begun c g i) := by
  obtain ⟨h1, h2, h3, h4, h5⟩ := hs
  simp only [Instr.runs, Bool.and_eq_true, Bool.or_eq_true, Bool.not_eq_true'] at hr
  have hp : (i.supervisor && !(envOf s c g l i h).sup) = false := by
    rcases hr.1 with h | h <;> simp [h]
  have hq : fallCheck (envOf s c g l i h) = .pure () := fallCheck_none (by
    rcases hr.2 with hn | hn
    · simp [hn]
    · simp only [show (envOf s c g l i h).instr = i from rfl, hn, Bool.or_true])
  simp only [instruction, Prog.run, h1, h2, h3, h4, h5, Bool.not_true, Bool.false_eq_true, if_false, hp, hq]
  split <;> rfl

/-- The group in which a body runs. -/
theorem begun_group {i : Instr} {s : State} {c : Issuer} {t : Team} {g : Group} {l : Launch} (hs : Issues s c t g l) :
    (s.begun c g i).group? c.team c.gidx = some (s.starting c g i) :=
  State.group_withGroup s c.team hs.2.2.1 (show g.gidx = c.gidx from State.group_gidx hs.2.2.1)

theorem begun_team {i : Instr} {s : State} {c : Issuer} {t : Team} {g : Group} {l : Launch} (hs : Issues s c t g l) :
    (s.begun c g i).team? c.team = some (t.withGroup (s.starting c g i)) := by
  simp [State.begun, State.team_withGroup, hs.2.1]

end Sys2Proof.Machine
end

