-- ==== Sys2Proof/Laws/Operands.lean ====
section
/-! SUPPORT. Operands that nothing keeps from being read: what reading them gives and what it leaves. -/
namespace Sys2Proof.Machine

/-- Only the counter of undefined values has moved. -/
def State.drawn (s : State) (n : Nat) : State := { s with undefs := n }

@[simp] theorem State.drawn_facts (s : State) (n : Nat) : (s.drawn n).facts = s.facts := rfl
@[simp] theorem State.drawn_group (s : State) (n : Nat) : (s.drawn n).group? = s.group? := rfl
@[simp] theorem State.drawn_team (s : State) (n : Nat) : (s.drawn n).team? = s.team? := rfl
@[simp] theorem State.drawn_launch (s : State) (n : Nat) : (s.drawn n).launch? = s.launch? := rfl
@[simp] theorem State.drawn_drawn (s : State) (n m : Nat) : (s.drawn n).drawn m = s.drawn m := rfl
theorem State.drawn_self (s : State) : s.drawn s.undefs = s := rfl

/-- A program that draws undefined values at most, and whose answer satisfies P. -/
def Draws {α : Type} (p : Prog α) (P : α → Prop) : Prop := ∀ s, ∃ a n, p.go s = .done a (s.drawn n) ∧ P a

theorem Draws.pure {α : Type} {a : α} {P : α → Prop} (h : P a) : Draws (Prog.pure a) P := fun s => ⟨a, s.undefs, rfl, h⟩

theorem Draws.bind {α β : Type} {p : Prog α} {f : α → Prog β} {P : α → Prop} {Q : β → Prop} (hp : Draws p P)
    (hf : ∀ a, P a → Draws (f a) Q) : Draws (p.bind f) Q := by
  intro s
  obtain ⟨a, n, h1, h2⟩ := hp s
  obtain ⟨b, m, h3, h4⟩ := hf a h2 (s.drawn n)
  exact ⟨b, m, by rw [Prog.go_bind_done h1, h3]; rfl, h4⟩

theorem Draws.undef : Draws Prog.undef (fun _ => True) := fun s => ⟨_, s.undefs + 1, rfl, trivial⟩

theorem Draws.mono {α : Type} {p : Prog α} {P Q : α → Prop} (hp : Draws p P) (h : ∀ a, P a → Q a) : Draws p Q := fun s => by
  obtain ⟨a, n, h1, h2⟩ := hp s
  exact ⟨a, n, h1, h a h2⟩

/-- Two lists agree element by element. -/
inductive All2 {α β : Type} (P : α → β → Prop) : List α → List β → Prop where
  | nil : All2 P [] []
  | cons {a b l m} : P a b → All2 P l m → All2 P (a :: l) (b :: m)

theorem Draws.collect {α β : Type} {f : α → Prog β} {P : α → β → Prop} (hf : ∀ a, Draws (f a) (P a)) (l : List α) :
    Draws (Prog.collect l f) (fun bs => All2 P l bs) := by
  induction l with
  | nil => exact Draws.pure All2.nil
  | cons a t ih => exact Draws.bind (hf a) (fun b hb => Draws.bind ih (fun bs hbs => Draws.pure (All2.cons hb hbs)))

theorem draws_readV (g : Group) (r lane : Nat) : Draws (readV g r lane) (fun x => ∀ v, g.vreg r lane = some v → x = v) := by
  unfold readV
  cases h : g.vreg r lane with
  | some x => exact Draws.pure (fun v hv => by cases hv; rfl)
  | none => exact Draws.bind Draws.undef (fun _ _ => Draws.pure (fun v hv => by cases hv))

theorem draws_readReg (g : Group) (r lane : Nat) (a : As) : Draws (readReg g r lane a) (fun x => ∀ v, regVal g lane r a = some v → x = v) := by
  unfold readReg regVal
  cases a with
  | addr =>
    refine Draws.bind (draws_readV g r lane) (fun x hx => Draws.pure (fun v hv => ?_))
    simp only [As.wide, Bool.false_eq_true, if_false, Option.map_eq_some_iff] at hv
    obtain ⟨y, hy, rfl⟩ := hv
    rw [hx y hy]
  | ty t =>
    rcases Bool.eq_false_or_eq_true t.is64 with ht | ht
    rotate_left
    · simp only [As.wide, ht, Bool.false_eq_true, if_false]
      refine Draws.bind (draws_readV g r lane) (fun x hx => Draws.pure (fun v hv => ?_))
      simp only [Option.map_eq_some_iff] at hv
      obtain ⟨y, hy, rfl⟩ := hv
      rw [hx y hy]
    · simp only [As.wide, ht, if_true]
      refine Draws.bind (draws_readV g r lane) (fun x hx => Draws.bind (draws_readV g (r + 1) lane) (fun y hy => Draws.pure (fun v hv => ?_)))
      split at hv
      · rename_i lo hi h1 h2
        cases hv
        rw [hx _ h1, hy _ h2]
      · cases hv

theorem draws_readOpnd (g : Group) (lits : Lits) (lane : Nat) (o : Opnd) :
    Draws (readOpnd g lits lane o) (fun x => ∀ v, opndVal g lits lane o = some v → x = v) := by
  obtain ⟨pos, src, as_⟩ := o
  cases src with
  | v n => simp only [readOpnd, opndVal]; exact draws_readReg g n.toNat lane as_
  | vx x b => simp only [readOpnd, opndVal]; exact draws_readReg g _ lane as_
  | b n =>
    simp only [readOpnd, opndVal]
    cases h : Tab.get none g.latch (laneKey n.toNat lane) with
    | some x => exact Draws.pure (fun v hv => by simpa using hv)
    | none => exact Draws.bind Draws.undef (fun _ _ => Draws.pure (fun v hv => by simp at hv))
  | s n => exact Draws.pure (fun v hv => Option.some.inj hv)
  | x n => exact Draws.pure (fun v hv => Option.some.inj hv)
  | h n => exact Draws.pure (fun v hv => Option.some.inj hv)
  | lit0 => exact Draws.pure (fun v hv => Option.some.inj hv)
  | lit1 => exact Draws.pure (fun v hv => Option.some.inj hv)
  | lit64 => exact Draws.pure (fun v hv => Option.some.inj hv)
  | imm i => exact Draws.pure (fun v hv => Option.some.inj hv)

/-- The operands of one lane. -/
def RowOk (g : Group) (lits : Lits) (lane : Nat) (srcs : List Opnd) (xs : List W64) : Prop :=
  xs.length = srcs.length ∧ ∀ (k : Nat) (o : Opnd) (v : W64), srcs[k]? = some o → opndVal g lits lane o = some v → xs[k]? = some v

theorem rowOk_of {g : Group} {lits : Lits} {lane : Nat} {srcs : List Opnd} {xs : List W64}
    (h : All2 (fun o x => ∀ v, opndVal g lits lane o = some v → x = v) srcs xs) : RowOk g lits lane srcs xs := by
  induction h with
  | nil => exact ⟨rfl, fun k o v h1 => by simp at h1⟩
  | cons hx _ ih =>
    refine ⟨by simp [ih.1], fun k o v h1 h2 => ?_⟩
    cases k with
    | zero =>
      simp only [List.getElem?_cons_zero, Option.some.injEq] at h1 ⊢
      subst h1
      exact hx v h2
    | succ k => exact ih.2 k o v (by simpa using h1) h2

theorem readAll_go {e : Env} {lits : Lits} {sh : Shape} {s : State} {g : Group} (h : s.group? e.team e.gidx = some g) :
    ∃ rows n, (readAll e lits sh).go s = .done rows (s.drawn n) ∧ RowsOf g lits e.lanes sh rows := by
  have hd : Draws (Prog.collect e.lanes (fun t => (Prog.collect sh.srcs (readOpnd g lits t)).bind (fun xs => .pure (t, xs))))
      (fun rows => All2 (fun t p => p.1 = t ∧ RowOk g lits t sh.srcs p.2) e.lanes rows) :=
    Draws.collect (fun t => Draws.bind (Draws.collect (draws_readOpnd g lits t) _) (fun xs hx => Draws.pure ⟨rfl, rowOk_of hx⟩)) _
  obtain ⟨rows, n, h1, h2⟩ := hd s
  refine ⟨rows, n, by rw [readAll, Prog.bind_eq, Prog.go_bind_done (go_Env_group h)]; exact h1, ?_⟩
  generalize e.lanes = ls at h2
  clear h1
  induction h2 with
  | nil => exact ⟨rfl, fun p hp => by simp at hp⟩
  | cons hx _ ih =>
    refine ⟨by simp [hx.1, ih.1], fun p hp => ?_⟩
    rcases List.mem_cons.1 hp with hp | hp
    · subst hp
      rw [← hx.1] at hx
      exact hx.2
    · exact ih.2 p hp

theorem each_nothing {α : Type} {l : List α} {f : α → Prog Unit} {s : State} (h : ∀ a ∈ l, (f a).go s = .done () s) :
    (Prog.each l f).go s = .done () s := by
  induction l with
  | nil => rfl
  | cons a t ih =>
    simp only [Prog.each]
    rw [Prog.go_bind_done (h a (by simp))]
    exact ih (fun b hb => h b (by simp [hb]))

section
variable {e : Env} {sh : Shape} {s : State} {t : Team} {g : Group}

theorem awaitOperands_go (hr : sh.ready e t g = true) (ht : s.team? e.team = some t) (hg : s.group? e.team e.gidx = some g) :
    (awaitOperands e sh).go s = .done () s := by
  simp only [Shape.ready, Bool.and_eq_true, Option.isNone_iff_eq_none, Bool.not_eq_true', Bool.or_eq_true, List.isEmpty_iff] at hr
  obtain ⟨⟨⟨h1, h2⟩, h3⟩, -⟩ := hr
  simp only [awaitOperands, Prog.bind_eq]
  rw [Prog.go_bind_done (go_Env_group hg)]
  simp only [h1, h2, Bool.false_eq_true, if_false]
  rcases h3 with h3 | h3
  · apply each_nothing
    intro n _
    simp [observe, ht, h3]
  · rw [h3]; rfl

theorem checkRefs_go (hr : sh.ready e t g = true) (hg : s.group? e.team e.gidx = some g) : (checkRefs e sh).go s = .done () s := by
  simp only [checkRefs]
  cases he : e.g
  · simp only [Shape.ready, he, Bool.false_eq_true, if_false, Bool.and_eq_true, List.all_eq_true, Bool.not_eq_true'] at hr
    have h := hr.2.1.1.1
    simp only [Bool.false_eq_true, if_false, Prog.bind_eq]
    rw [Prog.go_bind_done (go_Env_group hg)]
    have : sh.refs.find? (fun r => e.lanes.any (fun t => r.fails e.regs g t)) = none := by
      rw [List.find?_eq_none]
      intro r hm
      simp [h r hm]
    rw [this]
    rfl
  · rfl

theorem materialize_go (hr : sh.ready e t g = true) (hg : s.group? e.team e.gidx = some g) : (materialize e sh).go s = .done () s := by
  simp only [materialize]
  cases he : e.g
  · simp only [Shape.ready, he, Bool.false_eq_true, if_false, Bool.and_eq_true, List.all_eq_true, Bool.not_eq_true'] at hr
    have h1 := hr.2.1.1.2
    have h2 := hr.2.1.2
    simp only [Bool.false_eq_true, if_false, Prog.bind_eq]
    rw [Prog.go_bind_done (go_Env_group hg)]
    rw [Prog.go_bind_done (a := ()) (t := s)]
    · rw [Prog.go_bind_done (go_Env_group hg)]
      apply each_nothing
      intro n hn
      simp only [List.mem_filterMap] at hn
      obtain ⟨o, ho, hn⟩ := hn
      have := h2 o ho
      split at hn
      · rename_i k hk
        cases hn
        simp only [hk, Bool.not_eq_true', List.any_eq_false] at this
        have : e.lanes.filter (fun t => g.badV.contains (latchBase + laneKey k.toNat t)) = [] := by
          rw [List.filter_eq_nil_iff]; exact this
        simp only [this, List.isEmpty_nil, if_true]
        rfl
      · cases hn
    · apply each_nothing
      intro r hm
      have := h1 r hm
      rw [Prog.go_bind_done (go_Env_group hg)]
      simp only [this.1, Bool.false_eq_true, if_false]
      have : e.lanes.filter (fun t => g.badV.contains (laneKey r t)) = [] := by
        rw [List.filter_eq_nil_iff]
        simpa using this.2
      simp only [this, List.isEmpty_nil, if_true]
      rfl
  · rfl

theorem checkWrites_go (hr : sh.ready e t g = true) (hg : s.group? e.team e.gidx = some g) : (checkWrites e sh).go s = .done () s := by
  simp only [checkWrites, Prog.bind_eq]
  rw [Prog.go_bind_done (go_Env_group hg)]
  cases he : e.g
  · simp only [Shape.ready, he, Bool.false_eq_true, if_false, Bool.and_eq_true, List.all_eq_true, Bool.not_eq_true'] at hr
    have h1 := hr.2.2
    simp only [Bool.false_eq_true, if_false]
    apply each_nothing
    intro r hm
    have := h1 r hm
    simp only [List.isEmpty_iff] at this
    simp only [writeCheck, pinBreak, Prog.bind_eq]
    rw [Prog.go_bind_done (a := ()) (t := s)]
    · rw [Prog.go_bind_done (go_Env_group hg)]
      simp [this.2]
    · rw [Prog.go_bind_done (go_Env_group hg), this.1]
      rfl
  · simp only [Shape.ready, he, if_true, Bool.and_eq_true] at hr
    have h1 := hr.2
    simp only [if_true]
    cases hd : sh.dst with
    | reg r w =>
      simp only [hd, List.isEmpty_iff] at h1
      simp only [pinBreak, Prog.bind_eq]
      rw [Prog.go_bind_done (go_Env_group hg), h1]
      rfl
    | nothing => rfl
    | idx x r w => rfl

/-- Ready operands: what they are, and that nothing else happens. -/
theorem operands_go (lits : Lits) (hr : sh.ready e t g = true) (hf : (!e.falls || Instr.choosesNext e.instr) = true) (ht : s.team? e.team = some t) (hg : s.group? e.team e.gidx = some g) :
    ∃ rows n, (operands e lits sh).go s = .done rows (s.drawn n) ∧ RowsOf g lits e.lanes sh rows := by
  simp only [operands, Prog.bind_eq]
  rw [Prog.go_bind_done (awaitOperands_go hr ht hg), Prog.go_bind_done (checkRefs_go hr hg),
    Prog.go_bind_done (materialize_go hr hg), Prog.go_bind_done (checkWrites_go hr hg)]
  obtain ⟨rows, n, h1, h2⟩ := readAll_go (lits := lits) (sh := sh) hg
  rw [Prog.go_bind_done h1, fallCheck_none hf]
  exact ⟨rows, n, rfl, h2⟩

end

end Sys2Proof.Machine
end

