-- ==== Sys2Proof/Laws/Compute.lean ====
section
/-! SUPPORT. Programs that change bookkeeping only, translations among them; the shared execution of classes 1 to 5. -/
namespace Sys2Proof.Machine

/-- Nothing but the translation, instruction and constant caches and the model's own counters has changed. -/
structure Quiet (s s1 : State) : Prop where
  mem : s1.mem = s.mem
  mgmt : s1.mgmt = s.mgmt
  teams : s1.teams = s.teams
  saved : s1.saved = s.saved
  tick : s1.tick = s.tick
  uid : s1.nextUid = s.nextUid
  cur : s1.cur = s.cur
  agenda : s1.agenda = s.agenda
  caches : ∃ l k, s1.dev = { s.dev with tlb := l, code := k }

theorem Quiet.refl (s : State) : Quiet s s := ⟨rfl, rfl, rfl, rfl, rfl, rfl, rfl, rfl, s.dev.tlb, s.dev.code, rfl⟩

theorem Quiet.trans {s s1 s2 : State} (h : Quiet s s1) (k : Quiet s1 s2) : Quiet s s2 := by
  obtain ⟨l, l', hl⟩ := h.caches
  obtain ⟨m, m', hm⟩ := k.caches
  exact ⟨k.mem.trans h.mem, k.mgmt.trans h.mgmt, k.teams.trans h.teams, k.saved.trans h.saved, k.tick.trans h.tick,
    k.uid.trans h.uid, k.cur.trans h.cur, k.agenda.trans h.agenda, m, m', by rw [hm, hl]⟩

theorem Quiet.team {s s1 : State} (h : Quiet s s1) : s1.team? = s.team? := by funext u; simp [State.team?, h.teams]
theorem Quiet.group {s s1 : State} (h : Quiet s s1) : s1.group? = s.group? := by funext u k; simp [State.group?, h.team]
theorem Quiet.launch {s s1 : State} (h : Quiet s s1) : s1.launch? = s.launch? := by
  obtain ⟨l, l', hl⟩ := h.caches
  funext id; simp [State.launch?, hl]
theorem Quiet.part {s s1 : State} (h : Quiet s s1) (p : Nat) : s1.dev.part p = s.dev.part p := by
  obtain ⟨l, l', hl⟩ := h.caches
  simp [Dev.part, hl]
theorem Quiet.facts {s s1 : State} (h : Quiet s s1) : s1.facts = s.facts := by
  obtain ⟨l, l', hl⟩ := h.caches
  simp [State.facts, h.mem, h.mgmt, h.teams, h.saved, h.tick, h.uid, hl, Dev.facts]
theorem Quiet.drawn (s : State) (n : Nat) : Quiet s (s.drawn n) := ⟨rfl, rfl, rfl, rfl, rfl, rfl, rfl, rfl, s.dev.tlb, s.dev.code, rfl⟩

/-- A program that answers and changes bookkeeping only. -/
def Quiets {α : Type} (p : Prog α) : Prop := ∀ s, ∃ a s1, p.go s = .done a s1 ∧ Quiet s s1

theorem Quiets.pure {α : Type} (a : α) : Quiets (Prog.pure a) := fun s => ⟨a, s, rfl, Quiet.refl s⟩

theorem Quiets.bind {α β : Type} {p : Prog α} {f : α → Prog β} (hp : Quiets p) (hf : ∀ a, Quiets (f a)) : Quiets (p.bind f) := by
  intro s
  obtain ⟨a, s1, h1, h2⟩ := hp s
  obtain ⟨b, s2, h3, h4⟩ := hf a s1
  exact ⟨b, s2, by rw [Prog.go_bind_done h1, h3], h2.trans h4⟩

theorem Quiets.collect {α β : Type} {f : α → Prog β} (hf : ∀ a, Quiets (f a)) (l : List α) : Quiets (Prog.collect l f) := by
  induction l with
  | nil => exact Quiets.pure []
  | cons a t ih => exact Quiets.bind (hf a) (fun b => Quiets.bind ih (fun bs => Quiets.pure _))

theorem Quiets.each {α : Type} {f : α → Prog Unit} (hf : ∀ a, Quiets (f a)) (l : List α) : Quiets (Prog.each l f) := by
  induction l with
  | nil => exact Quiets.pure ()
  | cons a t ih => exact Quiets.bind (hf a) (fun _ => ih)

theorem Quiets.get : Quiets Prog.get := fun s => ⟨s, s, rfl, Quiet.refl s⟩
theorem Quiets.undef : Quiets Prog.undef := fun s => ⟨_, s.drawn (s.undefs + 1), rfl, Quiet.drawn s _⟩
theorem Quiets.look {α : Type} (f : State → α) : Quiets (Prog.look f) := fun s => ⟨f s, s, rfl, Quiet.refl s⟩

theorem Quiets.choose (n : Nat) : Quiets (Prog.choose n) := by
  intro s
  unfold Prog.choose
  split
  · exact ⟨0, s, rfl, Quiet.refl s⟩
  · exact ⟨_, { s with choices := s.choices + 1 }, rfl, rfl, rfl, rfl, rfl, rfl, rfl, rfl, rfl, s.dev.tlb, s.dev.code, rfl⟩

theorem fillTlb_tlb (d : Dev) (agent : Nat) (key : SlotKey) (va : W64) (w : Walk) : ∃ l, d.fillTlb agent key va w = { d with tlb := l } := by
  exact ⟨_, rfl⟩

theorem quiets_chooseWalk (agent die : Nat) (key : SlotKey) (sup : Bool) (need : Need) (va : W64) :
    Quiets (chooseWalk agent die key sup need va) := by
  intro s
  simp only [chooseWalk, Prog.bind_eq]
  rw [Prog.go_bind_done (Prog.go_get s)]
  obtain ⟨k, s1, h1, h2⟩ := Quiets.choose ((oddWalks s agent die key sup need va).length + 1) s
  rw [Prog.go_bind_done h1]
  generalize List.getD _ k _ = w
  cases ((s.dev.fillTlb agent key va w).tlb.length != s.dev.tlb.length)
  · exact ⟨w, s1, rfl, h2⟩
  · obtain ⟨l, hl⟩ := fillTlb_tlb s.dev agent key va w
    refine ⟨w, Eff.apply (.dev (s.dev.fillTlb agent key va w)) s1, rfl, h2.mem, h2.mgmt, h2.teams, h2.saved, h2.tick, h2.uid, h2.cur,
      h2.agenda, l, s.dev.code, ?_⟩
    rw [hl]; rfl

theorem quiets_translate (agent die : Nat) (key : SlotKey) (sup : Bool) (need : Need) (va : W64) :
    Quiets (translate agent die key sup need va) := by
  unfold translate
  split
  · exact Quiets.pure _
  · exact Quiets.bind (quiets_chooseWalk _ _ _ _ _ _) (fun w => Quiets.bind Quiets.get (fun s => Quiets.pure _))

theorem quiets_translateAll (agent die : Nat) (key : SlotKey) (sup : Bool) (need : Need) (eas : List (Nat × W64)) :
    Quiets (translateAll agent die key sup need eas) :=
  Quiets.collect (fun _ => Quiets.bind (quiets_translate _ _ _ _ _ _) (fun _ => Quiets.pure _)) eas

/-! ### Groups keep their number -/

theorem foldl_keeps {α β γ : Type} (f : β → α → β) (k : β → γ) (hf : ∀ b a, k (f b a) = k b) (l : List α) (b : β) :
    k (l.foldl f b) = k b := by
  induction l generalizing b with
  | nil => rfl
  | cons a t ih => simp only [List.foldl_cons]; rw [ih, hf]

@[simp] theorem Group.repair_gidx (g : Group) (r : Nat) : (g.repair r).gidx = g.gidx := by
  simp only [Group.repair]; split <;> rfl
@[simp] theorem Group.setV_gidx (g : Group) (r k : Nat) (x : Option W32) : (g.setV r k x).gidx = g.gidx := rfl
@[simp] theorem Group.putV_gidx (g : Group) (r k : Nat) (w : Bool) (x : W64) : (g.putV r k w x).gidx = g.gidx := by
  simp only [Group.putV]; split <;> simp
@[simp] theorem Group.putS_gidx (g : Group) (n : Nat) (x : W64) : (g.putS n x).gidx = g.gidx := by
  simp only [Group.putS]; split <;> rfl
@[simp] theorem Group.putResult_gidx (g : Group) (b : Bool) (ty : Ty) (r : Res) (k : Nat) (x : W64) : (g.putResult b ty r k x).gidx = g.gidx := by
  simp only [Group.putResult]; split
  · simp
  · split <;> simp
@[simp] theorem Group.putResults_gidx (g : Group) (b : Bool) (ty : Ty) (r : Res) (l : List (Nat × W64)) :
    (g.putResults b ty r l).gidx = g.gidx := by
  unfold Group.putResults
  rw [foldl_keeps _ Group.gidx]
  intro g p
  simp only [Group.putResult_gidx]
@[simp] theorem Group.putPred_gidx (g : Group) (b : Bool) (d : BitVec 3) (k : Nat) (x : Bool) : (g.putPred b d k x).gidx = g.gidx := by
  simp only [Group.putPred]; split
  · rfl
  · split <;> rfl
@[simp] theorem Group.putX_gidx (g : Group) (d k : Nat) (x : BitVec 16) : (g.putX d k x).gidx = g.gidx := rfl

@[simp] theorem Comp.effect_gidx (c : Comp) (b : Bool) (res : List (Nat × Flagged W64)) (g : Group) : (c.effect b res g).gidx = g.gidx := by
  simp only [Comp.effect]
  split
  · simp
  · rw [foldl_keeps _ Group.gidx]
    intro g p
    split <;> simp
  · rw [foldl_keeps _ Group.gidx]
    intro g p
    simp
  · rw [foldl_keeps _ Group.gidx]
    intro g p
    simp

theorem launch_id {s : State} {id : Nat} {l : Launch} (h : s.launch? id = some l) : s.launch? l.id = some l := by
  have : l.id = id := by simpa using List.find?_some h
  rw [this]; exact h

/-- What the code of a chain depends on. -/
theorem chainSpoilt_congr {s s1 : State} (hm : s1.mem = s.mem) (hs : s1.dev.slots = s.dev.slots) (hp : s1.dev.parts = s.dev.parts)
    (hl : s1.dev.launches = s.dev.launches) (e : Env) (g : Group) : chainSpoilt s1 e g = chainSpoilt s e g := by
  have h1 : peekInstr s1 = peekInstr s := by
    funext l sup core pc
    simp only [peekInstr, translateFresh, Dev.part, Dev.slot, hm, hs, hp]
  have h2 : ∀ l sup core n pc, peekPast s1 l sup core n pc = peekPast s l sup core n pc := by
    intro l sup core n
    induction n with
    | zero => intro pc; rfl
    | succ n ih => intro pc; simp only [peekPast, h1, ih]
  have h3 : ∀ l sup core n pc, chainRest s1 l sup core n pc = chainRest s l sup core n pc := by
    intro l sup core n
    induction n with
    | zero => intro pc; rfl
    | succ n ih => intro pc; simp only [chainRest, h2, ih]
  simp only [chainSpoilt, State.launch?, hl, chainMembers, h1, h3]

/-- R75: the results that a form delivers: its own, or undefined values with the same flags. -/
theorem draws_results (k : Comp) (s : State) (e : Env) (g : Group) (rows : Rows) (ks : List W64) :
    Draws (if chainSpoilt s e g then loseResults k.ty (k.eval ⟨Round.ofFrm g.frmNow, e.w, g.phaseNow.toNat⟩
        (rows.map (fun p => ⟨p.1, p.2 ++ ks, k.preds.map (g.readPred p.1)⟩)))
      else .pure (k.eval ⟨Round.ofFrm g.frmNow, e.w, g.phaseNow.toNat⟩ (rows.map (fun p => ⟨p.1, p.2 ++ ks, k.preds.map (g.readPred p.1)⟩))))
      (fun res => k.Gives s e g rows ks ((rows.map (·.1)).zip res)) := by
  unfold Comp.Gives Comp.results
  split
  · refine Draws.mono (Draws.collect (P := fun r y => y.flags = r.flags) (fun r => Draws.bind Draws.undef (fun u _ => Draws.pure rfl)) _) ?_
    intro res h
    generalize k.eval _ _ = l at h
    generalize rows.map (·.1) = ns
    induction h generalizing ns with
    | nil => simp
    | cons hx _ ih => cases ns <;> simp [hx, ih]
  · exact Draws.pure rfl

/-- R211: the shared execution of a compute form. -/
theorem compute_run {i : Instr} {h : Head} {k : Comp} {post : Nat → Group → Group} {s s1 : State} {c : Issuer} {t : Team} {g : Group}
    {l : Launch} {ks : List W64} (hs : Issues s c t g l) (hr : Instr.runs i (envOf s c g l i h) = true)
    (ha : (envOf s c g l i h).active = true) (hp : ∀ n g, (post n g).gidx = g.gidx)
    (hready : (Comp.shape h.g k).ready (envOf s c g l i h) t (s.starting c g i) = true)
    (hk : (konstOperand (envOf s c g l i h) k).go (s.begun c g i) = .done ks s1) (q : Quiet (s.begun c g i) s1) :
    ∃ rows res, RowsOf (s.starting c g i) h.lits (envOf s c g l i h).lanes (Comp.shape h.g k) rows
      ∧ k.Gives s (envOf s c g l i h) (s.starting c g i) rows ks res
      ∧ Reaches ((compute i h k post).run s) (s.withGroup c.team
        ((post c.split (k.effect h.g res (s.starting c g i))).ended (envOf s c g l i h) true .none)) := by
  unfold compute
  have hf : (!(envOf s c g l i h).falls || Instr.choosesNext (envOf s c g l i h).instr) = true := by
    simp only [Instr.runs, Bool.and_eq_true] at hr
    exact hr.2
  rw [instruction_run hs hr]
  generalize he : envOf s c g l i h = e at *
  have e1 : e.team = c.team := by subst he; rfl
  have e2 : e.gidx = c.gidx := by subst he; rfl
  have e3 : e.split = c.split := by subst he; rfl
  have hg0 := begun_group (i := i) hs
  have ht0 := begun_team (i := i) hs
  rw [← e1, ← e2] at hg0
  rw [← e1] at ht0
  simp only [ha, Bool.not_true, Bool.false_eq_true, if_false, Prog.bind_eq]
  have hready' : (Comp.shape h.g k).ready e (t.withGroup (s.starting c g i)) (s.starting c g i) = true := hready
  rw [Prog.run_bind_done (awaitOperands_go hready' ht0 hg0), Prog.run_bind_done (checkRefs_go hready' hg0), Prog.run_bind_done hk]
  have hg1 : s1.group? e.team e.gidx = some (s.starting c g i) := by rw [q.group]; exact hg0
  obtain ⟨rows, n, r1, r2⟩ := readAll_go (e := e) (lits := h.lits) (sh := Comp.shape h.g k) hg1
  rw [Prog.run_bind_done (materialize_go hready' hg1), Prog.run_bind_done (checkWrites_go hready' hg1), Prog.run_bind_done r1,
    fallCheck_none hf]
  have hg2 : (s1.drawn n).group? e.team e.gidx = some (s.starting c g i) := hg1
  rw [Prog.run_bind_done (a := ()) rfl, Prog.run_bind_done (go_Env_group hg2)]
  rw [Prog.run_bind_done (Prog.go_get _)]
  obtain ⟨res, m, d1, d2⟩ := draws_results k (s1.drawn n) e (s.starting c g i) rows ks (s1.drawn n)
  have hsp : chainSpoilt (s1.drawn n) e (s.starting c g i) = chainSpoilt s e (s.starting c g i) := by
    obtain ⟨tl, co, hd⟩ := q.caches
    have h1 : (s1.drawn n).dev.slots = s.dev.slots := by show s1.dev.slots = _; rw [hd]; rfl
    have h2 : (s1.drawn n).dev.parts = s.dev.parts := by show s1.dev.parts = _; rw [hd]; rfl
    have h3 : (s1.drawn n).dev.launches = s.dev.launches := by show s1.dev.launches = _; rw [hd]; rfl
    have h0 : (s1.drawn n).mem = s.mem := q.mem
    exact chainSpoilt_congr (s := s) (s1 := s1.drawn n) h0 h1 h2 h3 e (s.starting c g i)
  simp only [Comp.Gives, hsp] at d2
  refine ⟨rows, _, r2, d2, ?_⟩
  erw [Prog.run_bind_done d1]
  have hg3 : ((s1.drawn n).drawn m).group? e.team e.gidx = some (s.starting c g i) := hg1
  rw [Prog.run_bind_done (go_Env_modGroup _ hg3), ← e3]
  generalize hG : post e.split (k.effect h.g _ (s.starting c g i)) = G
  have hx : G.gidx = e.gidx := by
    rw [← hG, hp, Comp.effect_gidx]
    exact State.group_gidx hg0
  refine Reaches.congr (retire_run e (State.group_withGroup _ e.team hg3 hx)) ?_
  rw [State.withGroup_twice _ e.team G (G.ended e true .none) rfl, ← e1, State.facts_withGroup, State.facts_withGroup, State.drawn_facts,
    State.drawn_facts, q.facts, State.begun, State.facts_withGroup, ← e1, State.withGroup_twice]
  exact (State.group_gidx hg0).trans hx.symm

end Sys2Proof.Machine
end

