-- ==== Sys2Proof/Laws/Translate.lean ====
section
/-! SUPPORT. Translations that every cached entry agrees on (R130, R131). -/
namespace Sys2Proof.Machine

theorem field_of_field {x y a n b c : Nat} (h : field x a n = field y a n) (hab : a ≤ b) (hc : b + c ≤ a + n) : field x b c = field y b c := by
  unfold field at *
  apply Nat.eq_of_testBit_eq
  intro i
  rw [Nat.testBit_mod_two_pow, Nat.testBit_mod_two_pow, Nat.testBit_div_two_pow, Nat.testBit_div_two_pow]
  by_cases hi : i < c
  · have hk := congrArg (fun z => Nat.testBit z (i + (b - a))) h
    simp only [Nat.testBit_mod_two_pow, Nat.testBit_div_two_pow] at hk
    have h1 : i + (b - a) < n := by omega
    have h2 : i + (b - a) + a = i + b := by omega
    simpa [hi, h1, h2] using hk
  · simp [hi]

theorem index_of_prefix {n m : Nat} {va va' : W64} (hm : m ≤ 3) (hn : n ≤ m) (h : levelPrefix n va = levelPrefix n va') :
    levelIndex m va = levelIndex m va' := by
  have bounds : ∀ k < 4, ∀ l < k + 1,
      levelShift l ≤ levelShift k ∧ levelShift k + levelBits k ≤ levelShift l + (57 - levelShift l) := by decide
  have hb := bounds m (by omega) n (by omega)
  exact field_of_field h hb.1 hb.2

theorem path_below (rd : Nat → W64) (part : Part) (va : W64) (k table : Nat) {n : Nat} {e : W64}
    (h : (n, e) ∈ (walkFrom rd part va k table).path) : n < k := by
  induction k generalizing table with
  | zero => simp [walkFrom] at h
  | succ m ih =>
    simp only [walkFrom] at h
    split at h
    · simp at h
    · split at h
      · simp at h
      · split at h
        · simp at h; omega
        · split at h
          · simp at h; omega
          · rcases List.mem_cons.1 h with h | h
            · cases h; omega
            · have := ih _ h; omega

/-- A cached entry of a walk continues every walk under its prefix as the tables do. -/
theorem cached_agrees (rd : Nat → W64) (part : Part) (va va' : W64) (k table : Nat) (hk : k ≤ 4) {c : Tlb}
    (h : (c.level, c.pte) ∈ (walkFrom rd part va k table).path) (hp : levelPrefix c.level va = levelPrefix c.level va')
    (sup : Bool) (need : Need) :
    walkCheck part sup need va' (walkCached rd part va' c) = walkCheck part sup need va' (walkFrom rd part va' k table) := by
  induction k generalizing table with
  | zero => simp [walkFrom] at h
  | succ m ih =>
    have hb := path_below _ _ _ _ _ h
    have hi : levelIndex m va = levelIndex m va' := index_of_prefix (by omega) (by omega) hp
    simp only [walkFrom, ← hi]
    simp only [walkFrom] at h
    generalize rd (table + 8 * levelIndex m va) = e at h ⊢
    split at h
    · simp at h
    rename_i h1
    rw [if_neg h1]
    split at h
    · simp at h
    rename_i h2
    rw [if_neg h2]
    split at h
    · rename_i h3
      rw [if_pos h3]
      simp only [List.mem_singleton, Prod.mk.injEq] at h
      rw [walkCached, if_pos (by rw [h.1, h.2]; exact h3)]
      rfl
    rename_i h3
    rw [if_neg h3]
    split at h
    · rename_i h4
      rw [if_pos h4]
      simp only [List.mem_singleton, Prod.mk.injEq] at h
      rw [walkCached, if_neg (by rw [h.1, h.2]; exact h3), if_pos (by rw [h.2]; exact h4), h.1, h.2]
      rfl
    · rename_i h4
      rw [if_neg h4]
      rcases List.mem_cons.1 h with h | h
      · simp only [Prod.mk.injEq] at h
        rw [walkCached, if_neg (by rw [h.1, h.2]; exact h3), if_neg (by rw [h.2]; exact h4), h.1, h.2]
        rfl
      · rw [ih (pteAddr e) (by omega) h]
        rfl

theorem fillTlb_mem (d : Dev) (agent : Nat) (key : SlotKey) (va : W64) (w : Walk) (c : Tlb) (h : c ∈ (d.fillTlb agent key va w).tlb) :
    c ∈ d.tlb ∨ (c.agent = agent ∧ c.slot = key ∧ c.prefix_ = levelPrefix c.level va ∧ (c.level, c.pte) ∈ w.path) := by
  unfold Dev.fillTlb at h
  · simp only at h
    generalize w.path = p at h ⊢
    generalize d.tlb = l at h
    suffices hs : ∀ (p : List (Nat × W64)) (l : List Tlb), c ∈ p.foldl (fun l e =>
        let c : Tlb := ⟨agent, key, e.1, levelPrefix e.1 va, e.2⟩
        if l.contains c then l else l ++ [c]) l →
        c ∈ l ∨ (c.agent = agent ∧ c.slot = key ∧ c.prefix_ = levelPrefix c.level va ∧ (c.level, c.pte) ∈ p) from hs p l h
    intro p
    induction p with
    | nil => intro l h; exact .inl h
    | cons e t ih =>
      intro l h
      rcases ih _ h with h | ⟨h1, h2, h3, h4⟩
      · dsimp only at h
        split at h
        · exact .inl h
        · rcases List.mem_append.1 h with h | h
          · exact .inl h
          · simp only [List.mem_singleton] at h
            subst h
            exact .inr ⟨rfl, rfl, rfl, by simp⟩
      · exact .inr ⟨h1, h2, h3, List.mem_cons_of_mem _ h4⟩

/-- A translation that maps: its outcome, and that every other one maps as before. -/
theorem translate_go {s : State} {agent die : Nat} {key : SlotKey} {sup : Bool} {need : Need} {va : W64} {x : Nat × Bool}
    (h : Maps s agent die key sup need va x) :
    ∃ s1, (translate agent die key sup need va).go s = .done (.ok x) s1 ∧ Quiet s s1
      ∧ ∀ agent' die' key' sup' need' va' x', (agent' = agent → die' = die) → Maps s agent' die' key' sup' need' va' x'
        → Maps s1 agent' die' key' sup' need' va' x' := by
  obtain ⟨hc, hw⟩ := h
  have h0 := hw (rootWalk s die key va) (by simp [walksOf, rootWalk])
  have hodd : oddWalks s agent die key sup need va = [] := by
    unfold oddWalks
    rw [List.filter_eq_nil_iff]
    intro w hm
    rw [hw w hm, h0]
    simp [sameEnd]
  have hwalk : ∃ s1, (chooseWalk agent die key sup need va).go s = .done (rootWalk s die key va) s1
      ∧ (s1 = s ∨ s1 = { s with dev := s.dev.fillTlb agent key va (rootWalk s die key va) }) := by
    simp only [chooseWalk, Prog.bind_eq]
    rw [Prog.go_bind_done (Prog.go_get s), hodd]
    rw [Prog.go_bind_done (a := 0) (t := s) rfl]
    simp only [List.getD_cons_zero]
    cases ((s.dev.fillTlb agent key va (rootWalk s die key va)).tlb.length != s.dev.tlb.length)
    · exact ⟨s, rfl, .inl rfl⟩
    · exact ⟨_, rfl, .inr rfl⟩
  obtain ⟨s1, k1, k2⟩ := hwalk
  have hq : Quiet s s1 := by
    rcases k2 with rfl | rfl
    · exact Quiet.refl _
    · obtain ⟨l, hl⟩ := fillTlb_tlb s.dev agent key va (rootWalk s die key va)
      exact ⟨rfl, rfl, rfl, rfl, rfl, rfl, rfl, rfl, l, s.dev.code, hl⟩
  refine ⟨s1, ?_, hq, ?_⟩
  · simp only [translate, hc, Bool.not_true, Bool.false_eq_true, if_false, Prog.bind_eq]
    rw [Prog.go_bind_done k1, Prog.go_bind_done (Prog.go_get s1), hq.part, h0]
    rfl
  · intro agent' die' key' sup' need' va' x' hd hm
    refine ⟨hm.1, ?_⟩
    rcases k2 with rfl | rfl
    · exact hm.2
    intro w hwm
    obtain ⟨l, hl⟩ := fillTlb_tlb s.dev agent key va (rootWalk s die key va)
    have hmem := fun c => fillTlb_mem s.dev agent key va (rootWalk s die key va) c
    rw [hl] at hwm hmem ⊢
    have hroot : walkRoot (fun a => s.mem.word die' a 8) (s.dev.part (key' / 16)) (s.dev.slot key').ptroot va' = rootWalk s die' key' va' := rfl
    simp only [walksOf, List.mem_cons, List.mem_map, List.mem_filter, Bool.and_eq_true, beq_iff_eq] at hwm
    rcases hwm with hwm | ⟨c, ⟨hc1, ⟨hc2, hc3⟩, hc4⟩, rfl⟩
    · subst hwm
      exact hm.2 _ (by simp [walksOf]; left; rfl)
    · rcases hmem c hc1 with hold | ⟨q1, q2, q3, q4⟩
      · exact hm.2 _ (by
          simp only [walksOf, List.mem_cons, List.mem_map, List.mem_filter, Bool.and_eq_true, beq_iff_eq]
          exact .inr ⟨c, ⟨hold, ⟨hc2, hc3⟩, hc4⟩, rfl⟩)
      · have e1 : agent' = agent := hc2.symm.trans q1
        have e2 : key' = key := hc3.symm.trans q2
        subst e1 e2
        have e3 := hd rfl
        subst e3
        have hr := hm.2 (rootWalk s die' key' va') (by simp [walksOf, rootWalk])
        show walkCheck (s.dev.part (key' / 16)) sup' need' va' (walkCached (fun a => s.mem.word die' a 8) (s.dev.part (key' / 16)) va' c) = .ok x'
        rw [← hr]
        simp only [rootWalk, walkRoot] at q4 ⊢
        split at q4
        · rename_i hv
          rw [if_pos hv]
          exact cached_agrees _ _ va va' 4 _ (by omega) q4 (q3.symm.trans hc4) sup' need'
        · simp at q4

end Sys2Proof.Machine
end

