-- ==== Sys2Proof/Laws/Access.lean ====
section
/-! SUPPORT. The address checks that pass, the targets that can be fetched, and the traps of the running instruction. -/
namespace Sys2Proof.Machine

/-- One agent's mappings outlast another translation of the same agent. -/
def Keeps (s s1 : State) (agent die : Nat) : Prop :=
  ∀ agent' die' key' sup' need' va' x', (agent' = agent → die' = die) → Maps s agent' die' key' sup' need' va' x'
    → Maps s1 agent' die' key' sup' need' va' x'

theorem Keeps.refl (s : State) (agent die : Nat) : Keeps s s agent die := fun _ _ _ _ _ _ _ _ h => h
theorem Keeps.trans {s s1 s2 : State} {agent die : Nat} (h : Keeps s s1 agent die) (k : Keeps s1 s2 agent die) : Keeps s s2 agent die :=
  fun a d key sup n va x hd hm => k a d key sup n va x hd (h a d key sup n va x hd hm)

theorem translateAll_go {agent die : Nat} {key : SlotKey} {sup : Bool} {need : Need} (pas : List (Nat × W64 × Nat × Bool)) (s : State)
    (h : ∀ p ∈ pas, Maps s agent die key sup need p.2.1 p.2.2) :
    ∃ s1, (translateAll agent die key sup need (pas.map (fun p => (p.1, p.2.1)))).go s
      = .done (pas.map (fun p => (p.1, p.2.1, .ok p.2.2))) s1 ∧ Quiet s s1 ∧ Keeps s s1 agent die := by
  unfold translateAll
  induction pas generalizing s with
  | nil => exact ⟨s, rfl, Quiet.refl s, Keeps.refl s _ _⟩
  | cons p t ih =>
    obtain ⟨s1, h1, h2, h3⟩ := translate_go (h p (by simp))
    obtain ⟨s2, k1, k2, k3⟩ := ih s1 (fun q hq => h3 _ _ _ _ _ _ _ (fun _ => rfl) (h q (by simp [hq])))
    refine ⟨s2, ?_, h2.trans k2, Keeps.trans h3 k3⟩
    simp only [List.map_cons, Prog.collect, Prog.bind_eq] at k1 ⊢
    rw [Prog.go_bind_done (a := (p.1, p.2.1, .ok p.2.2)) (t := s1) (by rw [Prog.go_bind_done h1]; rfl), Prog.go_bind_done k1]
    rfl

theorem filterMap_map_some {α β γ : Type} (f : α → β) (g : β → Option γ) (k : α → γ) (h : ∀ a, g (f a) = some (k a)) (l : List α) :
    (l.map f).filterMap g = l.map k := by
  induction l with
  | nil => rfl
  | cons a t ih => simp [h, ih]

theorem checkGlobal_go {e : Env} {need : Need} {eas : List (Nat × W64)} {pas : List (Nat × W64 × Nat × Bool)} {s : State}
    (h : Reach s e need eas pas) :
    ∃ s1, (checkGlobal e need eas).go s = .done pas s1 ∧ Quiet s s1 ∧ Keeps s s1 e.core e.die := by
  obtain ⟨rfl, h⟩ := h
  obtain ⟨s1, h1, h2, h3⟩ := translateAll_go (agent := e.core) (die := e.die) (key := e.key) (sup := e.sup) (need := need) pas s
    (fun p hp => (h p hp).1)
  refine ⟨s1, ?_, h2, h3⟩
  simp only [checkGlobal, Prog.bind_eq]
  rw [Prog.go_bind_done h1]
  have e1 : failedOf (pas.map (fun p => (p.1, p.2.1, .ok p.2.2))) = [] := by
    rw [failedOf, List.filterMap_eq_nil_iff]
    intro r hr
    obtain ⟨p, -, rfl⟩ := List.mem_map.1 hr
    rfl
  have e2 : passedOf (pas.map (fun p => (p.1, p.2.1, .ok p.2.2))) = pas := by
    have := filterMap_map_some (fun p : Nat × W64 × Nat × Bool => (p.1, p.2.1, (.ok p.2.2 : Except (Cause × Nat) (Nat × Bool))))
      (fun r => match r.2.2 with
      | .ok x => some (r.1, r.2.1, x)
      | .error _ => none) id (fun a => rfl) pas
    rw [List.map_id] at this
    exact this
  rw [e1, e2]
  simp only [List.isEmpty_nil, Bool.not_true, Bool.false_eq_true, if_false]
  have e3 : pas.filter (fun r => inPeer r.2.2.1) = [] := by
    rw [List.filter_eq_nil_iff]
    intro p hp
    simp [(h p hp).2]
  simp only [e3, List.isEmpty_nil, if_true]
  rfl

theorem checkAlign_go {e : Env} {n : Nat} {eas : List (Nat × W64)} (h : aligned n eas = true) (s : State) :
    (checkAlign e n eas).go s = .done () s := by
  have : eas.filter (fun a => a.2.toNat % n != 0) = [] := by
    rw [List.filter_eq_nil_iff]
    intro a ha
    have := List.all_eq_true.1 h a ha
    simpa using this
  simp [checkAlign, this]

/-! ### Targets -/

theorem collect_pure_go {α β : Type} (f : α → Prog β) (g : α → β) (s : State) (l : List α) (h : ∀ a ∈ l, (f a).go s = .done (g a) s) :
    (Prog.collect l f).go s = .done (l.map g) s := by
  induction l with
  | nil => rfl
  | cons a t ih =>
    simp only [Prog.collect]
    rw [Prog.go_bind_done (h a (by simp)), Prog.go_bind_done (ih (fun b hb => h b (by simp [hb])))]
    rfl

theorem fetchWords_go {core : Nat} {l : Launch} {pa : Nat} {s : State} (hl : s.launch? l.id = some l)
    (h : ∀ i, i < 8 → l.stale.contains (pa / 32 * 8 + i) = false) :
    (fetchWords core l.id (pa / 32 * 32)).go s = .done (blockWords s core (pa / 32 * 32)) s := by
  simp only [fetchWords, Prog.bind_eq]
  rw [Prog.go_bind_done (Prog.go_get s)]
  simp only [hl, Option.map_some, Option.getD_some]
  have h8 : 8 - pa / 32 * 32 / 4 % 8 = 8 := by omega
  rw [h8]
  unfold blockWords
  apply collect_pure_go
  intro i hi
  have h4 : (pa / 32 * 32 + 4 * i) / 4 = pa / 32 * 8 + i := by omega
  rw [h4, h i (List.mem_range.1 hi)]
  rfl

theorem checkTarget_go {core : Nat} {l : Launch} {sup : Bool} {x : W64} {s : State} (hl : s.launch? l.id = some l)
    (h : StartAt s core l sup x) :
    ∃ s1, (checkTarget core l.id l.cmd.slot sup x).go s = .done (.ok none) s1 ∧ Quiet s s1 ∧ Keeps s s1 core (dieOf core) := by
  obtain ⟨pa, wr, h1, h2, h3, h4⟩ := h
  obtain ⟨s1, k1, k2, k3⟩ := translate_go h1
  refine ⟨s1, ?_, k2, k3⟩
  simp only [checkTarget, Prog.bind_eq]
  have hl1 : s1.launch? l.id = some l := by rw [k2.launch]; exact hl
  rw [Prog.go_bind_done (go_getLaunch hl), Prog.go_bind_done k1]
  simp only [h2, Bool.false_eq_true, if_false]
  rw [Prog.go_bind_done (fetchWords_go hl1 h3)]
  have : blockWords s1 core (pa / 32 * 32) = blockWords s core (pa / 32 * 32) := by simp [blockWords, k2.mem]
  rw [this, h4]
  rfl

theorem StartAt.keep {s s1 : State} {core core' : Nat} {l : Launch} {sup : Bool} {x : W64} (h : StartAt s core l sup x) (hq : Quiet s s1)
    (hk : Keeps s s1 core' (dieOf core')) : StartAt s1 core l sup x := by
  obtain ⟨pa, wr, h1, h2, h3, h4⟩ := h
  refine ⟨pa, wr, hk _ _ _ _ _ _ _ (fun e => by rw [e]) h1, h2, h3, ?_⟩
  simpa [blockWords, hq.mem] using h4

/-! ### Traps of the running instruction -/

theorem Maps.congr {s s1 : State} (h1 : s1.mem = s.mem) (h2 : s1.dev.parts = s.dev.parts) (h3 : s1.dev.slots = s.dev.slots)
    (h4 : s1.dev.tlb = s.dev.tlb) {a d : Nat} {k : SlotKey} {u : Bool} {n : Need} {va : W64} {x : Nat × Bool} (h : Maps s a d k u n va x) :
    Maps s1 a d k u n va x := by
  unfold Maps walksOf Dev.part Dev.slot at *
  rw [h1, h2, h3, h4]
  exact h

theorem StartAt.congr {s s1 : State} (h1 : s1.mem = s.mem) (h2 : s1.dev.parts = s.dev.parts) (h3 : s1.dev.slots = s.dev.slots)
    (h4 : s1.dev.tlb = s.dev.tlb) {core : Nat} {l : Launch} {sup : Bool} {x : W64} (h : StartAt s core l sup x) :
    StartAt s1 core l sup x := by
  obtain ⟨pa, wr, k1, k2, k3, k4⟩ := h
  exact ⟨pa, wr, Maps.congr h1 h2 h3 h4 k1, k2, k3, by simpa [blockWords, h1] using k4⟩

theorem unhold_dev {u k : Nat} {b : Bool} {s s1 : State}
    (h : (Prog.when b (modGroup u k (fun g => { g with withheld := 0 }))).go s = .done () s1) : s1.dev = s.dev := by
  cases b
  · cases h; rfl
  · simp only [Prog.when, if_true, modGroup, Prog.go_read] at h
    split at h
    · cases h; rfl
    · cases h

theorem whenAge_dev {u k : Nat} {b uni : Bool} {s s1 : State} (h : (Prog.when b (ageGroups u k uni)).go s = .done () s1) : s1.dev = s.dev := by
  cases b
  · cases h; rfl
  · simp only [Prog.when, if_true] at h
    unfold ageGroups at h
    simp only [Prog.go_read] at h
    split at h
    · cases h; rfl
    · split at h
      · cases h; rfl
      · generalize (if uni = true then _ else _ : Bool) = b at h
        cases b
        · cases h; rfl
        · cases h; rfl

theorem unholdAge_dev {u k : Nat} {b c uni : Bool} {s s1 : State} {g : Group} (hg : s.group? u k = some g)
    (h : ((Prog.when b (modGroup u k (fun g => { g with withheld := 0 }))).bind (fun _ => Prog.when (!c) (ageGroups u k uni))).go s
      = .done () s1) : s1.dev = s.dev := by
  obtain ⟨s2, g2, h1, -⟩ := unhold_go u k b hg
  rw [Prog.go_bind_done h1] at h
  exact (whenAge_dev h).trans (unhold_dev h1)

/-- The datapath bookkeeping of a start leaves the translation state. -/
theorem started_dev (e : Env) {s s1 : State} (h : (started e).go s = .done () s1) :
    ∃ ln cl sp, s1.dev = { s.dev with lanes := ln, clusters := cl, spent := sp } := by
  unfold started at h
  simp only [Prog.go_read] at h
  split at h
  · cases h; exact ⟨_, _, _, rfl⟩
  · rename_i g hg
    rw [Prog.go_bind_done (Prog.go_modDev _ _)] at h
    have h2 := unholdAge_dev (b := _) (c := _) (uni := _) (g := g) (s := _) (by exact hg) h
    exact ⟨_, _, _, h2⟩

/-- A group that differs from another in the scheduler's counters at most. -/
theorem Group.counters {g g1 : Group} (h : g1.facts = g.facts) (hs : g1.splits = g.splits) :
    g1 = { g with wait := g1.wait, waitU := g1.waitU, withheld := g1.withheld, heldAt := g1.heldAt } := by
  obtain ⟨⟩ := g
  obtain ⟨⟩ := g1
  simp only [Group.facts, Group.mk.injEq] at h hs ⊢
  simp [h, hs]

theorem raise_counters (g : Group) (now n : Nat) (r : TrapRec) (a b c d : Nat) :
    ({ g with wait := a, waitU := b, withheld := c, heldAt := d } : Group).raise now n r
      = { g.raise now n r with wait := a, waitU := b, withheld := c, heldAt := d } := by
  have hm : ({ g with wait := a, waitU := b, withheld := c, heldAt := d } : Group).modSplit n
        (fun x => { x with trap := some r, wait := .none, redo := x.interrupted r.epc, chain := none })
      = { g.modSplit n (fun x => { x with trap := some r, wait := .none, redo := x.interrupted r.epc, chain := none })
          with wait := a, waitU := b, withheld := c, heldAt := d } := rfl
  unfold Group.raise
  rw [hm]
  generalize g.modSplit n (fun x => { x with trap := some r, wait := .none, redo := x.interrupted r.epc, chain := none }) = g2
  obtain ⟨⟩ := g2
  rename_i ho _ _ _ _ _ _ _ _ _ _ _ _ _ _ _ _ _ _ _ _
  cases ho with
  | none => rfl
  | some h =>
    dsimp only [Handler.untouched, Group.startedIn]
    generalize Option.filter _ _ = o
    cases o with
    | none => rfl
    | some x => dsimp only; split <;> rfl

theorem trapped_counters (e : Env) (now : Nat) (g : Group) (r : TrapRec) (x : W64) (a b c d : Nat) :
    (e.trapped now { g with wait := a, waitU := b, withheld := c, heldAt := d } r x).facts = (e.trapped now g r x).facts := by
  unfold Env.trapped Group.delivered
  rw [raise_counters]
  generalize g.raise now e.split r = g2
  have h1 : ({ g2 with wait := a, waitU := b, withheld := c, heldAt := d } : Group).firstTrap = g2.firstTrap := rfl
  simp only [h1]
  split
  · rfl
  · split <;> rfl

theorem raise_gidx (g : Group) (now n : Nat) (r : TrapRec) : (g.raise now n r).gidx = g.gidx := by
  unfold Group.raise
  dsimp only
  split
  · rfl
  · split
    · split <;> rfl
    · rfl
theorem raise_core (g : Group) (now n : Nat) (r : TrapRec) : (g.raise now n r).core = g.core := by
  unfold Group.raise
  dsimp only
  split
  · rfl
  · split
    · split <;> rfl
    · rfl

/-- A trap that can be taken: the record, and the entry unless a handler runs. -/
theorem trap_run (e : Env) (cause : Cause) (detail : Nat) (m : Mask) (taux : W64) (fva : Tab W64) (epc : Option W64)
    {s : State} {t : Team} {g : Group} {l : Launch} (ht : s.team? e.team = some t) (hg : s.group? e.team e.gidx = some g)
    (htl : t.launch = l.id) (hl : s.launch? l.id = some l) (hc : g.core = e.core) (hsup : (g.split e.split).sup = false)
    (hcan : (g.raise (s.now e.core) e.split (e.record g cause detail m taux fva epc)).handler = none →
      StartAt s e.core l true (s.dev.slot l.cmd.slot).sventry) :
    Reaches ((trap e cause detail m taux fva epc : Prog Unit).run s)
      (s.withGroup e.team (e.trapped (s.now e.core) g (e.record g cause detail m taux fva epc) (s.dev.slot l.cmd.slot).sventry)) := by
  obtain ⟨s1, g1, h1, h2, h3, h4, h5, h6, h7, h8, h9, h10⟩ := started_go e hg
  obtain ⟨ln, cl, sp, hdev⟩ := started_dev e h1
  have hsp : g1.split e.split = g.split e.split := by simp [Group.split, h5]
  have hG := Group.counters h4 h5
  obtain ⟨t1, ht1, htl1⟩ : ∃ t1, s1.team? e.team = some t1 ∧ t1.launch = l.id := by
    have := h10 e.team
    rw [ht, Option.map_some, htl] at this
    cases hx : s1.team? e.team with
    | none => rw [hx] at this; cases this
    | some t1 => rw [hx] at this; exact ⟨t1, rfl, Option.some.inj this⟩
  simp only [trap]
  rw [Prog.run_bind_done h1, Prog.run_bind_done (go_Env_group h3), Prog.run_bind_done (Prog.go_act _ _)]
  have hr : e.record g1 cause detail m taux fva epc = e.record g cause detail m taux fva epc := by
    simp only [Env.record, hsp]
  rw [hr]
  generalize e.record g cause detail m taux fva epc = r at hcan ⊢
  generalize hs2 : Eff.apply (.cur none) s1 = s2
  have hg2 : s2.group? e.team e.gidx = some g1 := by rw [← hs2]; exact h3
  have ht2 : s2.team? e.team = some t1 := by rw [← hs2]; exact ht1
  have hf2 : s2.facts = s.facts := by rw [← hs2]; exact h2
  have hcur : s2.cur = none := by rw [← hs2]; rfl
  have hl2 : s2.launch? l.id = some l := by rw [← hs2, ← hl, ← h9]; rfl
  have hm2 : s2.mem = s.mem := by rw [← hs2]; exact h8
  have hd2 : s2.dev = { s.dev with lanes := ln, clusters := cl, spent := sp } := by rw [← hs2]; exact hdev
  have hent : (s.dev.slot l.cmd.slot).sventry = (s2.dev.slot l.cmd.slot).sventry := by rw [hd2]; rfl
  have hsup1 : (g1.split e.split).sup = false := by rw [hsp]; exact hsup
  have hnow : s2.now e.core = s.now e.core := by simp only [State.now, Dev.core, hd2]
  have hcan2 : (g1.raise (s2.now e.core) e.split r).handler = none → StartAt s2 e.core l true (s2.dev.slot l.cmd.slot).sventry := by
    intro hh
    rw [← hent]
    refine StartAt.congr hm2 (by rw [hd2]) (by rw [hd2]) (by rw [hd2]) (hcan ?_)
    rw [hG, raise_counters, hnow] at hh
    exact hh
  have hcore : g1.core = e.core := by rw [hG]; exact hc
  rw [hent, ← hnow]
  have hfin : (e.trapped (s2.now e.core) g1 r (s2.dev.slot l.cmd.slot).sventry).facts
      = (e.trapped (s2.now e.core) g r (s2.dev.slot l.cmd.slot).sventry).facts := by
    rw [hG]; exact trapped_counters ..
  suffices hgo : ∃ s3, (raiseOn e.team e.gidx e.split r).go s2 = .done () s3 ∧ s3.cur = none
      ∧ s3.facts = (s2.withGroup e.team (e.trapped (s2.now e.core) g1 r (s2.dev.slot l.cmd.slot).sventry)).facts by
    obtain ⟨s3, k1, k2, k3⟩ := hgo
    rw [Prog.run_bind_done k1]
    exact ⟨s3, rfl, k2, by rw [k3]; exact State.facts_congr e.team hf2 hfin⟩
  simp only [raiseOn, Prog.bind_eq]
  rw [Prog.go_bind_done (go_getGroup hg2)]
  simp only [hsup1, Bool.false_eq_true, if_false]
  rw [Prog.go_bind_done (Prog.go_get _), Prog.go_bind_done (go_modGroup _ hg2), hcore]
  unfold Env.trapped Group.delivered
  have hi1 : (g1.raise (s2.now e.core) e.split r).gidx = e.gidx := (raise_gidx ..).trans (State.group_gidx hg2)
  have hc1 : (g1.raise (s2.now e.core) e.split r).core = e.core := (raise_core ..).trans hcore
  have hg3 := State.group_withGroup s2 e.team hg2 hi1
  have ht3 : (s2.withGroup e.team (g1.raise (s2.now e.core) e.split r)).team? e.team
      = some (t1.withGroup (g1.raise (s2.now e.core) e.split r)) := by
    rw [State.team_withGroup, ht2]; rfl
  have hw3 : (s2.withGroup e.team (g1.raise (s2.now e.core) e.split r)).now e.core = s2.now e.core := rfl
  generalize g1.raise (s2.now e.core) e.split r = g3 at *
  simp only [deliver, Prog.bind_eq]
  rw [Prog.go_bind_done (go_getGroup hg3)]
  cases hh : g3.handler with
  | some hd => exact ⟨_, rfl, hcur, rfl⟩
  | none =>
    simp only [Option.isSome_none, Bool.false_eq_true, if_false]
    cases hf : g3.firstTrap with
    | none => exact ⟨_, rfl, hcur, rfl⟩
    | some nt =>
      obtain ⟨n, tr⟩ := nt
      simp only
      have hl3 : (s2.withGroup e.team g3).launch? l.id = some l := hl2
      have htl3 : (t1.withGroup g3).launch = l.id := htl1
      rw [Prog.go_bind_done (go_getTeam ht3), htl3, Prog.go_bind_done (go_getLaunch hl3), Prog.go_bind_done (Prog.go_get _), hc1]
      have hst : StartAt (s2.withGroup e.team g3) e.core l true (s2.dev.slot l.cmd.slot).sventry :=
        StartAt.congr rfl rfl rfl rfl (hcan2 hh)
      obtain ⟨s4, k1, k2, k3⟩ := checkTarget_go hl3 hst
      have hsv : ((s2.withGroup e.team g3).dev.slot l.cmd.slot).sventry = (s2.dev.slot l.cmd.slot).sventry := rfl
      rw [hsv, Prog.go_bind_done k1]
      have hg4 : s4.group? e.team e.gidx = some g3 := by rw [k2.group]; exact hg3
      refine ⟨s4.withGroup e.team (g3.enter (s2.now e.core) n tr (s2.dev.slot l.cmd.slot).sventry), (go_modGroup _ hg4).trans ?_, ?_, ?_⟩
      · rw [hc1]; rfl
      · exact k2.cur.trans hcur
      · have : (g3.enter (s2.now e.core) n tr (s2.dev.slot l.cmd.slot).sventry).gidx = g3.gidx := rfl
        rw [State.facts_withGroup, k2.facts, ← State.facts_withGroup, State.withGroup_twice _ _ _ _ this.symm]

end Sys2Proof.Machine
end

