-- ==== Sys2Proof/Laws/Memory.lean ====
section
/-! SUPPORT. Sparse tables and the memory system: reading after writing, and that every memory operation keeps the canonical
form. -/
namespace Sys2Proof.Machine

/-! ### Sparse tables -/

section
variable {α : Type}

theorem Tab.rising_mono {b c : Nat} (h : c ≤ b) {t : Tab α} (ht : Tab.risingFrom b t = true) : Tab.risingFrom c t = true := by
  cases t with
  | nil => rfl
  | cons e t =>
    simp only [Tab.risingFrom, Bool.and_eq_true, decide_eq_true_eq] at ht ⊢
    exact ⟨by omega, ht.2⟩

theorem Tab.rising_put {b k : Nat} (hk : b ≤ k) (x : α) {t : Tab α} (ht : Tab.risingFrom b t = true) :
    Tab.risingFrom b (Tab.put k x t) = true := by
  induction t generalizing b with
  | nil => simp [Tab.put, Tab.risingFrom, hk]
  | cons e t ih =>
    obtain ⟨j, a⟩ := e
    simp only [Tab.risingFrom, Bool.and_eq_true, decide_eq_true_eq] at ht
    simp only [Tab.put]
    split
    · subst k; simp [Tab.risingFrom, ht]
    · split
      · simp only [Tab.risingFrom, Bool.and_eq_true, decide_eq_true_eq]
        exact ⟨hk, by omega, ht.2⟩
      · simp only [Tab.risingFrom, Bool.and_eq_true, decide_eq_true_eq]
        exact ⟨ht.1, ih (by omega) ht.2⟩

theorem Tab.rising_del {b : Nat} (k : Nat) {t : Tab α} (ht : Tab.risingFrom b t = true) :
    Tab.risingFrom b (Tab.del k t) = true := by
  induction t generalizing b with
  | nil => rfl
  | cons e t ih =>
    obtain ⟨j, a⟩ := e
    simp only [Tab.risingFrom, Bool.and_eq_true, decide_eq_true_eq] at ht
    simp only [Tab.del]
    split
    · exact Tab.rising_mono (by omega) ht.2
    · split
      · simp [Tab.risingFrom, ht]
      · simp only [Tab.risingFrom, Bool.and_eq_true, decide_eq_true_eq]
        exact ⟨ht.1, ih ht.2⟩

theorem Tab.rising_filter {b : Nat} (p : Nat × α → Bool) {t : Tab α} (ht : Tab.risingFrom b t = true) :
    Tab.risingFrom b (t.filter p) = true := by
  induction t generalizing b with
  | nil => rfl
  | cons e t ih =>
    obtain ⟨j, a⟩ := e
    simp only [Tab.risingFrom, Bool.and_eq_true, decide_eq_true_eq] at ht
    simp only [List.filter_cons]
    split
    · simp only [Tab.risingFrom, Bool.and_eq_true, decide_eq_true_eq]
      exact ⟨ht.1, ih ht.2⟩
    · exact Tab.rising_mono (by omega) (ih ht.2)

theorem Tab.mem_put {k : Nat} {x : α} {t : Tab α} {e : Nat × α} (h : e ∈ Tab.put k x t) : e = (k, x) ∨ e ∈ t := by
  induction t with
  | nil => simp [Tab.put] at h; exact .inl h
  | cons f t ih =>
    obtain ⟨j, a⟩ := f
    simp only [Tab.put] at h
    split at h
    · rcases List.mem_cons.1 h with h | h
      · exact .inl h
      · exact .inr (List.mem_cons_of_mem _ h)
    · split at h
      · rcases List.mem_cons.1 h with h | h
        · exact .inl h
        · exact .inr h
      · rcases List.mem_cons.1 h with h | h
        · exact .inr (h ▸ List.mem_cons_self)
        · rcases ih h with h | h
          · exact .inl h
          · exact .inr (List.mem_cons_of_mem _ h)

theorem Tab.mem_del {k : Nat} {t : Tab α} {e : Nat × α} (h : e ∈ Tab.del k t) : e ∈ t := by
  induction t with
  | nil => exact h
  | cons f t ih =>
    obtain ⟨j, a⟩ := f
    simp only [Tab.del] at h
    split at h
    · exact List.mem_cons_of_mem _ h
    · split at h
      · exact h
      · rcases List.mem_cons.1 h with h | h
        · exact h ▸ List.mem_cons_self
        · exact List.mem_cons_of_mem _ (ih h)

variable [DecidableEq α]

theorem Tab.wf_iff (d : α) (t : Tab α) : Tab.wf d t = true ↔ Tab.risingFrom 0 t = true ∧ ∀ e ∈ t, e.2 ≠ d := by
  simp [Tab.wf]

/-- A write keeps the canonical form. -/
theorem Tab.wf_set (d : α) {t : Tab α} (h : Tab.wf d t = true) (k : Nat) (x : α) : Tab.wf d (Tab.set d t k x) = true := by
  rw [Tab.wf_iff] at h ⊢
  unfold Tab.set
  split
  · exact ⟨Tab.rising_del k h.1, fun e he => h.2 e (Tab.mem_del he)⟩
  · refine ⟨Tab.rising_put (Nat.zero_le k) x h.1, fun e he => ?_⟩
    rcases Tab.mem_put he with h' | h'
    · subst h'; assumption
    · exact h.2 e h'

theorem Tab.wf_filter (d : α) {t : Tab α} (h : Tab.wf d t = true) (p : Nat × α → Bool) : Tab.wf d (t.filter p) = true := by
  rw [Tab.wf_iff] at h ⊢
  exact ⟨Tab.rising_filter _ h.1, fun e he => h.2 e (List.mem_filter.1 he).1⟩

theorem Tab.wf_clear (d : α) {t : Tab α} (h : Tab.wf d t = true) (lo hi : Nat) : Tab.wf d (Tab.clear lo hi t) = true :=
  Tab.wf_filter d h _

omit [DecidableEq α] in
theorem Tab.get_below {d : α} {b k : Nat} {t : Tab α} (ht : Tab.risingFrom b t = true) (hk : k < b) : Tab.get d t k = d := by
  cases t with
  | nil => rfl
  | cons e t =>
    obtain ⟨j, a⟩ := e
    simp only [Tab.risingFrom, Bool.and_eq_true, decide_eq_true_eq] at ht
    have h1 : k ≠ j := by omega
    have h2 : k < j := by omega
    simp [Tab.get, h1, h2]

omit [DecidableEq α] in
theorem Tab.get_put (d : α) (t : Tab α) (k j : Nat) (x : α) : Tab.get d (Tab.put k x t) j = if j = k then x else Tab.get d t j := by
  induction t with
  | nil =>
    simp only [Tab.put, Tab.get]
    split
    · rfl
    · split <;> rfl
  | cons e t ih =>
    obtain ⟨i, a⟩ := e
    simp only [Tab.put]
    split
    · subst k
      simp only [Tab.get]
      split <;> rfl
    · split
      · simp only [Tab.get]
        split
        · rfl
        · split
          · rename_i h1 h2 h3 h4
            have h5 : j ≠ i := by omega
            have h6 : j < i := by omega
            simp [h5, h6]
          · rfl
      · simp only [Tab.get]
        split
        · rename_i h1 h2 h3
          have h5 : j ≠ k := by omega
          simp [h5]
        · split
          · rename_i h1 h2 h3 h4
            have h5 : j ≠ k := by omega
            simp [h5]
          · exact ih

omit [DecidableEq α] in
theorem Tab.get_del {d : α} {b : Nat} {t : Tab α} (ht : Tab.risingFrom b t = true) (k j : Nat) :
    Tab.get d (Tab.del k t) j = if j = k then d else Tab.get d t j := by
  induction t generalizing b with
  | nil => simp [Tab.del, Tab.get]
  | cons e t ih =>
    obtain ⟨i, a⟩ := e
    simp only [Tab.risingFrom, Bool.and_eq_true, decide_eq_true_eq] at ht
    simp only [Tab.del]
    split
    · subst k
      by_cases hj : j = i
      · subst hj
        simp [Tab.get_below ht.2 (Nat.lt_succ_self j)]
      · by_cases hl : j < i
        · simp [Tab.get, hj, hl, Tab.get_below ht.2 (show j < i + 1 by omega)]
        · simp [Tab.get, hj, hl]
    · split
      · simp only [Tab.get]
        by_cases hj : j = k
        · subst hj
          rename_i h1 h2
          simp [h1, h2]
        · simp [hj]
      · simp only [Tab.get, ih ht.2]
        by_cases hj : j = k
        · subst hj
          rename_i h1 h2
          simp [h1, h2]
        · simp [hj]

/-- Reading after writing. -/
theorem Tab.get_set (d : α) {t : Tab α} (h : Tab.wf d t = true) (k j : Nat) (x : α) :
    Tab.get d (Tab.set d t k x) j = if j = k then x else Tab.get d t j := by
  unfold Tab.set
  split
  · subst x
    exact Tab.get_del ((Tab.wf_iff d t).1 h).1 k j
  · exact Tab.get_put d t k j x

theorem Tab.wf_foldl_set (d : α) {ι : Type} (f : ι → Nat) (g : ι → α) (l : List ι) {t : Tab α} (h : Tab.wf d t = true) :
    Tab.wf d (l.foldl (fun t i => Tab.set d t (f i) (g i)) t) = true := by
  induction l generalizing t with
  | nil => exact h
  | cons i l ih => exact ih (Tab.wf_set d h _ _)

end

/-! ### Views -/

theorem View.wf_iff (v : View) : v.wf = true ↔ Tab.wf 0 v.mem = true ∧ Tab.wf 0 v.pos = true := by simp [View.wf]

theorem View.wf_take {v : View} (h : v.wf = true) (cells : List (Nat × Byte × Nat)) : (v.take cells).wf = true := by
  unfold View.take
  induction cells generalizing v with
  | nil => exact h
  | cons c l ih =>
    simp only [List.foldl_cons]
    apply ih
    split
    · rw [View.wf_iff] at h ⊢
      exact ⟨Tab.wf_set 0 h.1 _ _, Tab.wf_set 0 h.2 _ _⟩
    · exact h

@[simp] theorem View.take_clock (v : View) (cells : List (Nat × Byte × Nat)) : (v.take cells).clock = v.clock := by
  unfold View.take
  induction cells generalizing v with
  | nil => rfl
  | cons c l ih =>
    simp only [List.foldl_cons]
    rw [ih]
    split <;> rfl

@[simp] theorem setNth_length {α : Type} (l : List α) (n : Nat) (x : α) : (setNth l n x).length = l.length := by
  induction l generalizing n with
  | nil => rfl
  | cons a l ih => cases n <;> simp [setNth, ih]

theorem setNth_mem {α : Type} {l : List α} {n : Nat} {x y : α} (h : y ∈ setNth l n x) : y = x ∨ y ∈ l := by
  induction l generalizing n with
  | nil => exact .inr h
  | cons a l ih =>
    cases n with
    | zero =>
      rcases List.mem_cons.1 h with h | h
      · exact .inl h
      · exact .inr (List.mem_cons_of_mem _ h)
    | succ n =>
      rcases List.mem_cons.1 h with h | h
      · exact .inr (h ▸ List.mem_cons_self)
      · rcases ih h with h | h
        · exact .inl h
        · exact .inr (List.mem_cons_of_mem _ h)

@[simp] theorem bump_length (c : List Nat) (d : Nat) : (bump c d).length = c.length := setNth_length _ _ _

/-! ### The canonical form (the operations of MemEff keep it) -/

theorem Memory.wf_iff (m : MemSys) : Memory.wf m = true ↔ (∀ v ∈ m.views, v.wf = true) ∧ Tab.wf 0 m.home = true
    ∧ Tab.wf 0 m.host = true ∧ Tab.wf none m.frameMap = true ∧ Tab.wf 0 m.reserved = true ∧ Tab.wf .good m.latent = true := by
  simp [Memory.wf, and_assoc]

theorem Memory.wf_views {m : MemSys} (h : Memory.wf m = true) {vs : List View} (hv : ∀ v ∈ vs, v.wf = true) :
    Memory.wf { m with views := vs } = true := by
  rw [Memory.wf_iff] at h ⊢
  exact ⟨hv, h.2⟩

/-- A view whose tables are those of a canonical one, or empty. -/
theorem View.wf_of_eq {v w : View} (h : w.wf = true) (hm : v.mem = w.mem) (hp : v.pos = w.pos) : v.wf = true := by
  rw [View.wf_iff] at h ⊢
  rw [hm, hp]
  exact h

/-- Every memory operation keeps the canonical form. -/
theorem Memory.wf_apply (e : MemEff) {m : MemSys} (h : Memory.wf m = true) : Memory.wf (e.apply m) = true := by
  have hw := (Memory.wf_iff m).1 h
  cases e with
  | commit die cells team gidx split =>
    rw [Memory.wf_iff]
    refine ⟨fun v hv => ?_, Tab.wf_foldl_set 0 _ _ _ hw.2.1, hw.2.2.1, hw.2.2.2⟩
    obtain ⟨p, hp, rfl⟩ := List.mem_map.1 hv
    have hp1 : p.1 ∈ m.views := (List.of_mem_zip hp).1
    split
    · exact View.wf_of_eq (View.wf_take (hw.1 _ hp1) _) rfl rfl
    · exact View.wf_of_eq (hw.1 _ hp1) rfl rfl
  | hostWrite cells =>
    rw [Memory.wf_iff]
    exact ⟨hw.1, hw.2.1, Tab.wf_foldl_set 0 _ _ _ hw.2.2.1, hw.2.2.2⟩
  | applyWrite die k =>
    simp only [MemEff.apply]
    split
    · exact h
    · rename_i v hv
      split
      · exact h
      · apply Memory.wf_views h
        intro x hx
        rcases setNth_mem hx with hx | hx
        · subst hx
          exact View.wf_of_eq (View.wf_take (hw.1 v (List.mem_of_getElem? hv)) _) rfl rfl
        · exact hw.1 x hx
  | poison sector on => exact h
  | bury sector on => exact h
  | latent sector e =>
    rw [Memory.wf_iff]
    exact ⟨hw.1, hw.2.1, hw.2.2.1, hw.2.2.2.1, hw.2.2.2.2.1, Tab.wf_set Ecc.good hw.2.2.2.2.2 _ _⟩
  | frame f pw =>
    simp only [MemEff.apply]
    split
    · rw [Memory.wf_iff]
      exact ⟨hw.1, hw.2.1, hw.2.2.1, Tab.wf_set none hw.2.2.2.1 _ _, hw.2.2.2.2⟩
    · exact h
  | reserve stack units =>
    rw [Memory.wf_iff]
    exact ⟨hw.1, hw.2.1, hw.2.2.1, hw.2.2.2.1, Tab.wf_set 0 hw.2.2.2.2.1 _ _, hw.2.2.2.2.2⟩
  | wipe lo hi =>
    rw [Memory.wf_iff]
    refine ⟨fun v hv => ?_, hw.2.1, hw.2.2.1, hw.2.2.2.1, hw.2.2.2.2.1, Tab.wf_filter Ecc.good hw.2.2.2.2.2 _⟩
    obtain ⟨w, hm, rfl⟩ := List.mem_map.1 hv
    have := (View.wf_iff w).1 (hw.1 w hm)
    rw [View.wf_iff]
    exact ⟨Tab.wf_clear 0 this.1 _ _, this.2⟩
  | scramble lo hi seed =>
    rw [Memory.wf_iff]
    refine ⟨fun v hv => ?_, hw.2⟩
    obtain ⟨w, hm, rfl⟩ := List.mem_map.1 hv
    have := (View.wf_iff w).1 (hw.1 w hm)
    rw [View.wf_iff]
    exact ⟨Tab.wf_foldl_set 0 _ _ _ this.1, this.2⟩
  | moving l => exact h
  | ored l => exact h
  | reset =>
    rw [Memory.wf_iff]
    exact ⟨fun v hv => by rw [List.eq_of_mem_replicate (n := 8) hv]; rfl, rfl, hw.2.2.1, rfl, rfl, rfl⟩
  | retag team gidx a b =>
    rw [Memory.wf_iff]
    refine ⟨fun v hv => ?_, hw.2⟩
    obtain ⟨w, hm, rfl⟩ := List.mem_map.1 hv
    exact View.wf_of_eq (hw.1 w hm) rfl rfl

/-- The reset memory is canonical. -/
theorem Memory.wf_reset : Memory.wf State.reset.mem = true := by decide

/-! ### Dies, clocks and frames -/

theorem MemEff.views_length (e : MemEff) {m : MemSys} (h : m.views.length = 8) : (e.apply m).views.length = 8 := by
  cases e with
  | applyWrite die k =>
    simp only [MemEff.apply]
    split
    · exact h
    · split
      · exact h
      · simp [h]
  | frame f pw =>
    simp only [MemEff.apply]
    split <;> exact h
  | _ => simp [MemEff.apply, h]

theorem MemEff.clock_length (e : MemEff) {m : MemSys} (h : ∀ v ∈ m.views, v.clock.length = 8) (_h8 : m.views.length = 8) :
    ∀ v ∈ (e.apply m).views, v.clock.length = 8 := by
  have hd (d : Nat) : (m.views.getD d {}).clock.length = 8 := by
    by_cases hl : d < m.views.length
    · simp only [List.getD, List.getElem?_eq_getElem hl, Option.getD_some]
      exact h _ (List.getElem_mem hl)
    · simp only [List.getD, List.getElem?_eq_none (Nat.le_of_not_lt hl), Option.getD_none]
      rfl
  cases e with
  | commit die cells team gidx split =>
    intro v hv
    obtain ⟨p, hp, rfl⟩ := List.mem_map.1 hv
    split
    · simp only [bump_length]
      exact hd die
    · show p.1.clock.length = 8
      exact h _ (List.of_mem_zip hp).1
  | applyWrite die k =>
    simp only [MemEff.apply]
    split
    · exact h
    · rename_i v hv
      split
      · exact h
      · intro x hx
        rcases setNth_mem hx with hx | hx
        · subst hx
          simp [h v (List.mem_of_getElem? hv)]
        · exact h x hx
  | frame f pw =>
    simp only [MemEff.apply]
    split <;> exact h
  | wipe lo hi =>
    intro v hv
    obtain ⟨w, hm, rfl⟩ := List.mem_map.1 hv
    exact h w hm
  | scramble lo hi seed =>
    intro v hv
    obtain ⟨w, hm, rfl⟩ := List.mem_map.1 hv
    exact h w hm
  | retag team gidx a b =>
    intro v hv
    obtain ⟨w, hm, rfl⟩ := List.mem_map.1 hv
    exact h w hm
  | reset =>
    intro v hv
    rw [List.eq_of_mem_replicate (n := 8) hv]
    rfl
  | _ => exact h

theorem legal_home_fin : ∀ i : Fin 16, legalPlacement (homePlacement i.val) = true := by decide

theorem homePlacement_mod (f : Nat) : homePlacement f = homePlacement (f % 16) := by simp [homePlacement]

/-- The home placement of a frame is legal (R133, R134). -/
theorem legal_home (f : Nat) : legalPlacement (homePlacement f) = true := by
  rw [homePlacement_mod]
  exact legal_home_fin ⟨f % 16, Nat.mod_lt _ (by omega)⟩

theorem frameWord_frame {m : MemSys} (h : Memory.wf m = true) (f j : Nat) (pw : W32) (hl : legalPlacement pw = true) :
    ((MemEff.frame f pw).apply m).frameWord j = if j = f then pw else m.frameWord j := by
  have ht := ((Memory.wf_iff m).1 h).2.2.2.1
  simp only [MemEff.apply, hl, if_true, MemSys.frameWord, Tab.get_set none ht]
  by_cases hj : j = f
  · subst hj
    by_cases hp : pw = homePlacement j <;> simp [hp]
  · simp [hj]

end Sys2Proof.Machine
end

