-- ==== Sys2Proof/Tests/Slice0.lean ====
section
/-! SUPPORT. Tests of the model against the worked words and tables of the spec, and, for the claims of
Certificates/Slice0, states and operands that meet their hypotheses. -/
namespace Sys2Proof.Tests

open Sys2Proof.Machine

set_option Elab.async false

/-! ### Small states -/

/-- The words of an instruction as one number. -/
def words (l : List (BitVec 32)) : Nat := l.foldr (fun w n => w.toNat + 2 ^ 32 * n) 0

/-- A state whose next step fetches and runs the words. -/
def placed (l : List (BitVec 32)) : State := State.reset.withFetchWord 128 (words l)

def iss : Issuer := ⟨1, 0, 0⟩
def theTeam (s : State) : Team := (s.team? 1).getD (placedTeam 1)
def theGroup (s : State) : Group := (s.group? 1 0).getD (newGroup (placedLaunch 1) 0 ⟨0, 0, 0, []⟩)
def theLaunch (s : State) : Launch := (s.launch? 1).getD (placedLaunch 1)
def theEnv (s : State) (i : Instr) : Env := envOf s iss (theGroup s) (theLaunch s) i (Instr.head i)
def begun (s : State) (i : Instr) : Group := s.starting iss (theGroup s) i

def issuesB (s : State) : Bool :=
  s.cur == some iss && (s.team? 1).isSome && (s.group? 1 0).isSome && (s.launch? (theTeam s).launch) == some (theLaunch s)
    && ((theGroup s).split 0).live

theorem issues_of {s : State} (h : issuesB s = true) : Issues s iss (theTeam s) (theGroup s) (theLaunch s) := by
  simp only [issuesB, Bool.and_eq_true, beq_iff_eq, Option.isSome_iff_exists] at h
  obtain ⟨⟨⟨⟨h1, t, h2⟩, g, h3⟩, h4⟩, h5⟩ := h
  refine ⟨h1, ?_, ?_, h4, h5⟩
  · show s.team? 1 = _; simp [theTeam, h2]
  · show s.group? 1 0 = _; simp [theGroup, h3]

def performsB (s : State) (i : Instr) : Bool := issuesB s && Instr.runs i (theEnv s i) && (theEnv s i).active

theorem performs_of {s : State} {i : Instr} (h : performsB s i = true) :
    Performs s i iss (theTeam s) (theGroup s) (theLaunch s) (theEnv s i) := by
  simp only [performsB, Bool.and_eq_true] at h
  exact ⟨issues_of h.1.1, rfl, h.1.2, h.2⟩

def readyB (s : State) (i : Instr) : Bool := performsB s i && (Instr.shape i).ready (theEnv s i) (theTeam s) (begun s i)

theorem ready_of {s : State} {i : Instr} (h : readyB s i = true) :
    Ready s i iss (theTeam s) (theGroup s) (theLaunch s) (theEnv s i) := by
  simp only [readyB, Bool.and_eq_true] at h
  exact ⟨performs_of h.1, h.2⟩

/-- Heads: unguarded, G = 0 and G = 1, with literal words. -/
def hp (l : Lits := .none) : Head := ⟨false, false, 7, l⟩
def hu (l : Lits := .none) : Head := ⟨true, false, 7, l⟩
def rr (d : BitVec 8) : Res := ⟨false, 0, d⟩

/-! ### Changes of a small state -/

def onTeam (f : Team → Team) (s : State) : State := { s with teams := s.teams.map f }
def onGroup (f : Group → Group) (s : State) : State := onTeam (fun t => { t with groups := t.groups.map f }) s
def onSplit (f : Split → Split) (s : State) : State := onGroup (fun g => g.modSplit 0 f) s
def onDesc (f : Desc → Desc) (s : State) : State :=
  { s with dev := { s.dev with launches := s.dev.launches.map (fun l => { l with desc := f l.desc }) } }
def onDev (f : Dev → Dev) (s : State) : State := { s with dev := f s.dev }
/-- s4 and s5, as addresses. -/
def withS (a b : W64) (s : State) : State := onGroup (fun g => { g with s := [(4, a), (5, b)] }) s
/-- Supervisor level, and a running handler of the issuing split. -/
def atSup (s : State) : State := onSplit (fun x => { x with sup := true }) s

/-! ### Checks of premises -/

def mapsB (s : State) (agent die : Nat) (key : SlotKey) (sup : Bool) (need : Need) (va : W64) (x : Nat × Bool) : Bool :=
  canonical va && (walksOf s agent die key va).all (fun w => match walkCheck (s.dev.part (key / 16)) sup need va w with
    | .ok y => y == x
    | .error _ => false)

theorem maps_of {s : State} {agent die : Nat} {key : SlotKey} {sup : Bool} {need : Need} {va : W64} {x : Nat × Bool}
    (h : mapsB s agent die key sup need va x = true) : Maps s agent die key sup need va x := by
  simp only [mapsB, Bool.and_eq_true, List.all_eq_true] at h
  refine ⟨h.1, fun w hw => ?_⟩
  have := h.2 w hw
  cases hc : walkCheck (s.dev.part (key / 16)) sup need va w with
  | ok y => rw [hc] at this; simpa using this
  | error y => rw [hc] at this; simp at this

def startB (s : State) (core : Nat) (l : Launch) (sup : Bool) (x : W64) (pa : Nat) : Bool :=
  mapsB s core (dieOf core) l.cmd.slot sup .fetch (BitVec.ofNat 64 (x.toNat / 32 * 32)) (pa, true) && !inPeer pa
    && (List.range 8).all (fun i => !l.stale.contains (pa / 32 * 8 + i)) && (targetBad l.desc x (blockWords s core (pa / 32 * 32))).isNone

theorem start_of {s : State} {core : Nat} {l : Launch} {sup : Bool} {x : W64} {pa : Nat} (h : startB s core l sup x pa = true) :
    StartAt s core l sup x := by
  simp only [startB, Bool.and_eq_true, List.all_eq_true, Bool.not_eq_true', List.mem_range, Option.isNone_iff_eq_none] at h
  exact ⟨pa, true, maps_of h.1.1.1, h.1.1.2, h.1.2, h.2⟩

def reachB (s : State) (e : Env) (need : Need) (eas : List (Nat × W64)) (pas : List (Nat × W64 × Nat × Bool)) : Bool :=
  (pas.map (fun p => (p.1, p.2.1)) == eas)
    && pas.all (fun p => mapsB s e.core e.die e.key e.sup need p.2.1 p.2.2 && !inPeer p.2.2.1)

theorem reach_of {s : State} {e : Env} {need : Need} {eas : List (Nat × W64)} {pas : List (Nat × W64 × Nat × Bool)}
    (h : reachB s e need eas pas = true) : Reach s e need eas pas := by
  simp only [reachB, Bool.and_eq_true, List.all_eq_true, Bool.not_eq_true', beq_iff_eq] at h
  exact ⟨h.1, fun p hp => ⟨maps_of (h.2 p hp).1, (h.2 p hp).2⟩⟩

/-- The rows that the operands of an instruction give where all of them are defined. -/
def rowsB (g : Group) (lits : Lits) (lanes : List Nat) (sh : Shape) (rows : Rows) : Bool :=
  rows.map (·.1) == lanes && rows.all (fun p => p.2.length == sh.srcs.length
    && (List.range sh.srcs.length).all (fun k => match sh.srcs[k]? with
      | some o => opndVal g lits p.1 o == none || opndVal g lits p.1 o == p.2[k]?
      | none => true))

theorem rows_of {g : Group} {lits : Lits} {lanes : List Nat} {sh : Shape} {rows : Rows} (h : rowsB g lits lanes sh rows = true) :
    RowsOf g lits lanes sh rows := by
  simp only [rowsB, Bool.and_eq_true, List.all_eq_true, beq_iff_eq, List.mem_range] at h
  refine ⟨h.1, fun p hp => ⟨(h.2 p hp).1, fun k o v hk hv => ?_⟩⟩
  have hlt : k < sh.srcs.length := by
    rcases Nat.lt_or_ge k sh.srcs.length with h1 | h1
    · exact h1
    · rw [List.getElem?_eq_none h1] at hk; cases hk
  have h2 := (h.2 p hp).2 k hlt
  rw [hk] at h2
  simp only [hv, Bool.or_eq_true, beq_iff_eq] at h2
  rcases h2 with h3 | h3
  · cases h3
  · exact h3.symm

/-- Rows with the same operands in every lane. -/
def sameRows (lanes : List Nat) (xs : List W64) : Rows := lanes.map (fun n => (n, xs))

/-- 64-bit words in every die's view. -/
def putMem (l : List (Nat × W64)) (s : State) : State :=
  let cells := l.flatMap (fun x => cellsAt x.1 8 x.2)
  { s with mem := { s.mem with views := s.mem.views.map (fun v => { v with mem := cells.foldl (fun m c => Tab.set 0 m c.1 c.2) v.mem }) } }

/-- Memory in which no die has taken a write yet, with every frame at its home placement. -/
def invB (s : State) : Bool :=
  Memory.wf s.mem && s.mem.views.length == 8 && s.mem.views.all (fun v => v.clock.length == 8 && v.pos.isEmpty
      && v.queue.all (fun w => w.cells.all (fun c => c.2.2 ≤ Tab.get 0 s.mem.home c.1)))
    && s.mem.frameMap.isEmpty

theorem inv_of {s : State} (h : invB s = true) : Inv s := by
  simp only [invB, Bool.and_eq_true, List.all_eq_true, beq_iff_eq, List.isEmpty_iff, decide_eq_true_eq] at h
  obtain ⟨⟨⟨h1, h2⟩, h3⟩, h4⟩ := h
  refine ⟨h1, h2, fun v hv => (h3 v hv).1.1, fun v hv => ⟨fun a => ?_, fun w hw => (h3 v hv).2 w hw⟩, fun f => ?_⟩
  · rw [(h3 v hv).1.2]; exact Nat.zero_le _
  · simp only [MemSys.frameWord, h4]; exact legal_home f

/-- An instruction whose operands are ready, its rows, and what more is asked of it. -/
def Met (i : Instr) (rows : Rows) (P : State → Team → Group → Launch → Env → Prop) : Prop :=
  ∃ s c t g l e, Ready s i c t g l e ∧ RowsOf (s.starting c g i) (Instr.head i).lits e.lanes (Instr.shape i) rows ∧ P s t g l e

def metB (s : State) (i : Instr) (rows : Rows) : Bool :=
  readyB s i && rowsB (begun s i) (Instr.head i).lits (theEnv s i).lanes (Instr.shape i) rows

theorem met_of {i : Instr} {rows : Rows} (s : State) {P : State → Team → Group → Launch → Env → Prop} (h : metB s i rows = true)
    (hp : P s (theTeam s) (theGroup s) (theLaunch s) (theEnv s i)) : Met i rows P := by
  simp only [metB, Bool.and_eq_true] at h
  exact ⟨s, iss, _, _, _, _, ready_of h.1, rows_of h.2, hp⟩

theorem ok_of {ε α : Type} [DecidableEq α] {x : Except ε α} {y : α} (h : (match x with
    | .ok z => z == y
    | .error _ => false) = true) : x = .ok y := by
  cases x with
  | ok z => simpa using h
  | error z => simp at h

theorem sound_of {m : MemSys} {pa n : Nat} (h : (m.eccGood pa n && !m.poisoned pa n) = true) : m.sound pa n := by
  simp only [Bool.and_eq_true, Bool.not_eq_true'] at h
  exact ⟨h.1, h.2⟩

theorem clock_of {s : State} {e : Env} (h : (s.team? e.team).all (fun t => clockOk s t e.die) = true) : ClockOk s e := fun t ht => by
  simpa [ht] using h

theorem gives_of {s : State} {e : Env} {l : Launch} {va : W64} {wide : Bool} {pa : Nat} {x : W64} (hw : (wide && pageSplit va) = false)
    (h : WindowHas s e l va (if wide then 8 else 4) pa x) : WindowGives s e l va wide pa x := by
  simpa [WindowGives, hw] using h

/-! ### Decoding: words and assembly as the spec lists them (files 00, 03, 07, 09, 12 to 16, 20, 22, 24) -/

def dec (l : List (BitVec 32)) : Except Nat Instr := decode false l

theorem test_decode_latch_chain :
    dec [0x03540101, 0x00000001] = .ok (.add ⟨false, true, 2, .none⟩ .i32 ⟨false, 1, 3⟩ (.v 1) (.v 0))
    ∧ dec [0x00AE0109, 0x00003005] = .ok (.mul hp .i32 ⟨true, 2, 0⟩ (.v 5) (.v 6))
    ∧ dec [0x070E0101, 0x000024C2] = .ok (.add hp .i32 (rr 7) (.b 2) (.v 4)) := ⟨rfl, rfl, rfl⟩
theorem test_decode_system :
    dec [0x000E0035, 0] = .ok (.srd hp .i32 (rr 0) .lane) ∧ dec [0x020E0035, 0x00001000] = .ok (.srd hp .i32 (rr 2) .team)
    ∧ dec [0x000E0025, 0x000005C1] = .ok (.eretExit hp) ∧ dec [0x000E002D, 0x06FFB800] = .ok (.sigchk hp 0xDFF7)
    ∧ dec [0x000E0031, 0] = .ok (.rgn hp) ∧ dec [0x000F003D, 0x0000040E] = .ok (.tevict hu (.s 14)) :=
  ⟨rfl, rfl, rfl, rfl, rfl, rfl⟩
theorem test_decode_control :
    dec [0x00020005, 0x7FFFA800] = .ok (.bra ⟨false, false, 1, .none⟩ (BitVec.ofInt 20 (-11)))
    ∧ dec [0x00000015, 0] = .ok (.exit ⟨false, false, 0, .none⟩) ∧ dec [0x0A0F000D, 0x00001000] = .ok (.call hu 10 2)
    ∧ dec [0x000F000A, 0x0028040A, 0xFFFFFF68] = .ok (.jmp (hu (.one 0xFFFFFF68)) (.s 10) .lit0)
    ∧ dec [0x00050021, 0x00003800] = .ok (.sysc ⟨true, false, 2, .none⟩ 7) := ⟨rfl, rfl, rfl, rfl, rfl⟩
theorem test_decode_integer :
    dec [0x010E1101, 0x00000001] = .ok (.add hp .n32 (rr 1) (.v 1) (.v 0))
    ∧ dec [0x060E1115, 0xB8002004] = .ok (.madw hp .n32 (rr 6) (.v 4) (.v 4) (.imm 0)) := ⟨rfl, rfl⟩
theorem test_decode_bits :
    dec [0x010E0215, 0x00002002] = .ok (.shl hp .i32 (rr 1) (.v 2) (.imm 4))
    ∧ dec [0x140F3219, 0x00004414] = .ok (.shr hu .n64 (rr 20) (.s 20) (.imm 8))
    ∧ dec [0x060E0245, 0x00000001] = .ok (.mov hp .i32 (rr 6) (.v 1))
    ∧ dec [0x280E124D, 0x00001801] = .ok (.cmp hp .n32 0 .ge (.v 1) (.v 3))
    ∧ dec [0x030E022D, 0x00000003] = .ok (.popc hp .i32 (rr 3) (.v 3))
    ∧ dec [0x000E0255, 0x000005C8] = .ok (.setx hp 0 (.imm 8) (.imm 0))
    ∧ dec [0x000E0249, 0x8800000B] = .ok (.movx hp .i32 (rr 0) (.v 11) 0) := ⟨rfl, rfl, rfl, rfl, rfl, rfl, rfl⟩
theorem test_decode_float :
    dec [0x0C0E4305, 0x0010000C] = .ok (.fsub hp .f32 (rr 12) (.v 12) (.vx 0 0))
    ∧ dec [0x040E4311, 0x60200001] = .ok (.fmaImmediate hp .f32 (rr 4) (.v 1) 0xC0400)
    ∧ dec [0x040E4315, 0x20008001] = .ok (.fmaConstant hp .f32 (rr 4) (.v 1) 0x40010)
    ∧ dec [0x0B0F4401, 0x002E0C0B] = .ok (.cvt hu .f32 (rr 11) (.s 11) .n32) := ⟨rfl, rfl, rfl, rfl⟩
theorem test_decode_lanes :
    dec [0x020E0515, 0] = .ok (.elect hp 2) ∧ dec [0x030E2505, 0x002E0001] = .ok (.voteBallot hp (rr 3) ⟨false, false, 1⟩ 0)
    ∧ dec [0x030E1511, 0x002E0002] = .ok (.rngk hp (rr 3) (.v 2) (.imm 0)) := ⟨rfl, rfl, rfl⟩
theorem test_decode_memory :
    dec [0x060E4602, 0x84001404, 0x00000010] = .ok (.ldg (hp (.one 16)) .f32 (rr 6) .acq .dev false 0 (.s 4) (.v 2))
    ∧ dec [0x0C0E4606, 0x80004C04, 0x00000280] = .ok (.stg (hp (.one 0x280)) .f32 12 .rlx .dev 0 (.s 4) (.v 9))
    ∧ dec [0x060F2705, 0x202E043F] = .ok (.stl hu .i64 6 .rlx .team (.s 63) (.imm 0))
    ∧ dec [0x030E1709, 0x002E05C0] = .ok (.ldk hp .n32 (rr 3) 0 (.imm 0))
    ∧ dec [0x070E470E, 0x002E0002, 0x0000C000] = .ok (.lda (hp (.one 0xC000)) .f32 (rr 7) (.v 2) (.imm 0)) :=
  ⟨rfl, rfl, rfl, rfl, rfl⟩
theorem test_decode_atomics :
    dec [0x080E1806, 0x8C2E0406, 0x00005009] = .ok (.cas hp .n32 (rr 8) .ar .dev false (.s 6) (.imm 0) (.v 9) (.v 10) .rlx)
    ∧ dec [0x0004180E, 0x882E0408, 0x00000803] = .ok (.ored ⟨false, false, 2, .none⟩ .n32 .rel .dev false (.s 8) (.imm 0) (.v 3) (.v 1))
    ∧ dec [0x000F081D, 0x8C2E043F] = .ok (.arw hu .ar .dev (.s 63) (.imm 0))
    ∧ dec [0x000F0815, 0x882E043F] = .ok (.arrive hu .rel .dev (.s 63) (.imm 0))
    ∧ dec [0x3F0F0819, 0x842E043F] = .ok (.waitb hu 63 .acq .dev (.s 63) (.imm 0)) := ⟨rfl, rfl, rfl, rfl, rfl⟩
theorem test_decode_translation :
    dec [0x000F0905, 0x002E0404] = .ok (.pgunmap hu (.s 4) (.imm 0))
    ∧ dec [0x3F0F1909, 0x002E0404] = .ok (.tlbinvSync hu 63 (.s 4) (.imm 0)) := ⟨rfl, rfl⟩
theorem test_decode_engines :
    dec [0x000F0A02, 0xA02035C0, 0x10004000] = .ok (.cpy (hu (.one 0x10004000)) 0 (.imm 0) (.s 6) .lit0)
    ∧ dec [0x000F0A09, 0x00000480] = .ok (.fwait hu 0)
    ∧ dec [0x030FCB01, 0xBA205C0A] = .ok (.mma hu .bfp 3 (.s 10) (.s 11) 8)
    ∧ dec [0x040FCB09, 0xBA206C0C] = .ok (.scacc hu 4 (.s 12) (.s 13) 8)
    ∧ dec [0x020FCB0E, 0xBA2805C0, 0x00004000] = .ok (.bqnt (hu (.one 0x4000)) 2 (.imm 0) .lit0 8)
    ∧ dec [0x000F0B16, 0x002E0D00, 0x0000C000] = .ok (.accz (hu (.one 0xC000)) .i32 .lit0 (.imm 1) 0) :=
  ⟨rfl, rfl, rfl, rfl, rfl, rfl⟩
theorem test_decode_forests :
    dec [0x08121C01, 0x014025C0] = .ok (.unite ⟨false, true, 1, .none⟩ (rr 8) (.imm 0) (.v 4) (.v 5))
    ∧ dec [0x090E1C05, 0x00000DC0] = .ok (.find hp (rr 9) (.imm 0) (.v 1))
    ∧ dec [0x110F1C0D, 0x002E05C0] = .ok (.fcount hu (rr 17) (.imm 0) 0)
    ∧ dec [0x050F4C11, 0x00207DC0] = .ok (.relabel hu .f32 5 (.imm 0) (.s 15)) := ⟨rfl, rfl, rfl, rfl⟩
theorem test_decode_recipes_and_power :
    dec [0x020E0D01, 0] = .ok (.rcp hp 2 0) ∧ dec [0x020E0D0D, 0] = .ok (.rcpdem hp 2)
    ∧ dec [0x000F0E09, 0x00000800] = .ok (.pwrset hu 1) := ⟨rfl, rfl, rfl⟩

/-- Words that the spec lists as illegal (R86, R68, R85). -/
theorem test_decode_refuses :
    dec [0x00000004] = .error 0x01 ∧ dec [0x00000F01, 0] = .error 0x03 ∧ dec [0x010E4101, 0x00300001] = .error 0x04
    ∧ dec [0x020E1102, 0x00001802, 0] = .error 0x09 ∧ dec [0x284E124D, 0x00001801] = .error 0x06 := ⟨rfl, rfl, rfl, rfl, rfl⟩

/-! ### Ill-formed instructions are refused, one for each check -/

theorem test_wf_destination :  -- R85: an odd pair, s64, a latch or NWB with G = 1, D beside NWB
    Instr.wf (.add hp .i64 (rr 3) (.v 2) (.v 4)) = false ∧ Instr.wf (.add hu .i32 (rr 64) (.s 1) (.s 2)) = false
    ∧ Instr.wf (.add hu .i32 ⟨false, 1, 3⟩ (.s 1) (.s 2)) = false ∧ Instr.wf (.add hu .i32 ⟨true, 0, 0⟩ (.s 1) (.s 2)) = false
    ∧ Instr.wf (.add hp .i32 ⟨true, 0, 1⟩ (.v 1) (.v 2)) = false := by decide +kernel
theorem test_wf_sources :  -- R70: v with G = 1, an odd pair, literal 64 in a 32-bit operand, v of a uniform operand
    Instr.wf (.add hu .i32 (rr 3) (.v 1) (.s 2)) = false ∧ Instr.wf (.add hp .i64 (rr 2) (.v 1) (.s 2)) = false
    ∧ Instr.wf (.mov (hp (.two 1 2)) .i32 (rr 3) .lit64) = false ∧ Instr.wf (.rejoin hp (.v 0) (.s 2)) = false := by decide +kernel
theorem test_wf_narrow_source :  -- R69: C names s0 to s31, immediates −16 to 15, bases below 64
    Instr.wf (.mad hp .i32 (rr 3) (.v 1) (.v 2) (.s 32)) = false ∧ Instr.wf (.mad hp .i32 (rr 3) (.v 1) (.v 2) (.imm 16)) = false
    ∧ Instr.wf (.mad hp .i32 (rr 3) (.v 1) (.v 2) (.vx 0 64)) = false := by decide +kernel
theorem test_wf_literals :  -- R68: a literal that no source selects, one that is not there, a gap
    Instr.wf (.add (hp (.one 5)) .i32 (rr 3) (.v 1) (.v 2)) = false ∧ Instr.wf (.add hp .i32 (rr 3) (.v 1) .lit0) = false
    ∧ Instr.wf (.add (hp (.two 5 6)) .i32 (rr 3) (.v 1) .lit1) = false ∧ Instr.wf (.nop (hp (.one 0))) = false := by decide +kernel
theorem test_wf_types :  -- R83: types outside a form's list
    Instr.wf (.add hp .f32 (rr 3) (.v 1) (.v 2)) = false ∧ Instr.wf (.fadd hp .i32 (rr 3) (.v 1) (.v 2)) = false
    ∧ Instr.wf (.mulh hp .i16 (rr 3) (.v 1) (.v 2)) = false ∧ Instr.wf (.fdiv hp .f16 (rr 3) (.v 1) (.v 2)) = false
    ∧ Instr.wf (.mma hu .bfp 3 (.s 10) (.s 11) 9) = false ∧ Instr.wf (.mma hu .f32 3 (.s 10) (.s 11) 2) = false
    ∧ Instr.wf (.cvts hp .i32 (rr 2) (.v 1) .f32) = false ∧ Instr.wf (.accz hu .n32 (.s 1) (.s 2) 0) = false := by decide +kernel
theorem test_wf_guards :  -- R85: forms of one G only, p predicates with G = 1
    Instr.wf (.elect hu 1) = false ∧ Instr.wf (.pwrset hp 1) = false ∧ Instr.wf (.tevict hp (.s 1)) = false
    ∧ Instr.wf (.sel hu .i32 (rr 1) (.s 1) (.s 2) ⟨false, false, 1⟩) = false := by decide +kernel
theorem test_wf_orders :  -- R151 to R169: orders, hints and operations outside a form's list
    Instr.wf (.ldg hp .i32 (rr 1) .rel .dev false 0 (.s 4) (.v 2)) = false
    ∧ Instr.wf (.ldg hp .i32 (rr 1) .acq .dev true 0 (.s 4) (.v 2)) = false
    ∧ Instr.wf (.stg hp .i32 1 .acq .dev 0 (.s 4) (.v 2)) = false ∧ Instr.wf (.stg hp .i32 1 .rlx .dev 5 (.s 4) (.v 2)) = false
    ∧ Instr.wf (.red hp .i32 .acq .dev false (.s 4) (.v 2) .add (.v 3)) = false ∧ Instr.wf (.fence hp .rlx .dev) = false
    ∧ Instr.wf (.waitb hu 63 .rel .dev (.s 63) (.imm 0)) = false ∧ Instr.wf (.arw hu .sc .dev (.s 63) (.imm 0)) = false
    ∧ Instr.wf (.cas hp .i32 (rr 1) .rlx .dev false (.s 4) (.v 2) (.v 3) (.v 5) .rel) = false
    ∧ Instr.wf (.atm hp .f32 (rr 1) .rlx .dev false (.s 4) (.v 2) .and (.v 3)) = false
    ∧ Instr.wf (.cas (hp (.one 1)) .i32 (rr 1) .rlx .dev false (.s 4) .lit0 (.v 3) (.v 5) .rlx) = false := by decide +kernel
theorem test_wf_system :  -- R191, R192: a per-thread register with G = 1, a register no swr names, reserved codes
    Instr.wf (.srd hu .i32 (rr 1) .lane) = false ∧ Instr.wf (.srd hp .i32 (rr 1) .pgwatch) = false
    ∧ Instr.wf (.swr hu .i32 (.s 1) .lane) = false ∧ Instr.wf (.scwin hu (.s 1) (.s 2) 0 3) = false
    ∧ Instr.wf (.cntrd hu (rr 2) (.evt 13)) = false ∧ Instr.wf (.pwrset hu 3) = false := by decide +kernel

/-! ### Witnesses: computing, levels, register ranges -/

/-- A form of every operation of classes 1 to 5 but `fma` with a window operand. -/
def computeForms : List Instr :=
  let p : PredF := ⟨false, false, 1⟩
  [.add hp .i32 (rr 3) (.v 1) (.v 0), .sub hp .i32 (rr 3) (.v 1) (.imm 1), .mul hp .n64 (rr 4) (.v 2) (.v 0), .mulh hp .i32 (rr 3) (.v 1) (.v 2),
   .mad hp .i32 (rr 3) (.v 1) (.v 2) (.v 4), .madw hp .n32 (rr 6) (.v 4) (.v 4) (.imm 0), .div hp .i32 (rr 3) (.v 1) (.v 2),
   .rem hp .i32 (rr 3) (.v 1) (.v 2), .abs hp .i32 (rr 3) (.v 1), .neg hp .i32 (rr 3) (.v 1), .min hp .i32 (rr 3) (.v 1) (.v 2),
   .max hp .i32 (rr 3) (.v 1) (.v 2), .clamp hp .i32 (rr 3) (.v 1) (.v 2) (.v 4), .lea hp .i64 (rr 2) (.v 4) (.v 1) (.imm 2),
   .addc hp .n32 (rr 3) (.v 1) (.v 2) (.v 4), .subb hp .n32 (rr 3) (.v 1) (.v 2) (.v 4)]
  ++ [.and hp .i32 (rr 3) (.v 1) (.v 2), .or hp .i32 (rr 3) (.v 1) (.v 2), .xor hp .i32 (rr 3) (.v 1) (.v 2), .andn hp .i32 (rr 3) (.v 1) (.v 2),
   .not hp .i32 (rr 3) (.v 1), .shl hp .i32 (rr 1) (.v 2) (.imm 4), .shr hu .n64 (rr 20) (.s 20) (.imm 8), .sar hp .i32 (rr 1) (.v 2) (.src (.v 3)),
   .rot hp .i32 (rr 1) (.v 2) (.imm 4), .bfx hp .i32 (rr 3) (.v 1) (.v 2), .bfi hp .i32 (rr 3) (.v 1) (.v 2) (.v 4), .popc hp .i32 (rr 3) (.v 3),
   .clz hp .i32 (rr 3) (.v 3), .ctz hp .i32 (rr 3) (.v 3), .brev hp .i32 (rr 3) (.v 3), .perm hp (rr 3) (.v 1) (.v 2) (.v 4),
   .sel hp .i32 (rr 3) (.v 1) (.v 2) p, .mov hp .i32 (rr 6) (.v 1), .movx hp .i32 (rr 0) (.v 1) 0, .cmp hp .n32 0 .ge (.v 1) (.v 3),
   .plop hp 0 p p p 0x80, .setx hp 0 (.imm 8) (.imm 0)]
  ++ [.fadd hp .f32 (rr 3) (.v 1) (.v 2), .fsub hp .f32 (rr 3) (.v 1) (.v 2), .fmul hp .f32 (rr 3) (.v 1) (.v 2),
   .fma hp .f32 (rr 3) (.v 1) (.v 2) (.v 4), .fmaImmediate hp .f32 (rr 4) (.v 1) 0xC0400, .fmin hp .f32 (rr 3) (.v 1) (.v 2),
   .fmax hp .f32 (rr 3) (.v 1) (.v 2), .fabs hp .f32 (rr 3) (.v 1), .fneg hp .f32 (rr 3) (.v 1), .fcmp hp .f32 1 .lt (.v 1) (.v 2),
   .fclass hp .f32 1 (.v 1) (.imm 3), .frnd hp .f32 (rr 3) (.v 1) .dyn, .fdiv hp .f32 (rr 3) (.v 1) (.v 2), .fsqrt hp .f32 (rr 3) (.v 1)]
  ++ [.cvt hu .f32 (rr 11) (.s 11) .n32, .cvts hp .f16 (rr 3) (.v 1) .f32, .frcp hp .f32 (rr 3) (.v 1), .frsq hp .f32 (rr 3) (.v 1),
   .fex2 hp .f32 (rr 3) (.v 1), .flg2 hp .f32 (rr 3) (.v 1), .fsin hp .f32 (rr 3) (.v 1), .fcos hp .f32 (rr 3) (.v 1), .ftanh hp .f32 (rr 3) (.v 1)]
  ++ [.lxch hp .i32 (rr 3) (.v 1) (.imm 1) .up, .voteAll hp 1 p, .voteAny hp 1 p, .voteBallot hp (rr 3) p 0, .gred hp .i32 (rr 3) (.v 1) .add,
   .gscan hp .i32 (rr 3) (.v 1) .add, .rngk hp (rr 3) (.v 2) (.imm 0), .elect hp 2]

theorem witness_compute : ∀ i ∈ computeForms, ∃ k, Instr.comp i = some k ∧ Ready (placed [0]) i iss (theTeam (placed [0]))
    (theGroup (placed [0])) (theLaunch (placed [0])) (theEnv (placed [0]) i) ∧ Konst (placed [0]) (theEnv (placed [0]) i) (theLaunch (placed [0])) k [] := by
  have h : ∀ i ∈ computeForms, readyB (placed [0]) i = true ∧ ((Instr.comp i).map (·.konst)) = some none := by decide +kernel
  intro i hi
  obtain ⟨h1, h2⟩ := h i hi
  cases hc : Instr.comp i with
  | none => rw [hc] at h2; cases h2
  | some k =>
    rw [hc] at h2
    simp only [Option.map_some, Option.some.injEq] at h2
    exact ⟨k, rfl, ready_of h1, by simp [Konst, h2]⟩

/-- The code's page as constant window 2. -/
def windowed : State := onDesc (fun d => { d with cbase := [0, 0, placedVa], clen := [0, 0, 32] }) (placed [0])
def windowForm : Instr := .fmaConstant hp .f32 (rr 4) (.v 1) 0x40010

theorem witness_compute_window : ∃ k ks, Instr.comp windowForm = some k ∧ Ready windowed windowForm iss (theTeam windowed) (theGroup windowed)
    (theLaunch windowed) (theEnv windowed windowForm) ∧ Konst windowed (theEnv windowed windowForm) (theLaunch windowed) k ks :=
  ⟨_, _, rfl, ready_of (by decide +kernel), clock_of (by decide +kernel), placedVa + 0x40, placedPa + 0x40, _, rfl,
    gives_of (by decide +kernel) ⟨true, maps_of (by decide +kernel), by decide +kernel, sound_of (by decide +kernel), by decide +kernel, rfl⟩, rfl⟩

theorem witness_operands : ∃ (s : State) (e : Env) (t : Team) (g : Group) (sh : Shape), s.team? e.team = some t
    ∧ s.group? e.team e.gidx = some g ∧ sh.ready e t g = true ∧ sh.srcs.length = 3 :=
  let s := placed [0]
  let i : Instr := .mad hp .i32 (rr 3) (.v 1) (.v 2) (.v 4)
  ⟨s, theEnv s i, theTeam s, theGroup s, Instr.shape i, by decide +kernel, by decide +kernel, by decide +kernel, by decide +kernel⟩

/-- Guarded by p1, which is false in every thread. -/
def idleForm : Instr := .ldg ⟨false, false, 1, .none⟩ .i32 (rr 1) .rlx .dev false 0 (.s 4) (.v 2)
theorem witness_idle : ∃ s c t g l e, (Instr.raw idleForm).isSome = true ∧ (∀ h d k, idleForm ≠ .rcp h d k) ∧ Issues s c t g l
    ∧ e = envOf s c g l idleForm (Instr.head idleForm) ∧ Instr.runs idleForm e = true ∧ e.falls = false ∧ e.active = false :=
  ⟨placed [0], iss, _, _, _, _, rfl, fun _ _ _ h => (by cases h), issues_of (by decide +kernel), rfl, by decide +kernel, by decide +kernel, by decide +kernel⟩
theorem witness_nop : ∃ s c t g l e, Issues s c t g l ∧ e = envOf s c g l (.nop hp) hp ∧ Instr.runs (.nop hp) e = true :=
  ⟨placed [0], iss, _, _, _, _, issues_of (by decide +kernel), rfl, by decide +kernel⟩

/-- Traps of a group without a handler can be delivered: the entry address is the placed code. -/
def canTrapB (s : State) (i : Instr) : Bool :=
  !(theEnv s i).sup && startB s (theEnv s i).core (theLaunch s) true (s.dev.slot (theLaunch s).cmd.slot).sventry placedPa
theorem can_trap {s : State} {i : Instr} (h : canTrapB s i = true) : CanTrap s (theLaunch s) (theEnv s i) (theGroup s) := by
  simp only [canTrapB, Bool.and_eq_true, Bool.not_eq_true'] at h
  exact ⟨h.1, Or.inr (start_of h.2)⟩

theorem witness_level : ∃ s i c t g l e, Instr.supervisor i = true ∧ Issues s c t g l ∧ e = envOf s c g l i (Instr.head i) ∧ CanTrap s l e g :=
  ⟨placed [0], .eret hp, iss, _, _, _, _, rfl, issues_of (by decide +kernel), rfl, can_trap (by decide +kernel)⟩

/-- Fillers stand between the placed instruction and the slice area. -/
def atArea : State := onDesc (fun d => { d with sarea := placedVa + 32, salen := 64 }) (placed [0])
theorem witness_slice_area : ∃ s i c t g l e, (Instr.raw i).isSome = true ∧ Issues s c t g l ∧ e = envOf s c g l i (Instr.head i)
    ∧ (!Instr.supervisor i || e.sup) = true ∧ e.falls = true ∧ Instr.choosesNext i = false ∧ CanTrap s l e g :=
  ⟨atArea, .add hp .i32 (rr 3) (.v 1) (.v 0), iss, _, _, _, _, rfl, issues_of (by decide +kernel), rfl, by decide +kernel, by decide +kernel, rfl,
    can_trap (by decide +kernel)⟩

/-- A register of 8 is the first outside an allocation of 8. -/
def outside : Instr := .add hp .i32 (rr 3) (.v 8) (.v 0)
theorem witness_range : ∃ s k c t g l e r, Instr.comp outside = some k ∧ Performs s outside c t g l e ∧ e.g = false ∧ CanTrap s l e g
    ∧ t.guarded = [] ∧ (Instr.shape outside).pendingHandle (s.starting c g outside) = none
    ∧ (Instr.shape outside).blocked false (s.starting c g outside) e.lanes = false
    ∧ (Instr.shape outside).refs.find? (fun r => e.lanes.any (fun n => r.fails l.desc.regs g n)) = some r :=
  ⟨placed [0], _, iss, _, _, _, _, (Instr.shape outside).refs.head (by decide +kernel), rfl, performs_of (by decide +kernel), by decide +kernel,
    can_trap (by decide +kernel), by decide +kernel, by decide +kernel, by decide +kernel, by decide +kernel⟩

/-- The four cases of R217, at their boundary values. -/
theorem witness_divide :
    let ln (a b : W64) : LaneIn := ⟨0, [a, b], []⟩
    (uval .n32 (ln 5 0).b = 0 ∧ Ty.signed .n32 = false) ∧ (uval .i64 (ln 5 0).b = 0 ∧ Ty.signed .i64 = true)
    ∧ (Ty.signed .i32 = true ∧ ival .i32 (ln 0x80000000 0xFFFFFFFF).a = -(2 ^ (Ty.width .i32 - 1) : Nat) ∧ ival .i32 (ln 0x80000000 0xFFFFFFFF).b = -1)
    ∧ (uval .i32 (ln 0x80000000 1).b ≠ 0 ∧ ¬ (ival .i32 (ln 0x80000000 1).b = -1)) := by decide +kernel
theorem witness_sums : Ty.n64 ∈ [Ty.i32, Ty.n32, Ty.i64, Ty.n64] ∧ uval .n64 (LaneIn.c ⟨0, [1, 2, 4], []⟩) % 2 = 0
    ∧ uval .n64 (LaneIn.c ⟨0, [1, 2, 3], []⟩) % 2 = 1 := by decide +kernel
theorem witness_shifts : (LaneIn.a ⟨0, [0xFFFFFFFF, 32], []⟩).toNat < 2 ^ Ty.width .i32
    ∧ Ty.width .i32 ≤ uval .n32 (LaneIn.b ⟨0, [0xFFFFFFFF, 32], []⟩) := by decide +kernel
theorem witness_results : let g := theGroup (placed [0])
    Tab.wf none g.v = true ∧ Tab.wf none g.latch = true ∧ Tab.wf 0 g.s = true ∧ g.badV = [] ∧ (rr 3).nwb = false ∧ (⟨true, 1, 0⟩ : Res).nwb = true
    ∧ Ty.is64 .i64 = true ∧ (rr 62).d.toNat ≠ 63 ∧ (rr 63).d.toNat = 63 := by decide +kernel

/-! ### One step of the placed words -/

/-- The group after a step. -/
def after (s : State) : Group :=
  match step s with
  | .next t => theGroup t
  | _ => newGroup (placedLaunch 1) 0 ⟨0, 0, 0, []⟩
def withV (r : Nat) (x : W32) (s : State) : State := onGroup (fun g => (List.range 16).foldl (fun g n => g.setV r n (some x)) g) s

/-- R217: the corner of `div`; R72: the latch. -/
theorem test_div_corner : let g := after (withV 1 0x80000000 (withV 2 0xFFFFFFFF (placed [0x030E0119, 0x00001001])))
    g.vreg 3 0 = some 0x80000000 ∧ g.vreg 3 15 = some 0x80000000 ∧ (g.split 0).pc = 0x10008 := by decide +kernel
theorem test_div_by_zero : (after (withV 1 7 (withV 2 0 (placed [0x030E1119, 0x00001001])))).vreg 3 5 = some 0xFFFFFFFF := by decide +kernel
/-- R218: 0xFFFF_FFFF + 0 + 1 carries. -/
theorem test_add_wraps : (after (withV 1 0xFFFFFFFF (withV 0 2 (placed [0x010E1101, 0x00000001])))).vreg 1 3 = some 1 := by decide +kernel

/-! ### Witnesses: control flow and traps -/

def goesB (s : State) (e : Env) (g : Group) (targets : List (Nat × W64)) (pa : Nat) : Bool :=
  targets.all (fun x => startB s e.core (theLaunch s) e.sup x.2 pa) && (!e.falls || e.mask &&& ~~~maskOf (targets.map (·.1)) == 0)
    && ((e.sets targets).length ≤ g.freeNumbers.length + 1 || (g.split e.split).wait == .number)

theorem goes_of {s : State} {e : Env} {g : Group} {targets : List (Nat × W64)} {pa : Nat} (h : goesB s e g targets pa = true) :
    Goes s (theLaunch s) e g targets := by
  simp only [goesB, Bool.and_eq_true, List.all_eq_true, Bool.or_eq_true, Bool.not_eq_true', beq_iff_eq, decide_eq_true_eq] at h
  refine ⟨fun x hx => start_of (h.1.1 x hx), fun hf => ?_, h.2⟩
  rcases h.1.2 with h1 | h1
  · rw [hf] at h1; cases h1
  · exact h1

def braForm : Instr := .bra hp 0
def callForm : Instr := .call hp 2 0
def jmpForm : Instr := .jmp hp (.s 4) (.imm 0)
def retForm : Instr := .ret hp (.s 4)
def ctl : State := withS placedVa 0 (placed [0])

theorem witness_bra : ∃ s c t g l e, Performs s braForm c t g l e ∧ Goes s l e (s.starting c g braForm) (together e (label e 0)) :=
  ⟨ctl, iss, _, _, _, _, performs_of (by decide +kernel), goes_of (pa := placedPa) (by decide +kernel)⟩
theorem witness_call : ∃ s c t g l e, Ready s callForm c t g l e ∧ Goes s l e (s.starting c g callForm) (together e (label e 0)) :=
  ⟨ctl, iss, _, _, _, _, ready_of (by decide +kernel), goes_of (pa := placedPa) (by decide +kernel)⟩
theorem witness_jmp : ∃ s c t g l e rows, Ready s jmpForm c t g l e ∧ RowsOf (s.starting c g jmpForm) .none e.lanes (Instr.shape jmpForm) rows
    ∧ Goes s l e (s.starting c g jmpForm) (apart e jumpTarget rows) :=
  ⟨ctl, iss, _, _, _, _, sameRows (List.range 16) [placedVa, 0], ready_of (by decide +kernel), rows_of (by decide +kernel),
    goes_of (pa := placedPa) (by decide +kernel)⟩
theorem witness_ret : ∃ s c t g l e rows, Ready s retForm c t g l e ∧ RowsOf (s.starting c g retForm) .none e.lanes (Instr.shape retForm) rows
    ∧ Goes s l e (s.starting c g retForm) (apart e (fun xs => xs.getD 0 0) rows) :=
  ⟨ctl, iss, _, _, _, _, sameRows (List.range 16) [placedVa], ready_of (by decide +kernel), rows_of (by decide +kernel),
    goes_of (pa := placedPa) (by decide +kernel)⟩
theorem witness_division : ∃ (e : Env) (targets : List (Nat × W64)), e.w ≤ 128 ∧ (e.sets targets).length = 2 :=
  ⟨theEnv ctl braForm, [(3, 0x10100)], by decide +kernel, by decide +kernel⟩

/-- The whole split exits, outside a handler and in one. -/
def exitForm : Instr := .exit hp
def handling (m : Mask) : State :=
  onSplit (fun x => { x with sup := true, mask := m, emask := m }) (onGroup (fun g => { g with handler := some { split := 0, mask := m, saved := 5, held := 0 }
                                                                                               epc := placedVa }) ctl)
theorem enter_of {s : State} {l : Launch} {core : Nat} {g : Group} {pa : Nat}
    (h : startB s core l true (s.dev.slot l.cmd.slot).sventry pa = true) : CanEnter s l core g := fun _ _ => start_of h
theorem witness_exit : ∃ s c t g l e, Performs s exitForm c t g l e ∧ (e.falls = true → e.mask &&& ~~~e.visited = 0)
    ∧ (e.exits (s.starting c g exitForm)).handler = none ∧ CanEnter s l e.core (e.exits (s.starting c g exitForm)) :=
  ⟨ctl, iss, _, _, _, _, performs_of (by decide +kernel), fun _ => by decide +kernel, by decide +kernel, enter_of (pa := placedPa) (by decide +kernel)⟩
theorem witness_exit_handler : ∃ s c t g l e hd, Performs s exitForm c t g l e ∧ (e.falls = true → e.mask &&& ~~~e.visited = 0)
    ∧ (e.exits (s.starting c g exitForm)).handler = some hd ∧ (e.exits (s.starting c g exitForm)).unexited hd.mask = 0
    ∧ StartAt s e.core l false (e.exits (s.starting c g exitForm)).epc
    ∧ CanEnter s l e.core ((e.exits (s.starting c g exitForm)).leave 0 hd) :=
  ⟨handling 0xFFFF, iss, _, _, _, _, ⟨0, 0xFFFF, 0, 5, none, none, none, none⟩, performs_of (by decide +kernel), fun _ => by decide +kernel, by decide +kernel, by decide +kernel,
    start_of (pa := placedPa) (by decide +kernel), enter_of (pa := placedPa) (by decide +kernel)⟩
/-- Lane 0 exits; lanes 1 and 2 of the trap mask are elsewhere. -/
def handlingSome : State :=
  onSplit (fun x => { x with mask := 1, emask := 1 }) (handling 7)
theorem witness_exit_some : ∃ s c t g l e hd, Performs s exitForm c t g l e ∧ (e.falls = true → e.mask &&& ~~~e.visited = 0)
    ∧ (e.exits (s.starting c g exitForm)).handler = some hd ∧ (e.exits (s.starting c g exitForm)).unexited hd.mask ≠ 0 :=
  ⟨handlingSome, iss, _, _, _, _, ⟨0, 7, 0, 5, none, none, none, none⟩, performs_of (by decide +kernel), fun _ => by decide +kernel, by decide +kernel, by decide +kernel⟩

/-- All 16 lanes are named by s4; only the first 8 are at the `rejoin`. -/
def rejoinForm : Instr := .rejoin hp (.s 4) (.s 5)
def joining (m : Mask) : State := onSplit (fun x => { x with mask := m, emask := m }) (withS 0xFFFF 0 (placed [0]))
theorem witness_rejoin : ∃ s c t g l e rows, Ready s rejoinForm c t g l e ∧ RowsOf (s.starting c g rejoinForm) .none e.lanes (Instr.shape rejoinForm) rows
    ∧ e.gathered (s.starting c g rejoinForm) (rejoinMask e.w (firstRow rows)) = true :=
  ⟨joining 0xFFFF, iss, _, _, _, _, sameRows (List.range 16) [0xFFFF, 0], ready_of (by decide +kernel), rows_of (by decide +kernel), by decide +kernel⟩
theorem witness_rejoin_waits : ∃ s c t g l e rows, Ready s rejoinForm c t g l e
    ∧ RowsOf (s.starting c g rejoinForm) .none e.lanes (Instr.shape rejoinForm) rows
    ∧ e.gathered (s.starting c g rejoinForm) (rejoinMask e.w (firstRow rows)) = false ∧ e.v = e.mask :=
  ⟨joining 0xFF, iss, _, _, _, _, sameRows (List.range 8) [0xFFFF, 0], ready_of (by decide +kernel), rows_of (by decide +kernel), by decide +kernel,
    by decide +kernel⟩

theorem witness_soft_traps : ∀ i ∈ [Instr.trap hp 7, .sysc hp 7, .bkpt hp 7],
    Performs ctl i iss (theTeam ctl) (theGroup ctl) (theLaunch ctl) (theEnv ctl i) ∧ CanTrap ctl (theLaunch ctl) (theEnv ctl i) (theGroup ctl) := by
  have h : ∀ i ∈ [Instr.trap hp 7, .sysc hp 7, .bkpt hp 7], performsB ctl i = true ∧ canTrapB ctl i = true := by decide +kernel
  exact fun i hi => ⟨performs_of (h i hi).1, can_trap (h i hi).2⟩

/-- A trap of lanes 0 and 1, pending on split 0. -/
def pendingTrap : TrapRec := { cause := .align, detail := 3, mask := 3, epc := placedVa, taux := 9, fva := [(1, 0x1234)] }
theorem witness_delivery : ∃ (g : Group) (n : Nat) (t : TrapRec), n < g.splits.length ∧ g.firstTrap = some (n, t) ∧ g.handler = none
    ∧ t.mask &&& (g.split n).mask ≠ 0 ∧ t.detail < 256 ∧ n < 4 ∧ Tab.wf 0 g.fva = true ∧ (∀ p ∈ t.fva, p.1 ≠ 0) :=
  ⟨(theGroup ctl).modSplit 0 (fun x => { x with trap := some pendingTrap }), 0, pendingTrap, by decide +kernel, by decide +kernel, by decide +kernel,
    by decide +kernel, by decide +kernel, by decide +kernel, by decide +kernel, by decide +kernel⟩
theorem witness_leave : ∃ (g : Group) (n : Nat) (hd : Handler), n < g.splits.length ∧ g.unexited ((g.split n).mask ||| hd.held) ≠ 0 :=
  ⟨theGroup (handling 7), 0, ⟨0, 7, 8, 5, none, none, none, none⟩, by decide +kernel, by decide +kernel⟩

def eretForm : Instr := .eret hp
theorem witness_eret : ∃ s c t g l e hd, g.handler = some hd ∧ Performs s eretForm c t g l e ∧ (s.starting c g eretForm).unexited hd.mask &&& ~~~e.mask = 0
    ∧ StartAt s e.core l false g.epc ∧ CanEnter s l e.core ((s.starting c g eretForm).leave c.split hd) :=
  ⟨handling 0xFFFF, iss, _, _, _, _, ⟨0, 0xFFFF, 0, 5, none, none, none, none⟩, by decide +kernel, performs_of (by decide +kernel), by decide +kernel,
    start_of (pa := placedPa) (by decide +kernel), enter_of (pa := placedPa) (by decide +kernel)⟩
theorem witness_eret_waits : ∃ s c t g l e hd, g.handler = some hd ∧ Performs s eretForm c t g l e
    ∧ (s.starting c g eretForm).unexited hd.mask &&& ~~~e.mask ≠ 0 :=
  ⟨handlingSome, iss, _, _, _, _, ⟨0, 7, 0, 5, none, none, none, none⟩, by decide +kernel, performs_of (by decide +kernel), by decide +kernel⟩
theorem witness_eret_exit : ∃ s c t g l e hd, g.handler = some hd ∧ Performs s (.eretExit hp) c t g l e :=
  ⟨handling 0xFFFF, iss, _, _, _, _, ⟨0, 0xFFFF, 0, 5, none, none, none, none⟩, by decide +kernel, performs_of (by decide +kernel)⟩

theorem witness_sigchk : ∃ s c t g l e, Performs s (.sigchk hp 0) c t g l e ∧ (g.split c.split).fold = 0 :=
  ⟨ctl, iss, _, _, _, _, performs_of (by decide +kernel), by decide +kernel⟩
theorem witness_rgn : ∃ s c t g l e, Performs s (.rgn hp) c t g l e := ⟨ctl, iss, _, _, _, _, performs_of (by decide +kernel)⟩
theorem witness_sigchk_fails : ∃ s c t g l e, Performs s (.sigchk hp 1) c t g l e ∧ (g.split c.split).fold ≠ 1 ∧ g.mayRollback e.mask = false
    ∧ s.dev.action 5 9 < 3 ∧ CanTrap s l e g :=
  ⟨ctl, iss, _, _, _, _, performs_of (by decide +kernel), by decide +kernel, by decide +kernel, by decide +kernel, can_trap (by decide +kernel)⟩

/-- Every system register, at the level that may read it. -/
def userRegs : List SysReg := [.lane, .gidx, .team, .nteam, .vcore, .width, .split, .core, .die, .part, .frm, .fstat, .dphase, .sigacc, .rgnpc, .pwr,
  .lease, .mpcount]
def supRegs : List SysReg := [.fva, .mapst, .tcause, .epc, .tmask, .taux]
theorem witness_srd : (∀ n ∈ userRegs, readyB ctl (.srd hp .i32 (rr 0) n) = true) ∧ ∀ n ∈ supRegs, readyB (atSup ctl) (.srd hp .i64 (rr 0) n) = true := by
  constructor <;> decide +kernel
theorem witness_swr : (∀ n ∈ [SysReg.frm, .fstat, .dphase], readyB ctl (.swr hu .i32 (.s 5) n) = true)
    ∧ (∀ n ∈ [SysReg.sigacc, .tcause, .epc, .taux], readyB (atSup ctl) (.swr hu .i64 (.s 5) n) = true)
    ∧ readyB (atSup ctl) (.swrRgnpc hu .i64 (.s 4)) = true := by
  refine ⟨?_, ?_, ?_⟩ <;> decide +kernel
/-- s4 names a page-table entry that is not valid yet. -/
def watching : State := atSup (withS 0x130000 0 (placed [0]))
def watchForm : Instr := .swrPgwatch hp .i64 (.s 4)
theorem witness_pgwatch : ∃ s c t g l e rows, Ready s watchForm c t g l e ∧ RowsOf (s.starting c g watchForm) .none e.lanes (Instr.shape watchForm) rows
    ∧ (∀ v ∈ rows.map (fun r => (r.2.getD 0 0).toNat), v % 8 = 0 ∧ inHbm v = true ∧ (s.dev.part (e.key / 16)).owns v 8 = true)
    ∧ g.watch.length + ((rows.map (fun r => (r.2.getD 0 0).toNat)).filter (fun v => !pteV (s.mem.newestWord v))).length ≤ 32 :=
  ⟨watching, iss, _, _, _, _, sameRows (List.range 16) [0x130000], ready_of (by decide +kernel), rows_of (by decide +kernel), by decide +kernel, by decide +kernel⟩

/-- A second team of the launch, and one frame at the placed page to save it in. -/
def twoTeams : State :=
  let s := atSup (withS 1 0 (placed [0]))
  { s with
    teams := s.teams ++ [{ theTeam s with uid := 2, number := 1 }]
    dev := { s.dev.setSlot 0 { s.dev.slot 0 with save := placedVa } with
      launches := s.dev.launches.map (fun l => { l with fsize := 65536, nframe := 1 }) } }
def tevictForm : Instr := .tevict hu (.s 4)
def foundIn (s : State) (rows : Rows) : Option Team :=
  (s.begun iss (theGroup s) tevictForm).teams.find? (fun x => x.launch == (theEnv s tevictForm).launch && x.number == lo32 ((firstRow rows).getD 0 0))
theorem witness_tevict_none : ∃ s c t g l e rows, Ready s tevictForm c t g l e
    ∧ RowsOf (s.starting c g tevictForm) .none e.lanes (Instr.shape tevictForm) rows
    ∧ (s.begun c g tevictForm).teams.find? (fun x => x.launch == e.launch && x.number == lo32 ((firstRow rows).getD 0 0)) = none :=
  ⟨atSup (withS 1 0 (placed [0])), iss, _, _, _, _, sameRows [0] [1], ready_of (by decide +kernel), rows_of (by decide +kernel), by decide +kernel⟩
theorem witness_tevict : ∃ s c t g l e rows x, Ready s tevictForm c t g l e
    ∧ RowsOf (s.starting c g tevictForm) .none e.lanes (Instr.shape tevictForm) rows
    ∧ (s.begun c g tevictForm).teams.find? (fun x => x.launch == e.launch && x.number == lo32 ((firstRow rows).getD 0 0)) = some x
    ∧ x.uid ≠ c.team ∧ (frameFor (s.begun c g tevictForm) x l).isSome = true ∧ x.quiet (s.begun c g tevictForm) l (x.uid == c.team) = true
    ∧ (∀ y ∈ s.teams, ∀ z ∈ s.teams, y.uid = z.uid → y = z) ∧ Unwatched s ∧ forestsInFlight (s.begun c g tevictForm) = [] :=
  ⟨twoTeams, iss, _, _, _, _, sameRows [0] [1], (foundIn twoTeams (sameRows [0] [1])).getD (placedTeam 0), ready_of (by decide +kernel),
    rows_of (by decide +kernel), by decide +kernel, by decide +kernel, by decide +kernel, by decide +kernel, by decide +kernel,
    by unfold Unwatched; decide +kernel, by decide +kernel⟩
/-- Team 0 names itself. -/
def ownTeam : State := onTeam (fun t => { t with groups := t.groups.map (fun g => { g with s := Tab.set 0 g.s 4 0 }) }) twoTeams
theorem witness_tevict_own : ∃ s c t g l e rows x, Ready s tevictForm c t g l e
    ∧ RowsOf (s.starting c g tevictForm) .none e.lanes (Instr.shape tevictForm) rows
    ∧ (s.begun c g tevictForm).teams.find? (fun x => x.launch == e.launch && x.number == lo32 ((firstRow rows).getD 0 0)) = some x
    ∧ x.uid = c.team ∧ (frameFor (s.begun c g tevictForm) x l).isSome = true ∧ x.quiet (s.begun c g tevictForm) l (x.uid == c.team) = true
    ∧ (∀ y ∈ s.teams, ∀ z ∈ s.teams, y.uid = z.uid → y = z) ∧ Unwatched s ∧ forestsInFlight (s.begun c g tevictForm) = [] :=
  ⟨ownTeam, iss, _, _, _, _, sameRows [0] [0], (foundIn ownTeam (sameRows [0] [0])).getD (placedTeam 0), ready_of (by decide +kernel),
    rows_of (by decide +kernel), by decide +kernel, by decide +kernel, by decide +kernel, by decide +kernel, by decide +kernel,
    by unfold Unwatched; decide +kernel, by decide +kernel⟩
/-- Team 1 has a fence under way. -/
def busyTeam : State :=
  { twoTeams with teams := twoTeams.teams.map (fun t => if t.uid = 2 then { t with groups := t.groups.map (fun g => { g with
      stream := [{ id := 9, split := 0, pc := 0, sup := false, kind := .fence, ty := .i32, order := .ar, scope := .dev, g := false
                   dest := none, accs := [], mask := 1 }] }) } else t) }
theorem witness_tevict_waits : ∃ s c t g l e rows x, Ready s tevictForm c t g l e
    ∧ RowsOf (s.starting c g tevictForm) .none e.lanes (Instr.shape tevictForm) rows
    ∧ (s.begun c g tevictForm).teams.find? (fun x => x.launch == e.launch && x.number == lo32 ((firstRow rows).getD 0 0)) = some x
    ∧ (frameFor (s.begun c g tevictForm) x l).isSome = true ∧ x.quiet (s.begun c g tevictForm) l (x.uid == c.team) = false :=
  ⟨busyTeam, iss, _, _, _, _, sameRows [0] [1], (foundIn busyTeam (sameRows [0] [1])).getD (placedTeam 0), ready_of (by decide +kernel),
    rows_of (by decide +kernel), by decide +kernel, by decide +kernel, by decide +kernel⟩

/-! ### Witnesses: memory -/

/-- s4 is a global address of the placed page, s5 a local one. -/
def mem0 : State := withS 0x10100 0x40 (placed [0])
def gpas : List (Nat × W64 × Nat × Bool) := (List.range 16).map (fun n => (n, 0x10100, 0x140100, true))
def ldgForm : Instr := .ldg hp .f32 (rr 6) .acq .dev false 0 (.s 4) (.imm 0)
def stgForm : Instr := .stg hp .i64 2 .sc .dev 0 (.s 4) (.imm 0)
theorem witness_ldg : ∃ s c t g l e rows pas, Ready s ldgForm c t g l e ∧ RowsOf (s.starting c g ldgForm) .none e.lanes (Instr.shape ldgForm) rows
    ∧ aligned (tyBytes .f32) (effAddrs hp (.s 4) (.imm 0) rows) = true ∧ Reach s e .read (effAddrs hp (.s 4) (.imm 0) rows) pas :=
  ⟨mem0, iss, _, _, _, _, sameRows (List.range 16) [0x10100, 0], gpas, ready_of (by decide +kernel), rows_of (by decide +kernel),
    by decide +kernel, reach_of (by decide +kernel)⟩
theorem witness_stg : ∃ s c t g l e rows pas, Ready s stgForm c t g l e ∧ RowsOf (s.starting c g stgForm) .none e.lanes (Instr.shape stgForm) rows
    ∧ aligned (tyBytes .i64) (effAddrs hp (.s 4) (.imm 0) rows) = true ∧ Reach s e .write (effAddrs hp (.s 4) (.imm 0) rows) pas :=
  ⟨mem0, iss, _, _, _, _, sameRows (List.range 16) [0x10100, 0, 7], gpas, ready_of (by decide +kernel), rows_of (by decide +kernel),
    by decide +kernel, reach_of (by decide +kernel)⟩

def localB (t : Team) (l : Launch) (size : Nat) (store reads : Bool) (eas : List (Nat × W64)) : Bool :=
  eas.all (fun a => a.2.toNat + size ≤ l.desc.localSize && (t.missingBlock a.2.toNat).isNone
    && (!store || match t.windowAt a.2.toNat with
      | some (_, w) => w.mode != 1
      | none => true)
    && (!reads || t.badLocal.all (fun w => !(w < a.2.toNat + size && a.2.toNat < w + 4))))
theorem local_of {t : Team} {l : Launch} {size : Nat} {store reads : Bool} {eas : List (Nat × W64)} (h : localB t l size store reads eas = true) :
    LocalOk t l size store reads eas := by
  simp only [localB, List.all_eq_true, Bool.and_eq_true, decide_eq_true_eq, Option.isNone_iff_eq_none, Bool.or_eq_true, Bool.not_eq_true',
    Bool.and_eq_false_iff, decide_eq_false_iff_not] at h
  intro a ha
  obtain ⟨⟨⟨h1, h2⟩, h3⟩, h4⟩ := h a ha
  refine ⟨h1, h2, fun hs k w hw => ?_, fun hr w hw hc => ?_⟩
  · rcases h3 with h3 | h3
    · rw [hs] at h3; cases h3
    · rw [hw] at h3; simpa using h3
  · rcases h4 with h4 | h4
    · rw [hr] at h4; cases h4
    · rcases h4 w hw with h5 | h5
      · exact h5 hc.1
      · exact h5 hc.2

def ldlForm : Instr := .ldl hp .i32 (rr 6) .rlx .team (.s 5) (.imm 0)
def stlForm : Instr := .stl hp .i32 2 .rel .team (.s 5) (.imm 0)
theorem witness_local (i : Instr) (n : Nat) (xs : List W64) (size : Nat) (st rd : Bool) (h1 : readyB mem0 i = true)
    (h2 : rowsB (begun mem0 i) .none (theEnv mem0 i).lanes (Instr.shape i) (sameRows (List.range n) xs) = true)
    (h3 : aligned size (effAddrs hp (.s 5) (.imm 0) (sameRows (List.range n) xs)) = true)
    (h4 : localB (theTeam mem0) (theLaunch mem0) size st rd (effAddrs hp (.s 5) (.imm 0) (sameRows (List.range n) xs)) = true) :
    ∃ s c t g l e rows, Ready s i c t g l e ∧ RowsOf (s.starting c g i) .none e.lanes (Instr.shape i) rows
      ∧ aligned size (effAddrs hp (.s 5) (.imm 0) rows) = true ∧ LocalOk t l size st rd (effAddrs hp (.s 5) (.imm 0) rows) :=
  ⟨mem0, iss, _, _, _, _, sameRows (List.range n) xs, ready_of h1, rows_of h2, h3, local_of h4⟩
theorem witness_ldl : ∃ s c t g l e rows, Ready s ldlForm c t g l e ∧ RowsOf (s.starting c g ldlForm) .none e.lanes (Instr.shape ldlForm) rows
    ∧ aligned 4 (effAddrs hp (.s 5) (.imm 0) rows) = true ∧ LocalOk t l 4 false true (effAddrs hp (.s 5) (.imm 0) rows) :=
  witness_local ldlForm 16 [0x40, 0] 4 false true (by decide +kernel) (by decide +kernel) (by decide +kernel) (by decide +kernel)
theorem witness_stl : ∃ s c t g l e rows, Ready s stlForm c t g l e ∧ RowsOf (s.starting c g stlForm) .none e.lanes (Instr.shape stlForm) rows
    ∧ aligned 4 (effAddrs hp (.s 5) (.imm 0) rows) = true ∧ LocalOk t l 4 true false (effAddrs hp (.s 5) (.imm 0) rows) :=
  witness_local stlForm 16 [0x40, 0, 1] 4 true false (by decide +kernel) (by decide +kernel) (by decide +kernel) (by decide +kernel)

/-- The atomic forms, globally at s4 and locally at s5. -/
def atomics (a : Src) (sp : Bool) : List (Instr × Nat × List W64 × Need) :=
  [(.atm hp .i32 (rr 1) .rlx .dev sp a (.imm 0) .add (.imm 1), 4, [1], .both), (.cas hp .i32 (rr 1) .ar .dev sp a (.imm 0) (.imm 1) (.imm 2) .sc, 4, [1, 2], .cas),
   (.red hp .f32 .rel .dev sp a (.imm 0) .add (.v 1), 4, [0], .both), (.ored hp .f32 .rel .dev sp a (.imm 0) (.v 1) (.imm 3), 16, [0, 3], .both)]
theorem witness_atomics_global : ∀ x ∈ atomics (.s 4) false, let eas := effAddrs hp (.s 4) (.imm 0) (sameRows (List.range 16) (0x10100 :: 0 :: x.2.2.1))
    readyB mem0 x.1 = true ∧ rowsB (begun mem0 x.1) .none (theEnv mem0 x.1).lanes (Instr.shape x.1) (sameRows (List.range 16) (0x10100 :: 0 :: x.2.2.1)) = true
    ∧ aligned x.2.1 eas = true ∧ reachB mem0 (theEnv mem0 x.1) x.2.2.2 eas gpas = true := by decide +kernel
theorem witness_atomics_local : ∀ x ∈ atomics (.s 5) true, let eas := effAddrs hp (.s 5) (.imm 0) (sameRows (List.range 16) (0x40 :: 0 :: x.2.2.1))
    readyB mem0 x.1 = true ∧ rowsB (begun mem0 x.1) .none (theEnv mem0 x.1).lanes (Instr.shape x.1) (sameRows (List.range 16) (0x40 :: 0 :: x.2.2.1)) = true
    ∧ aligned x.2.1 eas = true ∧ localB (theTeam mem0) (theLaunch mem0) x.2.1 true true eas = true := by decide +kernel

theorem witness_fence : ∃ s c t g l e, Performs s (.fence hp .sc .dev) c t g l e := ⟨mem0, iss, _, _, _, _, performs_of (by decide +kernel)⟩
def arriveForm : Instr := .arrive hp .rel .team (.s 5) (.imm 0)
def waitbForm : Instr := .waitb hp 1 .acq .team (.s 5) (.imm 0)
def arwForm : Instr := .arw hp .ar .team (.s 5) (.imm 0)
theorem witness_arrive : ∃ s c t g l e rows, Ready s arriveForm c t g l e ∧ RowsOf (s.starting c g arriveForm) .none e.lanes (Instr.shape arriveForm) rows
    ∧ aligned 8 (effAddrs hp (.s 5) (.imm 0) rows) = true ∧ LocalOk t l 8 true true (effAddrs hp (.s 5) (.imm 0) rows) :=
  witness_local arriveForm 16 [0x40, 0] 8 true true (by decide +kernel) (by decide +kernel) (by decide +kernel) (by decide +kernel)
theorem witness_waitb : ∃ s c t g l e rows, Ready s waitbForm c t g l e ∧ RowsOf (s.starting c g waitbForm) .none e.lanes (Instr.shape waitbForm) rows
    ∧ aligned 8 (effAddrs hp (.s 5) (.imm 0) rows) = true ∧ LocalOk t l 8 false true (effAddrs hp (.s 5) (.imm 0) rows) :=
  witness_local waitbForm 16 [0x40, 0, 0] 8 false true (by decide +kernel) (by decide +kernel) (by decide +kernel) (by decide +kernel)
theorem witness_arw : ∃ s c t g l e rows, Ready s arwForm c t g l e ∧ RowsOf (s.starting c g arwForm) .none e.lanes (Instr.shape arwForm) rows
    ∧ aligned 8 (effAddrs hp (.s 5) (.imm 0) rows) = true ∧ LocalOk t l 8 true true (effAddrs hp (.s 5) (.imm 0) rows) :=
  witness_local arwForm 16 [0x40, 0] 8 true true (by decide +kernel) (by decide +kernel) (by decide +kernel) (by decide +kernel)

/-- Accumulator bytes 0x40 to 0x43 hold 5. -/
def accs : State := onTeam (fun t => t.setAcc false [(0x40, some 5), (0x41, some 0), (0x42, some 0), (0x43, some 0)]) mem0
def ldaForm : Instr := .lda hp .f32 (rr 6) (.s 5) (.imm 0)
def staForm : Instr := .sta hp .f32 2 (.s 5) (.imm 0)
theorem witness_lda : ∃ s c t g l e rows, t.guarded = [] ∧ Ready s ldaForm c t g l e ∧ ClockOk s e
    ∧ RowsOf (s.starting c g ldaForm) .none e.lanes (Instr.shape ldaForm) rows ∧ aligned 4 (effAddrs hp (.s 5) (.imm 0) rows) = true
    ∧ ∀ x ∈ effAddrs hp (.s 5) (.imm 0) rows, x.2.toNat + 4 ≤ l.desc.accSize ∧ (t.accBytes (e.high t) x.2.toNat 4).all Option.isSome = true
        ∧ ∀ w ∈ t.badAcc, ¬ (w.1 = e.high t ∧ w.2 < x.2.toNat + 4 ∧ x.2.toNat < w.2 + 4) :=
  ⟨accs, iss, _, _, _, _, sameRows (List.range 16) [0x40, 0], by decide +kernel, ready_of (by decide +kernel), clock_of (by decide +kernel), rows_of (by decide +kernel),
    by decide +kernel, by decide +kernel⟩
theorem witness_sta : ∃ s c t g l e rows, t.guarded = [] ∧ Ready s staForm c t g l e
    ∧ RowsOf (s.starting c g staForm) .none e.lanes (Instr.shape staForm) rows ∧ aligned 4 (effAddrs hp (.s 5) (.imm 0) rows) = true
    ∧ ∀ x ∈ effAddrs hp (.s 5) (.imm 0) rows, x.2.toNat + 4 ≤ l.desc.accSize :=
  ⟨accs, iss, _, _, _, _, sameRows (List.range 16) [0x40, 0, 1], by decide +kernel, ready_of (by decide +kernel), rows_of (by decide +kernel),
    by decide +kernel, by decide +kernel⟩

/-- The last word of window 2, of 32 words. -/
def windowed6 : State := onDesc (fun d => { d with cbase := [0, 0, placedVa], clen := [0, 0, 32] }) (withS 0x10100 31 (placed [0]))
def ldkForm : Instr := .ldk hp .n32 (rr 3) 2 (.s 5)
theorem witness_ldk : ∃ (s : State) (c : Issuer) (t : Team) (g : Group) (l : Launch) (e : Env) (rows : Rows) (pa : Nat → Nat) (va x : Nat → W64),
    Ready s ldkForm c t g l e ∧ ClockOk s e ∧ RowsOf (s.starting c g ldkForm) .none e.lanes (Instr.shape ldkForm) rows
    ∧ ∀ row ∈ rows, windowAddr l.desc false 2 ((row.2.getD 0 0 + disp hp (.imm 0) (.s 5)).toNat % 2 ^ 32) false = .ok (va row.1)
      ∧ WindowGives s e l (va row.1) false (pa row.1) (x row.1) := by
  refine ⟨windowed6, iss, _, _, _, _, sameRows (List.range 16) [31], fun _ => placedPa + 124, fun _ => placedVa + 124,
    fun _ => windowed6.mem.word (theEnv windowed6 ldkForm).die (placedPa + 124) 4,
    ready_of (by decide +kernel), clock_of (by decide +kernel), rows_of (by decide +kernel), fun row hr => ?_⟩
  obtain ⟨n, -, rfl⟩ := List.mem_map.1 hr
  dsimp only
  exact ⟨rfl, gives_of rfl ⟨true, maps_of (by decide +kernel), by decide +kernel, sound_of (by decide +kernel), by decide +kernel, rfl⟩⟩
theorem witness_window_operand : ∃ s e k l ks, s.launch? e.launch = some l ∧ (s.team? e.team).isSome = true ∧ Konst s e l k ks ∧ ks ≠ [] :=
  ⟨windowed, theEnv windowed windowForm, (Instr.comp windowForm).get (by decide +kernel), theLaunch windowed, [_], by decide +kernel, by decide +kernel,
    ⟨clock_of (by decide +kernel), placedVa + 0x40, placedPa + 0x40, _, rfl, gives_of rfl ⟨true, maps_of (by decide +kernel), by decide +kernel,
      sound_of (by decide +kernel), by decide +kernel, rfl⟩, rfl⟩, by simp⟩
theorem witness_pfg : ∃ s c t g l e, Ready s (.pfg hp 0 (.s 4) (.imm 0)) c t g l e := ⟨mem0, iss, _, _, _, _, ready_of (by decide +kernel)⟩

/-- s4 is one byte past a word, and mapped by nothing in `lost`. -/
def misaligned : State := withS 0x10101 0x41 (placed [0])
def misForms : List Instr := [.ldg hp .f32 (rr 6) .rlx .dev false 0 (.s 4) (.imm 0), .stg hp .f32 2 .rlx .dev 0 (.s 4) (.imm 0), ldlForm, stlForm]
theorem witness_misaligned : ∀ i ∈ misForms, readyB misaligned i = true ∧ canTrapB misaligned i = true ∧ (0x10101 % 4 ≠ 0 ∧ 0x41 % 4 ≠ 0) := by decide +kernel
def lost : State := onSplit (fun x => { x with mask := 4, emask := 4 }) (withS 0x20100 0 (placed [0]))
def ldgLost : Instr := .ldg hp .f32 (rr 6) .rlx .dev false 0 (.s 4) (.imm 0)
theorem witness_unmapped : ∃ s c t g l e rows cause detail, Ready s ldgLost c t g l e ∧ CanTrap s l e g
    ∧ RowsOf (s.starting c g ldgLost) .none e.lanes (Instr.shape ldgLost) rows ∧ effAddrs hp (.s 4) (.imm 0) rows = [(2, 0x20100)]
    ∧ aligned 4 [(2, 0x20100)] = true ∧ canonical 0x20100 = true ∧ s.dev.tlb = []
    ∧ walkCheck (s.dev.part (e.key / 16)) e.sup .read 0x20100 (rootWalk s e.die e.key 0x20100) = .error (cause, detail) :=
  ⟨lost, iss, _, _, _, _, [(2, [0x20100, 0])], .pgfault, 2, ready_of (by decide +kernel), can_trap (by decide +kernel), rows_of (by decide +kernel),
    by decide +kernel, by decide +kernel, by decide +kernel, by decide +kernel, rfl⟩
theorem witness_maps : ∃ s agent die key sup need va x, Maps s agent die key sup need va x :=
  ⟨mem0, 0, 0, 0, false, .write, 0x10100, (0x140100, true), maps_of (by decide +kernel)⟩

/-- R87, R145: a misaligned load takes ALIGN, with EPC at itself. -/
theorem test_misaligned_traps : let g := after (withV 2 0 <| withS 0x10101 0 (placed [0x060E4602, 0x80001404, 0x00000000]))
    (g.tcause, g.epc, g.tmask, (g.split 0).sup) = (0x4, 0x10000, 0xFFFF, true) := by decide +kernel


/-! ### Witnesses: system forms, engines, recipes, forests, counters -/

def lane0 (s : State) : State := onSplit (fun x => { x with mask := 1, emask := 1 }) s
def withS6 (a b c : W64) (s : State) : State := onGroup (fun g => { g with s := [(4, a), (5, b), (6, c)] }) s
/-- Supervisor level in lane 0; s4 to s6 hold the operands. -/
def sys0 (a b c : W64) : State := atSup (lane0 (withS6 a b c (placed [0])))

theorem unwatched_of {s : State} (h : s.teams.all (fun t => t.groups.all (fun g => g.watch.isEmpty)) = true) : Unwatched s := by
  simp only [List.all_eq_true, List.isEmpty_iff] at h
  exact h

def pgmapForm : Instr := .pgmap hp (.s 4) (.s 5) (.s 6)
def pgunmapForm : Instr := .pgunmap hp (.s 4) (.s 5)
def oneRow (xs : List W64) : Rows := [(0, xs)]
/-- 0x2_0000 is not mapped yet; the new page gets another placement. A page that is mapped already has status 1. -/
theorem witness_pgmap : Met pgmapForm (oneRow [0x20000, 0x15003F, 0x1E9601]) (fun s _ g _ e => Inv s ∧ Unwatched s ∧ e.die < 8
    ∧ Tab.wf 0 g.mapst = true ∧ (match pgmapOne s e.key 0x20000 0x15003F 0x1E9601 with
      | .install at_ frames _ => at_ == 0x130010 && frames == [0x15]
      | .status _ => false) = true) :=
  met_of (sys0 0x20000 0x15003F 0x1E9601) (by decide +kernel) ⟨inv_of (by decide +kernel), unwatched_of (by decide +kernel), by decide +kernel,
    by decide +kernel, by decide +kernel⟩
theorem witness_pgmap_status : Met pgmapForm (oneRow [0x10000, 0x15003F, 0]) (fun s _ g _ e => Inv s ∧ Unwatched s ∧ e.die < 8
    ∧ Tab.wf 0 g.mapst = true ∧ (match pgmapOne s e.key 0x10000 0x15003F 0 with
      | .status x => x == 1
      | .install _ _ _ => false) = true) :=
  met_of (sys0 0x10000 0x15003F 0) (by decide +kernel) ⟨inv_of (by decide +kernel), unwatched_of (by decide +kernel), by decide +kernel,
    by decide +kernel, by decide +kernel⟩
theorem witness_pgunmap : Met pgunmapForm (oneRow [0x10000, 0]) (fun s _ g _ e => Inv s ∧ Unwatched s ∧ e.die < 8
    ∧ Tab.wf 0 g.mapst = true ∧ (pgunmapOne s e.key 0x10000 0).2 = some (0x130008, 0x10000, 0x10000)) :=
  met_of (sys0 0x10000 0 0) (by decide +kernel) ⟨inv_of (by decide +kernel), unwatched_of (by decide +kernel), by decide +kernel,
    by decide +kernel, by decide +kernel⟩
theorem witness_pgunmap_status : Met pgunmapForm (oneRow [0x30000, 0]) (fun s _ g _ e => Inv s ∧ Unwatched s ∧ e.die < 8
    ∧ Tab.wf 0 g.mapst = true ∧ (pgunmapOne s e.key 0x30000 0).2 = none) :=
  met_of (sys0 0x30000 0 0) (by decide +kernel) ⟨inv_of (by decide +kernel), unwatched_of (by decide +kernel), by decide +kernel,
    by decide +kernel, by decide +kernel⟩

def cacheForms : List Instr := [.tlbinv hp 1 (.s 4) (.imm 0), .tlbinvSync hp 1 (.s 4) (.imm 0), .clean hp 1 (.s 4) (.imm 0), .invl hp 1 (.s 4) (.imm 0)]
theorem witness_cache_forms : (∀ i ∈ cacheForms, metB (sys0 0x10000 0 0) i (oneRow [0x10000, 0, 0]) = true)
    ∧ Inv (sys0 0x10000 0 0) ∧ Unwatched (sys0 0x10000 0 0) ∧ (∀ u ∈ (sys0 0x10000 0 0).teams, u.setWindows = [])
    ∧ forestsInFlight (sys0 0x10000 0 0) = [] :=
  ⟨by decide +kernel, inv_of (by decide +kernel), unwatched_of (by decide +kernel), by decide +kernel, by decide +kernel⟩

def scwinForm (mode : BitVec 2) : Instr := .scwin hp (.s 4) (.s 5) 1 mode
/-- What every clause of scwin asks, where no local access of the split is still to be performed or one is. -/
def scwinMet (mode : BitVec 2) (s : State) (g : Group) (pending : Bool) : Prop :=
  Inv s ∧ Unwatched s ∧ forestsInFlight s = [] ∧ (s.starting iss g (scwinForm mode)).localPending iss.split = pending
theorem witness_scwin : Met (scwinForm 2) (oneRow [0x10000, 0x100000000000]) (fun s t g l _ => scwinMet 2 s g false
    ∧ windowOk (t.setWindow 1 {}) l.desc.localSize 1 0x10000 0 4096 = true ∧ (t.windows.getD 1 {}).dirty = []) :=
  met_of (sys0 0x10000 0x100000000000 0) (by decide +kernel) ⟨⟨inv_of (by decide +kernel), unwatched_of (by decide +kernel), by decide +kernel,
    by decide +kernel⟩, by decide +kernel, by decide +kernel⟩
theorem witness_scwin_clear : Met (scwinForm 0) (oneRow [0, 0]) (fun s _ g _ _ => scwinMet 0 s g false) :=
  met_of (sys0 0 0 0) (by decide +kernel) ⟨inv_of (by decide +kernel), unwatched_of (by decide +kernel), by decide +kernel, by decide +kernel⟩
/-- A local store of the split is still in its stream. -/
def scwinLate : State := onGroup (fun g => { g with
  stream := [{ id := 9, split := 0, pc := 0, sup := false, kind := .store, ty := .i32, order := .rlx, scope := .dev, g := false, dest := none
               accs := [{ lane := 0, va := 0x40, glob := false, loc := 0x40, size := 4 }], mask := 1 }] }) (sys0 0x10000 0x100000000000 0)
theorem witness_scwin_waits : Met (scwinForm 2) (oneRow [0x10000, 0x100000000000]) (fun s _ g _ _ => scwinMet 2 s g true) :=
  met_of scwinLate (by decide +kernel) ⟨inv_of (by decide +kernel), unwatched_of (by decide +kernel), by decide +kernel, by decide +kernel⟩
/-- 4096 bytes from 0x1000 are outside the allocation. -/
def scwinBad : State := lane0 (withS6 0x10000 0x100000001000 0 (placed [0]))
theorem witness_scwin_illegal : Met (scwinForm 2) (oneRow [0x10000, 0x100000001000]) (fun s t g l e => scwinMet 2 s g false
    ∧ windowOk (t.setWindow 1 {}) l.desc.localSize 1 0x10000 0x1000 4096 = false ∧ (t.windows.getD 1 {}).dirty = [] ∧ CanTrap s l e g) :=
  met_of scwinBad (by decide +kernel) ⟨⟨inv_of (by decide +kernel), unwatched_of (by decide +kernel), by decide +kernel, by decide +kernel⟩,
    by decide +kernel, by decide +kernel, can_trap (by decide +kernel)⟩

/-- 4 bytes from local 0x40 to global 0x1_0100, and none at all. -/
def cpyForm : Instr := .cpy hp 1 (.s 4) (.s 5) (.s 6)
def run0 (a b c : W64) : State := lane0 (withS6 a b c (placed [0]))
theorem witness_cpy : Met cpyForm (oneRow [0x10100, 0x40, 0x20000004]) (fun s _ _ l e =>
    fld 0x20000004 30 2 = 0 ∧ fld 0x20000004 0 28 = 4 ∧ (∃ pa wr, Maps s e.core e.die e.key e.sup .write 0x10100 (pa, wr) ∧ (inPeer pa = true → s.dev.share (e.key / 16) pa ≠ 0))
    ∧ 0x40 + 4 ≤ l.desc.localSize ∧ s.dev.copyFull e.core = false) :=
  met_of (run0 0x10100 0x40 0x20000004) (by decide +kernel) ⟨by decide +kernel, by decide +kernel, ⟨0x140100, true, maps_of (by decide +kernel), by decide +kernel⟩,
    by decide +kernel, by decide +kernel⟩
theorem witness_cpy_empty : Met cpyForm (oneRow [0x10100, 0x40, 0]) (fun s _ _ _ e => fld 0 0 28 = 0 ∧ s.dev.copyFull e.core = false) :=
  met_of (run0 0x10100 0x40 0) (by decide +kernel) ⟨by decide +kernel, by decide +kernel⟩

def rstrForm (rc : BitVec 10 := 0) : Instr := .rstr hp 1 (.s 4) (.s 5) rc
def rstrMet (pw : W32) (s : State) (e : Env) : Prop := Maps s e.core e.die e.key e.sup .none 0x10000 (0x140000, true)
  ∧ pageFrames 0x10000 (rootWalk s e.die e.key 0x10000) = some (0x140000, 1) ∧ hi32 (pw.setWidth 64) = 0
theorem witness_rstr : Met (rstrForm) (oneRow [0x10000, 0x1E9601]) (fun s _ _ _ e => rstrMet 0x1E9601 s e ∧ rstrRefusals s.mem 0x140000 1 0x1E9601 = []
    ∧ (s.mem.rereserve [0x14] (fun _ => none) (fun _ => some 0x1E9601)).isSome = true ∧ s.dev.copyFull e.core = false) :=
  met_of (sys0 0x10000 0x1E9601 0) (by decide +kernel) ⟨⟨maps_of (by decide +kernel), by decide +kernel, by decide +kernel⟩, by decide +kernel,
    by decide +kernel, by decide +kernel⟩
theorem witness_rstr_illegal : Met (rstrForm 1) (oneRow [0x10000, 0x1E9601]) (fun _ _ _ _ _ => True)
    ∧ Met (rstrForm) (oneRow [0x10000, 0x100000000]) (fun _ _ _ _ _ => hi32 0x100000000 ≠ 0) :=
  ⟨met_of (sys0 0x10000 0x1E9601 0) (by decide +kernel) trivial, met_of (sys0 0x10000 0x100000000 0) (by decide +kernel) (by decide +kernel)⟩
theorem witness_rstr_refused : Met (rstrForm) (oneRow [0x10000, 0]) (fun s _ _ _ e => rstrMet 0 s e ∧ rstrRefusals s.mem 0x140000 1 0 ≠ []
    ∧ s.dev.copyFull e.core = false) :=
  met_of (sys0 0x10000 0 0) (by decide +kernel) ⟨⟨maps_of (by decide +kernel), by decide +kernel, by decide +kernel⟩, by decide +kernel, by decide +kernel⟩
/-- Every stack is full. -/
def fullStacks : State :=
  let s := sys0 0x10000 0x1E9601 0
  { s with mem := { s.mem with reserved := (List.range 16).map (fun k => (k, stackUnits)) } }
theorem witness_rstr_no_room : Met (rstrForm) (oneRow [0x10000, 0x1E9601]) (fun s _ _ _ e => rstrMet 0x1E9601 s e
    ∧ rstrRefusals s.mem 0x140000 1 0x1E9601 = [] ∧ s.mem.rereserve [0x14] (fun _ => none) (fun _ => some 0x1E9601) = none
    ∧ s.dev.copyFull e.core = false) :=
  met_of fullStacks (by decide +kernel) ⟨⟨maps_of (by decide +kernel), by decide +kernel, by decide +kernel⟩, by decide +kernel, by decide +kernel, by decide +kernel⟩

/-! #### Class 11 -/

/-- A record that may join, at its issuer. -/
def submitsB (s : State) (e : Env) (t : Team) (g : Group) (l : Launch) (r : TileRec) : Bool :=
  (match r.check l.desc t e.gidx with
    | .ok _ => true
    | .error _ => false) && !r.waitsFor t e.gidx e.w
    && (r.ownVectors e.gidx e.w).all (fun x => !g.demoted x && (List.range g.width).all (fun n => !g.badV.contains (laneKey x n)))
    && (r.defer || (r.badVectors t).isEmpty) && !s.dev.tileFull e.core
theorem submits_of {s : State} {e : Env} {t : Team} {g : Group} {l : Launch} {r : TileRec} (h : submitsB s e t g l r = true) :
    Submits s e t g l r := by
  simp only [submitsB, Bool.and_eq_true, Bool.not_eq_true', List.all_eq_true, Bool.or_eq_true, List.isEmpty_iff, List.mem_range] at h
  obtain ⟨⟨⟨⟨h1, h2⟩, h3⟩, h4⟩, h5⟩ := h
  refine ⟨?_, h2, fun x hx => (h3 x hx).1, ⟨fun hd => ?_, fun x hx n hn => (h3 x hx).2 n hn⟩, h5⟩
  · cases hc : r.check l.desc t e.gidx with
    | ok u => rfl
    | error u => rw [hc] at h1; cases h1
  · rcases h4 with h4 | h4
    · rw [hd] at h4; cases h4
    · exact h4

/-- The operation forms, the record of each for the operands x and y, and operands: 64 KiB of local and accumulator memory. -/
def tileForms : List (Instr × (W64 → W64 → TileRec) × W64 × W64) :=
  [(.mma hp .f32 3 (.s 4) (.s 5) 0, fun x y => ⟨0, .f32, 0, false, x, y⟩, 0x1000, 0x100000000001),
   (.mma hp .bfp 3 (.s 4) (.s 5) 2, fun x y => ⟨0, .bfp, 2, false, x, y⟩, 0, 0x1000000000000000),
   (.mxfnc hp .f32 3 (.s 4) (.s 5) 0, fun x y => ⟨0, .f32, 0, true, x, y⟩, 0x1000, 0),
   (.scacc hp 3 (.s 4) (.s 5) 8, fun x y => ⟨1, .bfp, 8, false, x, y⟩, 0x400000000000, 0x100008000),
   (.bqnt hp 3 (.s 4) (.s 5) 8, fun x y => ⟨2, .bfp, 8, false, x, y⟩, 0, 0x4000),
   (.bunp hp 3 (.s 4) (.s 5) 8, fun x y => ⟨3, .bfp, 8, false, x, y⟩, 0, 0x4000),
   (.accz hp .f32 (.s 4) (.s 5) 0, fun x y => ⟨4, .f32, 0, false, x, y⟩, 0x4000, 1)]
def tiles (x y : W64) : State := onDesc (fun d => { d with localSize := 65536, accSize := 65536, regs := 128 }) (run0 x y 0)
theorem witness_tiles : ∀ f ∈ tileForms, let s := tiles f.2.2.1 f.2.2.2
    metB s f.1 (oneRow [f.2.2.1, f.2.2.2]) = true
      ∧ submitsB s (theEnv s f.1) (theTeam s) (begun s f.1) (theLaunch s) (f.2.1 f.2.2.1 f.2.2.2) = true := by decide +kernel

/-- The first of these records in local memory at 0x40. -/
def tsubForm : Instr := .tsub hp 3 (.s 4)
def recorded : State :=
  onTeam (fun t => t.setLocal ((List.range' 0x40 64).zip ((bytesOf 8 0x40 ++ bytesOf 8 0x1000 ++ bytesOf 8 0x100000000001
    ++ List.replicate 40 0).map some))) (tiles 0x40 0)
theorem witness_tsub : Met tsubForm (oneRow [0x40]) (fun s t g l e =>
    let word (k : Nat) : W64 := leWord ((t.localBytes (0x40 + 8 * k) 8).map (fun y => y.getD 0))
    LocalOk t l 64 false true [(0, 0x40)] ∧ (t.localBytes 0x40 64).all Option.isSome = true ∧ g.stream = []
    ∧ TileRec.ofWord0 (word 0) (word 1) (word 2) = some ⟨0, .f32, 0, false, 0x1000, 0x100000000001⟩ ∧ (∀ k, 3 ≤ k → k < 8 → word k = 0)
    ∧ Submits s e t (s.starting iss g tsubForm) l ⟨0, .f32, 0, false, 0x1000, 0x100000000001⟩) :=
  met_of recorded (by decide +kernel) ⟨local_of (by decide +kernel), by decide +kernel, by decide +kernel, by decide +kernel,
    fun k h1 h2 => (by decide +kernel : ∀ k, k < 8 → 3 ≤ k → leWord (((theTeam recorded).localBytes (0x40 + 8 * k) 8).map (fun y => y.getD 0)) = 0) k h2 h1,
    submits_of (by decide +kernel)⟩

/-! #### Futures -/

/-- A copy command 9 of the placed group, which waits in its queue or has started. -/
def copyCmd (started : Bool) : Cmd :=
  { id := 9, kind := .cpy 0x40 0x80 4 true true, part := 0, slot := 0, team := 1, gidx := 0, core := 0, pair := 0, launch := 1, sup := false, started }
/-- Handle 0 names it. -/
def future (started : Bool) : State :=
  onDev (fun d => { d with cmds := [copyCmd started], copyQ := [(0, [9])] }) (onGroup (fun g => { g with h := [(0, .pending 9)] }) (placed [0]))
def yldForm : Instr := .yld hp 0 0
theorem witness_fwait : Performs (future false) (.fwait hp 0) iss (theTeam (future false)) (theGroup (future false)) (theLaunch (future false))
      (theEnv (future false) (.fwait hp 0)) ∧ pendingCmd (future false) 1 0 0 ≠ none
    ∧ Performs ctl (.fwait hp 0) iss (theTeam ctl) (theGroup ctl) (theLaunch ctl) (theEnv ctl (.fwait hp 0)) ∧ pendingCmd ctl 1 0 0 = none :=
  ⟨performs_of (by decide +kernel), by decide +kernel, performs_of (by decide +kernel), by decide +kernel⟩
theorem witness_ftest : ∃ s c t g l e, Performs s (.ftest hp 1 0) c t g l e := ⟨ctl, iss, _, _, _, _, performs_of (by decide +kernel)⟩
theorem witness_yld : ∃ s c t g l e, Performs s yldForm c t g l e ∧ (∀ x ∈ together e (label e 0), StartAt s e.core l e.sup x.2)
    ∧ (e.falls = true → e.mask &&& ~~~e.visited = 0) ∧ e.mask &&& ~~~e.visited = 0 :=
  have h : goesB ctl (theEnv ctl yldForm) (theGroup ctl) (together (theEnv ctl yldForm) (label (theEnv ctl yldForm) 0)) placedPa = true := by decide +kernel
  ⟨ctl, iss, _, _, _, _, performs_of (by decide +kernel), (goes_of h).1, fun _ => by decide +kernel, by decide +kernel⟩
theorem witness_fcancel : ∃ s c t g l e k, Performs s (.fcancel hp 0) c t g l e ∧ pendingCmd s c.team c.gidx 0 = some k ∧ k.started = false
    ∧ k.team = c.team ∧ k.gidx = c.gidx :=
  ⟨future false, iss, _, _, _, _, copyCmd false, performs_of (by decide +kernel), by decide +kernel, rfl, rfl, rfl⟩
theorem witness_fcancel_late : ∃ s c t g l e, Performs s (.fcancel hp 0) c t g l e ∧ (∀ k, pendingCmd s c.team c.gidx 0 = some k → k.started = true)
    ∧ pendingCmd s c.team c.gidx 0 = some (copyCmd true) :=
  have h : pendingCmd (future true) 1 0 0 = some (copyCmd true) := by decide +kernel
  ⟨future true, iss, _, _, _, _, performs_of (by decide +kernel), fun k hk => (by cases hk.symm.trans h; rfl), h⟩

/-! #### Graphs and launches -/

/-- A node descriptor at 0x14_0100: a ring of 4 records of 8 bytes, two of them appended. -/
def noded : State := putMem [(0x140100, 0x10200), (0x140108, 0x0002000800000004), (0x140110, 2)] (run0 0x10100 0x40 0)
def emitForm : Instr := .emit hp (.s 4) (.s 5)
def emitFlushForm : Instr := .emitFlush hp (.s 4)
theorem witness_emit : Met emitForm (oneRow [0x10100, 0x40]) (fun s t _ l e => LocalOk t l 8 false false [(0, 0x40)]
    ∧ aligned 8 [(0, 0x40)] = true ∧ aligned 64 [(0, 0x10100)] = true ∧ Reach s e .both [(0, 0x10100)] [(0, 0x10100, 0x140100, true)]) :=
  met_of noded (by decide +kernel) ⟨local_of (by decide +kernel), by decide +kernel, by decide +kernel, reach_of (by decide +kernel)⟩
theorem witness_emit_flush : Met emitFlushForm (oneRow [0x10100]) (fun s _ g _ e => Inv s ∧ Unwatched s ∧ (0x10100 : W64).toNat % 64 = 0
    ∧ Maps s e.core e.die e.key e.sup .both 0x10100 (0x140100, true) ∧ inPeer 0x140100 = false ∧ s.mem.eccGood 0x140100 64 = true ∧ engineMayJoin s g e.split = true
    ∧ (nodeOf s.mem 0x140100).bad (s.dev.nodeDesc e.key 0x10100) = false) :=
  met_of noded (by decide +kernel) ⟨inv_of (by decide +kernel), unwatched_of (by decide +kernel), by decide +kernel, maps_of (by decide +kernel),
    by decide +kernel, by decide +kernel, by decide +kernel, by decide +kernel⟩

/-- A command image at 0x14_0100: one team, DONE at 0x1_0200; `q` commands wait. -/
def launching (kdesc : W64) (root : W64) (q : Nat) : State :=
  onDev (fun d => (d.setSlot 0 { d.slot 0 with ptroot := root }).setPart 0 { d.part 0 with queues := [List.replicate q (placedLaunch 1).cmd] })
    (putMem [(0x140100, kdesc), (0x140108, 1), (0x140120, 0x10200)] (run0 0x10100 0 0))
def lnchForm : Instr := .lnch hp 1 (.s 4) 0
theorem witness_lnch : ∀ x ∈ [(0x10000, 0, true), (0x10001, 0, false), (0x10000, 256, true)], let s := launching x.1 0x100001 x.2.1
    metB s lnchForm (oneRow [0x10100]) = true ∧ mapsB s 0 0 0 false .read 0x10100 (0x140100, true) = true ∧ (0x10100 : W64).toNat % 64 = 0
      ∧ releasedSys s (theGroup s) 1 0 = true ∧ (s.mem.eccGood 0x140100 64 && !s.mem.poisoned 0x140100 64) = true ∧ (s.dev.slot 0).ptroot.getLsbD 0 = true
      ∧ commandOk ((List.range 8).map (fun k => s.mem.word 0 (0x140100 + 8 * k) 8)) = x.2.2
      ∧ (((s.dev.part 0).queues.getD 0 []).length < queueDepth ↔ x.2.1 = 0) := by decide +kernel
theorem witness_lnch_inv : Inv (launching 0x10000 0x100001 0) ∧ Unwatched (launching 0x10000 0x100001 0) :=
  ⟨inv_of (by decide +kernel), unwatched_of (by decide +kernel)⟩
/-! #### Recipes -/

/-- Register 3 bound to slice 0 under all lanes. -/
def boundReg : State := onGroup (fun g => g.bindReg 3 0 0 0xFFFF ⟨0x10100, 1, [], 0, true⟩) (placed [0])
def recipeForms : List Instr := [.rcpdem hp 3, .rcpmat hp 3, .rcpdrop hp 3]
def freeB (s : State) (i : Instr) : Bool := let e := theEnv s i
  !(Instr.shape i).blocked e.g (theGroup s) e.lanes && (Instr.shape i).refs.all (fun r => e.lanes.all (fun n => !r.fails e.regs (theGroup s) n))
theorem witness_recipes : ∀ i ∈ recipeForms, performsB boundReg i = true ∧ freeB boundReg i = true ∧ (theGroup boundReg).bound 3 = true
    ∧ (theGroup boundReg).pinned 3 = false ∧ (theGroup boundReg).demoted 3 = false := by decide +kernel
/-- Entry 0 of the recipe table at 0x1_0100: a slice of one instruction at 0x1_0400, no inputs. -/
def recipeTable : State := onDesc (fun d => { d with rtab := 0x10100, nrcp := 1, sarea := 0x10400, salen := 64 })
  (putMem [(0x140100, 0x8200000000010400)] (placed [0]))
def rcpForm : Instr := .rcp hp 3 0
theorem entry_maps (st : State) (h : ∀ j, j < 4 → (mapsB st 0 0 0 false .read (0x10100 + BitVec.ofNat 64 (8 * j)) (0x140100 + 8 * j, true)
      && !inPeer (0x140100 + 8 * j)) = true) :
    ∀ j, j < 4 → Maps st 0 0 0 false .read (0x10100 + BitVec.ofNat 64 (8 * j)) (0x140100 + 8 * j, true) ∧ inPeer (0x140100 + 8 * j) = false :=
  fun j hj => by
    have := h j hj
    simp only [Bool.and_eq_true, Bool.not_eq_true'] at this
    exact ⟨maps_of this.1, this.2⟩
theorem witness_rcp : ∃ s c t g l e pa wr, Issues s c t g l ∧ e = envOf s c g l rcpForm hp ∧ Instr.runs rcpForm e = true
    ∧ freeB recipeTable rcpForm = true ∧ 0 < l.desc.nrcp
    ∧ (∀ j, j < 4 → Maps s e.core e.die e.key false .read (l.desc.rtab + BitVec.ofNat 64 (8 * j)) (pa + 8 * j, wr) ∧ inPeer (pa + 8 * j) = false)
    ∧ s.mem.sound pa 32 ∧ ClockOk s e
    ∧ (sliceEntry l.desc 0 ((List.range 4).map (fun j => s.mem.word e.die (pa + 8 * j) 8))).valid = true ∧ g.demoted 3 = false ∧ e.active = true :=
  ⟨recipeTable, iss, _, _, _, _, 0x140100, true, issues_of (by decide +kernel), rfl, by decide +kernel, by decide +kernel, by decide +kernel,
    entry_maps recipeTable (by decide +kernel), sound_of (by decide +kernel), clock_of (by decide +kernel), by decide +kernel, by decide +kernel,
    by decide +kernel⟩

/-- The slice at 0x1_0400: `add.i32 1, 2`; register 3, bound to it, is in recipe form. -/
def sliceAdd : Instr := .add hp .i32 ⟨true, 0, 0⟩ (.imm 1) (.imm 2)
def demotedReg : State := onGroup (fun g => (g.bindReg 3 0 0 0xFFFF ⟨0x10400, 1, [], 0, true⟩).demote 3)
  (putMem [(0x140400, 0x002e15c1002e0101)] recipeTable)
def rcpmatForm : Instr := .rcpmat hp 3
theorem witness_rcpmat_demoted : ∃ (s : State) (c : Issuer) (t : Team) (g : Group) (l : Launch) (e : Env) (pa ipa : Nat) (wr iwr : Bool) (kc : Comp)
    (r0 : Res), Performs s rcpmatForm c t g l e ∧ freeB demotedReg rcpmatForm = true ∧ ClockOk s e ∧ g.demoted 3 = true
    ∧ (∀ j, j < 4 → Maps s e.core e.die e.key false .read (l.desc.rtab + BitVec.ofNat 64 (8 * j)) (pa + 8 * j, wr) ∧ inPeer (pa + 8 * j) = false)
    ∧ s.mem.sound pa 32 ∧ (let n := sliceEntry l.desc (wordSlice (g.word 3)) ((List.range 4).map (fun j => s.mem.word e.die (pa + 8 * j) 8))
      n.valid = true ∧ n.count = 1 ∧ n.ins = [] ∧ (sliceSrcs sliceAdd).all (fun x => n.admits x.2 x.1) = true
        ∧ Maps s e.core e.die e.key false .fetch n.start (ipa, iwr)) ∧ inPeer ipa = false ∧ s.mem.sound ipa 4
    ∧ (∀ j, j < 8 - ipa / 4 % 8 → l.stale.contains (ipa / 4 + j) = false)
    ∧ decode true ((List.range (8 - ipa / 4 % 8)).map (fun j => (s.mem.word e.die (ipa / 4 * 4 + 4 * j) 4).setWidth 32)) = .ok sliceAdd
    ∧ Instr.comp sliceAdd = some kc ∧ kc.kind = .v r0 ∧ r0.lat = 0 ∧ kc.konst = none ∧ kc.useD = false
    ∧ bankUse s g.core g.quad 3 + g.width / 16 ≤ bankSegments :=
  ⟨demotedReg, iss, _, _, _, _, 0x140100, 0x140400, true, true, _, ⟨true, 0, 0⟩, performs_of (by decide +kernel), by decide +kernel,
    clock_of (by decide +kernel), by decide +kernel, entry_maps demotedReg (by decide +kernel), sound_of (by decide +kernel),
    ⟨by decide +kernel, by decide +kernel, by decide +kernel, by decide +kernel, maps_of (by decide +kernel)⟩, by decide +kernel,
    sound_of (by decide +kernel), by decide +kernel, ok_of (by decide +kernel), rfl, rfl, rfl, rfl, rfl, by decide +kernel⟩

/-! #### Forests -/

/-- A forest descriptor at 0x14_0100 (virtual 0x1_0100): N = 4. -/
def forested : State :=
  onDev (fun d => d.setSlot 0 { d.slot 0 with fdt := 0x10100 })
    (putMem [(0x140100, 0x10300), (0x140108, 0x10340), (0x140110, 0x10380), (0x140118, 0x1000000004)] (run0 0x10120 0 0))
def forestForms : List (Instr × List W64) :=
  [(.unite hp (rr 1) (.imm 0) (.imm 1) (.imm 3), [0, 1, 3]), (.find hp (rr 1) (.imm 0) (.imm 3), [0, 3]), (.csize hp (rr 1) (.imm 0) (.imm 3), [0, 3]),
   (.fcount hp (rr 1) (.imm 0) 1, [0]), (.fsnap hp (.imm 0), [0]), (.fundo hp (.imm 0), [0]), (.freset hp (.imm 0), [0])]
def ownB (s : State) (e : Env) (t : Team) (g : Group) (va : W64) (pa n : Nat) (ws : List W64) : Bool :=
  (s.mem.eccGood pa (8 * n) && !s.mem.poisoned pa (8 * n)) && s.dev.early.isEmpty && ws.length == n
    && (List.range n).all (fun k =>
      let a : Access := { lane := lowestLane e.w e.visited, va := va + BitVec.ofNat 64 (8 * k), glob := true, loc := pa + 8 * k, size := 8 }
      match loadFrom s t g (g.stream.filter (fun o => o.split == e.split)) a with
      | .blocked => false
      | .store x => ws[k]? == some x
      | .view => ws[k]? == some (s.mem.word e.die (pa + 8 * k) 8)
          && t.guarded.all (fun x => !(x.live && x.space == .global && x.write && x.meets a.va.toNat 8)))
theorem own_of {s : State} {e : Env} {t : Team} {g : Group} {va : W64} {pa n : Nat} {ws : List W64} (h : ownB s e t g va pa n ws = true) :
    OwnWords s e t g va pa n ws := by
  simp only [ownB, Bool.and_eq_true, List.all_eq_true, List.mem_range, beq_iff_eq, List.isEmpty_iff] at h
  obtain ⟨⟨⟨h1, h2⟩, h3⟩, h4⟩ := h
  refine ⟨sound_of (by simpa using h1), h2, h3, fun k hk => ?_⟩
  have h5 := h4 k hk
  dsimp only at h5 ⊢
  generalize loadFrom s t g _ _ = y at h5 ⊢
  cases y with
  | blocked => cases h5
  | store x => simpa using h5
  | view =>
    simp only [Bool.and_eq_true, beq_iff_eq, List.all_eq_true, Bool.not_eq_true'] at h5
    exact h5
def forestB (s : State) (e : Env) (t : Team) (g : Group) (f : W64) (pa : Nat) (ws : List W64) (reset : Bool) : Bool :=
  let va := (s.dev.slot e.key).fdt + natW (128 * lo32 f)
  (s.dev.slot e.key).fdt != 0 && decide (lo32 f < 64) && mapsB s e.core e.die e.key e.sup .read va (pa, true) && !inPeer pa
    && ownB s e t g va pa 16 ws && !(Forest.ofWords (fun k => ws.getD k 0)).bad reset
theorem forest_of {s : State} {e : Env} {t : Team} {g : Group} {f : W64} {pa : Nat} {ws : List W64} {reset : Bool}
    (h : forestB s e t g f pa ws reset = true) : ForestAt s e t g f pa ws reset := by
  simp only [forestB, Bool.and_eq_true, bne_iff_ne, decide_eq_true_eq, Bool.not_eq_true'] at h
  obtain ⟨⟨⟨⟨⟨h1, h2⟩, h3⟩, h4⟩, h5⟩, h6⟩ := h
  exact ⟨h1, h2, ⟨true, maps_of h3⟩, h4, own_of h5, h6⟩
/-- The words of the descriptor: N = 4. -/
def forestWords : List W64 := [0x10300, 0x10340, 0x10380, 0x1000000004] ++ List.replicate 12 0
theorem witness_forests : ∀ f ∈ forestForms, let e := theEnv forested f.1
    metB forested f.1 (oneRow f.2) = true ∧ (Forest.ofWords (fun k => forestWords.getD k 0)).n = 4
    ∧ ∀ reset, forestB forested e (theTeam forested) (theGroup forested) 0 0x140100 forestWords reset = true := by decide +kernel

/-- A control block at 0x14_0120, inside the zero words of the descriptor: one f32 of each row, in global memory. -/
def relabelling : State :=
  putMem [(0x140200, 0x10400), (0x140208, 0x10440), (0x140210, 0x400000004), (0x140218, 1)]
    (onDev (fun d => d.setSlot 0 { d.slot 0 with fdt := 0x10100 })
      (putMem [(0x140100, 0x10300), (0x140108, 0x10340), (0x140110, 0x10380), (0x140118, 0x1000000004)] (run0 0x10200 0 0)))
def relabelForm : Instr := .relabel hp .f32 1 (.imm 0) (.s 4)
def relabelWords : List W64 := [0x10400, 0x10440, 0x400000004, 1]
theorem witness_relabel : Met relabelForm (oneRow [0, 0x10200]) (fun s t g l e => ForestAt s e t g 0 0x140100 forestWords false
    ∧ (0x10200 : W64).toNat % 32 = 0 ∧ Maps s e.core e.die e.key e.sup .read 0x10200 (0x140200, true) ∧ inPeer 0x140200 = false
    ∧ OwnWords s e t (g.passCasOf (g.ownIds e.split)) 0x10200 0x140200 4 relabelWords
    ∧ (∃ sp, relabelCheck .f32 relabelWords (Forest.ofWords (fun k => forestWords.getD k 0)).n l.desc.accSize = .ok sp)
    ∧ s.dev.copyFull e.core = false) :=
  met_of relabelling (by decide +kernel) ⟨forest_of (by decide +kernel), by decide +kernel, maps_of (by decide +kernel), by decide +kernel,
    own_of (by decide +kernel), ⟨(⟨.global, 0x10400, 16, false⟩, ⟨.global, 0x10440, 16, true⟩), ok_of (by decide +kernel)⟩, by decide +kernel⟩

/-! #### Counters and power -/

def counters : List Counter := [.cycle, .epart, .eslot, .allow, .wheld, .pf1 0, .pfl 2, .fetch, .fused, .lgrant, .lpass, .mparm, .mpwake, .evt 0, .evt 12]
theorem witness_cntrd : ∀ n ∈ counters, readyB ctl (.cntrd hu (rr 2) n) = true := by decide +kernel
theorem witness_pwrset : ∃ s c t g l e, Performs s (.pwrset hu 2) c t g l e ∧ (2 : BitVec 2).toNat ≤ l.desc.pmax :=
  ⟨ctl, iss, _, _, _, _, performs_of (by decide +kernel), by decide +kernel⟩
theorem witness_pwrset_traps : ∃ s c t g l e, Performs s (.pwrset hu 2) c t g l e ∧ l.desc.pmax < (2 : BitVec 2).toNat ∧ CanTrap s l e g :=
  ⟨onDesc (fun d => { d with pmax := 1 }) ctl, iss, _, _, _, _, performs_of (by decide +kernel), by decide +kernel, can_trap (by decide +kernel)⟩
def cntsnForm : Instr := .cntsn hp 1 (.s 4) false
theorem witness_cntsn : Met cntsnForm (oneRow [0x10100]) (fun s _ _ _ e => (0x10100 : W64).toNat % 128 = 0
    ∧ Maps s e.core e.die e.key e.sup .write 0x10100 (0x140100, true) ∧ inPeer 0x140100 = false ∧ s.mgmt.signQ.length < signDepth) :=
  met_of (run0 0x10100 0 0) (by decide +kernel) ⟨by decide +kernel, maps_of (by decide +kernel), by decide +kernel, by decide +kernel⟩

/-! ### Witnesses: the host, the controller, power, caches, faults -/

/-- The placed team with nothing issuing. -/
def ev0 : State := { placed [0] with cur := none }

def here : GRef := ⟨1, 0⟩
/-- One operation of split 0 in the placed group's stream: lanes 0 and 1, at global 0x14_0100 or local 0x40. -/
def oneOp (kind : OpKind) (ty : Ty) (order : Order) (glob : Bool) (dest : Option Res) (lanes : List Nat) (st : AccState) : MemOp :=
  { id := 7, split := 0, pc := placedVa, sup := false, kind, ty, order, scope := .dev, g := false, dest
    accs := lanes.map (fun n => { lane := n, va := 0x10100, glob, loc := if glob then 0x140100 + 16 * n else 0x40 + 16 * n, size := tyBytes ty, data := 1, st })
    mask := 3 }
def streamed (o : MemOp) : State :=
  onTeam (fun t => t.setLocal ((List.range' 0x40 32).map (fun a => (a, some 0)))) (onGroup (fun g => { g with stream := [o] }) ev0)

/-- Slot 0 has a launch that runs; slot 1 has none, and a valid PTROOT. -/
def hosted : State := onDev (fun d => (d.setSlot 1 { d.slot 1 with ptroot := 0x100001 }).setPart 0 { d.part 0 with queues := [[], [], [], []] }) ev0
theorem witness_host : hosted.mgmt.alive = true ∧ Tab.risingFrom 0 hosted.dev.slots = true ∧ Tab.risingFrom 0 hosted.dev.parts = true
    ∧ Tab.risingFrom 0 hosted.dev.severity = true ∧ hosted.dev.slotBusy 0 = true ∧ hosted.dev.slotBusy 1 = false ∧ hosted.mgmt.lifecycle < 5
    ∧ (hosted.dev.slot 2).ptroot.getLsbD 0 = false ∧ (hosted.dev.slot 1).ptroot.getLsbD 0 = true
    ∧ commandOk [0x10000, 1, 0, 0, 0x10200, 0, 0, 0] = true ∧ (hosted.dev.part 0).queues.length = 4
    ∧ ((hosted.dev.part 0).queues.getD 3 []).length < 256 := by decide +kernel
theorem witness_host_ended : 5 ≤ ({ hosted with mgmt := { hosted.mgmt with lifecycle := 5 } } : State).mgmt.lifecycle := by decide +kernel

/-- The host bridge queue holds one request. -/
def bridged (q : HostReq) (s : State := ev0) : State := onDev (fun d => { d with hostQ := [q] }) s
theorem witness_host_traffic : ∀ q ∈ [HostReq.read 0 4, .read 0xFFFFFE 4, .write 0 [1, 2], .write 0xFFFFFE [1, 2, 3, 4], .write hostBase [1, 2], .snoop hostBase true], let s := bridged q
    s.mgmt.alive = true ∧ invB s = true ∧ s.teams.all (fun t => t.groups.all (fun g => g.watch.isEmpty)) = true ∧ Tab.risingFrom 0 s.dev.parts = true
      ∧ s.dev.hostQ = q :: [] ∧ s.dev.assigned 0 4 = true ∧ s.dev.assigned 0 2 = true ∧ s.dev.assigned 0xFFFFFE 4 = false ∧ hostMayRead s 0 4 = true
      ∧ s.mem.eccGood 0 4 = true ∧ s.dev.badRecords = [] ∧ s.dev.llc = [] ∧ s.mem.ored = [] ∧ forestsInFlight s = []
      ∧ inHost hostBase = true ∧ inHost (hostBase + 1) = true := by decide +kernel
/-- A slice holds the second sector of a host line dirty. -/
def hostLine : LlcBlock := { unit_ := 0, block := hostBase / 512, secs := [(0, some {}), (1, some { dirty := true })] }
theorem witness_host_snoop_dirty : let s := bridged (.snoop hostBase false) (onDev (fun d => { d with llc := [hostLine] }) ev0)
    s.dev.hostDirty hostBase = [hostBase / 32 + 1] ∧ s.dev.action 4 4 ≤ 2 ∧ (∀ b ∈ s.dev.llc, Tab.risingFrom 0 b.secs = true) := by decide +kernel
/-- A release at `.sys` was performed early: the store before it is still to be performed. -/
theorem witness_host_held : let s := bridged (.read 0 4) (onDev (fun d => { d with early := [⟨1, 0, 0, .sys, true, 0, 4, [7], [], false⟩] })
      (streamed (oneOp .store .i32 .rlx true none [0] .waiting)))
    s.dev.assigned 0 4 = true ∧ hostMayRead s 0 4 = false := by decide +kernel
/-- Two writes' Cmp are due: only the second's have been applied everywhere. -/
theorem witness_cmp : let s := onDev (fun d => { d with hostCmp := [[(0, 5)], [(0, 0)]] }) ev0
    let reached (l : List (Nat × Nat)) : Prop := ∀ v ∈ s.mem.views, ∀ e ∈ l, e.2 ≤ v.clock.getD e.1 0
    s.dev.hostCmp = [[(0, 5)]] ++ [(0, 0)] :: [] ∧ (∀ x ∈ [[(0, 5)]], ¬ reached x) ∧ reached [(0, 0)] := by decide +kernel
def wired : State := onDev (fun d => { d with peers := [(3, 1, some 0)] }) ev0
theorem witness_peer : Link.peer 3 ∉ wired.dev.down ∧ wired.dev.portPart 3 = some 0 ∧ (0x100 + 4 ≤ hbmEnd && (wired.dev.part 0).owns 0x100 4) = true
    ∧ wired.dev.portPart 4 = none := by decide +kernel

/-- DEPLOYED, and cluster 1 free for partition 1. -/
def deployed : State := { ev0 with mgmt := { ev0.mgmt with lifecycle := 3 } }
theorem witness_controller : deployed.mgmt.alive = true ∧ deployed.mgmt.lifecycle < 5 ∧ Tab.risingFrom 0 deployed.dev.parts = true ∧ Inv deployed
    ∧ deployed.mgmt.msm.length = 8 ∧ (∀ r ∈ (deployed.dev.part 1).ranges, r.1 % mib16 = 0 ∧ r.2 % mib16 = 0) :=
  ⟨by decide +kernel, by decide +kernel, by decide +kernel, inv_of (by decide +kernel), by decide +kernel, by decide +kernel⟩
theorem witness_configuration : (3 ≤ deployed.mgmt.lifecycle && deployed.dev.partIdle 1 && clustersOk deployed.dev 1 2 && rangesOk deployed.dev 1 [(0x1000000, 0x1000000)]
      && sharesOk deployed.dev 1 (List.replicate 16 1) && ((deployed.mem.dropMoves []).reassign [] [(0x1000000, 0x1000000)]).isSome) = true
    ∧ (3 ≤ deployed.mgmt.lifecycle && deployed.dev.partIdle 0 && clustersOk deployed.dev 0 2 && rangesOk deployed.dev 0 []
      && sharesOk deployed.dev 0 []) = false := by decide +kernel

/-- One signing request, of command 9, for a buffer at 0x1_0100. -/
def signing (life : Nat) : State :=
  let s := onDev (fun d => { d with cmds := [{ copyCmd false with kind := .cntsn 0x10100 false }] }) ev0
  { s with mgmt := { s.mgmt with lifecycle := life, signQ := [{ cmd := 9, cycle := 7 }] } }
theorem witness_power : Tab.risingFrom 0 ev0.dev.slots = true ∧ 0 ∉ ev0.dev.spent ∧ Tab.risingFrom 0 ev0.dev.cores = true ∧ Tab.risingFrom 0 ev0.dev.clusters = true ∧ Tab.risingFrom 0 ev0.dev.lanes = true
    ∧ ev0.mgmt.powered = true ∧ ev0.mgmt.alive = true := by decide +kernel
/-- The placed group permits near-threshold operation, or does not. -/
def powered (pwr : BitVec 3) (nominal : Bool) : State :=
  onDev (fun d => d.setLane (laneGroupKey 0 0 0) { d.lane (laneGroupKey 0 0 0) with nominal }) (onGroup (fun g => { g with pwr }) ev0)
theorem witness_power_mode : let k := laneGroupKey 0 0 0
    (let x := (powered 2 true).dev.lane k
     x.changing = 0 ∧ chainAt (powered 2 true) k = none ∧ x.nominal = true ∧ (boundGroups (powered 2 true) 0 0 0).length = 1
      ∧ ∀ g ∈ boundGroups (powered 2 true) 0 0 0, g.pwr = 2)
    ∧ (let x := (powered 0 false).dev.lane k
       x.changing = 0 ∧ chainAt (powered 0 false) k = none ∧ x.nominal = false
        ∧ ∃ g ∈ boundGroups (powered 0 false) 0 0 0, ¬ (g.pwr = 2 ∨ 1 ≤ g.pwr.toNat)) := by decide +kernel
theorem witness_sign : ∀ life ∈ [3, 4], (signing life).mgmt.alive = true ∧ (signing life).mgmt.signQ = [{ cmd := 9, cycle := 7 }]
    ∧ (7 : W64) ≠ ((signing life).dev.core 0).cycle ∧ (signing life).mem.ored = [] ∧ forestsInFlight (signing life) = []
    ∧ (signing life).earlyOpen 1 true 0x140100 128 = false
    ∧ (signing life).dev.cmd? 9 = some { copyCmd false with kind := .cntsn 0x10100 false } ∧ Tab.risingFrom 0 (signing life).mgmt.sealedPart = true
    ∧ Tab.risingFrom 0 (signing life).mgmt.sealedSlot = true
    ∧ ({ copyCmd false with kind := .cntsn 0x10100 false } : Cmd).joined (signing life) = true
    ∧ mapsB (signing life) (copyAgent 0) (dieOf 0) 0 false .write 0x10100 (0x140100, true) = true := by decide +kernel
theorem witness_sign_inv : Inv (signing 3) := inv_of (by decide +kernel)

/-- A directory with an entry at the first way of block 0, of the given mode and sharers. -/
def directory (mode : Nat) (ptrs : List Nat) : State :=
  onDev (fun d => { d with dir := [((d.dirKeys 0).headD 0, { mode, tag := dirTag 0, ptrs, coarse := 2, ost := 0 })] }) ev0
/-- Block 0 lies in a frame striped by 256 bytes: its second half is homed on another die. -/
def halved : MemSys := { ev0.mem with frameMap := [(0, some 0x1081FF)] }
theorem witness_halves : legalPlacement 0x1081FF = true ∧ halved.halfDie 0 = some 0 ∧ dieOf 255 ≠ halved.homeDie 0 := by decide +kernel
def awayCore : Nat := if dieOf 0 = ev0.mem.homeDie 0 then 255 else 0
theorem witness_directory : inHbm 0 = true ∧ awayCore < 256 ∧ ev0.dev.failed.length < 2 ∧ dieOf awayCore ≠ ev0.mem.homeDie 0
    ∧ (∀ x ∈ [(0, []), (1, [4]), (1, [4, 5, 6, 7]), (2, [])], let s := directory x.1 x.2
        Tab.risingFrom 0 s.dev.dir = true ∧ Tab.risingFrom 0 s.dev.parts = true ∧ (∀ k ∈ s.dev.dirKeys 0, (Tab.get {} s.dev.dir k).recalling = false)
          ∧ (if x.1 = 0 then s.dev.dirFind 0 = none ∧ (s.dev.dirKeys 0).find? (fun k => (Tab.get {} s.dev.dir k).mode == 0) ≠ none
             else s.dev.dirFind 0 = some ((s.dev.dirKeys 0).headD 0))) ∧ awayCore ∉ [4, 5, 6, 7] := by decide +kernel

/-- Every way of set 5 of junction 0 has been in recall since cycle 1. -/
def recalled : State :=
  onDev (fun d => { d with dir := (List.range' (dirBase 0 5) 16).map (fun k => (k, { mode := 1, recalling := true }))
                           dirWait := [(waitKey (0, 5), (1, 0x200))], cores := [(0, { d.core 0 with cycle := 4096 })] }) ev0
theorem witness_overflow : let w := Tab.get (0, 0) recalled.dev.dirWait (waitKey (0, 5))
    let ev : Event := { cls := 8, src := 8, slot := none, part := recalled.dev.owner w.2, unit_ := unitCode 8 68, addr := natW w.2 }
    0 < w.1 ∧ w.1 < 2 ^ 64 ∧ w.1 + 4096 ≤ recalled.dev.now + 1
      ∧ (∀ k ∈ List.range' (dirBase 0 5) 16, (Tab.get {} recalled.dev.dir k).recalling = true) ∧ Tab.risingFrom 0 recalled.dev.dirWait = true
      ∧ recalled.dev.boxStopped = false ∧ recalled.dev.boxFrozen = false ∧ ev.action recalled.dev ≠ 0 ∧ ev.action recalled.dev ≤ 2
      ∧ Tab.risingFrom 0 recalled.dev.dir = true ∧ Tab.risingFrom 0 recalled.dev.parts = true := by decide +kernel
/-- Core 0's prefetcher follows lines upwards from 0x1_0000; so does the slice of physical 0x180, from 0x100. -/
def streaming : State := onDev (fun d => { d with streams := [(0, some { slot := 0, last := 0x10000, stride := 128 }),
  (256 + ev0.mem.homeUnit 0x180, some { slot := 0, last := 0x100, stride := 128 })] }) ev0
theorem witness_prefetch : ∃ x level pte from_, Tab.get none streaming.dev.streams 0 = some x ∧ x.reaches 0x10080 = true
    ∧ streaming.dev.corePart 0 = some (x.slot / 16) ∧ Maps streaming 0 (dieOf 0) x.slot x.sup .read (BitVec.ofNat 64 0x10080) (0x140080, true)
    ∧ (rootWalk streaming (dieOf 0) x.slot (BitVec.ofNat 64 0x10080)).end_ = .leaf level pte from_ ∧ x.last / pageBytes level = 0x10080 / pageBytes level
    ∧ inHbm 0x140080 = true ∧ streaming.dev.l1Has 0 0x140080 = false ∧ Tab.risingFrom 0 streaming.dev.cores = true :=
  ⟨{ slot := 0, last := 0x10000, stride := 128 }, 0, _, _, by decide +kernel, by decide +kernel, by decide +kernel, maps_of (by decide +kernel),
    by rfl, by decide +kernel, by decide +kernel, by decide +kernel, by decide +kernel⟩
theorem witness_prefetch_slice : let unit := streaming.mem.homeUnit 0x180
    (match Tab.get none streaming.dev.streams (256 + unit) with
      | some x => x.slot / 16 == 0 && x.reaches 0x180 && x.last / 65536 == 0x180 / 65536
      | none => false) = true
    ∧ inHbm 0x180 = true ∧ (streaming.dev.part 0).owns 0x180 128 = true ∧ streaming.dev.llcHas unit 0x180 = false := by decide +kernel
/-- Sector 8 is dirty in the last-level cache, sector 40 in core 0's L1; ECC will find 41 and 42 wrong. -/
def dirtied : State :=
  let s := onDev (fun d => { d with llc := [{ unit_ := 0, block := 0, secs := [(8, some { dirty := true })] }]
                                    l1 := [{ core := 0, line := 10, secs := [some .modified, none, none, none] }] }) ev0
  { s with mem := { s.mem with latent := [(41, .corrected), (42, .uncorrectable)] } }
def isOpenB (ev : Event) : Bool := !dirtied.dev.boxStopped && !dirtied.dev.boxFrozen && ev.action dirtied.dev != 0 && ev.action dirtied.dev ≤ 2
theorem witness_sectors :
    let skim (k src : Nat) : Event := { cls := 4, src, slot := none, part := dirtied.dev.owner (32 * k), unit_ := sliceUnit dirtied.mem (32 * k), addr := natW (32 * k) }
    let scrub (k cls : Nat) : Event := { cls, src := 5, slot := none, part := dirtied.dev.owner (32 * k), unit_ := controllerOf dirtied.mem (32 * k), addr := natW (32 * k) }
    (∃ b ∈ dirtied.dev.llc, b.block = 8 / 16 ∧ ((b.sec (8 % 16)).map (fun x => x.dirty)) = some true)
      ∧ (∀ b ∈ dirtied.dev.llc, b.block ≠ 40 / 16) ∧ (∃ x ∈ dirtied.dev.l1, x.line = 40 / 4 ∧ x.dirty (40 % 4) = true)
      ∧ (∀ k ∈ [8, 40, 41, 42], inHbm (32 * k) = true ∧ dirtied.mem.poison.contains k = false)
      ∧ isOpenB (skim 8 4) = true
      ∧ isOpenB { skim 40 3 with unit_ := coreUnit ((dirtied.dev.dirtyCore 40).getD 0) } = true ∧ isOpenB (scrub 41 0) = true ∧ isOpenB (scrub 42 2) = true
      ∧ dirtied.mem.finding 8 .good = .good ∧ dirtied.mem.finding 41 .good = .corrected ∧ dirtied.mem.finding 42 .good = .uncorrectable
      ∧ dirtied.mem.buried = [] := by decide +kernel
/-- The set of a dirty host line is full. -/
def hostFull : State :=
  let k := hostBase / 512
  onDev (fun d => { d with llc := (List.range 16).map (fun i => { unit_ := ev0.mem.homeUnit hostBase, block := k + 512 * 32 * i, secs := [(0, some { dirty := true })] }) }) ev0
theorem witness_host_line : let k := hostBase / 32
    let ev : Event := { cls := 4, src := 4, slot := none, part := hostFull.dev.owner (32 * k), unit_ := sliceUnit hostFull.mem (32 * k), addr := natW (32 * k) }
    inHost (32 * k) = true ∧ hostFull.setFull k = true ∧ hostFull.dev.dirtyLlc k = true ∧ hostFull.mem.poison.contains k = false
      ∧ (!hostFull.dev.boxStopped && !hostFull.dev.boxFrozen && ev.action hostFull.dev != 0 && ev.action hostFull.dev ≤ 2) = true := by decide +kernel
theorem witness_fetch_fill : ev0.teams.length ≤ 1024 ∧ ∃ u ∈ ev0.teams, ∃ g ∈ u.groups, g.core = 0 ∧ ∃ x ∈ g.splits, x.live = true
    ∧ ev0.dev.code.any (fun c => c.core == 0 && !c.const && c.slot == 0 && c.line == codeLine x.pc) = false := by decide +kernel
/-- Window 1 of 1024 bytes at local 0x200 shows 0x1_0000; word 3 has been written. -/
def windowTeam : State := onTeam (fun t => { t with windows := setNth t.windows 1 { lbase := 0x200, len := 1024, vbase := 0x10000, mode := 2, dirty := [3] } }) ev0
theorem witness_window_fill : ∃ tm l w pa wr, windowTeam.team? 1 = some tm ∧ windowTeam.launch? tm.launch = some l ∧ tm.windows[1]? = some w ∧ w.mode ≠ 0
    ∧ 512 * 1 < w.len ∧ w.valid.contains 1 = false ∧ Tab.wf none tm.spad = true ∧ clockOk windowTeam tm (dieOf tm.core0) = true
    ∧ Maps windowTeam (mapUnit tm.core0) (dieOf tm.core0) l.cmd.slot false .read (w.vbase + BitVec.ofNat 64 (512 * 1)) (pa, wr) ∧ inPeer pa = false
    ∧ windowTeam.mem.eccGood pa 512 = true :=
  ⟨theTeam windowTeam, theLaunch windowTeam, { lbase := 0x200, len := 1024, vbase := 0x10000, mode := 2, dirty := [3] }, 0x140200, true, by decide +kernel,
    by decide +kernel, by decide +kernel, by decide +kernel, by decide +kernel, by decide +kernel, by decide +kernel, by decide +kernel, maps_of (by decide +kernel),
    by decide +kernel, by decide +kernel⟩

/-- Every report of the claims about faults is on; bad core state is an action of its own. -/
def faulty : State := onDev (fun d => { d with dir := [(dirBase 1 7 + 2, { mode := 1, ptrs := [4], tag := 5 })] }) ev0
theorem witness_faults : faulty.mgmt.powered = true ∧ (faulty.dev.boxStopped = false ∧ faulty.dev.boxFrozen = false) ∧ Tab.risingFrom 0 faulty.dev.parts = true
    ∧ Tab.risingFrom 0 faulty.dev.slots = true ∧ (∀ l ∈ [Link.boundary 1 0, .boundary 7 1, .peer 0, .peer 15, .cxl], faulty.dev.linkUp l = true)
    ∧ (∀ x ∈ [(6, 7), (7, 7), (6, 6), (10, 8), (11, 9), (12, 9)], faulty.dev.action x.1 x.2 ≠ 0 ∧ faulty.dev.action x.1 x.2 ≤ 2)
    ∧ faulty.dev.junctionUp 1 = true ∧ (Tab.get {} faulty.dev.dir (dirBase 1 7 + 2)).mode ≠ 0 ∧ Tab.risingFrom 0 faulty.dev.dir = true
    ∧ (faulty.group? 1 0).isSome = true ∧ faulty.dev.action 10 9 = 3 ∧ Tab.risingFrom 0 faulty.mgmt.sealedPart = true
    ∧ Tab.risingFrom 0 faulty.mgmt.sealedSlot = true := by decide +kernel
def dark : State := { ev0 with mgmt := { ev0.mgmt with powered := false, alive := false, sealedPart := [(0, 5)], sealedSlot := [(3, 7)] } }
theorem witness_power_on : dark.mgmt.powered = false ∧ Tab.risingFrom 0 dark.dev.parts = true ∧ Tab.risingFrom 0 dark.dev.slots = true
    ∧ Tab.risingFrom 0 dark.mgmt.sealedPart = true ∧ Tab.risingFrom 0 dark.mgmt.sealedSlot = true := by decide +kernel

/-- A setting that the controller may write for a cluster (R357). -/
theorem witness_settings : ∀ x ∈ [((3 : Nat), ({ amax := 8192, t3 := 128 } : Allowance))],
    x.2.refill ≤ 255 ∧ 1 ≤ x.2.amax ∧ x.2.amax ≤ 2 ^ 20 ∧ x.2.t1 < x.2.t2 ∧ x.2.t2 < x.2.t3 := by decide

/-- R365: of two requests of one cycle that of the lower core stands first; an older one keeps its place. -/
theorem test_readings_of_a_cycle : (enqueueReading ⟨7, 2, 5⟩ [⟨4, 9, 4⟩, ⟨5, 9, 5⟩]).map (·.cmd) = [4, 7, 5] := by decide

/-! ### Witnesses: the ordering machine -/

def spot (s : State) (lane : Nat) : Spot :=
  (spotOf s here 7 lane).getD ⟨theTeam s, theGroup s, theLaunch s, { id := 0, split := 0, pc := 0, sup := false, kind := .fence, ty := .i32
                                                                     order := .rlx, scope := .dev, g := false, dest := none, accs := [] },
    { lane := 0, va := 0, glob := false, loc := 0, size := 0 }⟩
def plainB (s : State) (lane : Nat) : Bool := let x := spot s lane
  (spotOf s here 7 lane).isSome && x.op.id == 7 && x.acc.lane == lane && decide (lane < 128) && x.op.fails.isEmpty && x.team.guarded.isEmpty
    && x.badWord.isNone && s.mem.ored.isEmpty && (forestsInFlight s).isEmpty && invB s && decide (x.die < 8)
theorem plain_of {s : State} {lane : Nat} (h : plainB s lane = true) : Plain s here 7 lane (spot s lane) := by
  simp only [plainB, Bool.and_eq_true, beq_iff_eq, decide_eq_true_eq, List.isEmpty_iff, Option.isNone_iff_eq_none] at h
  obtain ⟨⟨⟨⟨⟨⟨⟨⟨⟨⟨h1, h2⟩, h3⟩, h4⟩, h5⟩, h6⟩, h7⟩, h8⟩, h9⟩, h10⟩, h11⟩ := h
  refine ⟨?_, h2, ⟨h3, h4⟩, h5, h6, h7, h8, h9, inv_of h10, h11⟩
  obtain ⟨y, hy⟩ := Option.isSome_iff_exists.1 h1
  simp [spot, hy]

/-- A load whose other lane is undone, one whose other lane is done (its last), at lane 0. -/
def loads : State := streamed (oneOp .load .f32 .rlx true (some (rr 3)) [0, 1] .waiting)
def lastLoad : State := streamed (oneOp .load .i64 .acq false (some (rr 2)) [0] .waiting)
theorem witness_perform_load : (∃ x v, Plain loads here 7 0 x ∧ x.op.kind = .load ∧ x.acc.st = .waiting ∧ x.loads loads = some v
      ∧ ∃ a ∈ x.op.accs, a.lane ≠ 0 ∧ a.undone = true)
    ∧ ∃ x v, Plain lastLoad here 7 0 x ∧ x.op.kind = .load ∧ x.acc.st = .waiting ∧ x.loads lastLoad = some v ∧ (∀ a ∈ x.op.accs, a.lane ≠ 0 → a.st = .done)
      ∧ x.op.dest = some (rr 2) ∧ (x.op.accs.map (·.lane)).Nodup ∧ (∀ a ∈ x.op.accs, a.lane < 128) ∧ (x.op.g = true → x.op.accs.length = 1) ∧ Tab.risingFrom 0 x.g.s = true :=
  ⟨⟨spot loads 0, 0, plain_of (by decide +kernel), by decide +kernel, by decide +kernel, by decide +kernel, by decide +kernel⟩,
   ⟨spot lastLoad 0, 0, plain_of (by decide +kernel), by decide +kernel, by decide +kernel, by decide +kernel, by decide +kernel, by decide +kernel,
    by decide +kernel, by decide +kernel, by decide +kernel, by decide +kernel⟩⟩
def stores (glob : Bool) : State := streamed (oneOp .store .i32 .rel glob none [0, 1] .waiting)
theorem witness_commit : ∀ glob, ∃ x, Plain (stores glob) here 7 0 x ∧ x.op.kind = .store ∧ x.acc.st = .waiting ∧ x.acc.glob = glob
    ∧ mayPerformEarly (stores glob) here.team x.g x.op x.acc x.op.order = true
    ∧ earlyHeld (stores glob) here.team x.g x.op.split x.op.scope x.acc x.op.order = false ∧ ∃ a ∈ x.op.accs, a.lane ≠ 0 ∧ a.undone = true := fun glob =>
  ⟨spot (stores glob) 0, plain_of (by revert glob; decide +kernel), by revert glob; decide +kernel, by revert glob; decide +kernel,
    by revert glob; decide +kernel, by revert glob; decide +kernel, by revert glob; decide +kernel, by revert glob; decide +kernel⟩
/-- Answers on their way: of an `arw`, of an `atm`; the home still has the answer. -/
def replying (kind : OpKind) (dest : Option Res) : State :=
  let s := streamed (oneOp kind .n32 .rlx false dest [0, 1] .applied)
  onDev (fun d => { d with answers := [(0, targetUnit s (spot s 0), 0, 5)] }) s
theorem witness_reply : (∃ x, Plain (replying .arw none) here 7 0 x ∧ x.acc.st = .applied ∧ x.acc.fs.more = false ∧ x.acc.undef = false ∧ x.op.kind = .arw)
    ∧ ∃ x, Plain (replying (.atm .add) (some (rr 3))) here 7 0 x ∧ x.acc.st = .applied ∧ x.acc.fs.more = false ∧ x.acc.undef = false
      ∧ x.op.kind = .atm .add ∧ x.op.dest = some (rr 3) ∧ Tab.risingFrom 0 x.g.s = true :=
  ⟨⟨spot (replying .arw none) 0, plain_of (by decide +kernel), by decide +kernel, by decide +kernel, by decide +kernel, by decide +kernel⟩,
   ⟨spot (replying (.atm .add) (some (rr 3))) 0, plain_of (by decide +kernel), by decide +kernel, by decide +kernel, by decide +kernel, by decide +kernel,
    by decide +kernel, by decide +kernel⟩⟩
/-- The answer of one of a forest instruction's steps is on its way. -/
def stepping : State :=
  let o := oneOp (.forest .find 0x140100) .n32 .rlx true (some (rr 3)) [0] .waiting
  streamed { o with accs := o.accs.map (fun a => { a with size := 128, fs := { a.fs with more := true } }) }
theorem witness_step_reply : ∃ x, spotOf stepping here 7 0 = some x ∧ x.acc.st = .waiting ∧ x.acc.fs.more = true := by
  have h : (spotOf stepping here 7 0).any (fun x => x.acc.st == .waiting && x.acc.fs.more) = true := by decide +kernel
  cases hx : spotOf stepping here 7 0 with
  | none => rw [hx] at h; cases h
  | some x => exact ⟨x, rfl, by simpa [hx] using h⟩
theorem witness_resend : let s := replying (.atm .add) (some (rr 3)); let x := spot s 0
    s.dev.answers.find? (fun a => a.1 == x.g.core && a.2.1 == targetUnit s x && a.2.2.1 == x.acc.seq) = some (0, targetUnit s x, 0, 5) := by decide +kernel

/-- Die 1 has committed byte 7 of HBM; its write waits at die 0. -/
def arriving : Arrival := { src := 1, vc := [0, 1, 0, 0, 0, 0, 0, 0], cells := [(7, 9, 1)], team := 1, gidx := 0, split := 0 }
def applying : State := { ev0 with mem := { ev0.mem with home := [(7, 1)], views := setNth ev0.mem.views 0 { ev0.mem.views.getD 0 {} with queue := [arriving] } } }
theorem witness_apply : ∃ v w, Inv applying ∧ applying.mem.views[0]? = some v ∧ v.queue[0]? = some w ∧ mayApply v w = true ∧ (w.cells.map (·.1)).Nodup
    ∧ w.src < 8 :=
  ⟨applying.mem.views.getD 0 {}, arriving, inv_of (by decide +kernel), by decide +kernel, by decide +kernel, by decide +kernel, by decide +kernel, by decide +kernel⟩

/-- A fence whose split waits for it: of order acq; of order sc with and without its place. -/
def fenced (order : Order) (snap : Option (List Nat × Nat × Nat)) : State :=
  onSplit (fun x => { x with wait := .op 7 }) (streamed { oneOp .fence .i32 order false none [] .waiting with snap })
theorem witness_fences : (∀ s ∈ [fenced .acq none, fenced .sc none, fenced .sc (some (List.replicate 8 0, 0, 0))],
      s.team? 1 = some (theTeam s) ∧ s.group? 1 0 = some (theGroup s) ∧ s.launch? (theTeam s).launch = some (theLaunch s)
        ∧ (theGroup s).op? 7 = some (spot s 0).op ∨ ((theGroup s).op? 7).map (·.kind) = some .fence)
    ∧ (let s := fenced .acq none; ((theGroup s).op? 7).any (fun o => fenceReady s 1 (theGroup s) o) = true)
    ∧ (let s := fenced .sc none; ((theGroup s).before 0 7).any MemOp.openAny = false)
    ∧ (let s := fenced .sc (some (List.replicate 8 0, 0, 0)); ((theGroup s).op? 7).any (fun o => scReady s (dieOf (theGroup s).core) o (List.replicate 8 0, 0, 0) && !fenceHeld s 1 (theGroup s) o) = true) := by
  decide +kernel
/-- An `arw` that arrived in phase 1 at a word whose phase is 0 now. -/
def arwWaits : State :=
  let o := oneOp .arw .n64 .rlx false none [0] .arrived
  streamed { o with accs := o.accs.map (fun a => { a with old := 1 }) }
theorem witness_arw_ends : ∃ o, (theGroup arwWaits).op? 7 = some o ∧ o.kind = .arw ∧ o.fails = [] ∧ ∃ a ∈ o.accs, a.st = .arrived
    ∧ earlyHeld arwWaits 1 (theGroup arwWaits) o.split o.scope a o.order = false
    ∧ ((theTeam arwWaits).localBytes (a.loc + 4) 4).all Option.isSome = true
    ∧ leWord (((theTeam arwWaits).localBytes (a.loc + 4) 4).map (fun b => b.getD 0)) ≠ a.old :=
  ⟨(spot arwWaits 0).op, by decide +kernel, by decide +kernel, by decide +kernel, (spot arwWaits 0).acc, by decide +kernel, by decide +kernel,
    by decide +kernel, by decide +kernel, by decide +kernel⟩
/-- A split that waits for handle 2, which is empty. -/
theorem witness_handle_wait : let s := onSplit (fun x => { x with wait := .fwait 2 }) ev0
    ((theGroup s).split 0).wait = .fwait 2 ∧ (theGroup s).handle 2 = .empty := by decide +kernel

/-- The atomic forms at their place: lanes 0 and 1, one of them in a `red`. -/
def atomicAt (kind : OpKind) (glob : Bool) : State :=
  streamed (oneOp kind (match kind with
    | .arrive | .arw => .n64
    | _ => .i32) .rlx glob (some (rr 3)) [0, 1] .waiting)
/-- The word of a local barrier that expects 2 arrivals (R167). -/
def barred (kind : OpKind) : State := onTeam (fun t => t.setLocal ((List.range' 0x40 8).zip ((bytesOf 8 0x200000002).map some))) (atomicAt kind false)
def atomicB (s : State) : Bool := let x := spot s 0
  plainB s 0 && x.launch.cmd.mode == 0 && x.acc.st == .waiting && mayRequest s x && x.latest s && s.mem.eccGood x.acc.loc 16 && !s.mem.poisoned x.acc.loc 16
    && s.mem.eccGood x.acc.loc x.acc.size && !s.mem.poisoned x.acc.loc x.acc.size && x.acc.wr && (bytesAt s x.team x.die x.acc).all Option.isSome
    && (let old := leWord ((bytesAt s x.team x.die x.acc).map (fun b => b.getD 0))
        mayPerformEarly s 1 x.g x.op x.acc .rlx && x.pathReady s (actOf x.op x.acc old).order)

theorem witness_atomic : (∀ k ∈ [OpKind.atm .add, .red .add, .cas .rlx], ∀ glob, atomicB (atomicAt k glob) = true)
    ∧ ∀ k ∈ [OpKind.arrive, .arw], atomicB (barred k) = true ∧ (let x := spot (barred k) 0
        arriveWord (leWord ((bytesAt (barred k) x.team x.die x.acc).map (fun b => b.getD 0))) ≠ none) := by decide +kernel

/-- An ordered set at 0x14_0100 with N = 4, NEXT 0, operation add; the access carries index i. -/
def oredAt (i : W64) : State :=
  let o := oneOp .ored .i32 .rlx true none [0] .waiting
  putMem [(0x140108, 0x0000000400000000)] (streamed { o with accs := o.accs.map (fun a => { a with cmp := i, size := 16 }) })
def oredB (s : State) (due : Bool) : Bool := let x := spot s 0
  plainB s 0 && x.launch.cmd.mode == 0 && x.acc.st == .waiting && mayRequest s x && x.latest s && s.mem.eccGood x.acc.loc 16 && !s.mem.poisoned x.acc.loc 16
    && x.op.kind == .ored && x.acc.glob && x.pathReady s x.op.order
    && (let w := oredSet (s.mem.word x.die x.acc.loc 8) (s.mem.word x.die (x.acc.loc + 8) 8)
        w.fold? x.op.ty == some .add && decide (lo32 x.acc.cmp < w.n) && (if due then lo32 x.acc.cmp == w.next else decide (w.next < lo32 x.acc.cmp)))
theorem witness_ored : oredB (oredAt 0) true = true ∧ oredB (oredAt 3) false = true := by decide +kernel
/-- A contribution with index 0 held for that set. -/
def heldSet : State :=
  let s := putMem [(0x140108, 0x0000000400000000)] ev0
  { s with mem := { s.mem with ored := [{ key := 0, slice := s.mem.homeUnit 0x140100, set_ := 0x140100, ty := .i32, idx := 0, x := 5, clock := List.replicate 8 0 }] } }
theorem witness_ored_held : Inv heldSet ∧ forestsInFlight heldSet = [] ∧ ∃ h, heldSet.mem.ored = [h] ∧ heldSet.mem.sound h.set_ 16 ∧ inHbm h.set_ = true
    ∧ (let die := heldSet.mem.homeDie h.set_
       let w := oredSet (heldSet.mem.word die h.set_ 8) (heldSet.mem.word die (h.set_ + 8) 8)
       covers (heldSet.mem.views.getD die {}).clock h.clock = true ∧ heldSet.mem.latest die h.set_ 16 = true ∧ w.fold? h.ty = some .add ∧ h.idx = w.next
        ∧ h.idx < w.n) :=
  ⟨inv_of (by decide +kernel), by decide +kernel, heldSet.mem.ored.headD { key := 0, slice := 0, set_ := 0, ty := .i32, idx := 0, x := 0 }, by decide +kernel, sound_of (by decide +kernel),
    by decide +kernel, by decide +kernel⟩
theorem witness_ored_retry : let s := onSplit (fun x => { x with wait := .retry 7 0 }) (streamed (oneOp .ored .i32 .rlx true none [0] .refused))
    ((theGroup s).split 0).wait = .retry 7 0 ∧ s.group? 1 0 = some (theGroup s) ∧ 0 ≤ (s.dev.core 0).cycle.toNat := by decide +kernel

/-! ### Witnesses: engines, the scheduler, the porter -/

def withCmds (l : List Cmd) (s : State) : State := onDev (fun d => { d with cmds := l }) s
theorem witness_copy_start : let s := future false
    let q := (Tab.get [] s.dev.copyQ 0).filterMap s.dev.cmd?
    (q.filter (fun x => x.started)).length < 4 ∧ q.find? (fun x => !x.started) = some (copyCmd false) ∧ (copyCmd false).joined s = true := by decide +kernel
/-- Its split's store 7 is still in its buffer: the command has not joined its queue. -/
theorem witness_copy_waits : let c : Cmd := { copyCmd false with after := [7] }
    let s := onDev (fun d => { d with cmds := [c], copyQ := [(0, [9])] }) (streamed (oneOp .store .i32 .rlx true none [0] .waiting))
    let q := (Tab.get [] s.dev.copyQ 0).filterMap s.dev.cmd?
    (q.filter (fun x => x.started)).length < 4 ∧ q.find? (fun x => !x.started) = some c ∧ c.joined s = false := by decide +kernel
/-- A copy of 4 bytes from 0x1_0100 to 0x1_0200 that has started, before its read and before its write. -/
def copying (left : List (Nat × Nat)) (held : List (Nat × List (Option Byte) × Bool)) : Cmd :=
  { copyCmd true with kind := .cpy 0x10200 0x10100 4 false false, left, held }
theorem witness_copy_runs : ∀ c ∈ [copying [(0, 1)] [], copying [] [(0, [some 1, some 2, some 3, some 4], false)]],
    let s := withCmds [c] ev0
    s.dev.cmd? 9 = some c ∧ c.started = true ∧ c.finished = false ∧ c.core < 256 ∧ invB s = true
      ∧ mapsB s (copyAgent 0) (dieOf 0) 0 false .read 0x10100 (0x140100, true) = true
      ∧ mapsB s (copyAgent 0) (dieOf 0) 0 false .write 0x10200 (0x140200, true) = true ∧ inPeer 0x140100 = false ∧ inPeer 0x140200 = false
      ∧ s.mem.eccGood 0x140100 4 = true ∧ s.mem.eccGood 0x140200 4 = true
      ∧ s.dev.early = [] ∧ s.mem.ored = [] ∧ forestsInFlight s = [] := by decide +kernel
theorem witness_handle_complete : let s := withCmds [copyCmd true] (future true)
    s.dev.cmd? 9 = some (copyCmd true) ∧ (copyCmd true).ended = true ∧ s.team? 1 = some (theTeam s) ∧ s.saved = [] ∧ s.group? 1 0 = some (theGroup s)
      ∧ (theGroup s).handle 0 = .pending 9 ∧ (copyCmd true).status < 256 ∧ (copyCmd true).detail < 256 := by decide +kernel

/-- `accz` of one f32 tile at accumulator address 0x1000, waiting and started. -/
def zeroCmd (started : Bool) : Cmd := { copyCmd started with kind := .tile 0x44 0x1000 1 none }
def zeroing (started : Bool) : State :=
  onDev (fun d => { d with cmds := [zeroCmd started], pairs := [(0, { d.pair 0 with queue := [9] })] }) ev0
def zeroRec : TileRec := ⟨4, .f32, 0, false, 0x1000, 1⟩
theorem witness_tile_start : let s := zeroing false
    s.dev.engineBusy 0 1 = false ∧ ((s.dev.pair 0).lease 1).team = none ∧ (s.readyRecords 0).head? = some (zeroCmd false)
      ∧ (zeroCmd false).finished = false ∧ zeroRec.defer = false ∧ (zeroCmd false).tileRec = some zeroRec ∧ s.team? 1 = some (theTeam s) ∧ (theTeam s).setWindows = [] ∧ Tab.risingFrom 0 s.dev.pairs = true := by decide +kernel
theorem witness_tile_complete : let s := zeroing true
    (s.dev.cmd? 9 = some (zeroCmd true) ∧ (zeroCmd true).tileRec = some zeroRec ∧ s.saved = [] ∧ (theTeam s).badLocal = [] ∧ (theTeam s).badAcc = []
      ∧ (theTeam s).spoiled.contains 9 = false ∧ Tab.wf none (theTeam s).spad = true ∧ Tab.wf none (theTeam s).accLow = true
      ∧ Tab.wf none (theTeam s).accHigh = true)
    ∧ s.dev.early = [] ∧ zeroRec.spans = [⟨.acc, 0x1000, 4096, true⟩]
    ∧ zeroRec.results 0 0 [#[]] #[] = ([(⟨.acc, 0x1000, 4096, true⟩, List.replicate 4096 (some 0))], 0) := by
  refine ⟨by decide +kernel, by decide +kernel, by decide +kernel, rfl⟩

/-- The page at 0x14_0000 moves to another placement; its first block, and its last, is due. -/
def moveOf (cursor : Nat) : Moving := { cmd := 9, pa := 0x140000, bytes := 65536, cursor, old := [homePlacement 0x14], pw := 0x1E9601 }
def movingCmd : Cmd := { copyCmd true with kind := .rstr 0x140000 1 0x1E9601 }
def movingPage (cursor : Nat) : State :=
  let s := withCmds [movingCmd] ev0
  { s with mem := { s.mem with moving := [moveOf cursor] } }
theorem fits_of {m : MemSys} (h : m.ored = []) (lo : Nat) (unit : Nat → Nat) : m.migrationFits lo unit = true := by simp [MemSys.migrationFits, h]
theorem witness_restripe : ∀ k ∈ [0, 127], let s := movingPage k
    invB s = true ∧ s.dev.cmd? 9 = some movingCmd ∧ s.mem.ored = [] ∧ s.mem.moving.find? (fun x => x.cmd == 9) = some (moveOf k)
      ∧ (512 * (k + 1) < 65536 ↔ k = 0) ∧ legalPlacement 0x1E9601 = true := by decide +kernel

/-- A `relabel` of one row of one f32 onto itself as its root. -/
def relabelCtl : List W64 := [0x10400, 0x10440, 0x400000004, 1]
def relabelCmd (engine : Option Nat) (held : List (Nat × List (Option Byte) × Bool)) : Cmd :=
  { copyCmd true with kind := .relabel 0x140100 .f32 relabelCtl, roots := [0], engine, held }
def relabelAt (c : Cmd) : State := putMem [(0x140118, 0x1000000001)] (withCmds [c] ev0)
theorem witness_relabel_run : let c := relabelCmd none [(0, [some 0, some 0, some 0x80, some 0x3F], false)]
    let s := relabelAt c
    s.dev.cmd? 9 = some c ∧ c.started = true ∧ c.finished = false ∧ c.status = 0 ∧ (forestOf s.mem (dieOf 0) 0x140100).n ≤ c.roots.length ∧ c.left = []
      ∧ (∀ u ∈ s.teams ++ s.saved, u.spoiled.contains 9 = false) ∧ relabelOverlap .f32 relabelCtl 1 = false ∧ fld (relabelCtl.getD 3 0) 0 24 = 1
      ∧ c.held.find? (fun h => h.1 == 0) = some (0, ([0, 0, 0x80, 0x3F] : List Byte).map some, false) := by decide +kernel
theorem witness_relabel_done : let c := relabelCmd (some 0) []
    (relabelAt c).dev.cmd? 9 = some c ∧ c.engine ≠ none ∧ c.held = [] ∧ c.started = true ∧ c.finished = false ∧ c.status = 0 := by decide +kernel
theorem witness_fcount : let s := streamed (oneOp (.forest (.fcount 1) 0x140100) .n32 .rlx true (some (rr 1)) [0] .waiting)
    let x := spot s 0
    (spotOf s here 7 0).isSome = true ∧ x.op.kind = .forest (.fcount 1) 0x140100 ∧ x.acc.st = .waiting ∧ x.op.id = 7 ∧ x.acc.lane = 0 ∧ mayRequest s x = true
      ∧ mayPerformEarly s 1 x.g x.op x.acc .rlx = true ∧ (s.mem.eccGood 0x140100 128 && !s.mem.poisoned 0x140100 128) = true ∧ x.seat.sees s 0x140100 128 = true
      ∧ ∀ a ∈ x.op.accs, a.fs.more = false := by decide +kernel

/-- The placed split stands at a `mov` whose line is in its core's instruction cache; its lane group runs in the nominal mode. -/
def cached : State := onDev (fun d => { d.setLane (laneGroupKey 0 0 0) { d.lane (laneGroupKey 0 0 0) with nominal := true } with code := [{ core := 0, const := false, slot := 0, line := codeLine placedVa }] }) { placed [0x050E0245, 3] with cur := none }
def waitsHandle (s : State) (u : Bool) (p : Team × Launch × Group × Nat) : Bool :=
  (match aheadOf s p.2.1 p.2.2.1 p.2.2.2 u with
    | .handle _ => true
    | _ => false) || (match (p.2.2.1.split p.2.2.2).wait with
      | .segments _ => true
      | _ => false)
theorem waits_of {s : State} {u : Bool} {p : Team × Launch × Group × Nat} (h : waitsHandle s u p = false) :
    (∀ k, aheadOf s p.2.1 p.2.2.1 p.2.2.2 u ≠ .handle k) ∧ ∀ k, (p.2.2.1.split p.2.2.2).wait ≠ .segments k := by
  simp only [waitsHandle, Bool.or_eq_false_iff] at h
  exact ⟨fun k hk => by simp [hk] at h, fun k hk => by simp [hk] at h⟩
theorem witness_issue : let s := cached; let site := Site.lane 0 0 0
    s.cur = none ∧ (s.teams.map (·.uid)).Nodup ∧ (∀ t ∈ s.teams, (t.groups.map (·.gidx)).Nodup) ∧ siteFree site s = true ∧ skipFillers site s = []
      ∧ Tab.risingFrom 0 s.dev.cores = true ∧ s.dev.fuses = [] ∧ (siteSplits site s).all (fun p => !waitsHandle s (siteUniform site) p) = true
      ∧ siteMay site s ≠ [] ∧ ∀ a ∈ siteMay site s, a.prio ≤ 3 := by decide +kernel
theorem witness_starvation : let s := onDev (fun d => d.setCluster 0 { d.cluster 0 with allow := BitVec.ofInt 32 (-100000) }) (onGroup (fun g => { g with withheld := 4096 }) cached)
    s.group? 1 0 = some (theGroup s) ∧ (withheldStart s 1 (theGroup s)).isSome = true ∧ 4096 ≤ (theGroup s).withheld ∧ (s.dev.core 0).cycle.toNat ≤ (theGroup s).heldAt
      ∧ (s.dev.cluster 0).starving = none ∧ Tab.risingFrom 0 s.dev.clusters = true := by decide +kernel

/-- Four splits as given, the overflow entries, and the frame that holds them. -/
def parted (l ov : List Split) (frame : Option Nat) : State := onTeam (fun t => { t with frame, groups := t.groups.map (fun g => { g with splits := l, overflow := ov, listed := true }) }) cached
def part_ (pc : W64) (m : Mask) (wait : Wait := .none) : Split := { live := true, pc, mask := m, emask := m, wait }
theorem witness_merge : let s := parted [part_ 0x10000 1, {}, part_ 0x10000 2, {}] [part_ 0x10000 4] (some 0); let g := theGroup s
    s.team? 1 = some (theTeam s) ∧ s.group? 1 0 = some g ∧ s.launch? (theTeam s).launch = some (theLaunch s) ∧ g.splits.length = 4
      ∧ (g.split 0).meets (g.split 2) = true ∧ (g.split 0).meets (g.overflow.getD (4 - 4) {}) = true ∧ g.overflow = [part_ 0x10000 4]
      ∧ g.freeNumbers = [1, 3] := by decide +kernel
theorem witness_number : let s := parted [part_ 0x10000 1 .number, part_ 0x10008 2 .rejoin, part_ 0x10010 4 .rejoin, part_ 0x10018 8 .rejoin] [] (some 0)
    (theGroup s).freeNumbers = [] ∧ s.cur = none ∧ (theTeam s).leaving = false ∧ (theTeam s).frame ≠ none ∧ (theGroup s).listed = true
      ∧ (theGroup s).lowestWaiting s (theLaunch s) = some 0 ∧ (overflowStart s (theTeam s) (theLaunch s) (theGroup s) 0).isSome = true
      ∧ s.evicting (theTeam s).uid = false := by decide +kernel
theorem witness_deadlock : let s := parted [part_ 0x10000 1 .rejoin, {}, part_ 0x10008 2 .rejoin, {}] [] none; let g := theGroup s
    g.deadlocked = some [0, 2] ∧ (g.split 0).sup = false ∧ (∀ k, k < 4 → (g.split k).trap = none)
      ∧ startB s g.core (theLaunch s) true (s.dev.slot 0).sventry placedPa = true := by decide +kernel
theorem witness_rollback : let rec0 : Region × W64 := ({ mask := 0xFFFF }, 0x10000)
    let s := onGroup (fun g => { g with rolling := some rec0 }) ev0; let g := theGroup s
    g.rolling = some rec0 ∧ g.stream.any (fun o => o.mask &&& g.unexited 0xFFFF != 0) = false ∧ g.unexited 0xFFFF ≠ 0
      ∧ (g.rolledBack rec0 (g.unexited 0xFFFF)).freeNumbers ≠ [] := by decide +kernel

/-! #### The porter -/

/-- Partition 0 with nothing running: slot 0's save area at 0x1_8000 (FSIZE 64 KiB, one frame), a kernel descriptor at 0x1_0200 (entry 0x1_0000,
width 16, 8 registers, 16 threads), and the queues and entries given. -/
def porter (queues : List (List LaunchCmd)) (places : List Entry) : State :=
  let s := putMem [(0x140200, 0x10000), (0x140208, 0x100100), (0x148000, 0x10000), (0x148008, 1)] ev0
  onDev (fun d => (d.setSlot 0 { d.slot 0 with save := 0x18000 }).setPart 0 { d.part 0 with queues, placement := places }) s
def porterOk (s : State) : Prop := Inv s ∧ Unwatched s ∧ s.mem.latent = [] ∧ Tab.risingFrom 0 s.dev.parts = true ∧ (s.teams.map (·.uid)).Nodup ∧ (s.dev.launches.map (·.id)).Nodup
theorem porter_of {s : State} (h : (invB s && s.teams.all (fun t => t.groups.all (fun g => g.watch.isEmpty)) && s.mem.latent == [] && Tab.risingFrom 0 s.dev.parts
    && decide (s.teams.map (·.uid)).Nodup && decide (s.dev.launches.map (·.id)).Nodup) = true) : porterOk s := by
  simp only [Bool.and_eq_true, decide_eq_true_eq, beq_iff_eq] at h
  exact ⟨inv_of h.1.1.1.1.1, unwatched_of h.1.1.1.1.2, h.1.1.1.2, h.1.1.2, h.1.2, h.2⟩
def command (kdesc : W64) : LaunchCmd := { slot := 0, kdesc, nteam := 3, mode := 0, args := 7, olog := 0, done := 0x10300, seq := 1 }
def queued (kdesc : W64) : State := porter [[command 0x10200], [], [command kdesc], []] []
theorem witness_dequeue : porterOk (queued 0x10200) ∧ ((queued 0x10200).dev.launches.filter (fun l => l.part == 0)).length < 8
    ∧ ((queued 0x10200).dev.part 0).queues.getD 2 [] = [command 0x10200] ∧ ((queued 0x10200).dev.part 0).queues.getD 3 [] = []
    ∧ (∃ l pa, launchOf (queued 0x10200) 0 2 (queued 0x10200).nextUid (command 0x10200) = some (l, pa) ∧ l.desc.node = false) :=
  ⟨porter_of (by decide +kernel), by decide +kernel, by decide +kernel, by decide +kernel,
    ⟨((launchOf (queued 0x10200) 0 2 (queued 0x10200).nextUid (command 0x10200)).getD (placedLaunch 0, 1)).1, 0, by decide +kernel, by decide +kernel⟩⟩
/-- The descriptor's words at 0x1_0300 are zero. -/
theorem witness_dequeue_bad : porterOk (queued 0x10300) ∧ launchOf (queued 0x10300) 0 2 (queued 0x10300).nextUid (command 0x10300) = none
    ∧ (match translateFresh (queued 0x10300) 0 true .write 0x10300 with
      | .ok x => x.1 == 0x140300
      | .error _ => false) = true := ⟨porter_of (by decide +kernel), by decide +kernel, by decide +kernel⟩
/-- The placed launch has three teams; number 1 is next on virtual core 1. -/
def selecting : State := onDev (fun d => { d with launches := d.launches.map (fun l => { l with cmd := { l.cmd with nteam := 3 } }) }) (porter [[], [], [], []] [])
theorem witness_select : porterOk selecting ∧ selecting.launch? 1 = some (theLaunch selecting) ∧ (∀ m ∈ selecting.dev.launches, m.part = 0 → m.id = 1)
    ∧ (theLaunch selecting).onRetry selecting = false ∧ (theLaunch selecting).offers selecting 1 = true
    ∧ ((selecting.dev.part 0).placement.filter (fun e => !e.resumed)).length < 64 :=
  ⟨porter_of (by decide +kernel), by decide +kernel, by decide +kernel, by decide +kernel, by decide +kernel, by decide +kernel⟩

/-- Whatever the porter chooses among seats that are there, it finds one. -/
theorem seats_of {s : State} {pl : Place} {need : List Nat} (h : 0 < (seatsFor s pl [] need).length) :
    ∃ xs s1, (chooseSeats s pl [need] []).go s = .done (some xs) s1 := by
  have hk : ∀ k, k < (seatsFor s pl [] need).length → ∃ y, (seatsFor s pl [] need)[k]? = some y := fun k hlt => ⟨_, List.getElem?_eq_getElem hlt⟩
  have hf : (seatsFor s pl [] need).filter (fun x => seatAll s pl [] ([] ++ [x])) = seatsFor s pl [] need := List.filter_eq_self.2 (fun _ _ => rfl)
  simp only [chooseSeats, hf, Prog.choose]
  split
  · obtain ⟨y, hy⟩ := hk 0 h
    exact ⟨[y], s, by simp only [Prog.bind, hy]; rfl⟩
  · obtain ⟨y, hy⟩ := hk _ (Nat.mod_lt (Config.choice s.choices) h)
    exact ⟨[y], Eff.choice.apply s, by simp only [Prog.bind, Prog.go, hy]; rfl⟩

/-! #### The porter: teams -/

/-- Team 1 of a launch of two on virtual core 1 waits for a place. -/
def entryOf (uid : Nat) (resumed : Bool) : Entry := { uid, launch := 1, team := 1, resumed, waitedTick := false }
def admitting : State := porter [[], [], [], []] [entryOf 0 false]
theorem witness_admit : porterOk admitting ∧ entryTurn admitting 0 0 = some (entryOf 0 false, theLaunch admitting)
    ∧ admits admitting (theLaunch admitting) (entryOf 0 false) (.core 0) = true
    ∧ (∃ xs s1, (chooseSeats admitting (.core 0) (newNeeds (theLaunch admitting).desc) []).go admitting = .done (some xs) s1) := by
  refine ⟨porter_of (by decide +kernel), by decide +kernel, by decide +kernel, ?_⟩
  have h : newNeeds (theLaunch admitting).desc = [List.replicate 8 1] := by decide +kernel
  rw [h]; exact seats_of (by decide +kernel)

/-- The team named 5 is saved in frame 0; `sa` is its save area. The smallest frame: the header alone, of a team without groups. -/
def savedTeam : Team := { placedTeam 1 with uid := 5, number := 1, frame := some 0, groups := [] }
def resuming (sa : W64) : State :=
  let s := porter [[], [], [], []] [entryOf 5 true]
  let s := onDev (fun d => { d.setSlot 0 { d.slot 0 with save := sa } with
    launches := d.launches.map (fun l => { l with fsize := 65536, nframe := 1, desc := { l.desc with localSize := 0, accSize := 0 } }) }) s
  putMem [(0x141000, 1 + 2 ^ 32 * (theLaunch s).deq), (0x141008, 0), (0x141010, 0)] { s with saved := [savedTeam] }
def restored (s : State) : Team := (restoreTeam s savedTeam (theLaunch s) 0 0).getD savedTeam
theorem witness_resume_bad : let s := resuming 0x7000000; porterOk s ∧ entryTurn s 0 0 = some (entryOf 5 true, theLaunch s)
    ∧ admits s (theLaunch s) (entryOf 5 true) (.core 0) = true ∧ s.saved.find? (fun t => t.uid == 5) = some savedTeam
    ∧ clockOk s savedTeam 0 = true ∧ (restoreTeam s savedTeam (theLaunch s) 0 0).isNone = true :=
  ⟨porter_of (by decide +kernel), by decide +kernel, by decide +kernel, by decide +kernel, by decide +kernel, by decide +kernel⟩
def resumes : State := resuming 0x10000
theorem witness_resume : porterOk resumes ∧ entryTurn resumes 0 0 = some (entryOf 5 true, theLaunch resumes)
    ∧ clockOk resumes savedTeam 0 = true := ⟨porter_of (by decide +kernel), by decide +kernel, by decide +kernel⟩
theorem witness_resume_admits : admits resumes (theLaunch resumes) (entryOf 5 true) (.core 0) = true := by decide +kernel
theorem witness_resume_frame : resumes.saved.find? (fun t => t.uid == 5) = some savedTeam
    ∧ (restoreTeam resumes savedTeam (theLaunch resumes) 0 0).isSome = true ∧ (restored resumes).groups.all (fun g => g.overflow.isEmpty && g.watch.isEmpty) = true
    ∧ resumes.teams.all (fun u => u.uid != 5) = true := by decide +kernel
theorem resumes_needs : savedNeeds (theLaunch resumes).desc (restored resumes) false = [] := by decide +kernel
theorem witness_resume_seats : ∃ xs s1, (chooseSeats resumes (.core 0) (savedNeeds (theLaunch resumes).desc (restored resumes) false) []).go resumes
    = .done (some xs) s1 := by
  rw [resumes_needs]; exact ⟨[], resumes, rfl⟩

/-- The placed team leaves; its save area is at 0x1_0000, with frames of `fsize` bytes. -/
def evicting (wait : Bool) (fsize : Nat) : State :=
  let s := porter [[], [], [], []] []
  let s := onDev (fun d => { d.setSlot 0 { d.slot 0 with save := 0x10000 } with launches := d.launches.map (fun l => { l with fsize, nframe := 1 }) }) s
  onTeam (fun t => { t with leaving := true }) (if wait then { s with cur := some iss } else s)
theorem witness_evict : ∀ x ∈ [(true, 65536), (false, 65536), (false, 4096)], let s := evicting x.1 x.2
    (s.team? 1 == some (theTeam s) && s.launch? 1 == some (theLaunch s) && (theTeam s).leaving
      && (theTeam s).quiet s (theLaunch s) false == !x.1 && frameFor s (theTeam s) (theLaunch s) == (if x.2 = 65536 then some 0 else none)) = true := by
  decide +kernel
theorem witness_evict_states : porterOk (evicting true 65536) ∧ porterOk (evicting false 65536) ∧ porterOk (evicting false 4096) :=
  ⟨porter_of (by decide +kernel), porter_of (by decide +kernel), porter_of (by decide +kernel)⟩

/-- Register 3 of the placed team's first group is demoted, and its four groups of 128 lanes with 256 registers leave fewer than 8 segments of bank 3;
team 2, of another launch, can be saved. -/
def crowded : State :=
  let s := evicting false 65536
  let l2 : Launch := { theLaunch s with id := 2 }
  let g : Group := { theGroup s with width := 128 }
  let dem := ((g.bindReg 3 0 0 0xFFFF ⟨0x10100, 1, [], 0, true⟩).demote 3).modSplit 0 (fun x => { x with wait := .segments 3 })
  { s with
    teams := [{ theTeam s with leaving := false, groups := [dem, { g with gidx := 1 }, { g with gidx := 2 }, { g with gidx := 3 }] }, { placedTeam 2 with launch := 2 }]
    dev := { s.dev with launches := [{ theLaunch s with desc := { (theLaunch s).desc with regs := 256, width := 128 } }, l2] } }
theorem witness_segments : porterOk crowded ∧ (crowded.group? 1 0 == some (theGroup crowded) && crowded.cur == none && (theGroup crowded).demoted 3
    && (theGroup crowded).splits.any (fun y => y.wait == .segments 3)
    && decide (bankSegments < bankUse crowded (theGroup crowded).core (theGroup crowded).quad 3 + (theGroup crowded).width / 16)
    && bankStuck crowded (theGroup crowded).core (theGroup crowded).quad 3) = true
    ∧ (match segmentVictim crowded 1 (theGroup crowded).core (theGroup crowded).quad with
      | some tm => tm.uid == 2 && (match crowded.launch? tm.launch with
        | some l => tm.quiet crowded l false && frameFor crowded tm l == some 0
        | none => false)
      | none => false) = true := ⟨porter_of (by decide +kernel), by decide +kernel, by decide +kernel⟩

/-- Register 11 of its second group is bound and holds values: its bank is wanted. -/
def wanted : State := { crowded with teams := crowded.teams.map (fun t => { t with groups := t.groups.map (fun g =>
  if g.gidx = 1 then g.bindReg 11 0 0 0xFFFF ⟨0x10100, 1, [], 0, true⟩ else g) }) }
theorem witness_demotion : wanted.cur = none ∧ ∃ t g l, wanted.team? 1 = some t ∧ wanted.group? 1 1 = some g ∧ wanted.launch? t.launch = some l
    ∧ g.splits.length = 4 ∧ g.bound 11 = true ∧ g.demoted 11 = false ∧ g.pinned 11 = false ∧ bankWanted wanted g.core g.quad (11 % 8) = true
    ∧ (∀ y ∈ g.splits, y.live = true → y.atBoundary = true ∧ midChain wanted l g y = false) ∧ Tab.risingFrom 0 g.recipe = true
    ∧ Tab.risingFrom 0 g.v = true :=
  ⟨by decide +kernel, (wanted.team? 1).getD (placedTeam 1), (wanted.group? 1 1).getD (theGroup wanted), theLaunch wanted, by decide +kernel⟩

/-- The placed team has been resident for a tick, and an entry, for which the partition has no core, has waited for one; QUANT is `q`. -/
def ticking (q : Nat) (waits : Bool) : State :=
  let s := porter [[], [], [], []] [{ entryOf 0 false with waitedTick := waits }]
  onTeam (fun t => { t with ticks := 1 }) (onDev (fun d => d.setPart 0 { d.part 0 with quantumNext := q, clusters := 0 }) s)
theorem witness_ticks : ∀ x ∈ [(0, false), (100, false), (100, true)], let s := ticking x.1 x.2; let l := theLaunch s
    (s.dev.launches.all (fun l => decide (l.prio < 4)) && (s.dev.part 0).quantumNext == x.1
      && (s.dev.part 0).placement.any (fun e => e.waitedTick && !entryFits s e && s.launch? e.launch == some l) == x.2
      && s.dev.launches.contains l && l.part == 0 && s.teams.any (fun u => u.launch == l.id && decide (1 ≤ u.ticks)) && s.dev.launches.length == 1) = true := by
  decide +kernel
theorem witness_ticks_states : ∀ x ∈ [(0, false), (100, false), (100, true)], porterOk (ticking x.1 x.2) := by
  intro x hx
  simp only [List.mem_cons, List.not_mem_nil, or_false] at hx
  rcases hx with rfl | rfl | rfl
  · exact porter_of (by decide +kernel)
  · exact porter_of (by decide +kernel)
  · exact porter_of (by decide +kernel)

/-- Every thread of the placed team has exited. -/
def allOut : State := onGroup (fun g => { g with exited := 0xFFFF }) (porter [[], [], [], []] [])
theorem witness_team_end : porterOk allOut ∧ (allOut.team? 1 == some (theTeam allOut) && allOut.launch? 1 == some (theLaunch allOut) && allOut.cur == none
    && (theTeam allOut).ended allOut.dev && (theLaunch allOut).cmd.mode != 2 && !(theLaunch allOut).desc.node && (theTeam allOut).setWindows.isEmpty
    && (theTeam allOut).frame == none) = true := ⟨porter_of (by decide +kernel), by decide +kernel⟩

/-- The launch's one team has ended; its DONE is at 0x1_0300. -/
def lastOut (closing : Bool) : State :=
  let s := porter [[], [], [], []] []
  onDev (fun d => { d with launches := d.launches.map (fun l => { l with closing, endedTo := 1, cmd := { l.cmd with nteam := 1, done := 0x10300 } }) }) { s with teams := [] }
theorem witness_launch_end : ∀ b ∈ [false, true], let s := lastOut b; let l := theLaunch s
    (s.launch? 1 == some l && l.over s && s.mem.settled && l.closing == b && l.desc.nsucc == 0 && l.cmd.mode != 1
      && (match translateFresh s l.cmd.slot true .write l.cmd.done with
        | .ok x => x.1 == 0x140300 && !inPeer x.1
        | .error _ => false)) = true := by decide +kernel
theorem witness_launch_end_states : porterOk (lastOut false) ∧ porterOk (lastOut true) := ⟨porter_of (by decide +kernel), porter_of (by decide +kernel)⟩

/-- An accepted entry is due in die 0's region; the log at 0x1_0000 has regions of `size` bytes. -/
def logging (size : Nat) (isFull : Bool) : State :=
  let s := porter [[], [], [], []] []
  putMem [(0x140000, BitVec.ofNat 64 size)] (onDev (fun d => { d with
    logQ := [(0, [(1, { kind := 1, site := 0, team := 0, gidx := 0, lane := 0, opn := 0, value := 0, ord := 0 })])]
    launches := d.launches.map (fun l => { l with cmd := { l.cmd with olog := 0x10000 }, overflowed := if isFull then [0] else [] }) }) s)
theorem witness_log : ∀ x ∈ [(4096, true), (0, false)], let s := logging x.1 x.2
    (s.dev.launches.all (fun l => !replayStuck s l) && (Tab.get [] s.dev.logQ 0).length == 1 && Tab.risingFrom 0 s.dev.logQ && s.launch? 1 == some (theLaunch s) && (theLaunch s).overflowed.contains 0 == x.2
      && decide (logHeader s (theLaunch s) 0 0 4 < logHeader s (theLaunch s) 0 8 4 + 32) == (x.1 == 0)) = true := by decide +kernel
theorem witness_log_states : porterOk (logging 4096 true) ∧ porterOk (logging 0 false) := ⟨porter_of (by decide +kernel), porter_of (by decide +kernel)⟩

/-! ### Witnesses: whole steps -/

/-- `mov` of register 3 to register 5. -/
def movForm : Instr := .mov hp .i32 (rr 5) (.v 3)
theorem witness_well_formed : Instr.wf movForm = true ∧ (Instr.raw movForm).isSome = true ∧ encode movForm = some [0x050E0245, 3] := by decide +kernel
/-- Its words at the program counter of the placed split. -/
def atMov : State := placed [0x050E0245, 3]
def fetchedAt : List W32 := (List.range (8 - placedPa / 4 % 8)).map (fun k => (atMov.mem.word (dieOf (theGroup atMov).core) (placedPa + 4 * k) 4).setWidth 32)
theorem witness_step : issuesB atMov = true
    ∧ (let x := (theGroup atMov).split 0; let l := theLaunch atMov
      ¬ (l.desc.sarea.toNat ≤ x.pc.toNat ∧ x.pc.toNat < l.desc.sarea.toNat + l.desc.salen) ∧ x.pc = placedVa
        ∧ mapsB atMov (theGroup atMov).core (dieOf (theGroup atMov).core) l.cmd.slot x.sup .fetch (BitVec.ofNat 64 (x.pc.toNat / 32 * 32)) (placedPa, true) = true
        ∧ inPeer placedPa = false ∧ (atMov.mem.eccGood (placedPa / 32 * 32) 32 && !atMov.mem.poisoned (placedPa / 32 * 32) 32) = true
        ∧ (List.range 8).all (fun k => !l.stale.contains ((placedPa + 4 * k) / 4)) = true)
    ∧ (match decode false fetchedAt with
      | .ok i => i == movForm
      | .error _ => false) = true := by decide +kernel
/-- An event that is due, and the event that an idle device takes. -/
def dueEvent : State := { ev0 with agenda := [.timeSliceTick 0] }
theorem witness_due : dueEvent.cur = none ∧ dueEvent.agenda = [.timeSliceTick 0] ∧ Machine.Instr.isEvent (.timeSliceTick 0) = true := by decide +kernel
/-- A step from a state of the invariant. -/
theorem witness_step_goes : invB atMov = true ∧ (match step atMov with
    | .next _ => true
    | _ => false) = true := by decide +kernel

/-- R135: the worked placement: frame 0x12_0000 under word 0x0010_970F, address 0x12_3400. -/
theorem test_place : let m : MemSys := { State.reset.mem with frameMap := [(0x12, some 0x0010970F)] }
    let x := m.place 0x123400
    (x.stack, x.channel, x.bankGroup, x.homeDie, x.homeSlice) = (4, 6, 2, 2, 18) := by decide +kernel

end Sys2Proof.Tests
end

section
/-! What the host writes into registers and the launch port, and what it reads there (R2, R8, R23 to R25, R27, R30, R59,
R303, R311, R352, R355): rules for tables and packed words, one equation for each event, and the statement about them. -/
namespace Sys2Proof.Machine

/-! ### Programs of one effect -/

@[simp] theorem Prog.run_read (k : State → Prog Unit) (s : State) : (Prog.read k).run s = (k s).run s := rfl
@[simp] theorem run_answer (r : HostReply) (s : State) : (answer r).run s = .next { s with dev := { s.dev with reply := r } } := rfl

/-- A register write is ignored while its guard forbids it, and else changes the device once. -/
theorem Prog.run_unless (b : Bool) (f : Dev → Dev) (s : State) :
    (if b then .pure () else Prog.modDev f).run s = .next (if b then s else { s with dev := f s.dev }) := by
  cases b <;> rfl

/-! ### Tables, slots and partitions: reading after writing -/

section
variable {α : Type} [DecidableEq α]

theorem Tab.get_set_self (d : α) {t : Tab α} (ht : Tab.risingFrom 0 t = true) (k : Nat) (x : α) :
    Tab.get d (Tab.set d t k x) k = x := by
  unfold Tab.set
  split
  case isTrue h => rw [Tab.get_del ht, if_pos rfl, h]
  case isFalse => rw [Tab.get_put, if_pos rfl]

/-- The reader's default need not be the writer's. -/
theorem Tab.get_set_of_ne (d e : α) {t : Tab α} (ht : Tab.risingFrom 0 t = true) {k j : Nat} (hj : j ≠ k) (x : α) :
    Tab.get e (Tab.set d t k x) j = Tab.get e t j := by
  unfold Tab.set
  split
  case isTrue => rw [Tab.get_del ht, if_neg hj]
  case isFalse => rw [Tab.get_put, if_neg hj]

end

section
variable {d : Dev}

theorem Dev.slot_setSlot_self (h : Tab.risingFrom 0 d.slots = true) (k : SlotKey) (x : Slot) : (d.setSlot k x).slot k = x :=
  Tab.get_set_self ({} : Slot) h k x

theorem Dev.slot_setSlot_of_ne (h : Tab.risingFrom 0 d.slots = true) {k j : SlotKey} (hj : j ≠ k) (x : Slot) :
    (d.setSlot k x).slot j = d.slot j :=
  Tab.get_set_of_ne ({} : Slot) {} h hj x

theorem Dev.part_setPart_self (h : Tab.risingFrom 0 d.parts = true) (p : Nat) (x : Part) : (d.setPart p x).part p = x :=
  Tab.get_set_self ({} : Part) h p x

theorem Dev.part_setPart_of_ne (h : Tab.risingFrom 0 d.parts = true) {p q : Nat} (hq : q ≠ p) (x : Part) :
    (d.setPart p x).part q = d.part q :=
  Tab.get_set_of_ne ({} : Part) {} h hq x

end

/-! ### Words of equal fields -/

/-- The number whose `k`-th field of `w` bits is `f k`, for `k` below `n`. -/
def packed (w n : Nat) (f : Nat → Nat) : Nat := ((List.range n).map (fun k => f k * 2 ^ (w * k))).foldl (· + ·) 0

theorem packed_succ (w n : Nat) (f : Nat → Nat) : packed w (n + 1) f = packed w n f + f n * 2 ^ (w * n) := by
  simp [packed, List.range_succ]

theorem packed_lt {w n : Nat} {f : Nat → Nat} (hf : ∀ k < n, f k < 2 ^ w) : packed w n f < 2 ^ (w * n) := by
  induction n with
  | zero => simp [packed]
  | succ n ih =>
    have hlow := ih (fun k hk => hf k (by omega))
    have htop : (f n + 1) * 2 ^ (w * n) ≤ 2 ^ w * 2 ^ (w * n) := Nat.mul_le_mul_right _ (hf n (by omega))
    rw [packed_succ, Nat.mul_succ, Nat.pow_add, Nat.mul_comm (2 ^ (w * n))]
    rw [Nat.add_mul] at htop
    omega

theorem field_packed {w n : Nat} {f : Nat → Nat} (hf : ∀ k < n, f k < 2 ^ w) {k : Nat} (hk : k < n) :
    field (packed w n f) (w * k) w = f k := by
  induction n with
  | zero => omega
  | succ n ih =>
    have hlow := packed_lt (fun k hk => hf k (by omega) : ∀ k < n, f k < 2 ^ w)
    rw [packed_succ]
    rcases Nat.lt_succ_iff_lt_or_eq.1 hk with hlt | rfl
    · -- the top field lies a multiple of `2 ^ w` above the field that is read
      have hexp : w * n = w * k + (w + w * (n - k - 1)) := by
        rw [Nat.add_comm w, ← Nat.mul_succ, ← Nat.mul_add, show k + (n - k - 1).succ = n by omega]
      have hsplit : f n * 2 ^ (w * n) = 2 ^ (w * k) * (2 ^ w * (f n * 2 ^ (w * (n - k - 1)))) := by
        rw [hexp, Nat.pow_add, Nat.pow_add, Nat.mul_left_comm, Nat.mul_left_comm (f n)]
      rw [← ih (fun k hk => hf k (by omega)) hlt, hsplit, field, field, Nat.add_mul_div_left _ _ (Nat.two_pow_pos _),
        Nat.add_mul_mod_self_left]
    · rw [field, Nat.add_mul_div_right _ _ (Nat.two_pow_pos _), Nat.div_eq_of_lt hlow, Nat.zero_add,
        Nat.mod_eq_of_lt (hf k (by omega))]

theorem toNat_packed {w n m : Nat} {f : Nat → Nat} (hf : ∀ k < n, f k < 2 ^ w) (hm : w * n ≤ m) :
    (BitVec.ofNat m (packed w n f)).toNat = packed w n f := by
  rw [BitVec.toNat_ofNat, Nat.mod_eq_of_lt]
  exact Nat.lt_of_lt_of_le (packed_lt hf) (Nat.pow_le_pow_right (by decide) hm)

/-! ### The registers that the host writes -/

/-- The bits of a word are told by those below 64. -/
theorem getLsbD_eq_of_forall_fin {x : W64} {p : Nat → Bool} (hlow : ∀ i : Fin 64, x.getLsbD i = p i) (hhigh : ∀ i, 64 ≤ i → p i = false)
    (i : Nat) : x.getLsbD i = p i := by
  by_cases h : i < 64
  · exact hlow ⟨i, h⟩
  · rw [BitVec.getLsbD_of_ge _ _ (by omega), hhigh i (by omega)]

theorem getLsbD_ptrootMask (i : Nat) : (0x000FFFFFFFFF0001#64).getLsbD i = (i == 0 || (16 ≤ i && i < 52)) :=
  getLsbD_eq_of_forall_fin (p := fun i => i == 0 || (16 ≤ i && i < 52)) (by decide) (fun i hi => by
    rw [decide_eq_false (show ¬ i < 52 by omega), Bool.and_false, Bool.or_false, beq_eq_false_iff_ne]
    omega) i

theorem getLsbD_recordMask (i : Nat) : (0x01FFFFFFFFFFFFFF#64).getLsbD i = decide (i < 57) :=
  getLsbD_eq_of_forall_fin (p := fun i => decide (i < 57)) (by decide) (fun i hi => decide_eq_false (by omega)) i

theorem slotExists_of_lt {part slot : Nat} (hp : part < 16) (hs : slot < 16) : slotExists part slot = true := by
  simp [slotExists, hp, hs]

theorem Mgmt.serves_of_ended {m : Mgmt} (h : 5 ≤ m.lifecycle) : m.serves = false := by
  rw [Mgmt.serves, decide_eq_false (Nat.not_lt.2 h), Bool.and_false]

theorem Mgmt.serves_of_alive {m : Mgmt} (ha : m.alive = true) (h : m.lifecycle < 5) : m.serves = true := by
  simp [Mgmt.serves, ha, h]

section
variable (s : State) (part slot : Nat)

theorem exec_ptrootWrite (v : W64) : exec (.ptrootWrite part slot v) s =
    .next (if !slotExists part slot || !s.mgmt.alive || s.dev.slotBusy (16 * part + slot) then s
      else { s with
        dev := s.dev.setSlot (16 * part + slot) { s.dev.slot (16 * part + slot) with ptroot := v &&& 0x000FFFFFFFFF0001#64 } }) :=
  Prog.run_unless _ _ s

theorem exec_contextRecordWrite (off : Nat) (v : W64) : exec (.contextRecordWrite part slot off v) s =
    .next (if !slotExists part slot || !s.mgmt.serves || s.dev.slotBusy (16 * part + slot) then s
      else { s with dev := s.dev.setSlot (16 * part + slot) ((s.dev.slot (16 * part + slot)).writeRecord off v) }) :=
  Prog.run_unless _ _ s

theorem exec_quantumWrite (q : W32) : exec (.quantumWrite part q) s =
    .next (if 16 ≤ part || !s.mgmt.serves then s
      else { s with dev := s.dev.setPart part { s.dev.part part with quantumNext := q.setWidth 20 } }) :=
  Prog.run_unless _ _ s

theorem exec_blackBoxRelease : exec .blackBoxRelease s =
    .next (if s.mgmt.serves then { s with dev := { s.dev with boxFrozen := false } } else s) := by
  change (Prog.when s.mgmt.serves _).run s = _
  cases s.mgmt.serves <;> rfl

end

/-- R311: a severity field takes a legal action and keeps its own for any other value. -/
def severityField (old v : W32) (k : Nat) : Nat :=
  if field v.toNat (3 * k) 3 ≤ 4 then field v.toNat (3 * k) 3 else field old.toNat (3 * k) 3

theorem severityField_lt (old v : W32) (k : Nat) : severityField old v k < 2 ^ 3 := by
  have hold : field old.toNat (3 * k) 3 < 2 ^ 3 := Nat.mod_lt _ (by decide)
  unfold severityField
  split <;> omega

theorem field_severityWord (old v : W32) {k : Nat} (hk : k < 10) : field (severityWord old v).toNat (3 * k) 3 = severityField old v k := by
  have hf : ∀ k < 10, severityField old v k < 2 ^ 3 := fun k _ => severityField_lt old v k
  have hword : severityWord old v = BitVec.ofNat 32 (packed 3 10 (severityField old v)) := rfl
  rw [hword, toNat_packed hf (by decide), field_packed hf hk]

/-- R311: a write to the severity register of a class. -/
def Dev.severityWritten (d : Dev) (cls : Nat) (v : W32) : Dev :=
  { d with severity := Tab.set (severityDefault cls) d.severity cls (severityWord (Tab.get (severityDefault cls) d.severity cls) v) }

theorem exec_severityWrite (s : State) (cls : Nat) (v : W32) : exec (.severityWrite cls v) s =
    .next (if 12 < cls || !s.mgmt.serves then s else { s with dev := s.dev.severityWritten cls v }) :=
  Prog.run_unless _ _ s

theorem action_severityWritten_self {d : Dev} (h : Tab.risingFrom 0 d.severity = true) (cls : Nat) (v : W32) {k : Nat} (hk : k < 10) :
    (d.severityWritten cls v).action cls k = if field v.toNat (3 * k) 3 ≤ 4 then field v.toNat (3 * k) 3 else d.action cls k := by
  rw [Dev.action, Dev.severityWritten, Tab.get_set_self _ h, field_severityWord _ _ hk, severityField, Dev.action]

theorem action_severityWritten_of_ne {d : Dev} (h : Tab.risingFrom 0 d.severity = true) {c cls : Nat} (hc : c ≠ cls) (v : W32) (k : Nat) :
    (d.severityWritten cls v).action c k = d.action c k := by
  rw [Dev.action, Dev.severityWritten, Tab.get_set_of_ne _ _ h hc, Dev.action]

/-- R27: the wiring map names a port's target and the partition bound to it. -/
def Dev.wired (d : Dev) (port target : Nat) (b : Option Nat) : Dev :=
  { d with peers := (port, target, b) :: d.peers.filter (fun p => p.1 != port) }

theorem exec_peerWiring (s : State) (port target : Nat) (b : Option Nat) : exec (.peerWiring port target b) s =
    .next (if 16 ≤ port || !s.mgmt.serves then s else { s with dev := s.dev.wired port target b }) :=
  Prog.run_unless _ _ s

theorem portPart_wired_self (d : Dev) (port target : Nat) (b : Option Nat) :
    (d.wired port target b).portPart port = b := by
  simp [Dev.portPart, Dev.wired]

theorem portPart_wired_of_ne (d : Dev) {port p : Nat} (hp : p ≠ port) (target : Nat) (b : Option Nat) :
    (d.wired port target b).portPart p = d.portPart p := by
  have hother : ∀ a : Nat × Nat × Option Nat, (!decide (a.1 = port) && decide (a.1 = p)) = (a.1 == p) := by
    intro a
    by_cases h : a.1 = p <;> simp [h, hp]
  simp [Dev.portPart, Dev.wired, hp.symm, List.find?_filter, hother]

/-! ### What the host reads -/

/-- A query of a register or of the controller only sets the answer. -/
theorem exec_hostRead_of_report {s : State} {q : HostAsk} {r : HostReply} (h : s.report q = some r) :
    exec (.hostRead q) s = .next { s with dev := { s.dev with reply := r } } := by
  change execHostRead q s = _
  cases q with
  | memory m pa n => simp [State.report] at h
  | _ => simp [execHostRead, h]

/-- R23: each slot of each partition has its page of 4 KiB in the launch port. -/
theorem portOffset_fields {part slot o : Nat} (hs : slot < 16) (ho : o < 0x1000) :
    (0x10000 * part + 0x1000 * slot + o) / 0x10000 = part ∧ (0x10000 * part + 0x1000 * slot + o) / 0x1000 % 16 = slot
      ∧ (0x10000 * part + 0x1000 * slot + o) % 0x1000 = o := by
  refine ⟨?_, ?_, ?_⟩ <;> omega

/-- R23: the registers of a slot's page of the launch port. -/
theorem portWord_registers (d : Dev) {part slot : Nat} (hslot : slot < 16) :
    let word (o : Nat) : W64 := d.portWord (0x10000 * part + 0x1000 * slot + o)
    let x := d.slot (16 * part + slot)
    word 0 = 0 ∧ word 0x100 = (d.part part).freeWord ∧ word 0x108 = x.accepted ∧ word 0x110 = x.dropped ∧ word 0x118 = x.recfail
      ∧ word 0x120 = x.reclast ∧ word 0x200 = x.ptroot := by
  have h (o : Nat) (ho : o < 0x1000) := portOffset_fields (part := part) hslot ho
  refine ⟨?_, ?_, ?_, ?_, ?_, ?_, ?_⟩ <;> simp only [Dev.portWord, slotKeyOf, h, Nat.reduceLT]

theorem report_port {s : State} {part slot o : Nat} (halive : s.mgmt.alive = true) (hpart : part < 16) (hslot : slot < 16) (ho : o < 0x1000)
    {w : W64} (hw : s.dev.portWord (0x10000 * part + 0x1000 * slot + o) = w) :
    s.report (.port (0x10000 * part + 0x1000 * slot + o)) = some (.port w) := by
  have hin : 0x10000 * part + 0x1000 * slot + o < 0x100000 := by omega
  simp [State.report, halive, hin, hw]

/-- R23: a field of FREE is the number of free entries of its queue. -/
theorem fld_freeWord (p : Part) {k : Nat} (hk : k < 4) : fld p.freeWord (16 * k) 16 = 256 - (p.queues.getD k []).length := by
  have hf : ∀ k < 4, 256 - (p.queues.getD k []).length < 2 ^ 16 := fun k _ => by omega
  have hword : p.freeWord = BitVec.ofNat 64 (packed 16 4 (fun k => 256 - (p.queues.getD k []).length)) := rfl
  rw [fld, hword, toNat_packed hf (by decide), field_packed hf hk]

/-! ### The launch port -/

theorem getD_setNth_of_ne {α : Type} (l : List α) {n k : Nat} (h : k ≠ n) (x d : α) : (setNth l n x).getD k d = l.getD k d := by
  induction l generalizing n k with
  | nil => rfl
  | cons a t ih =>
    cases n with
    | zero => cases k with
      | zero => exact absurd rfl h
      | succ k => simp [setNth]
    | succ n => cases k with
      | zero => simp [setNth]
      | succ k => simpa [setNth] using ih (n := n) (k := k) (by omega)

theorem partOf_key {part slot : Nat} (hslot : slot < 16) : (16 * part + slot) / 16 = part := by omega

/-- The device once a command of the slot has been counted as dropped. -/
def Dev.commandDropped (d : Dev) (key : SlotKey) : Dev := d.setSlot key { d.slot key with dropped := (d.slot key).dropped + 1 }

/-- The device once a command has joined the end of its queue and has been counted as accepted. -/
def Dev.commandQueued (d : Dev) (key : SlotKey) (prio : Nat) (c : LaunchCmd) : Dev :=
  let p := d.part (key / 16)
  (d.setPart (key / 16) { p with queues := setNth p.queues prio (p.queues.getD prio [] ++ [c]) }).setSlot key
    { d.slot key with accepted := (d.slot key).accepted + 1 }

theorem portDecide_noRoot {s : State} {key : SlotKey} (h : (s.dev.slot key).ptroot.getLsbD 0 = false) (prio : Nat) (ws : List W64) :
    (portDecide key prio ws).go s = .done 1 s := by
  simp only [portDecide, Prog.bind_eq, Prog.go_bind, Prog.go_get, h]
  rfl

theorem portDecide_queued {s : State} {key : SlotKey} {prio : Nat} {ws : List W64} (hroot : (s.dev.slot key).ptroot.getLsbD 0 = true)
    (hok : commandOk ws = true) (hroom : ((s.dev.part (key / 16)).queues.getD prio []).length < 256) :
    (portDecide key prio ws).go s = .done 0 { s with dev := s.dev.commandQueued key prio (commandOf key ws) } := by
  simp only [portDecide, Prog.bind_eq, Prog.go_bind, Prog.go_get, hroot, hok, queueDepth, Nat.not_le.2 hroom]
  rfl

section
variable {s : State} {part slot prio : Nat} (halive : s.mgmt.alive = true) (hpart : part < 16) (hslot : slot < 16) (hprio : prio < 4)
include halive hpart hslot hprio

/-- A command in one 64-byte write is decided by steps 2 to 4 of R25; any other is only counted. -/
theorem exec_launchCommand (single : Bool) (ws : List W64) : exec (.launchCommand part slot prio single ws) s =
      if single && ws.length == 8 then
        ((portDecide (16 * part + slot) prio ws).bind (fun r =>
          if r = 0 then answer .accepted else (countDropped (16 * part + slot)).bind (fun _ => answer .dropped))).run s
      else .next { s with dev := { s.dev.commandDropped (16 * part + slot) with reply := .dropped } } := by
  have hport : (!slotExists part slot || decide (4 ≤ prio) || !s.mgmt.alive) = false := by
    simp [slotExists_of_lt hpart hslot, halive, hprio]
  change execLaunchCommand part slot prio single ws s = _
  rw [execLaunchCommand, Prog.bind_eq, Prog.run_bind_done (Prog.go_get s)]
  simp only [slotKeyOf, hport, Bool.false_eq_true, if_false]
  cases single
  · rfl
  · cases hlen : ws.length == 8 <;> simp only [bne, hlen] <;> rfl

theorem exec_launchCommand_dropped {single : Bool} {ws : List W64}
    (h : single = false ∨ ws.length ≠ 8 ∨ (s.dev.slot (16 * part + slot)).ptroot.getLsbD 0 = false) :
    exec (.launchCommand part slot prio single ws) s =
      .next { s with dev := { s.dev.commandDropped (16 * part + slot) with reply := .dropped } } := by
  rw [exec_launchCommand halive hpart hslot hprio]
  by_cases hone : (single && ws.length == 8) = true
  · have hroot : (s.dev.slot (16 * part + slot)).ptroot.getLsbD 0 = false := by
      obtain ⟨hs, hl⟩ : single = true ∧ ws.length = 8 := by simpa using hone
      simpa [hs, hl] using h
    rw [if_pos hone, Prog.run_bind_done (portDecide_noRoot hroot prio ws)]
    rfl
  · rw [if_neg hone]

theorem exec_launchCommand_accepted {ws : List W64} (hlen : ws.length = 8) (hok : commandOk ws = true)
    (hroot : (s.dev.slot (16 * part + slot)).ptroot.getLsbD 0 = true) (hroom : ((s.dev.part part).queues.getD prio []).length < 256) :
    exec (.launchCommand part slot prio true ws) s = .next { s with
      dev := { s.dev.commandQueued (16 * part + slot) prio (commandOf (16 * part + slot) ws) with reply := .accepted } } := by
  rw [exec_launchCommand halive hpart hslot hprio, if_pos (by simp [hlen]),
    Prog.run_bind_done (portDecide_queued hroot hok (by rwa [partOf_key hslot]))]
  rfl

end

section
variable {d : Dev} {part slot prio : Nat} {c : LaunchCmd}

theorem Dev.part_commandQueued_self (h : Tab.risingFrom 0 d.parts = true) (hslot : slot < 16) :
    (d.commandQueued (16 * part + slot) prio c).part part =
      { d.part part with queues := setNth (d.part part).queues prio ((d.part part).queues.getD prio [] ++ [c]) } := by
  simp only [Dev.commandQueued, partOf_key hslot]
  exact Dev.part_setPart_self h part _

theorem Dev.part_commandQueued_of_ne (h : Tab.risingFrom 0 d.parts = true) (hslot : slot < 16) {p : Nat} (hp : p ≠ part) :
    (d.commandQueued (16 * part + slot) prio c).part p = d.part p := by
  simp only [Dev.commandQueued, partOf_key hslot]
  exact Dev.part_setPart_of_ne h hp _

/-- Of its partition a command changes the queues alone. -/
theorem Dev.part_commandQueued_frame (h : Tab.risingFrom 0 d.parts = true) (hslot : slot < 16) :
    (d.commandQueued (16 * part + slot) prio c).part part =
      { d.part part with queues := ((d.commandQueued (16 * part + slot) prio c).part part).queues } := by
  rw [Dev.part_commandQueued_self h hslot]

/-- A command joins the end of the queue of its priority. -/
theorem Dev.queues_commandQueued (h : Tab.risingFrom 0 d.parts = true) (hslot : slot < 16) (hprio : prio < (d.part part).queues.length)
    (k : Nat) : ((d.commandQueued (16 * part + slot) prio c).part part).queues.getD k [] =
      (d.part part).queues.getD k [] ++ (if k = prio then [c] else []) := by
  rw [Dev.part_commandQueued_self h hslot]
  by_cases hk : k = prio
  · rw [hk, getD_setNth _ _ _ _ hprio, if_pos rfl]
  · rw [getD_setNth_of_ne _ hk, if_neg hk, List.append_nil]

end

/-! ### The statement -/

/-- Settles O48: it holds. Each write and read is the equation of its event above; what it leaves of the tables is reading
after writing. -/
theorem hostRegistersTakeWrites : Obligations.HostRegistersTakeWrites := by
  unfold Obligations.HostRegistersTakeWrites
  intro s part slot halive hpart hslot hslots hparts hsev
  dsimp only
  have hexists := slotExists_of_lt hpart hslot
  have hserves := Mgmt.serves_of_alive halive
  refine ⟨?busy, ?ended, ?idle, ?quantum, ?severity, ?wiring, ?other, ?release, ?reads, ?launch⟩
  case busy =>
    intro hbusy v
    simp [exec_ptrootWrite, exec_contextRecordWrite, hbusy]
  case ended =>
    intro hended off v w cls port target b
    simp [exec_contextRecordWrite, exec_quantumWrite, exec_severityWrite, exec_peerWiring, exec_blackBoxRelease,
      Mgmt.serves_of_ended hended]
  case idle =>
    intro hidle v
    have frame (x : Slot) : ∀ k, k ≠ 16 * part + slot → (s.dev.setSlot (16 * part + slot) x).slot k = s.dev.slot k :=
      fun k hk => Dev.slot_setSlot_of_ne hslots hk x
    refine ⟨?_, fun off hlive => ?_⟩
    · have hexec := exec_ptrootWrite s part slot v
      rw [if_neg (by simp [hexists, halive, hidle])] at hexec
      refine ⟨_, hexec, ⟨rfl, frame _⟩, _, Dev.slot_setSlot_self hslots _ _, fun i => ?_⟩
      rw [BitVec.getLsbD_and, getLsbD_ptrootMask]
    · have hexec := exec_contextRecordWrite s part slot off v
      rw [if_neg (by simp [hexists, hserves hlive, hidle])] at hexec
      refine ⟨_, hexec, ⟨rfl, frame _⟩, _, fun i => ?_, Dev.slot_setSlot_self hslots _ _⟩
      rw [BitVec.getLsbD_and, getLsbD_recordMask]
  case quantum =>
    intro q hlive
    have hexec := exec_quantumWrite s part q
    rw [if_neg (by simp [hpart, hserves hlive])] at hexec
    exact ⟨_, hexec, Dev.part_setPart_self hparts _ _, fun p hp => Dev.part_setPart_of_ne hparts hp _, rfl⟩
  case severity =>
    intro cls v hlive hcls
    have hexec := exec_severityWrite s cls v
    rw [if_neg (by simp [hserves hlive, Nat.le_of_lt_succ hcls])] at hexec
    exact ⟨_, hexec, fun k hk => action_severityWritten_self hsev cls v hk,
      fun c k hc => action_severityWritten_of_ne hsev hc v k, rfl⟩
  case wiring =>
    intro hlive port target b hport
    have hexec := exec_peerWiring s port target b
    rw [if_neg (by simp [hport, hserves hlive])] at hexec
    exact ⟨_, hexec, portPart_wired_self s.dev port target b, fun p hp => portPart_wired_of_ne s.dev hp target b, rfl⟩
  case other => exact fun _ _ _ => rfl
  case release =>
    intro hlive
    rw [exec_blackBoxRelease, if_pos (hserves hlive)]
  case reads =>
    have port {o : Nat} (ho : o < 0x1000) {w : W64} (hw : s.dev.portWord (0x10000 * part + 0x1000 * slot + o) = w) :=
      exec_hostRead_of_report (report_port halive hpart hslot ho hw)
    obtain ⟨hzero, hfree, haccepted, hdropped, hrecfail, hreclast, hptroot⟩ := portWord_registers s.dev (part := part) hslot
    refine ⟨port (by decide) hzero, port (by decide) haccepted, port (by decide) hdropped, port (by decide) hrecfail,
      port (by decide) hreclast, port (by decide) hptroot, ⟨_, port (by decide) hfree, fun k hk => fld_freeWord (s.dev.part part) hk⟩,
      exec_hostRead_of_report (by simp [State.report, halive, Mgmt.debugOpen]), fun hlive => ?_⟩
    have served {q : HostAsk} {r : HostReply} (h : s.report q = if s.mgmt.serves then some r else none) :=
      exec_hostRead_of_report (h.trans (if_pos (hserves hlive)))
    exact ⟨served rfl, served rfl, served rfl, served rfl, fun _ => served rfl, fun _ => served rfl⟩
  case launch =>
    intro prio ws hprio
    refine ⟨fun single hbad => ⟨_, exec_launchCommand_dropped halive hpart hslot hprio hbad, rfl,
      fun k hk => Dev.slot_setSlot_of_ne hslots hk _, Dev.slot_setSlot_self hslots _ _⟩, ?_⟩
    intro hlen hok hroot hfour hroom
    exact ⟨_, exec_launchCommand_accepted halive hpart hslot hprio hlen hok hroot hroom, rfl, Dev.slot_setSlot_self hslots _ _,
      fun k hk => Dev.slot_setSlot_of_ne hslots hk _, Dev.part_commandQueued_frame hparts hslot,
      fun p hp => Dev.part_commandQueued_of_ne hparts hslot hp, fun k _ => Dev.queues_commandQueued hparts hslot (by omega) k⟩

end Sys2Proof.Machine
end

section
/-! The traps that an instruction raises by itself: `trap`, `sysc` and `bkpt` (R249, R255 to R257), and ALIGN of a global or local
load or store (R87, R132, R145). -/
namespace Sys2Proof.Machine

/-! ### What starting an instruction keeps of the group -/

/-- What a new split has in common with the one that it replaces, the group keeps under that number, whether or not it holds such
a split. -/
theorem Group.split_setSplit_keeps {β : Type} (k : Split → β) (g : Group) (n : Nat) {x : Split} (hx : k x = k (g.split n)) :
    k ((g.setSplit n x).split n) = k (g.split n) := by
  by_cases h : n < g.splits.length
  · rw [Group.setSplit, Group.split, getD_setNth _ _ _ _ h, hx]
  · rw [Group.setSplit, Group.split, setNth_out _ _ _ (Nat.le_of_not_lt h), Group.split]

theorem Group.begin_split_sup (g : Group) (n now : Nat) (i : Instr) : ((g.begin n now i).split n).sup = (g.split n).sup :=
  Group.split_setSplit_keeps Split.sup g n rfl

theorem mem_insertNat {n m : Nat} {l : List Nat} : m ∈ insertNat n l ↔ m = n ∨ m ∈ l := by
  induction l with
  | nil => simp [insertNat]
  | cons a t ih =>
    simp only [insertNat]
    split
    case isTrue h => simp [h]
    case isFalse =>
      split
      · simp
      · simp only [List.mem_cons, ih, or_left_comm]

/-- A start adds its own split alone to those that have started in the cycle. -/
theorem Group.startedIn_begin_of_ne (g : Group) {n m : Nat} (h : m ≠ n) (now : Nat) (i : Instr) :
    (g.begin n now i).startedIn now m = g.startedIn now m := by
  have hbegin : (g.begin n now i).startedIn now m =
      ((g.issuedNow now).at_ == now && (insertNat n (g.issuedNow now).splits).contains m) := rfl
  have hmem : (insertNat n (g.issuedNow now).splits).contains m = (g.issuedNow now).splits.contains m := by
    simp [mem_insertNat, h]
  rw [hbegin, hmem]
  unfold Group.issuedNow Group.startedIn
  cases g.issued with
  | none => simp
  | some p => by_cases hp : p.at_ = now <;> simp [hp]

/-! ### A trap that can be taken -/

/-- R257: a raised trap puts a running handler back only where a higher split has entered it in this cycle and has started nothing. -/
theorem Group.handler_of_raise {g : Group} {now n : Nat} {r : TrapRec} {hd : Handler} (hh : g.handler = some hd)
    (h : (g.raise now n r).handler = none) : hd.untouched g now ≠ none ∧ n < hd.split := by
  have huntouched (f : Split → Split) : hd.untouched (g.modSplit n f) now = hd.untouched g now := rfl
  simp only [Group.raise, Group.modSplit_handler, hh, huntouched] at h
  cases hu : hd.untouched g now with
  | none => simp [hu, hh] at h
  | some x =>
    refine ⟨nofun, Decidable.byContradiction fun hn => ?_⟩
    simp [hu, hn, hh] at h

/-- Where a trap can be taken, a group left without a handler by the trap can enter it. -/
theorem CanTrap.startAt {s : State} {l : Launch} {e : Env} {g g1 : Group} (hcan : CanTrap s l e g) (hh : g1.handler = g.handler)
    (hs : ∀ m, m ≠ e.split → g1.startedIn (s.now e.core) m = g.startedIn (s.now e.core) m) {r : TrapRec}
    (h : (g1.raise (s.now e.core) e.split r).handler = none) : StartAt s e.core l true (s.dev.slot l.cmd.slot).sventry := by
  obtain ⟨-, ⟨hd, hg, hgoes⟩ | hstart⟩ := hcan
  · obtain ⟨huntouched, hlower⟩ := Group.handler_of_raise (hh.trans hg) h
    have hsame : hd.untouched g1 (s.now e.core) = hd.untouched g (s.now e.core) := by
      simp only [Handler.untouched, hs hd.split (by omega)]
    rcases hgoes with hnone | hle
    · exact absurd (hsame.trans hnone) huntouched
    · omega
  · exact hstart

theorem Prog.bind_assoc {α β γ : Type} (p : Prog α) (f : α → Prog β) (k : β → Prog γ) :
    (p.bind f).bind k = p.bind (fun a => (f a).bind k) := by
  induction p with
  | pure | halt | fault | refuse => rfl
  | read _ ih => exact congrArg Prog.read (funext ih)
  | eff e _ ih => exact congrArg (Prog.eff e) ih

/-- Nothing follows a trap of the running instruction. -/
theorem trap_bind {α β : Type} (e : Env) (cause : Cause) (detail : Nat) (m : Mask) (taux : W64) (fva : Tab W64) (epc : Option W64)
    (f : α → Prog β) : (trap e cause detail m taux fva epc).bind f = trap e cause detail m taux fva epc := by
  simp only [trap, Prog.bind_assoc]
  rfl

theorem Env.trapped_gidx (e : Env) (now : Nat) (g : Group) (r : TrapRec) (entry : W64) : (e.trapped now g r entry).gidx = g.gidx := by
  unfold Env.trapped Group.delivered
  split
  case isTrue => exact raise_gidx ..
  case isFalse =>
    split
    · exact raise_gidx g now e.split r
    · exact raise_gidx ..

/-! ### The running instruction -/

section
variable {i : Instr} {s : State} {c : Issuer} {t : Team} {g : Group} {l : Launch} {e : Env}

theorem Performs.group_at (hp : Performs s i c t g l e) : s.group? e.team e.gidx = some g := by
  obtain ⟨⟨-, -, hgroup, -, -⟩, rfl, -, -⟩ := hp
  exact hgroup

theorem Performs.team_at (hp : Performs s i c t g l e) : s.team? e.team = some t := by
  obtain ⟨⟨-, hteam, -, -, -⟩, rfl, -, -⟩ := hp
  exact hteam

theorem Performs.launch_at (hp : Performs s i c t g l e) : t.launch = l.id ∧ s.launch? l.id = some l := by
  obtain ⟨⟨-, -, -, hlaunch, -⟩, -, -, -⟩ := hp
  have hid : l.id = t.launch := by simpa using List.find?_some hlaunch
  exact ⟨hid.symm, launch_id hlaunch⟩

theorem Performs.core_eq (hp : Performs s i c t g l e) : g.core = e.core := by rw [hp.sees]; rfl

theorem Performs.split_eq (hp : Performs s i c t g l e) : e.split = c.split := by rw [hp.sees]; rfl

theorem Performs.sup_eq (hp : Performs s i c t g l e) : (g.split e.split).sup = e.sup := by rw [hp.sees]; rfl

theorem Performs.falls (hp : Performs s i c t g l e) : (!e.falls || Instr.choosesNext e.instr) = true := by
  obtain ⟨-, rfl, hruns, -⟩ := hp
  exact (Bool.and_eq_true _ _ ▸ hruns).2

/-- The running instruction's group is found again once it has been replaced. -/
theorem Performs.group_withGroup (hp : Performs s i c t g l e) {g1 : Group} (hgidx : g1.gidx = g.gidx) :
    (s.withGroup e.team g1).group? e.team e.gidx = some g1 :=
  State.group_withGroup s e.team hp.group_at (hgidx.trans (State.group_gidx hp.group_at))

theorem Performs.group_starting (hp : Performs s i c t g l e) :
    (s.withGroup e.team (s.starting c g i)).group? e.team e.gidx = some (s.starting c g i) :=
  hp.group_withGroup (Group.begin_gidx ..)

theorem Performs.team_withGroup (hp : Performs s i c t g l e) (g1 : Group) :
    (s.withGroup e.team g1).team? e.team = some (t.withGroup g1) := by
  rw [State.team_withGroup, hp.team_at, Option.map_some]

theorem Performs.run_instruction (hp : Performs s i c t g l e) {h : Head} (hhead : Instr.head i = h) (body : Env → Prog Unit) :
    (instruction i h body).run s = (body e).run (s.withGroup e.team (s.starting c g i)) := by
  subst hhead
  obtain ⟨hissues, rfl, hruns, -⟩ := hp
  exact instruction_run hissues hruns

theorem Performs.starting_split_sup (hp : Performs s i c t g l e) : ((s.starting c g i).split e.split).sup = e.sup := by
  rw [← hp.sup_eq, hp.split_eq]
  exact Group.begin_split_sup ..

theorem Performs.startedIn_starting (hp : Performs s i c t g l e) {m : Nat} (hm : m ≠ e.split) :
    (s.starting c g i).startedIn (s.now e.core) m = g.startedIn (s.now e.core) m := by
  rw [hp.split_eq] at hm
  rw [← hp.core_eq]
  exact Group.startedIn_begin_of_ne g hm (s.now g.core) i

/-- A trap that the body of an instruction raises is taken; `g1` is the group by then, of which the body has changed neither the
handler, nor what has started in the cycle, nor the level. -/
theorem Performs.traps (hp : Performs s i c t g l e) (hcan : CanTrap s l e g) (cause : Cause) (detail : Nat) (m : Mask) (taux : W64)
    (fva : Tab W64) (epc : Option W64) {g1 : Group} (hgidx : g1.gidx = (s.starting c g i).gidx)
    (hcore : g1.core = (s.starting c g i).core) (hhandler : g1.handler = (s.starting c g i).handler)
    (hissued : g1.issued = (s.starting c g i).issued) (hsup : (g1.split e.split).sup = ((s.starting c g i).split e.split).sup) (n : Nat) :
    Traps ((trap e cause detail m taux fva epc : Prog Unit).run ((s.withGroup e.team g1).drawn n)) s l e g1
      (e.record g1 cause detail m taux fva epc) := by
  obtain ⟨htl, hlaunch⟩ := hp.launch_at
  have hstarted : ∀ k, k ≠ e.split → g1.startedIn (s.now e.core) k = g.startedIn (s.now e.core) k := by
    intro k hk
    rw [← hp.startedIn_starting hk, Group.startedIn, Group.startedIn, hissued]
  have hlevel : (g1.split e.split).sup = false := (hsup.trans hp.starting_split_sup).trans hcan.1
  have hreaches := trap_run e cause detail m taux fva epc (s := (s.withGroup e.team g1).drawn n) (hp.team_withGroup g1)
    (hp.group_withGroup hgidx) htl hlaunch (hcore.trans hp.core_eq) hlevel
    (fun h => (hcan.startAt hhandler hstarted h).congr rfl rfl rfl rfl)
  refine hreaches.congr ?_
  rw [← State.withGroup_twice s e.team g1 _ (Env.trapped_gidx ..).symm]
  rfl

/-! ### `trap`, `sysc` and `bkpt` -/

/-- R249, R256: a software trap is counted by the signature and resumes behind its instruction. -/
theorem Performs.traps_softwareTrap (hp : Performs s i c t g l e) (hcan : CanTrap s l e g) {h : Head} (hhead : Instr.head i = h)
    (cause : Cause) (n : BitVec 20) :
    let signed := (s.starting c g i).modSplit e.split (fun x => x.sign e.head e.bare)
    Traps ((instruction i h (fun e => softwareTrap e cause n)).run s) s l e signed
      (e.record signed cause 0 e.visited (n.setWidth 64) [] (some e.next)) := by
  intro signed
  have hsup : (signed.split e.split).sup = ((s.starting c g i).split e.split).sup :=
    Group.split_setSplit_keeps Split.sup _ _ rfl
  have htraps := hp.traps hcan cause 0 e.visited (n.setWidth 64) [] (some e.next) (g1 := signed) rfl rfl rfl rfl hsup s.undefs
  rw [hp.run_instruction hhead]
  simp only [softwareTrap, hp.active, Bool.not_true, Bool.false_eq_true, if_false, Prog.bind_eq, Env.modSplit]
  rw [Prog.run_bind_done (go_Env_modGroup _ hp.group_starting),
    State.withGroup_twice s e.team (s.starting c g i) signed (Group.modSplit_gidx ..).symm]
  exact htraps

/-- R255, R256: a breakpoint is not counted, and EPC is its own PC, or in a latch chain that of the first member (log entry 17). -/
theorem Performs.traps_breakpoint (hp : Performs s i c t g l e) (hcan : CanTrap s l e g) {h : Head} (hhead : Instr.head i = h)
    (n : BitVec 20) :
    Traps ((instruction i h (fun e => if !e.active then noTransfer e else trap e .bkpt 0 e.visited (n.setWidth 64))).run s)
      s l e (s.starting c g i) (e.record (s.starting c g i) .bkpt 0 e.visited (n.setWidth 64)) := by
  rw [hp.run_instruction hhead]
  simp only [hp.active, Bool.not_true, Bool.false_eq_true, if_false]
  exact hp.traps hcan .bkpt 0 e.visited (n.setWidth 64) [] none rfl rfl rfl rfl rfl s.undefs

/-! ### Misaligned loads and stores -/

/-- Check 4 of R145: the failing threads and their addresses are reported, and nothing follows. -/
theorem checkAlign_bind {β : Type} {n : Nat} {eas : List (Nat × W64)} (h : eas.filter (fun a => a.2.toNat % n != 0) ≠ [])
    (f : Unit → Prog β) : (checkAlign e n eas).bind f =
      let bad := e.spread (eas.filter (fun a => a.2.toNat % n != 0))
      trap e .align 0 (maskOf (bad.map (·.1))) 0 bad := by
  simp only [checkAlign, List.isEmpty_iff, h, if_false, addressTrap, trap_bind]

/-- An access that reads its operands and then checks the alignment of its addresses takes ALIGN on the threads that fail. -/
theorem Ready.traps_misaligned (hr : Ready s i c t g l e) (hcan : CanTrap s l e g) {h : Head} (hhead : Instr.head i = h) {n : Nat}
    {a b : Src} {body : Env → Prog Unit} (hbody : e.active = true → ∃ rest : Rows → Prog Unit, body e =
      (operands e h.lits (Instr.shape i)).bind (fun rows => (checkAlign e n (effAddrs h a b rows)).bind (fun _ => rest rows))) :
    ForRows (s.starting c g i) i e (fun rows =>
      let bad := (effAddrs h a b rows).filter (fun x => x.2.toNat % n != 0)
      bad ≠ [] → Traps ((instruction i h body).run s) s l e (s.starting c g i)
        (e.record (s.starting c g i) .align 0 (maskOf ((e.spread bad).map (·.1))) 0 (e.spread bad))) := by
  obtain ⟨hp, hready⟩ := hr
  -- only the guarded ranges of the team matter, which the start keeps
  have hready' : (Instr.shape i).ready e (t.withGroup (s.starting c g i)) (s.starting c g i) = true := hready
  obtain ⟨rows, k, hgo, hrows⟩ := operands_go h.lits hready' hp.falls (hp.team_withGroup _) hp.group_starting
  obtain ⟨rest, hrest⟩ := hbody hp.active
  refine ⟨rows, by rwa [hhead], fun hbad => ?_⟩
  rw [hp.run_instruction hhead, hrest, Prog.run_bind_done hgo, checkAlign_bind hbad]
  exact hp.traps hcan .align 0 _ 0 _ none rfl rfl rfl rfl rfl k

end

/-! ### The instructions -/

theorem Instr.head_of_raw {i : Instr} {x : Raw} {h : Head} (hraw : i.raw = some x) (hhead : x.head = h) : Instr.head i = h := by
  rw [Instr.head, hraw]
  exact hhead

section
variable (s : State) (h : Head)

theorem head_trap (n : BitVec 20) : Instr.head (.trap h n) = h := Instr.head_of_raw (by rfl) (mk_head ..)

theorem head_sysc (n : BitVec 20) : Instr.head (.sysc h n) = h := Instr.head_of_raw (by rfl) (mk_head ..)

theorem head_bkpt (n : BitVec 20) : Instr.head (.bkpt h n) = h := Instr.head_of_raw (by rfl) (mk_head ..)

theorem exec_trap (n : BitVec 20) : exec (.trap h n) s =
    (instruction (.trap h n) h (fun e => softwareTrap e .trapn n)).run s := by rfl

theorem exec_sysc (n : BitVec 20) : exec (.sysc h n) s =
    (instruction (.sysc h n) h (fun e => softwareTrap e .sysc n)).run s := by rfl

theorem exec_bkpt (n : BitVec 20) : exec (.bkpt h n) s = (instruction (.bkpt h n) h (fun e =>
    if !e.active then noTransfer e else trap e .bkpt 0 e.visited (n.setWidth 64))).run s := by rfl

variable (ty : Ty) (r : Res) (d : BitVec 8) (o : Order) (sc : Scope) (rc : Bool) (hint : BitVec 3) (a b : Src)

theorem head_ldg : Instr.head (.ldg h ty r o sc rc hint a b) = h :=
  Instr.head_of_raw (by rfl) ((withRes_head ..).trans (mk_head ..))

theorem head_stg : Instr.head (.stg h ty d o sc hint a b) = h := Instr.head_of_raw (by rfl) (mk_head ..)

theorem head_ldl : Instr.head (.ldl h ty r o sc a b) = h := Instr.head_of_raw (by rfl) ((withRes_head ..).trans (mk_head ..))

theorem head_stl : Instr.head (.stl h ty d o sc a b) = h := Instr.head_of_raw (by rfl) (mk_head ..)

theorem exec_ldg : exec (.ldg h ty r o sc rc hint a b) s = (instruction (.ldg h ty r o sc rc hint a b) h (fun e =>
    globalLoad e h ty r o sc hint a b (Instr.shape (.ldg h ty r o sc rc hint a b)))).run s := by rfl

theorem exec_stg : exec (.stg h ty d o sc hint a b) s = (instruction (.stg h ty d o sc hint a b) h (fun e =>
    globalStore e h ty o sc hint a b (Instr.shape (.stg h ty d o sc hint a b)))).run s := by rfl

theorem exec_ldl : exec (.ldl h ty r o sc a b) s = (instruction (.ldl h ty r o sc a b) h (fun e =>
    localLoad e h ty r o sc a b (Instr.shape (.ldl h ty r o sc a b)))).run s := by rfl

theorem exec_stl : exec (.stl h ty d o sc a b) s = (instruction (.stl h ty d o sc a b) h (fun e =>
    localStore e h ty o sc a b (Instr.shape (.stl h ty d o sc a b)))).run s := by rfl

end

/-! ### The statements -/

/-- Settles O22: it holds. `trap` and `sysc` are software traps; `bkpt` leaves the accumulator alone, and its EPC
at itself or, as the model has it (log entry 17), at the first member of its latch chain. -/
theorem softwareTrapsAreRaised : Obligations.SoftwareTrapsAreRaised := by
  unfold Obligations.SoftwareTrapsAreRaised
  intro s h n c t g l e
  rw [exec_trap, exec_sysc, exec_bkpt]
  exact ⟨fun hp hcan => hp.traps_softwareTrap hcan (head_trap h n) .trapn n,
    fun hp hcan => hp.traps_softwareTrap hcan (head_sysc h n) .sysc n, fun hp hcan => hp.traps_breakpoint hcan (head_bkpt h n) n⟩

/-- Settles O36: it holds. Each of the four forms checks the alignment next after its operands. -/
theorem misalignedAccessTraps : Obligations.MisalignedAccessTraps := by
  unfold Obligations.MisalignedAccessTraps
  intro s h ty r d o sc rc hint a b c t g l e
  simp only [exec_ldg, exec_stg, exec_ldl, exec_stl]
  refine ⟨fun hr hcan => hr.traps_misaligned hcan (head_ldg ..) ?_, fun hr hcan => hr.traps_misaligned hcan (head_stg ..) ?_,
    fun hr hcan => hr.traps_misaligned hcan (head_ldl ..) ?_, fun hr hcan => hr.traps_misaligned hcan (head_stl ..) ?_⟩
  all_goals exact fun hactive => ⟨_, if_neg (by simp [hactive])⟩

end Sys2Proof.Machine
end
